-- ==== Sys2Proof/Word.lean ====
section
/-! DEFINITION. The two value sizes of QRENC (spec/00_scope.md R15): a byte is 8 bits, every register is 32 bits and
holds an unsigned value. Sums, products and comparisons that a rule forms are on exact naturals (R16), so a value is
brought to `Nat` before a rule computes with it and narrowed once when it is written to a register. -/

namespace Sys2Proof

/-- One byte (R15). -/
abbrev Byte := BitVec 8

/-- One 32-bit register value or command word (R15). -/
abbrev Word := BitVec 32

end Sys2Proof
end

