-- ==== Sys2Proof/Syntax.lean ====
section
/-! DEFINITION. The 31 commands of the opcode map (spec/30_encoding.md R84), one constructor per row of
spec/opcode_table.json. An operand has exactly the width of its field of the command word (R81): `A` and `B` are 8
bits, the operand `I = B ++ A` of format I is 16 bits. The range checks of a command's own rule are not part of the
syntax: an operand outside its range is a legal encoding that raises BAD_OPERAND when it runs (R83). -/

namespace Sys2Proof

/-- A command of QRENC (R84). -/
inductive Instr where
  /-- 0x01 `CLEAR` -/
  | clear
  /-- 0x02 `GENERATE` -/
  | generate
  /-- 0x03 `MAXSZ v` -/
  | maxsz (v : Byte)
  /-- 0x10 `GFMUL a, b` -/
  | gfmul (a b : Byte)
  /-- 0x11 `GFDIV a, b` -/
  | gfdiv (a b : Byte)
  /-- 0x12 `GFINV a` -/
  | gfinv (a : Byte)
  /-- 0x13 `GFEXP i` -/
  | gfexp (i : Byte)
  /-- 0x14 `GFLOG a` -/
  | gflog (a : Byte)
  /-- 0x20 `VSET v` -/
  | vset (v : Byte)
  /-- 0x21 `VSEL` -/
  | vsel
  /-- 0x22 `VCAP v` -/
  | vcap (v : Byte)
  /-- 0x23 `VPAR v` -/
  | vpar (v : Byte)
  /-- 0x30 `PKINIT` -/
  | pkinit
  /-- 0x31 `PKBIN src` -/
  | pkbin (src : Byte)
  /-- 0x32 `PKNUM src` -/
  | pknum (src : Byte)
  /-- 0x33 `PKTERM` -/
  | pkterm
  /-- 0x40 `RSCLR` -/
  | rsclr
  /-- 0x41 `RSFEED d` -/
  | rsfeed (d : Byte)
  /-- 0x42 `RSBLK b` -/
  | rsblk (b : Byte)
  /-- 0x43 `RSALL` -/
  | rsall
  /-- 0x50 `MXINIT` -/
  | mxinit
  /-- 0x51 `MXFIND` -/
  | mxfind
  /-- 0x52 `MXTIME` -/
  | mxtime
  /-- 0x53 `MXALIGN` -/
  | mxalign
  /-- 0x54 `MXRSVD` -/
  | mxrsvd
  /-- 0x55 `MXDATA` -/
  | mxdata
  /-- 0x56 `MXFMT` -/
  | mxfmt
  /-- 0x57 `MXVER` -/
  | mxver
  /-- 0x58 `ILVRD i` -/
  | ilvrd (i : BitVec 16)
  /-- 0x59 `CLASS r, c` -/
  | cellclass (r c : Byte)
  /-- 0x60 `MASK` -/
  | mask
  deriving DecidableEq, Repr

end Sys2Proof
end

