-- ==== Sys2Proof/WellFormed.lean ====
section
/-! DEFINITION. What a well-formed command word and a well-formed command are (spec/30_encoding.md R81, R82, R86).
A word is well formed when its opcode is a row of the opcode map and every field that the row's format does not use is
zero; each of the four ways to fail has a check of its own. A command is well formed when each operand fits its field;
the operand types make that hold of every term of `Instr`, which `Instr.wellFormed_all` (Laws/Encoding.lean) records. -/

namespace Sys2Proof

/-- The four formats of R82. -/
inductive Format where
  | n
  | a
  | ab
  | i
  deriving DecidableEq, Repr

/-- The bits that must match (R82). -/
def Format.mask : Format → Word
  | .n => 0xFFFFFFFF#32
  | .a => 0xFFFF00FF#32
  | .ab => 0xFF0000FF#32
  | .i => 0xFF0000FF#32

/-- One row of the opcode map (R84): an opcode and its format. -/
structure OpRow where
  op : Byte
  format : Format
  deriving DecidableEq, Repr

/-- A word selects the row whose `(w AND mask) = match`; `match` is the opcode (R82). -/
def OpRow.selects (row : OpRow) (w : Word) : Bool :=
  w &&& row.format.mask == row.op.setWidth 32

/-- The row of R84 that each command stands for. -/
def Instr.row : Instr → OpRow
  | .clear => ⟨0x01#8, .n⟩
  | .generate => ⟨0x02#8, .n⟩
  | .maxsz _ => ⟨0x03#8, .a⟩
  | .gfmul _ _ => ⟨0x10#8, .ab⟩
  | .gfdiv _ _ => ⟨0x11#8, .ab⟩
  | .gfinv _ => ⟨0x12#8, .a⟩
  | .gfexp _ => ⟨0x13#8, .a⟩
  | .gflog _ => ⟨0x14#8, .a⟩
  | .vset _ => ⟨0x20#8, .a⟩
  | .vsel => ⟨0x21#8, .n⟩
  | .vcap _ => ⟨0x22#8, .a⟩
  | .vpar _ => ⟨0x23#8, .a⟩
  | .pkinit => ⟨0x30#8, .n⟩
  | .pkbin _ => ⟨0x31#8, .a⟩
  | .pknum _ => ⟨0x32#8, .a⟩
  | .pkterm => ⟨0x33#8, .n⟩
  | .rsclr => ⟨0x40#8, .n⟩
  | .rsfeed _ => ⟨0x41#8, .a⟩
  | .rsblk _ => ⟨0x42#8, .a⟩
  | .rsall => ⟨0x43#8, .n⟩
  | .mxinit => ⟨0x50#8, .n⟩
  | .mxfind => ⟨0x51#8, .n⟩
  | .mxtime => ⟨0x52#8, .n⟩
  | .mxalign => ⟨0x53#8, .n⟩
  | .mxrsvd => ⟨0x54#8, .n⟩
  | .mxdata => ⟨0x55#8, .n⟩
  | .mxfmt => ⟨0x56#8, .n⟩
  | .mxver => ⟨0x57#8, .n⟩
  | .ilvrd _ => ⟨0x58#8, .i⟩
  | .cellclass _ _ => ⟨0x59#8, .ab⟩
  | .mask => ⟨0x60#8, .n⟩

/-- The 31 rows of R84 in the table's order. -/
def opRows : List OpRow :=
  [⟨0x01#8, .n⟩, ⟨0x02#8, .n⟩, ⟨0x03#8, .a⟩] ++
  [⟨0x10#8, .ab⟩, ⟨0x11#8, .ab⟩, ⟨0x12#8, .a⟩, ⟨0x13#8, .a⟩, ⟨0x14#8, .a⟩] ++
  [⟨0x20#8, .a⟩, ⟨0x21#8, .n⟩, ⟨0x22#8, .a⟩, ⟨0x23#8, .a⟩] ++
  [⟨0x30#8, .n⟩, ⟨0x31#8, .a⟩, ⟨0x32#8, .a⟩, ⟨0x33#8, .n⟩] ++
  [⟨0x40#8, .n⟩, ⟨0x41#8, .a⟩, ⟨0x42#8, .a⟩, ⟨0x43#8, .n⟩] ++
  [⟨0x50#8, .n⟩, ⟨0x51#8, .n⟩, ⟨0x52#8, .n⟩, ⟨0x53#8, .n⟩, ⟨0x54#8, .n⟩] ++
  [⟨0x55#8, .n⟩, ⟨0x56#8, .n⟩, ⟨0x57#8, .n⟩, ⟨0x58#8, .i⟩, ⟨0x59#8, .ab⟩] ++
  [⟨0x60#8, .n⟩]

/-- A word is well formed when some row of the opcode map selects it (R82, R86). -/
def Word.wellFormed (w : Word) : Bool :=
  opRows.any fun row => row.selects w

/-- Each operand of a command fits its field of the command word (R81). -/
def Instr.wellFormed : Instr → Bool
  | .clear | .generate | .vsel | .pkinit | .pkterm | .rsclr | .rsall => true
  | .mxinit | .mxfind | .mxtime | .mxalign | .mxrsvd | .mxdata | .mxfmt | .mxver | .mask => true
  | .maxsz v | .vset v | .vcap v | .vpar v => v.toNat < 2 ^ 8
  | .gfinv a | .gfexp a | .gflog a => a.toNat < 2 ^ 8
  | .pkbin src | .pknum src => src.toNat < 2 ^ 8
  | .rsfeed d | .rsblk d => d.toNat < 2 ^ 8
  | .gfmul a b | .gfdiv a b | .cellclass a b => a.toNat < 2 ^ 8 && b.toNat < 2 ^ 8
  | .ilvrd i => i.toNat < 2 ^ 16

end Sys2Proof
end

