-- ==== Sys2Proof/Decode.lean ====
section
/-! DEFINITION. The decoder and the encoder of command words (spec/30_encoding.md R80 to R87). The decoder is total on
all 2^32 words and rejects by name; every rejection is the fault ILLEGAL_CMD (R86). The encoder is written from the
assembly rule of R88. -/

namespace Sys2Proof

/-- `OP` = bits 7:0 (R81). -/
def opField (w : Word) : Byte := w.extractLsb' 0 8

/-- `A` = bits 15:8 (R81, R83). -/
def aField (w : Word) : Byte := w.extractLsb' 8 8

/-- `B` = bits 23:16 (R81, R83). -/
def bField (w : Word) : Byte := w.extractLsb' 16 8

/-- `Z` = bits 31:24, which must be 0 in every format (R81). -/
def zField (w : Word) : Byte := w.extractLsb' 24 8

/-- `I = B ++ A` = bits 23:8 (R81, R83). -/
def iField (w : Word) : BitVec 16 := w.extractLsb' 8 16

/-- Why a word is no command (R86). All four are ILLEGAL_CMD; the block does not show which one it was. DESIGN CHOICE,
safe (notes/assumptions/15.md). -/
inductive Illegal where
  /-- the opcode is not in the map -/
  | unassignedOp (op : Byte)
  /-- bits 31:24 are not zero -/
  | nonzeroZ
  /-- format N or A with bits 23:16 not zero -/
  | nonzeroB
  /-- format N with bits 15:8 not zero -/
  | nonzeroA
  deriving DecidableEq, Repr

/-- Format N: A, B and Z must be zero (R82). -/
def decodeN (w : Word) (i : Instr) : Except Illegal Instr :=
  if zField w ≠ 0 then .error .nonzeroZ
  else if bField w ≠ 0 then .error .nonzeroB
  else if aField w ≠ 0 then .error .nonzeroA
  else .ok i

/-- Format A: B and Z must be zero (R82). -/
def decodeA (w : Word) (mk : Byte → Instr) : Except Illegal Instr :=
  if zField w ≠ 0 then .error .nonzeroZ
  else if bField w ≠ 0 then .error .nonzeroB
  else .ok (mk (aField w))

/-- Format AB: Z must be zero (R82). -/
def decodeAB (w : Word) (mk : Byte → Byte → Instr) : Except Illegal Instr :=
  if zField w ≠ 0 then .error .nonzeroZ
  else .ok (mk (aField w) (bField w))

/-- Format I: Z must be zero (R82). -/
def decodeI (w : Word) (mk : BitVec 16 → Instr) : Except Illegal Instr :=
  if zField w ≠ 0 then .error .nonzeroZ
  else .ok (mk (iField w))

/-- The decoder (R80, R82, R84): the opcode map, one line per row. -/
def decode (w : Word) : Except Illegal Instr :=
  match (opField w).toNat with
  | 0x01 => decodeN w .clear
  | 0x02 => decodeN w .generate
  | 0x03 => decodeA w .maxsz
  | 0x10 => decodeAB w .gfmul
  | 0x11 => decodeAB w .gfdiv
  | 0x12 => decodeA w .gfinv
  | 0x13 => decodeA w .gfexp
  | 0x14 => decodeA w .gflog
  | 0x20 => decodeA w .vset
  | 0x21 => decodeN w .vsel
  | 0x22 => decodeA w .vcap
  | 0x23 => decodeA w .vpar
  | 0x30 => decodeN w .pkinit
  | 0x31 => decodeA w .pkbin
  | 0x32 => decodeA w .pknum
  | 0x33 => decodeN w .pkterm
  | 0x40 => decodeN w .rsclr
  | 0x41 => decodeA w .rsfeed
  | 0x42 => decodeA w .rsblk
  | 0x43 => decodeN w .rsall
  | 0x50 => decodeN w .mxinit
  | 0x51 => decodeN w .mxfind
  | 0x52 => decodeN w .mxtime
  | 0x53 => decodeN w .mxalign
  | 0x54 => decodeN w .mxrsvd
  | 0x55 => decodeN w .mxdata
  | 0x56 => decodeN w .mxfmt
  | 0x57 => decodeN w .mxver
  | 0x58 => decodeI w .ilvrd
  | 0x59 => decodeAB w .cellclass
  | 0x60 => decodeN w .mask
  | _ => .error (.unassignedOp (opField w))

/-- `OP OR (A << 8) OR (B << 16)` (R88). -/
def assembleAB (op a b : Byte) : Word :=
  op.setWidth 32 ||| (a.setWidth 32 <<< 8) ||| (b.setWidth 32 <<< 16)

/-- `OP OR (I << 8)`, format I (R88). -/
def assembleI (op : Byte) (i : BitVec 16) : Word :=
  op.setWidth 32 ||| (i.setWidth 32 <<< 8)

/-- The encoder: the one word of a command (R84, R88). -/
def encode : Instr → Word
  | .clear => assembleAB 0x01#8 0 0
  | .generate => assembleAB 0x02#8 0 0
  | .maxsz v => assembleAB 0x03#8 v 0
  | .gfmul a b => assembleAB 0x10#8 a b
  | .gfdiv a b => assembleAB 0x11#8 a b
  | .gfinv a => assembleAB 0x12#8 a 0
  | .gfexp i => assembleAB 0x13#8 i 0
  | .gflog a => assembleAB 0x14#8 a 0
  | .vset v => assembleAB 0x20#8 v 0
  | .vsel => assembleAB 0x21#8 0 0
  | .vcap v => assembleAB 0x22#8 v 0
  | .vpar v => assembleAB 0x23#8 v 0
  | .pkinit => assembleAB 0x30#8 0 0
  | .pkbin src => assembleAB 0x31#8 src 0
  | .pknum src => assembleAB 0x32#8 src 0
  | .pkterm => assembleAB 0x33#8 0 0
  | .rsclr => assembleAB 0x40#8 0 0
  | .rsfeed d => assembleAB 0x41#8 d 0
  | .rsblk b => assembleAB 0x42#8 b 0
  | .rsall => assembleAB 0x43#8 0 0
  | .mxinit => assembleAB 0x50#8 0 0
  | .mxfind => assembleAB 0x51#8 0 0
  | .mxtime => assembleAB 0x52#8 0 0
  | .mxalign => assembleAB 0x53#8 0 0
  | .mxrsvd => assembleAB 0x54#8 0 0
  | .mxdata => assembleAB 0x55#8 0 0
  | .mxfmt => assembleAB 0x56#8 0 0
  | .mxver => assembleAB 0x57#8 0 0
  | .ilvrd i => assembleI 0x58#8 i
  | .cellclass r c => assembleAB 0x59#8 r c
  | .mask => assembleAB 0x60#8 0 0

/-- The low `nbits` bits of `w` as one command word; a command word is 32 bits, so the bits above are zero. -/
def tableWord (nbits w : Nat) : Word :=
  BitVec.ofNat 32 (w % 2 ^ nbits)

/-- The command the decoder reads from the word whose bits are `w`, numbered as spec/opcode_table.json numbers them. -/
def decodeTableWord (nbits w : Nat) : Option Instr :=
  (decode (tableWord nbits w)).toOption

end Sys2Proof
end

