-- ==== Sys2Proof/Config.lean ====
section
/-! DEFINITION. The fixed parameters of the hardware (spec/00_scope.md R8, R9), and the one free value: what the host reads
from a memory byte that nothing has written (spec/20_memory.md R54, spec/70_reset_and_hazards.md R321). No command has an
undefined result (R327); the spec's two open parameters (the host bus, D2, and the number of cycles of a command, D34)
have no effect on any state and are left out. -/

namespace Sys2Proof.Config

/-- `VMIN`, the smallest version (R8). -/
def vMin : Nat := 1

/-- `VMAX`, the largest version, and the bound of the version scan (R8). -/
def vMax : Nat := 40

/-- `MAX_EC`: the remainder register has this many bytes (R8). -/
abbrev maxEc : Nat := 30

/-- `OUT_MIN`: the smallest `OUT_SIZE` that GENERATE accepts (R9, R271). -/
def outMin : Nat := 4071

/-- `TMP_MIN`: the smallest `TMP_SIZE` that GENERATE accepts (R9, R271). -/
def tmpMin : Nat := 3706

/-- Every memory index fits in 32 bits (spec/20_memory.md R50). -/
def indexBound : Nat := 2 ^ 32

/-- The free value: the byte that stands, after `resets` hard resets, at index `a` of the memory space with number `space`
and has not been written since (spec/10_state.md R46, spec/20_memory.md R54, spec/70_reset_and_hazards.md R321: each byte is
an arbitrary value). Nothing is known of it, but that a second read finds the same byte (R63). -/
opaque unwrittenByte (resets space a : Nat) : Byte

/-- The register window has this many word slots (spec/10_state.md R21). -/
def regSlots : Nat := 64

end Sys2Proof.Config
end

