-- ==== Sys2Proof/Machine/State.lean ====
section
/-! DEFINITION. The architectural state of QRENC (spec/10_state.md R20 to R46, spec/20_memory.md R50), the actions of the
host (spec/00_scope.md R13), the reasons a step can stop, and the state after hard reset. Everything is plain data. -/

namespace Sys2Proof.Machine

/-- `STATUS.PHASE`: the 14 positions of the pipeline (R27). Values 14 and 15 never occur. -/
inductive Phase where
  | idle
  | versioned
  | packing
  | packed
  | coded
  | blank
  | finders
  | timing
  | aligned
  | reserved
  | placed
  | formatted
  | versionInfo
  | done
  deriving DecidableEq, Repr

/-- The number of a phase (R27). -/
def Phase.toNat : Phase → Nat
  | .idle => 0
  | .versioned => 1
  | .packing => 2
  | .packed => 3
  | .coded => 4
  | .blank => 5
  | .finders => 6
  | .timing => 7
  | .aligned => 8
  | .reserved => 9
  | .placed => 10
  | .formatted => 11
  | .versionInfo => 12
  | .done => 13

/-- The eight faults that a command can take (spec/60_exceptions.md R292). -/
inductive FaultCode where
  | bufferTooSmall
  | inputTooLarge
  | internal
  | illegalCmd
  | badOperand
  | gfDomain
  | sequence
  | badDigit
  deriving DecidableEq, Repr

/-- The value written to `STATUS.ERRCODE` (R292). -/
def FaultCode.toNat : FaultCode → Nat
  | .bufferTooSmall => 1
  | .inputTooLarge => 2
  | .internal => 3
  | .illegalCmd => 4
  | .badOperand => 5
  | .gfDomain => 6
  | .sequence => 7
  | .badDigit => 8

/-- The four byte-addressed memory spaces that change (R50). ROM is the fifth; its tables are definitions. -/
inductive Space where
  | url
  | data
  | tmp
  | out
  deriving DecidableEq, Repr

/-- The number of a memory space, in the order of the table of R50. -/
def Space.toNat : Space → Nat
  | .url => 0
  | .data => 1
  | .tmp => 2
  | .out => 3

/-- One memory space: the bytes written since hard reset, as (index, byte) pairs with strictly rising indexes. An index
that is not listed holds a byte of which nothing is known (R54). -/
abbrev Memory := List Host.Cell

/-- What the host may do between commands (spec/00_scope.md R13, spec/70_reset_and_hazards.md R320). A write of register 0
(`CMD`) starts a command. -/
inductive HostAction where
  /-- write the 32-bit word `w` to register number `n` -/
  | writeReg (n : Nat) (w : Word)
  /-- read register number `n` -/
  | readReg (n : Nat)
  /-- write one byte of a memory space -/
  | writeMem (sp : Space) (a : Nat) (b : Byte)
  /-- read one byte of a memory space -/
  | readMem (sp : Space) (a : Nat)
  /-- assert the block's reset input -/
  | hardReset
  deriving DecidableEq, Repr

/-- Why the machine stops. No spec fault is here: a spec fault is a next state (spec/60_exceptions.md R296). -/
inductive Fault where
  /-- A command reads a byte of URL, DATA, TMP or OUT that nothing has written since hard reset. Safe: the spec calls it a
  fault of the launch premises (R54), and the hardware goes on with some byte. A host read of such a byte is no fault. -/
  | unwritten (sp : Space) (a : Nat)
  /-- The host names a memory index that does not fit in 32 bits (R50). Safe: no such location exists. -/
  | noSuchIndex (sp : Space) (a : Nat)
  deriving DecidableEq, Repr

/-- Why the model gives an action no meaning. -/
inductive Refusal where
  /-- An arm of `exec` without a meaning. No arm uses it: every command has its meaning. Safe. -/
  | notModelled (mnemonic : String)
  /-- The host accesses a register number above 63, which the spec leaves to the platform bus (R22). Safe. -/
  | outsideWindow (n : Nat)
  deriving DecidableEq, Repr

/-- The architectural state (R20, R21), and below it three fields of the model's own: two that stand for the host, and
a count that tells the arbitrary bytes of one reset from those of the next. -/
structure State where
  /-- `CMD`, register 0 (R25) -/
  cmd : Word
  /-- `STATUS.ERR`, bit 0 (R26) -/
  err : Bool
  /-- `STATUS.FATAL`, bit 1 (R26) -/
  fatal : Bool
  /-- `STATUS.ERRCODE`, bits 7:4; `none` is code 0 (R26, R292) -/
  errCode : Option FaultCode
  /-- `STATUS.PHASE`, bits 11:8 (R27) -/
  phase : Phase
  /-- `RESULT`, register 2 (R28) -/
  result : Word
  /-- `VERSION`, register 3, bits 5:0 (R29) -/
  version : BitVec 6
  /-- `BITLEN`, register 4 (R30) -/
  bitLen : Word
  /-- `RSNEXT`, register 5 (R31) -/
  rsNext : Word
  /-- `CTRL.UP`, register 6 bit 0 (R32) -/
  up : Bool
  /-- `URL_LEN`, register 7 (R33) -/
  urlLen : Word
  /-- `DATA_LEN`, register 8 (R33) -/
  dataLen : Word
  /-- `OUT_SIZE`, register 9 (R34) -/
  outSize : Word
  /-- `TMP_SIZE`, register 10 (R34) -/
  tmpSize : Word
  /-- `REM0` to `REM29`, registers 16 to 45, bits 7:0 of each (R23) -/
  rem : Vector Byte Config.maxEc
  /-- the URL space (R50) -/
  url : Memory
  /-- the DATA space (R50) -/
  data : Memory
  /-- the TMP space (R50) -/
  tmp : Memory
  /-- the OUT space (R50) -/
  out : Memory
  /-- the model's own: what the host will do, first action first. DESIGN CHOICE, safe (notes/assumptions/1.md) -/
  host : List HostAction
  /-- the model's own: the value that the host's last read returned. DESIGN CHOICE, unsafe (notes/assumptions/5.md) -/
  hostRead : Word
  /-- the model's own: how many hard resets there have been since power-on; only `Config.unwrittenByte` is applied to it.
  DESIGN CHOICE, safe (notes/assumptions/22.md) -/
  resets : Nat
  deriving DecidableEq, Repr

/-- Power-on: every register is 0 and no memory byte has been written (R46, R54). No host action is waiting. -/
def State.reset : State where
  cmd := 0
  err := false
  fatal := false
  errCode := none
  phase := .idle
  result := 0
  version := 0
  bitLen := 0
  rsNext := 0
  up := false
  urlLen := 0
  dataLen := 0
  outSize := 0
  tmpSize := 0
  rem := Vector.replicate Config.maxEc 0
  url := []
  data := []
  tmp := []
  out := []
  host := []
  hostRead := 0
  resets := 0

end Sys2Proof.Machine
end

