-- ==== Sys2Proof/Machine/Flags.lean ====
section
/-! DEFINITION. The two flags `ERR` and `FATAL`, the error code beside them, and the word that a read of STATUS gives
(spec/10_state.md R26, R35; spec/60_exceptions.md R296, R297). No command sets an arithmetic condition code (R35). -/

namespace Sys2Proof.Machine

/-- The value of `STATUS.ERRCODE`: 0 when no fault is held (R26, R292). -/
def errCodeNat : Option FaultCode → Nat
  | none => 0
  | some c => c.toNat

/-- `STATUS` as the host reads it: bits 31:12 zero, PHASE 11:8, ERRCODE 7:4, bits 3:2 zero, FATAL 1, ERR 0 (R26). -/
def State.statusWord (s : State) : Word :=
  0#20 ++ BitVec.ofNat 4 s.phase.toNat ++ BitVec.ofNat 4 (errCodeNat s.errCode) ++ 0#2 ++ BitVec.ofBool s.fatal ++
    BitVec.ofBool s.err

/-- Lock-out: a write of CMD starts nothing but, at most, CLEAR (R297). -/
def State.lockedOut (s : State) : Bool :=
  s.err || s.fatal

/-- The flags when fault `c` is taken: ERR is set, ERRCODE names the fault, INTERNAL also sets FATAL (R296). -/
def State.setFaultFlags (s : State) (c : FaultCode) : State :=
  { s with err := true, errCode := some c, fatal := s.fatal || c == .internal }

/-- The flags after CLEAR: ERR and ERRCODE drop, FATAL is not touched (spec/47_generator.md R276). -/
def State.dropFaultFlags (s : State) : State :=
  { s with err := false, errCode := none }

end Sys2Proof.Machine
end

