-- ==== Sys2Proof/Machine/Ops.lean ====
section
/-! DEFINITION. The operations that every command shares: one byte of a memory space (spec/20_memory.md R50 to R63), the
module bits of the bitmap in OUT (R59), the register window (spec/10_state.md R21), taking a fault and the return from
one (spec/60_exceptions.md R296, R298), and the shape of a command's body, which either completes, raises a fault of the
spec, or stops on a byte that has no value. -/

namespace Sys2Proof.Machine

/-! ### Bytes of a memory space -/

/-- What an index that nothing has written since hard reset reads as: no value that is known (R54). DEDUCED, safe
(notes/assumptions/2.md). -/
def Memory.unlisted : Option Byte := none

/-- The byte at index `a` (R50). -/
def Memory.read : Memory → Nat → Option Byte
  | [], _ => Memory.unlisted
  | (k, x) :: m, a => if a = k then some x else Memory.read m a

/-- Write byte `x` at index `a` (R50). The list stays in rising order of indexes. -/
def Memory.write : Memory → Nat → Byte → Memory
  | [], a, x => [(a, x)]
  | (k, y) :: m, a, x =>
    if a < k then (a, x) :: (k, y) :: m
    else if a = k then (a, x) :: m
    else (k, y) :: Memory.write m a x

/-- The canonical form: indexes rise strictly and fit in 32 bits. An unlisted index has no value, so no entry can equal
what an unlisted index reads as. -/
abbrev Memory.wf (m : Memory) : Prop :=
  m.Pairwise (fun x y => x.1 < y.1) ∧ ∀ x ∈ m, x.1 < Config.indexBound

/-- The byte at index `a` of space `sp`, or the stop on a byte that has no value (R54). -/
def Memory.fetch (sp : Space) (m : Memory) (a : Nat) : Except Fault Byte :=
  match m.read a with
  | some x => .ok x
  | none => .error (.unwritten sp a)

/-- The bytes at the listed indexes, in the list's order. -/
def Memory.fetchAll (sp : Space) (m : Memory) : List Nat → Except Fault (List Byte)
  | [] => .ok []
  | a :: rest =>
    match m.fetch sp a with
    | .error f => .error f
    | .ok x =>
      match Memory.fetchAll sp m rest with
      | .error f => .error f
      | .ok xs => .ok (x :: xs)

/-- Write the bytes `xs` at `a`, `a + 1`, ... in that order. -/
def Memory.writeRun (m : Memory) (a : Nat) : List Byte → Memory
  | [] => m
  | x :: xs => Memory.writeRun (m.write a x) (a + 1) xs

/-- The memory space named `sp` (R50, R51: four separate spaces). -/
def State.mem (s : State) : Space → Memory
  | .url => s.url
  | .data => s.data
  | .tmp => s.tmp
  | .out => s.out

/-- The byte that stands at index `a` of space `sp`: the one last written there, or the free value of `Config` (R54). -/
def State.hostByte (s : State) (sp : Space) (a : Nat) : Byte :=
  match (s.mem sp).read a with
  | some x => x
  | none => Config.unwrittenByte s.resets sp.toNat a

/-- Replace the memory space named `sp`. -/
def State.setMem (s : State) (sp : Space) (m : Memory) : State :=
  match sp with
  | .url => { s with url := m }
  | .data => { s with data := m }
  | .tmp => { s with tmp := m }
  | .out => { s with out := m }

/-! ### Modules of the bitmap in OUT -/

/-- `0x80 >> (c mod 8)`: the bit of a row byte that holds column `c` (R59). -/
def moduleBit (c : Nat) : Byte :=
  0x80#8 >>> (c % 8)

/-- `A(r,c) = r * stride + (c div 8)` (R59). -/
def moduleIndex (stride r c : Nat) : Nat :=
  r * stride + c / 8

/-- `GetM` on the byte that holds column `c`: bit `7 - (c mod 8)` (R59). -/
def byteModule (x : Byte) (c : Nat) : Bool :=
  x.getLsbD (7 - c % 8)

/-- The byte that `SetM` writes back: the other seven bits stay (R59). -/
def setByteModule (x : Byte) (c : Nat) (b : Bool) : Byte :=
  (x &&& ~~~(moduleBit c)) ||| (if b then moduleBit c else 0)

/-- `GetM(r,c)` (R59). -/
def getM (m : Memory) (stride r c : Nat) : Except Fault Bool :=
  match m.fetch .out (moduleIndex stride r c) with
  | .error f => .error f
  | .ok x => .ok (byteModule x c)

/-- The module at row r, column c, or no value when its byte has none. -/
def moduleAt (m : Memory) (stride r c : Nat) : Option Bool :=
  (m.read (moduleIndex stride r c)).map fun x => byteModule x c

/-- `SetM(r,c,b)`: a read, modify, write of one byte of OUT (R59, R63). -/
def setM (m : Memory) (stride r c : Nat) (b : Bool) : Except Fault Memory :=
  match m.fetch .out (moduleIndex stride r c) with
  | .error f => .error f
  | .ok x => .ok (m.write (moduleIndex stride r c) (setByteModule x c b))

/-- One module to be written: row, column, and the bit (1 = dark). -/
structure Plot where
  r : Nat
  c : Nat
  bit : Bool
  deriving DecidableEq, Repr

/-- `SetM` for each listed module, in the list's order. -/
def plotAll (stride : Nat) : Memory → List Plot → Except Fault Memory
  | m, [] => .ok m
  | m, p :: ps =>
    match setM m stride p.r p.c p.bit with
    | .error f => .error f
    | .ok m' => plotAll stride m' ps

/-- `SetM(r, c, GetM(r, c) XOR 1)` for each listed cell, in the list's order (spec/46_masker.md R261). -/
def flipAll (stride : Nat) : Memory → List (Nat × Nat) → Except Fault Memory
  | m, [] => .ok m
  | m, rc :: rest =>
    match getM m stride rc.1 rc.2 with
    | .error f => .error f
    | .ok b =>
      match setM m stride rc.1 rc.2 (!b) with
      | .error f => .error f
      | .ok m' => flipAll stride m' rest

/-! ### The remainder register -/

/-- `REM[i]`; an index above 29 names no byte and reads 0 (R23). DESIGN CHOICE, unsafe
(notes/assumptions/7.md). -/
def remAt (rem : Vector Byte Config.maxEc) (i : Nat) : Byte :=
  rem[i]?.getD 0

/-- All 30 remainder bytes 0. -/
def remZero : Vector Byte Config.maxEc :=
  Vector.replicate Config.maxEc 0

/-! ### Taking a fault and the return from one -/

/-- Taking fault `c` (R296): the flags of `setFaultFlags`, and RESULT becomes 0. Nothing else is written: PHASE stays, no
address is saved, control goes nowhere. -/
def State.takeFault (s : State) (c : FaultCode) : State :=
  { s.setFaultFlags c with result := 0 }

/-- The return from a fault is what CLEAR does (R298, spec/47_generator.md R276): the block is idle again, the
registers that the host writes and all memories stay. All 30 bytes of REM are cleared, as R276 writes, although
spec/10_state.md R23 says that only RSCLR writes REM[k .. 29]. DESIGN CHOICE, unsafe (notes/assumptions/24.md). -/
def State.clearFault (s : State) : State :=
  { s.dropFaultFlags with
    phase := .idle
    version := 0
    bitLen := 0
    rsNext := 0
    rem := remZero
    result := 0 }

/-! ### The body of a command -/

/-- How a command's body ends when it does not complete. -/
inductive Stop where
  /-- the rule raises fault `c`; `s` is the state the fault is taken in (R295: the state before the command, but for a
  fault inside GENERATE, which keeps the steps that completed) -/
  | raise (c : FaultCode) (s : State)
  /-- a byte that has no value is read (R54) -/
  | halt (f : Fault)
  deriving DecidableEq, Repr

/-- The body of a command from a given state. -/
abbrev Attempt := Except Stop State

/-- `require c else raise F` (spec/00_scope.md R17). -/
def require (c : Prop) [Decidable c] (f : FaultCode) (s : State) : Except Stop Unit :=
  if c then .ok () else .error (.raise f s)

/-- Memory work inside a body. -/
def orHalt {α : Type} : Except Fault α → Except Stop α
  | .ok x => .ok x
  | .error f => .error (.halt f)

/-- What a body's end means for the machine: a raised fault is taken (R296). -/
def finish : Attempt → Host.Outcome State Fault Refusal
  | .ok s => .next s
  | .error (.raise c s) => .next (s.takeFault c)
  | .error (.halt f) => .fault f

/-! ### The register window -/

/-- What a host read of register `n` returns (R21, R22): reserved slots read 0, a number above 63 is no register. -/
def State.readReg (s : State) (n : Nat) : Option Word :=
  if n = 0 then some s.cmd
  else if n = 1 then some s.statusWord
  else if n = 2 then some s.result
  else if n = 3 then some (s.version.setWidth 32)
  else if n = 4 then some s.bitLen
  else if n = 5 then some s.rsNext
  else if n = 6 then some (if s.up then 1 else 0)
  else if n = 7 then some s.urlLen
  else if n = 8 then some s.dataLen
  else if n = 9 then some s.outSize
  else if n = 10 then some s.tmpSize
  else if 16 ≤ n ∧ n ≤ 45 then some ((remAt s.rem (n - 16)).setWidth 32)
  else if n < Config.regSlots then some 0
  else none

/-- What a host write to a register other than CMD does (R21, R32): CTRL keeps only bit 0, the four length and size
registers keep all 32 bits, every other register of the window ignores the write. -/
def State.writeReg (s : State) (n : Nat) (w : Word) : State :=
  if n = 6 then { s with up := w.getLsbD 0 }
  else if n = 7 then { s with urlLen := w }
  else if n = 8 then { s with dataLen := w }
  else if n = 9 then { s with outSize := w }
  else if n = 10 then { s with tmpSize := w }
  else s

/-- VERSION as a natural number. -/
def State.v (s : State) : Nat := s.version.toNat

/-- RESULT takes a natural number that every rule keeps below 2^32 (R28). DESIGN CHOICE, unsafe (notes/assumptions/14.md). -/
def State.withResult (s : State) (n : Nat) : State :=
  { s with result := BitVec.ofNat 32 n }

end Sys2Proof.Machine
end

