-- ==== Sys2Proof/Machine/Operands.lean ====
section
/-! DEFINITION. The operands of commands after decoding (spec/30_encoding.md R83): a version, a segment source, and the
segment list that the selector and GENERATE read from registers (spec/42_segment_packer.md R150, spec/43_version_selector.md
R180). The fields of the command word themselves are cut out in Decode.lean. -/

namespace Sys2Proof.Machine

/-- The two segment modes (spec/00_scope.md R3, R150). -/
inductive Mode where
  | numeric
  | binary
  deriving DecidableEq, Repr

/-- A version operand is legal when it is 1 to 40 (R83). -/
abbrev versionOk (v : Byte) : Prop :=
  Config.vMin ≤ v.toNat ∧ v.toNat ≤ Config.vMax

/-- The space a `src` operand names: 0 is URL, 1 is DATA (R150). -/
def sourceSpace (src : Byte) : Space :=
  if src = 0 then .url else .data

/-- The byte length of the source a `src` operand names (R150, spec/42_segment_packer.md R157, R160): source 0 is measured
by URL_LEN whatever UP is, as R157, R160 and vector V3 have it, although spec/10_state.md R33 says that URL_LEN is read only
when UP = 1 and by MAXSZ. DESIGN CHOICE, unsafe (notes/assumptions/21.md). -/
def State.sourceLen (s : State) (src : Byte) : Nat :=
  if src = 0 then s.urlLen.toNat else s.dataLen.toNat

/-- The source bytes of a segment, index 0 first (R157, R160). -/
def State.sourceBytes (s : State) (src : Byte) : Except Fault (List Byte) :=
  (s.mem (sourceSpace src)).fetchAll (sourceSpace src) (List.range (s.sourceLen src))

/-- The segment list, as modes and byte lengths (R180). Presence of a URL is the flag, not the length. -/
def State.segments (s : State) : List (Mode × Nat) :=
  if s.up then [(.binary, s.urlLen.toNat), (.numeric, s.dataLen.toNat)]
  else [(.binary, s.dataLen.toNat)]

end Sys2Proof.Machine
end

