-- ==== Sys2Proof/Machine/Catalog.lean ====
section
/-! DEFINITION. The Version Catalog, the derived functions of a version, and the catalog commands
(spec/41_version_catalog.md; spec/00_scope.md R18; block addresses: spec/20_memory.md R56). -/

namespace Sys2Proof.Machine

/-- A catalog row: ECC codewords per block, blocks in group 1, group-1 block size, blocks in group 2 (R130). -/
structure CatRow where
  k : Nat
  g1b : Nat
  g1s : Nat
  g2b : Nat
  deriving DecidableEq, Repr

/-- The 40 rows, version 1 first (R131). -/
def catalogRows : List CatRow :=
  [⟨7, 1, 19, 0⟩, ⟨10, 1, 34, 0⟩, ⟨15, 1, 55, 0⟩, ⟨20, 1, 80, 0⟩] ++
  [⟨26, 1, 108, 0⟩, ⟨18, 2, 68, 0⟩, ⟨20, 2, 78, 0⟩, ⟨24, 2, 97, 0⟩] ++
  [⟨30, 2, 116, 0⟩, ⟨18, 2, 68, 2⟩, ⟨20, 4, 81, 0⟩, ⟨24, 2, 92, 2⟩] ++
  [⟨26, 4, 107, 0⟩, ⟨30, 3, 115, 1⟩, ⟨22, 5, 87, 1⟩, ⟨24, 5, 98, 1⟩] ++
  [⟨28, 1, 107, 5⟩, ⟨30, 5, 120, 1⟩, ⟨28, 3, 113, 4⟩, ⟨28, 3, 107, 5⟩] ++
  [⟨28, 4, 116, 4⟩, ⟨28, 2, 111, 7⟩, ⟨30, 4, 121, 5⟩, ⟨30, 6, 117, 4⟩] ++
  [⟨26, 8, 106, 4⟩, ⟨28, 10, 114, 2⟩, ⟨30, 8, 122, 4⟩, ⟨30, 3, 117, 10⟩] ++
  [⟨30, 7, 116, 7⟩, ⟨30, 5, 115, 10⟩, ⟨30, 13, 115, 3⟩, ⟨30, 17, 115, 0⟩] ++
  [⟨30, 17, 115, 1⟩, ⟨30, 13, 115, 6⟩, ⟨30, 12, 121, 7⟩, ⟨30, 6, 121, 14⟩] ++
  [⟨30, 17, 122, 4⟩, ⟨30, 4, 122, 18⟩, ⟨30, 20, 117, 4⟩, ⟨30, 19, 118, 6⟩]

/-- `cat(v)` (R131). The catalog has no row outside 1..40, and no command asks for one in a state with `PHASE >= 1` and
`VERSION` in 1..40; the row of zeros makes the function total. DESIGN CHOICE, unsafe in states that no run
reaches (notes/assumptions/7.md). -/
def cat : Nat → CatRow
  | 0 => ⟨0, 0, 0, 0⟩
  | v + 1 => catalogRows.getD v ⟨0, 0, 0, 0⟩

/-- `width(v) = 4*v + 17` (R18). -/
def width (v : Nat) : Nat := 4 * v + 17

/-- `stride(v) = ceil(width(v) / 8)` (R18). -/
def stride (v : Nat) : Nat := (width v + 7) / 8

/-- `cap(v) = g1b*g1s + g2b*(g1s+1)`: data capacity in bytes (R18). -/
def cap (v : Nat) : Nat := (cat v).g1b * (cat v).g1s + (cat v).g2b * ((cat v).g1s + 1)

/-- `nblk(v) = g1b + g2b` (R18). -/
def nblk (v : Nat) : Nat := (cat v).g1b + (cat v).g2b

/-- `tot(v) = cap(v) + k * nblk(v)`: all codewords (R18). -/
def tot (v : Nat) : Nat := cap v + (cat v).k * nblk v

/-- `img(v) = stride(v) * width(v)`: bitmap bytes (R18). -/
def img (v : Nat) : Nat := stride v * width v

/-- `BlkLen(v,b)` (R56). -/
def blkLen (v b : Nat) : Nat :=
  if b < (cat v).g1b then (cat v).g1s else (cat v).g1s + 1

/-- `BlkOff(v,b)` (R56). -/
def blkOff (v b : Nat) : Nat :=
  if b < (cat v).g1b then b * (cat v).g1s
  else (cat v).g1b * (cat v).g1s + (b - (cat v).g1b) * ((cat v).g1s + 1)

/-- `EccOff(v,b) = cap(v) + k * b` (R56). -/
def eccOff (v b : Nat) : Nat := cap v + (cat v).k * b

/-- The packed catalog row of VPAR: `k OR (g1b << 8) OR (g1s << 16) OR (g2b << 24)` (R136). -/
def vparWord (row : CatRow) : Nat :=
  row.k ||| (row.g1b <<< 8) ||| (row.g1s <<< 16) ||| (row.g2b <<< 24)

/-- `VSET v` (R134): any phase. -/
def doVset (v : Byte) (s : State) : Attempt := do
  require (versionOk v) .badOperand s
  .ok ({ s with version := v.setWidth 6, phase := .versioned }.withResult v.toNat)

/-- `VCAP v` (R135): any phase. -/
def doVcap (v : Byte) (s : State) : Attempt := do
  require (versionOk v) .badOperand s
  .ok (s.withResult (cap v.toNat))

/-- `VPAR v` (R136): any phase. -/
def doVpar (v : Byte) (s : State) : Attempt := do
  require (versionOk v) .badOperand s
  .ok (s.withResult (vparWord (cat v.toNat)))

/-- `VSET v` (R134). -/
def execVset (v : Byte) (s : State) : Host.Outcome State Fault Refusal :=
  finish (doVset v s)

/-- `VCAP v` (R135). -/
def execVcap (v : Byte) (s : State) : Host.Outcome State Fault Refusal :=
  finish (doVcap v s)

/-- `VPAR v` (R136). -/
def execVpar (v : Byte) (s : State) : Host.Outcome State Fault Refusal :=
  finish (doVpar v s)

end Sys2Proof.Machine
end

