-- ==== Sys2Proof/Machine/Matrix.lean ====
section
/-! DEFINITION. The matrix builder (spec/45_matrix_builder.md): MXINIT, MXFIND, MXTIME, MXALIGN, MXRSVD, MXDATA, MXFMT,
MXVER, ILVRD, CLASS. Each step is written as the list of modules it writes, in the order of its rule, and the shared
operation `plotAll` writes them. -/

namespace Sys2Proof.Machine

/-! ### Geometry -/

/-- `|a - b|`. -/
def absDiff (a b : Nat) : Nat := (a - b) + (b - a)

/-- The alignment coordinate lists, version 1 first (R219). -/
def alignRows : List (List Nat) :=
  [[], [6, 18], [6, 22], [6, 26], [6, 30]] ++
  [[6, 34], [6, 22, 38], [6, 24, 42], [6, 26, 46], [6, 28, 50]] ++
  [[6, 30, 54], [6, 32, 58], [6, 34, 62], [6, 26, 46, 66], [6, 26, 48, 70]] ++
  [[6, 26, 50, 74], [6, 30, 54, 78], [6, 30, 56, 82], [6, 30, 58, 86], [6, 34, 62, 90]] ++
  [[6, 28, 50, 72, 94], [6, 26, 50, 74, 98], [6, 30, 54, 78, 102], [6, 28, 54, 80, 106], [6, 32, 58, 84, 110]] ++
  [[6, 30, 58, 86, 114], [6, 34, 62, 90, 118], [6, 26, 50, 74, 98, 122]] ++
  [[6, 30, 54, 78, 102, 126], [6, 26, 52, 78, 104, 130]] ++
  [[6, 30, 56, 82, 108, 134], [6, 34, 60, 86, 112, 138], [6, 30, 58, 86, 114, 142]] ++
  [[6, 34, 62, 90, 118, 146], [6, 30, 54, 78, 102, 126, 150]] ++
  [[6, 24, 50, 76, 102, 128, 154], [6, 28, 54, 80, 106, 132, 158], [6, 32, 58, 84, 110, 136, 162]] ++
  [[6, 26, 54, 82, 110, 138, 166], [6, 30, 58, 86, 114, 142, 170]]

/-- `AL(v)` (R219); no coordinates outside 1..40. -/
def alignCoords : Nat → List Nat
  | 0 => []
  | v + 1 => alignRows.getD v []

/-- The three candidate centres whose 5×5 square would overlap a finder pattern (R211). -/
def onFinder (v : Nat) (cr cc : Nat) : Bool :=
  (cr == 6 && cc == 6) || (cr == 6 && cc == width v - 7) || (cr == width v - 7 && cc == 6)

/-- `Centres(v)`: all pairs of coordinates but the three on the finder patterns (R211). -/
def centres (v : Nat) : List (Nat × Nat) :=
  (alignCoords v).flatMap fun cr =>
    ((alignCoords v).filter fun cc => !onFinder v cr cc).map fun cc => (cr, cc)

/-- The three kinds of cell (spec/10_state.md R45). -/
inductive CellClass where
  | function
  | reserved
  | data
  deriving DecidableEq, Repr

/-- Line 5 of R212: some alignment pattern covers the cell. -/
def onAlignment (v r c : Nat) : Bool :=
  (centres v).any fun ctr => absDiff r ctr.1 ≤ 2 && absDiff c ctr.2 ≤ 2

/-- `Class(v, r, c)`: the first line of R212 that applies. -/
def cellClass (v r c : Nat) : CellClass :=
  let w := width v
  if r ≤ 7 ∧ c ≤ 7 then .function
  else if r ≤ 7 ∧ w - 8 ≤ c then .function
  else if w - 8 ≤ r ∧ c ≤ 7 then .function
  else if r = 6 ∨ c = 6 then .function
  else if onAlignment v r c then .function
  else if r = w - 8 ∧ c = 8 then .function
  else if (r = 8 ∧ c ≤ 8) ∨ (c = 8 ∧ r ≤ 8) then .reserved
  else if (r = 8 ∧ w - 8 ≤ c) ∨ (c = 8 ∧ w - 7 ≤ r) then .reserved
  else if 7 ≤ v ∧ r ≤ 5 ∧ w - 11 ≤ c ∧ c ≤ w - 9 then .reserved
  else if 7 ≤ v ∧ c ≤ 5 ∧ w - 11 ≤ r ∧ r ≤ w - 9 then .reserved
  else .data

/-- All cells of the grid, row by row. -/
def allCells (v : Nat) : List (Nat × Nat) :=
  (List.range (width v)).flatMap fun r => (List.range (width v)).map fun c => (r, c)

/-! ### Function patterns and reserved areas -/

/-- The finder shape with its separator, by the distance `m` from the centre of the pattern (R215). -/
def finderDark (m : Nat) : Bool :=
  m = 3 || m ≤ 1

/-- The modules of one finder pattern and separator whose corner is (r0, c0), where they fall inside the grid. The offsets
`dr`, `dc` of R216 run from -1 to 7; `i`, `j` are these plus 1. -/
def finderPlots (w r0 c0 : Nat) : List Plot :=
  (List.range 9).flatMap fun i =>
    ((List.range 9).filter fun j => 1 ≤ r0 + i && r0 + i - 1 < w && 1 ≤ c0 + j && c0 + j - 1 < w).map fun j =>
      ⟨r0 + i - 1, c0 + j - 1, finderDark (max (absDiff i 4) (absDiff j 4))⟩

/-- Step 1: the three finder patterns (R216). -/
def allFinderPlots (v : Nat) : List Plot :=
  finderPlots (width v) 0 0 ++ finderPlots (width v) 0 (width v - 7) ++ finderPlots (width v) (width v - 7) 0

/-- Step 2: the timing patterns along row 6 and column 6, dark at even index (R217). -/
def timingPlots (v : Nat) : List Plot :=
  (List.range' 8 (width v - 16)).flatMap fun i => [⟨6, i, i % 2 = 0⟩, ⟨i, 6, i % 2 = 0⟩]

/-- The modules of one alignment pattern (R218, R220). The offsets run from -2 to 2; `i`, `j` are these plus 2. -/
def alignmentPlots (ctr : Nat × Nat) : List Plot :=
  (List.range 5).flatMap fun i => (List.range 5).map fun j =>
    ⟨ctr.1 + i - 2, ctr.2 + j - 2, max (absDiff i 2) (absDiff j 2) ≠ 1⟩

/-- Step 3: every alignment pattern of the version (R220). -/
def allAlignmentPlots (v : Nat) : List Plot :=
  (centres v).flatMap alignmentPlots

/-- The cells of class Reserved, row by row (R222). -/
def reservedCells (v : Nat) : List (Nat × Nat) :=
  (allCells v).filter fun rc => cellClass v rc.1 rc.2 = .reserved

/-- Step 4: the reserved cells become light, the dark module dark (R221, R223). -/
def reservedPlots (v : Nat) : List Plot :=
  (reservedCells v).map (fun rc => ⟨rc.1, rc.2, false⟩) ++ [⟨width v - 8, 8, true⟩]

/-- RESULT of MXRSVD: the number of Reserved cells, 30 for `v < 7` and 66 from version 7 on (R223). -/
def reservedCount (v : Nat) : Nat :=
  if v < 7 then 30 else 66

/-! ### Interleaving -/

/-- The TMP index of the i-th byte of the interleaved codeword stream (R227). -/
def streamIndex (v i : Nat) : Nat :=
  if i < (cat v).g1s * nblk v then blkOff v (i % nblk v) + i / nblk v
  else if i < cap v then blkOff v ((cat v).g1b + (i - (cat v).g1s * nblk v)) + (cat v).g1s
  else cap v + (cat v).k * ((i - cap v) % nblk v) + (i - cap v) / nblk v

/-- The interleaved stream, read from TMP (R225, R226, R227). -/
def streamBytes (v : Nat) (tmp : Memory) : Except Fault (List Byte) :=
  tmp.fetchAll .tmp ((List.range (tot v)).map (streamIndex v))

/-! ### Placement -/

/-- The right columns of the column pairs, from the right edge, the timing column skipped (R231). `fuel` bounds the loop;
the width is enough. -/
def columnPairs : Nat → Nat → List Nat
  | 0, _ => []
  | fuel + 1, right =>
    if right < 1 then []
    else
      let right' := if right = 6 then 5 else right
      right' :: columnPairs fuel (right' - 2)

/-- `up`: a pair is walked upward when bit 1 of `right + 1` is 0 (R231). -/
def walksUp (right : Nat) : Bool :=
  (right + 1) &&& 2 = 0

/-- The cells of one column pair in the order of the walk, right cell of each row first (R231). -/
def pairCells (v right : Nat) : List (Nat × Nat) :=
  (List.range (width v)).flatMap fun t =>
    let r := if walksUp right then width v - 1 - t else t
    [(r, right), (r, right - 1)].filter fun rc => cellClass v rc.1 rc.2 = .data

/-- `CellOrder(v)`: the Data cells in placement order (R231). -/
def cellOrder (v : Nat) : List (Nat × Nat) :=
  (columnPairs (width v) (width v - 1)).flatMap (pairCells v)

/-- The bits of a codeword, most significant first (R230). -/
def byteBits (x : Byte) : List Bool :=
  (List.range 8).map fun j => x.getLsbD (7 - j)

/-- Bit `7 - (i mod 8)` of `Stream(v, i div 8)` for the i-th cell (R232). -/
def dataPlots (cells : List (Nat × Nat)) (bytes : List Byte) : List Plot :=
  (cells.zip (bytes.flatMap byteBits)).map fun p => ⟨p.1.1, p.1.2, p.2⟩

/-! ### Format and version information -/

/-- The format-information word (R236). -/
def fmtWord : Nat := 0x77C4

/-- The first copy's cell of format bit i (R237). -/
def fmtCell1 (i : Nat) : Nat × Nat :=
  if i ≤ 5 then (i, 8) else if i = 6 then (7, 8) else if i = 7 then (8, 8) else if i = 8 then (8, 7) else (8, 14 - i)

/-- The second copy's cell of format bit i (R237). -/
def fmtCell2 (v i : Nat) : Nat × Nat :=
  if i ≤ 7 then (8, width v - 1 - i) else (width v - 15 + i, 8)

/-- Step 7: both copies of the format word (R238). -/
def formatPlots (v : Nat) : List Plot :=
  (List.range 15).flatMap fun i =>
    [⟨(fmtCell1 i).1, (fmtCell1 i).2, fmtWord.testBit i⟩, ⟨(fmtCell2 v i).1, (fmtCell2 v i).2, fmtWord.testBit i⟩]

/-- The version-information words, version 7 first (R240). -/
def versionWords : List Nat :=
  [0x07C94, 0x085BC, 0x09A99, 0x0A4D3, 0x0BBF6, 0x0C762, 0x0D847] ++
  [0x0E60D, 0x0F928, 0x10B78, 0x1145D, 0x12A17, 0x13532, 0x149A6] ++
  [0x15683, 0x168C9, 0x177EC, 0x18EC4, 0x191E1, 0x1AFAB, 0x1B08E] ++
  [0x1CC1A, 0x1D33F, 0x1ED75, 0x1F250, 0x209D5, 0x216F0, 0x228BA] ++
  [0x2379F, 0x24B0B, 0x2542E, 0x26A64, 0x27541, 0x28C69]

/-- `VER(v)` for `v >= 7` (R240). -/
def verWord (v : Nat) : Nat :=
  versionWords.getD (v - 7) 0

/-- Step 8: the two version-information blocks, for `v >= 7` only (R241, R242). -/
def versionPlots (v : Nat) : List Plot :=
  if 7 ≤ v then
    (List.range 18).flatMap fun i =>
      [⟨i / 3, width v - 11 + i % 3, (verWord v).testBit i⟩, ⟨width v - 11 + i % 3, i / 3, (verWord v).testBit i⟩]
  else []

/-- RESULT of MXVER (R242). -/
def verResult (v : Nat) : Nat :=
  if 7 ≤ v then verWord v else 0

/-! ### The commands -/

/-- The common shape of the steps that write modules: the PHASE requirement, the bound on OUT, the modules, the next
PHASE, and RESULT (R216, R217, R220, R223, R238, R242). -/
def plotStep (need next : Phase) (plots : List Plot) (result : Nat) (s : State) : Attempt := do
  require (s.phase = need) .sequence s
  require (img s.v ≤ s.outSize.toNat) .bufferTooSmall s
  let out ← orHalt (plotAll (stride s.v) s.out plots)
  .ok ({ s with out := out, phase := next }.withResult result)

/-- `MXINIT` (R214): every bitmap byte becomes 0. -/
def doMxinit (s : State) : Attempt := do
  require (s.phase = .coded) .sequence s
  require (img s.v ≤ s.outSize.toNat) .bufferTooSmall s
  .ok ({ s with out := s.out.writeRun 0 (List.replicate (img s.v) 0), phase := .blank }.withResult (img s.v))

/-- `MXFIND` (R216). -/
def doMxfind (s : State) : Attempt :=
  plotStep .blank .finders (allFinderPlots s.v) 0 s

/-- `MXTIME` (R217). -/
def doMxtime (s : State) : Attempt :=
  plotStep .finders .timing (timingPlots s.v) 0 s

/-- `MXALIGN` (R220). -/
def doMxalign (s : State) : Attempt :=
  plotStep .timing .aligned (allAlignmentPlots s.v) (centres s.v).length s

/-- `MXRSVD` (R223). -/
def doMxrsvd (s : State) : Attempt :=
  plotStep .aligned .reserved (reservedPlots s.v) (reservedCount s.v) s

/-- `MXDATA` (R232): the internal-consistency check of R234 comes after the buffer checks. DESIGN CHOICE, safe
(notes/assumptions/10.md). -/
def doMxdata (s : State) : Attempt := do
  require (s.phase = .reserved) .sequence s
  require (img s.v ≤ s.outSize.toNat) .bufferTooSmall s
  require (tot s.v ≤ s.tmpSize.toNat) .bufferTooSmall s
  require (8 * tot s.v ≤ (cellOrder s.v).length ∧ (cellOrder s.v).length < 8 * tot s.v + 8) .internal s
  let bytes ← orHalt (streamBytes s.v s.tmp)
  let out ← orHalt (plotAll (stride s.v) s.out (dataPlots (cellOrder s.v) bytes))
  .ok ({ s with out := out, phase := .placed }.withResult (8 * tot s.v))

/-- `MXFMT` (R238). -/
def doMxfmt (s : State) : Attempt :=
  plotStep .placed .formatted (formatPlots s.v) fmtWord s

/-- `MXVER` (R242). -/
def doMxver (s : State) : Attempt :=
  plotStep .formatted .versionInfo (versionPlots s.v) (verResult s.v) s

/-- `ILVRD i` (R228). -/
def doIlvrd (i : BitVec 16) (s : State) : Attempt := do
  require (4 ≤ s.phase.toNat) .sequence s
  require (i.toNat < tot s.v) .badOperand s
  require (tot s.v ≤ s.tmpSize.toNat) .bufferTooSmall s
  let x ← orHalt (s.tmp.fetch .tmp (streamIndex s.v i.toNat))
  .ok (s.withResult x.toNat)

/-- The code that CLASS answers: 0 Function, 1 Reserved, 2 Data (R243). -/
def CellClass.toNat : CellClass → Nat
  | .function => 0
  | .reserved => 1
  | .data => 2

/-- `CLASS r, c` (R243). -/
def doCellclass (r c : Byte) (s : State) : Attempt := do
  require (1 ≤ s.phase.toNat) .sequence s
  require (r.toNat < width s.v ∧ c.toNat < width s.v) .badOperand s
  .ok (s.withResult (cellClass s.v r.toNat c.toNat).toNat)

/-- `MXINIT` (R214). -/
def execMxinit (s : State) : Host.Outcome State Fault Refusal :=
  finish (doMxinit s)

/-- `MXFIND` (R216). -/
def execMxfind (s : State) : Host.Outcome State Fault Refusal :=
  finish (doMxfind s)

/-- `MXTIME` (R217). -/
def execMxtime (s : State) : Host.Outcome State Fault Refusal :=
  finish (doMxtime s)

/-- `MXALIGN` (R220). -/
def execMxalign (s : State) : Host.Outcome State Fault Refusal :=
  finish (doMxalign s)

/-- `MXRSVD` (R223). -/
def execMxrsvd (s : State) : Host.Outcome State Fault Refusal :=
  finish (doMxrsvd s)

/-- `MXDATA` (R232). -/
def execMxdata (s : State) : Host.Outcome State Fault Refusal :=
  finish (doMxdata s)

/-- `MXFMT` (R238). -/
def execMxfmt (s : State) : Host.Outcome State Fault Refusal :=
  finish (doMxfmt s)

/-- `MXVER` (R242). -/
def execMxver (s : State) : Host.Outcome State Fault Refusal :=
  finish (doMxver s)

/-- `ILVRD i` (R228). -/
def execIlvrd (i : BitVec 16) (s : State) : Host.Outcome State Fault Refusal :=
  finish (doIlvrd i s)

/-- `CLASS r, c` (R243). -/
def execCellclass (r c : Byte) (s : State) : Host.Outcome State Fault Refusal :=
  finish (doCellclass r c s)

end Sys2Proof.Machine
end

