-- ==== Sys2Proof/Machine/Masker.lean ====
section
/-! DEFINITION. The masker (spec/46_masker.md): MASK. -/

namespace Sys2Proof.Machine

/-- The mask predicate: a Data cell whose row plus column is even (R260). -/
def masked (v r c : Nat) : Bool :=
  cellClass v r c = .data && (r + c) % 2 = 0

/-- The cells that MASK inverts, row by row (R261). -/
def maskedCells (v : Nat) : List (Nat × Nat) :=
  (allCells v).filter fun rc => masked v rc.1 rc.2

/-- `MASK` (R261). -/
def doMask (s : State) : Attempt := do
  require (s.phase = .versionInfo) .sequence s
  require (img s.v ≤ s.outSize.toNat) .bufferTooSmall s
  let out ← orHalt (flipAll (stride s.v) s.out (maskedCells s.v))
  .ok ({ s with out := out, phase := .done }.withResult (width s.v))

/-- `MASK` (R261). -/
def execMask (s : State) : Host.Outcome State Fault Refusal :=
  finish (doMask s)

end Sys2Proof.Machine
end

