-- ==== Sys2Proof/Machine/ReedSolomon.lean ====
section
/-! DEFINITION. The GF(256) polynomial divider (spec/44_reed_solomon.md): RSCLR, RSFEED, RSBLK, RSALL. -/

namespace Sys2Proof.Machine

/-- `Gen(k)`: the coefficients of the generator polynomial below its leading 1, highest power first (R191). -/
def gen (k : Nat) : List Nat :=
  match k with
  | 7 => [127, 122, 154, 164, 11, 68, 117]
  | 10 => [216, 194, 159, 111, 199, 94, 95, 113, 157, 193]
  | 15 => [29, 196, 111, 163, 112, 74, 10, 105, 105, 139, 132, 151, 32, 134, 26]
  | 18 => [239, 251, 183, 113, 149, 175, 199, 215, 240, 220, 73, 82, 173, 75, 32, 67, 217, 146]
  | 20 => [152, 185, 240, 5, 111, 99, 6, 220, 112, 150, 69, 36, 187, 22, 228, 198, 121, 121, 165, 174]
  | 22 => [89, 179, 131, 176, 182, 244, 19, 189, 69, 40, 28, 137, 29, 123, 67, 253, 86, 218, 230, 26, 145, 245]
  | 24 =>
    [122, 118, 169, 70, 178, 237, 216, 102, 115, 150, 229, 73] ++
    [130, 72, 61, 43, 206, 1, 237, 247, 127, 217, 144, 117]
  | 26 =>
    [246, 51, 183, 4, 136, 98, 199, 152, 77, 56, 206, 24, 145] ++
    [40, 209, 117, 233, 42, 135, 68, 70, 144, 146, 77, 43, 94]
  | 28 =>
    [252, 9, 28, 13, 18, 251, 208, 150, 103, 174, 100, 41, 167, 12] ++
    [247, 56, 117, 119, 233, 127, 181, 100, 121, 147, 176, 74, 58, 197]
  | 30 =>
    [212, 246, 77, 73, 195, 192, 75, 98, 5, 70, 103, 177, 22, 217, 138] ++
    [51, 181, 246, 72, 25, 18, 46, 228, 74, 216, 195, 11, 106, 130, 150]
  | _ => []

/-- `G[j]` of `Gen(k)`. -/
def genAt (k j : Nat) : Byte :=
  BitVec.ofNat 8 ((gen k).getD j 0)

/-- `Step(d)` (R193). The loop reads each `REM[j+1]` before it is overwritten, so every new byte is a function of the old
register; `REM[k..29]` are not touched. -/
def stepRem (k : Nat) (rem : Vector Byte Config.maxEc) (d : Byte) : Vector Byte Config.maxEc :=
  let f := d ^^^ remAt rem 0
  Vector.ofFn fun j : Fin Config.maxEc =>
    if j.val + 1 < k then remAt rem (j.val + 1) ^^^ gfmul (genAt k j.val) f
    else if j.val + 1 = k then gfmul (genAt k j.val) f
    else remAt rem j.val

/-- `Step` for each listed byte, first one first. -/
def feedAll (k : Nat) (rem : Vector Byte Config.maxEc) (bytes : List Byte) : Vector Byte Config.maxEc :=
  bytes.foldl (stepRem k) rem

/-- The indexes of block b's data bytes in TMP (spec/20_memory.md R56). -/
def blockIndexes (v b : Nat) : List Nat :=
  List.range' (blkOff v b) (blkLen v b)

/-- The first k bytes of the remainder register. -/
def remBytes (k : Nat) (rem : Vector Byte Config.maxEc) : List Byte :=
  (List.range k).map (remAt rem)

/-- The body of `RSBLK b` after its checks (R196): clear REM, step over the block, store the k bytes. All 30 bytes are
cleared, as R196 writes, although spec/10_state.md R23 says that only RSCLR writes REM[k .. 29]. DESIGN CHOICE, unsafe
(notes/assumptions/24.md). -/
def encodeBlock (v b : Nat) (tmp : Memory) : Except Fault (Vector Byte Config.maxEc × Memory) :=
  match tmp.fetchAll .tmp (blockIndexes v b) with
  | .error f => .error f
  | .ok bytes =>
    let rem := feedAll (cat v).k remZero bytes
    .ok (rem, tmp.writeRun (eccOff v b) (remBytes (cat v).k rem))

/-- The listed blocks, in order (R197). -/
def encodeBlocks (v : Nat) :
    Vector Byte Config.maxEc → Memory → List Nat → Except Fault (Vector Byte Config.maxEc × Memory)
  | rem, tmp, [] => .ok (rem, tmp)
  | _, tmp, b :: rest =>
    match encodeBlock v b tmp with
    | .error f => .error f
    | .ok (rem', tmp') => encodeBlocks v rem' tmp' rest

/-- `RSCLR` (R194): all 30 bytes, whatever k is. -/
def doRsclr (s : State) : Attempt := do
  require (1 ≤ s.phase.toNat) .sequence s
  .ok { s with rem := remZero, result := 0 }

/-- `RSFEED d` (R195). -/
def doRsfeed (d : Byte) (s : State) : Attempt := do
  require (1 ≤ s.phase.toNat) .sequence s
  .ok ({ s with rem := stepRem (cat s.v).k s.rem d }.withResult (remAt (stepRem (cat s.v).k s.rem d) 0).toNat)

/-- `RSBLK b` (R196). -/
def doRsblk (b : Byte) (s : State) : Attempt := do
  require (s.phase = .packed) .sequence s
  require (b.toNat < nblk s.v) .badOperand s
  require (b.toNat = s.rsNext.toNat) .sequence s
  require (tot s.v ≤ s.tmpSize.toNat) .bufferTooSmall s
  let r ← orHalt (encodeBlock s.v b.toNat s.tmp)
  .ok ({ s with
    rem := r.1
    tmp := r.2
    rsNext := BitVec.ofNat 32 (b.toNat + 1)
    phase := if b.toNat + 1 = nblk s.v then .coded else s.phase }.withResult (b.toNat + 1))

/-- `RSALL` (R197): the blocks RSNEXT .. nblk - 1. -/
def doRsall (s : State) : Attempt := do
  require (s.phase = .packed) .sequence s
  require (tot s.v ≤ s.tmpSize.toNat) .bufferTooSmall s
  let r ← orHalt
    (encodeBlocks s.v s.rem s.tmp (List.range' s.rsNext.toNat (nblk s.v - s.rsNext.toNat)))
  .ok ({ s with
    rem := r.1
    tmp := r.2
    rsNext := BitVec.ofNat 32 (nblk s.v)
    phase := .coded }.withResult (nblk s.v))

/-- `RSCLR` (R194). -/
def execRsclr (s : State) : Host.Outcome State Fault Refusal :=
  finish (doRsclr s)

/-- `RSFEED d` (R195). -/
def execRsfeed (d : Byte) (s : State) : Host.Outcome State Fault Refusal :=
  finish (doRsfeed d s)

/-- `RSBLK b` (R196). -/
def execRsblk (b : Byte) (s : State) : Host.Outcome State Fault Refusal :=
  finish (doRsblk b s)

/-- `RSALL` (R197). -/
def execRsall (s : State) : Host.Outcome State Fault Refusal :=
  finish (doRsall s)

end Sys2Proof.Machine
end

