-- ==== Sys2Proof/Machine/Packer.lean ====
section
/-! DEFINITION. The segment bit-packer (spec/42_segment_packer.md): PKINIT, PKBIN, PKNUM, PKTERM. -/

namespace Sys2Proof.Machine

/-! ### Sizes -/

/-- `LenBits(mode, v)` (R153). -/
def lenBits (mode : Mode) (v : Nat) : Nat :=
  match mode with
  | .binary => if v ≤ 9 then 8 else 16
  | .numeric => if v ≤ 9 then 10 else if v ≤ 26 then 12 else 14

/-- `T[n mod 3]`: the bits of a trailing group of 0, 1 or 2 digits (R155). -/
def tailBits (r : Nat) : Nat :=
  if r = 0 then 0 else if r = 1 then 4 else 7

/-- `DataBits(mode, n)` (R155). -/
def dataBits (mode : Mode) (n : Nat) : Nat :=
  match mode with
  | .binary => 8 * n
  | .numeric => 10 * (n / 3) + tailBits (n % 3)

/-- `SegBits(mode, n, v) = 4 + LenBits(mode, v) + DataBits(mode, n)` (R165). -/
def segBits (mode : Mode) (n v : Nat) : Nat :=
  4 + lenBits mode v + dataBits mode n

/-- The mode indicator: Binary 0b0100, Numeric 0b0001 (R151). -/
def modeIndicator : Mode → Nat
  | .binary => 4
  | .numeric => 1

/-! ### The bit-stream -/

/-- The bit-stream while a command writes it: TMP and the bit cursor. -/
structure BitStream where
  tmp : Memory
  pos : Nat
  deriving DecidableEq, Repr

/-- Bit `p` of the bit-stream in TMP, or no value when its byte has none: bit `7 - (p mod 8)` of `TMP[p div 8]`
(spec/20_memory.md R57). -/
def streamBit (m : Memory) (p : Nat) : Option Bool :=
  (m.read (p / 8)).map fun x => x.getLsbD (7 - p % 8)

/-- `bit << i` as a byte. -/
def bitAt (bit : Bool) (i : Nat) : Byte :=
  (if bit then 1#8 else 0#8) <<< i

/-- One round of the loop of `Push` (R152): the first bit of a byte clears the other seven, a later bit is OR-ed in;
position p is bit `7 - (p mod 8)` of `TMP[p div 8]` (spec/20_memory.md R57). -/
def pushBit (bs : BitStream) (bit : Bool) : Except Fault BitStream :=
  if bs.pos % 8 = 0 then .ok ⟨bs.tmp.write (bs.pos / 8) (bitAt bit 7), bs.pos + 1⟩
  else
    match bs.tmp.fetch .tmp (bs.pos / 8) with
    | .error f => .error f
    | .ok x => .ok ⟨bs.tmp.write (bs.pos / 8) (x ||| bitAt bit (7 - bs.pos % 8)), bs.pos + 1⟩

/-- Append the listed bits, first one first. -/
def pushBits : BitStream → List Bool → Except Fault BitStream
  | bs, [] => .ok bs
  | bs, b :: rest =>
    match pushBit bs b with
    | .error f => .error f
    | .ok bs' => pushBits bs' rest

/-- The `n` low bits of `val`, most significant first (R152). -/
def msbBits (val : Nat) : Nat → List Bool
  | 0 => []
  | n + 1 => val.testBit n :: msbBits val n

/-- A field that is pushed: a value and its number of bits. -/
structure BitField where
  val : Nat
  len : Nat
  deriving DecidableEq, Repr

/-- The bits of a sequence of `Push(val, len)` calls, in order (R152). -/
def fieldBits (fs : List BitField) : List Bool :=
  fs.flatMap fun f => msbBits f.val f.len

/-- The mode indicator and the length field of a segment (R150, R151, R153, R154). -/
def headerFields (mode : Mode) (n v : Nat) : List BitField :=
  [⟨modeIndicator mode, 4⟩, ⟨n, lenBits mode v⟩]

/-- Data bits of a Binary segment: every byte in 8 bits (R157). -/
def binaryFields (bytes : List Byte) : List BitField :=
  bytes.map fun x => ⟨x.toNat, 8⟩

/-- The digit a source byte holds, when it is ASCII 0x30 to 0x39 (R159). -/
def isDigit (x : Byte) : Bool :=
  0x30 ≤ x.toNat && x.toNat ≤ 0x39

/-- The value of a digit byte (R159). -/
def digitVal (x : Byte) : Nat :=
  x.toNat - 0x30

/-- Data bits of a Numeric segment: groups of three digits in 10 bits, a trailing pair in 7, a trailing single in 4
(R158). -/
def numericFields : List Byte → List BitField
  | d0 :: d1 :: d2 :: rest => ⟨100 * digitVal d0 + 10 * digitVal d1 + digitVal d2, 10⟩ :: numericFields rest
  | [d0, d1] => [⟨10 * digitVal d0 + digitVal d1, 7⟩]
  | [d0] => [⟨digitVal d0, 4⟩]
  | [] => []

/-- The data fields of a segment in either mode. -/
def segmentData (mode : Mode) (bytes : List Byte) : List BitField :=
  match mode with
  | .binary => binaryFields bytes
  | .numeric => numericFields bytes

/-- The state after the bit-stream has been written: TMP, BITLEN, and RESULT = BITLEN. -/
def State.withStream (s : State) (bs : BitStream) : State :=
  { s with tmp := bs.tmp, bitLen := BitVec.ofNat 32 bs.pos, result := BitVec.ofNat 32 bs.pos }

/-- The bit-stream as the registers and TMP hold it. -/
def State.stream (s : State) : BitStream := ⟨s.tmp, s.bitLen.toNat⟩

/-- The pad bytes: 0xEC, 0x11, 0xEC, ... (R163). -/
def padFields : Nat → List BitField
  | 0 => []
  | n + 1 => padFields n ++ [⟨if n % 2 = 0 then 0xEC else 0x11, 8⟩]

/-- What PKTERM pushes when the cursor stands at `pos` and the capacity is `c` bits: the stop marker (R161), zero bits up
to the byte boundary (R162), and the pad bytes (R163). -/
def termFields (pos c : Nat) : List BitField :=
  let marker := min 4 (c - pos)
  let zeros := (8 - (pos + marker) % 8) % 8
  [⟨0, marker⟩] ++ List.replicate zeros ⟨0, 1⟩ ++ padFields ((c - (pos + marker + zeros)) / 8)

/-! ### The commands -/

/-- `PKINIT` (R156). -/
def doPkinit (s : State) : Attempt := do
  require (1 ≤ s.phase.toNat) .sequence s
  require (tot s.v ≤ s.tmpSize.toNat) .bufferTooSmall s
  .ok { s with bitLen := 0, phase := .packing, result := 0 }

/-- `PKBIN src` (R157): every check comes before the first push. -/
def doPkbin (src : Byte) (s : State) : Attempt := do
  require (s.phase = .packing) .sequence s
  require (src.toNat ≤ 1) .badOperand s
  require (tot s.v ≤ s.tmpSize.toNat) .bufferTooSmall s
  require (s.bitLen.toNat + segBits .binary (s.sourceLen src) s.v ≤ 8 * cap s.v) .inputTooLarge s
  let bytes ← orHalt (s.sourceBytes src)
  let bs ← orHalt (pushBits s.stream
    (fieldBits (headerFields .binary (s.sourceLen src) s.v ++ segmentData .binary bytes)))
  .ok (s.withStream bs)

/-- `PKNUM src` (R160): the digit scan is the last check, and comes before the first push. DEDUCED, safe: the bytes
are all read before the scan's verdict (notes/assumptions/8.md). -/
def doPknum (src : Byte) (s : State) : Attempt := do
  require (s.phase = .packing) .sequence s
  require (src.toNat ≤ 1) .badOperand s
  require (tot s.v ≤ s.tmpSize.toNat) .bufferTooSmall s
  require (s.bitLen.toNat + segBits .numeric (s.sourceLen src) s.v ≤ 8 * cap s.v) .inputTooLarge s
  let bytes ← orHalt (s.sourceBytes src)
  require (bytes.all isDigit = true) .badDigit s
  let bs ← orHalt (pushBits s.stream
    (fieldBits (headerFields .numeric (s.sourceLen src) s.v ++ segmentData .numeric bytes)))
  .ok (s.withStream bs)

/-- `PKTERM` (R164). -/
def doPkterm (s : State) : Attempt := do
  require (s.phase = .packing) .sequence s
  require (tot s.v ≤ s.tmpSize.toNat) .bufferTooSmall s
  let bs ← orHalt (pushBits s.stream (fieldBits (termFields s.bitLen.toNat (8 * cap s.v))))
  .ok { s.withStream bs with rsNext := 0, phase := .packed }

/-- `PKINIT` (R156). -/
def execPkinit (s : State) : Host.Outcome State Fault Refusal :=
  finish (doPkinit s)

/-- `PKBIN src` (R157). -/
def execPkbin (src : Byte) (s : State) : Host.Outcome State Fault Refusal :=
  finish (doPkbin src s)

/-- `PKNUM src` (R160). -/
def execPknum (src : Byte) (s : State) : Host.Outcome State Fault Refusal :=
  finish (doPknum src s)

/-- `PKTERM` (R164). -/
def execPkterm (s : State) : Host.Outcome State Fault Refusal :=
  finish (doPkterm s)

end Sys2Proof.Machine
end

