-- ==== Sys2Proof/Machine/Selector.lean ====
section
/-! DEFINITION. The version selector (spec/43_version_selector.md): VSEL. -/

namespace Sys2Proof.Machine

/-- `Req(v)`: the sum of the segment sizes at version v; stop marker and padding are not counted (R181). -/
def reqBits (segs : List (Mode × Nat)) (v : Nat) : Nat :=
  (segs.map fun mn => segBits mn.1 mn.2 v).sum

/-- The versions 1 to 40 in the order of the scan (R182). -/
def versions : List Nat := List.range' Config.vMin (Config.vMax + 1 - Config.vMin)

/-- The first version whose capacity in bits covers the segments (R182). -/
def selectVersion (segs : List (Mode × Nat)) : Option Nat :=
  versions.find? fun v => decide (reqBits segs v ≤ 8 * cap v)

/-- `VSEL` (R182): any phase. -/
def doVsel (s : State) : Attempt :=
  match selectVersion s.segments with
  | none => .error (.raise .inputTooLarge s)
  | some v => .ok ({ s with version := BitVec.ofNat 6 v, phase := .versioned }.withResult v)

/-- `VSEL` (R182). -/
def execVsel (s : State) : Host.Outcome State Fault Refusal :=
  finish (doVsel s)

end Sys2Proof.Machine
end

