-- ==== Sys2Proof/Machine/Generator.lean ====
section
/-! DEFINITION. The generator, the capacity query and CLEAR (spec/47_generator.md). -/

namespace Sys2Proof.Machine

/-- The segments, as the packer commands that write them (R272). -/
def doSegments (s : State) : Attempt :=
  if s.up then do
    let s ← doPkbin 0 s
    doPknum 1 s
  else doPkbin 1 s

/-- The matrix steps, from the blank grid to the version information (R272). -/
def doMatrix (s : State) : Attempt := do
  let s ← doMxinit s
  let s ← doMxfind s
  let s ← doMxtime s
  let s ← doMxalign s
  let s ← doMxrsvd s
  let s ← doMxdata s
  let s ← doMxfmt s
  doMxver s

/-- The sequence of R272: each command's whole effect, its PHASE change and its own checks among it. A step that raises a
fault ends it in the state that the completed steps left (R273). -/
def doPipeline (s : State) : Attempt := do
  let s ← doVsel s
  let s ← doPkinit s
  let s ← doSegments s
  let s ← doPkterm s
  let s ← doRsall s
  let s ← doMatrix s
  doMask s

/-- `GENERATE` (R271, R273): the three boundary checks, the sequence, RESULT = the symbol's width. -/
def doGenerate (s : State) : Attempt := do
  require (Config.outMin ≤ s.outSize.toNat) .bufferTooSmall s
  require (Config.tmpMin ≤ s.tmpSize.toNat) .bufferTooSmall s
  require (s.dataLen.toNat ≤ s.outSize.toNat) .bufferTooSmall s
  let s ← doPipeline s
  .ok (s.withResult (width s.v))

/-- `MaxSz(v, u)` (R274). -/
def maxSz (v u : Nat) : Nat :=
  if v < Config.vMin ∨ Config.vMax < v then 0
  else if u = 0 then cap v - 3
  else if cap v ≤ u + 5 then 0
  else ((cap v - u - 5) * 39) / 40

/-- `CLEAR` (R276): nothing when FATAL is set. DEDUCED, safe (notes/assumptions/19.md). -/
def doClear (s : State) : Attempt :=
  if s.fatal then .ok s else .ok s.clearFault

/-- `GENERATE` (R273). -/
def execGenerate (s : State) : Host.Outcome State Fault Refusal :=
  finish (doGenerate s)

/-- `MAXSZ v` (R275): any phase, no fault. -/
def execMaxsz (v : Byte) (s : State) : Host.Outcome State Fault Refusal :=
  .next (s.withResult (maxSz v.toNat s.urlLen.toNat))

/-- `CLEAR` (R276). -/
def execClear (s : State) : Host.Outcome State Fault Refusal :=
  finish (doClear s)

end Sys2Proof.Machine
end

