-- ==== Sys2Proof/Machine/Dispatch.lean ====
section
/-! DEFINITION. One arm per command (spec/30_encoding.md R84), in the order of the opcode map. -/

namespace Sys2Proof.Machine

/-- What a decoded command does, its PHASE requirement included (spec/30_encoding.md R80, spec/60_exceptions.md R300). The
lock-out of R297 belongs to the write of CMD and stands in Machine/HostBus.lean. -/
def exec (i : Instr) (s : State) : Host.Outcome State Fault Refusal :=
  match i with
  | .clear => Sys2Proof.Machine.execClear s
  | .generate => Sys2Proof.Machine.execGenerate s
  | .maxsz v => Sys2Proof.Machine.execMaxsz v s
  | .gfmul a b => Sys2Proof.Machine.execGfmul a b s
  | .gfdiv a b => Sys2Proof.Machine.execGfdiv a b s
  | .gfinv a => Sys2Proof.Machine.execGfinv a s
  | .gfexp n => Sys2Proof.Machine.execGfexp n s
  | .gflog a => Sys2Proof.Machine.execGflog a s
  | .vset v => Sys2Proof.Machine.execVset v s
  | .vsel => Sys2Proof.Machine.execVsel s
  | .vcap v => Sys2Proof.Machine.execVcap v s
  | .vpar v => Sys2Proof.Machine.execVpar v s
  | .pkinit => Sys2Proof.Machine.execPkinit s
  | .pkbin src => Sys2Proof.Machine.execPkbin src s
  | .pknum src => Sys2Proof.Machine.execPknum src s
  | .pkterm => Sys2Proof.Machine.execPkterm s
  | .rsclr => Sys2Proof.Machine.execRsclr s
  | .rsfeed d => Sys2Proof.Machine.execRsfeed d s
  | .rsblk b => Sys2Proof.Machine.execRsblk b s
  | .rsall => Sys2Proof.Machine.execRsall s
  | .mxinit => Sys2Proof.Machine.execMxinit s
  | .mxfind => Sys2Proof.Machine.execMxfind s
  | .mxtime => Sys2Proof.Machine.execMxtime s
  | .mxalign => Sys2Proof.Machine.execMxalign s
  | .mxrsvd => Sys2Proof.Machine.execMxrsvd s
  | .mxdata => Sys2Proof.Machine.execMxdata s
  | .mxfmt => Sys2Proof.Machine.execMxfmt s
  | .mxver => Sys2Proof.Machine.execMxver s
  | .ilvrd n => Sys2Proof.Machine.execIlvrd n s
  | .cellclass r c => Sys2Proof.Machine.execCellclass r c s
  | .mask => Sys2Proof.Machine.execMask s

end Sys2Proof.Machine
end

