-- ==== Sys2Proof/Machine/HostBus.lean ====
section
/-! DEFINITION. What the host does to the block between commands (spec/00_scope.md R13): a write of CMD with the lock-out
and the decoding around the command (spec/30_encoding.md R80, spec/60_exceptions.md R297), the other register accesses,
the memory accesses, and hard reset (spec/70_reset_and_hazards.md R320). -/

namespace Sys2Proof.Machine

/-- CMD holds the last word written (spec/10_state.md R25). -/
def State.latchCmd (s : State) (w : Word) : State :=
  { s with cmd := w }

/-- A host write of word `w` to CMD (R80): the word is stored; under lock-out nothing else happens, but for CLEAR with
FATAL = 0; otherwise the word is decoded, an illegal word raises ILLEGAL_CMD, and a command runs to completion. -/
def writeCmd (w : Word) (s : State) : Host.Outcome State Fault Refusal :=
  if s.lockedOut then
    if s.fatal = false ∧ w = 0x00000001#32 then exec .clear (s.latchCmd w)
    else .next (s.latchCmd w)
  else
    match decode w with
    | .error _ => .next ((s.latchCmd w).takeFault .illegalCmd)
    | .ok i => exec i (s.latchCmd w)

/-- A host write of register `n` (R21, R22, R25). -/
def hostWriteReg (n : Nat) (w : Word) (s : State) : Host.Outcome State Fault Refusal :=
  if n = 0 then writeCmd w s
  else if n < Config.regSlots then .next (s.writeReg n w)
  else .refused (.outsideWindow n)

/-- A host read of register `n` (R21, R22); no register has a read side effect (spec/20_memory.md R63). -/
def hostReadReg (n : Nat) (s : State) : Host.Outcome State Fault Refusal :=
  match s.readReg n with
  | some w => .next { s with hostRead := w }
  | none => .refused (.outsideWindow n)

/-- A host write of one byte of a memory space (spec/20_memory.md R50). -/
def hostWriteMem (sp : Space) (a : Nat) (b : Byte) (s : State) : Host.Outcome State Fault Refusal :=
  if a < Config.indexBound then .next (s.setMem sp ((s.mem sp).write a b))
  else .fault (.noSuchIndex sp a)

/-- A host read of one byte of a memory space: any byte, the arbitrary ones too (spec/00_scope.md R13, spec/20_memory.md
R50, R54). DEDUCED, safe (notes/assumptions/22.md). -/
def hostReadMem (sp : Space) (a : Nat) (s : State) : Host.Outcome State Fault Refusal :=
  if a < Config.indexBound then .next { s with hostRead := (s.hostByte sp a).setWidth 32 }
  else .fault (.noSuchIndex sp a)

/-- Hard reset (R320): the block is in its reset state, and its memories hold other arbitrary bytes (R321); what the host
will do and has read is not the block's. DEDUCED, safe (notes/assumptions/3.md, 5.md, 9.md). -/
def hardReset (s : State) : State :=
  { State.reset with host := s.host, hostRead := s.hostRead, resets := s.resets + 1 }

/-- One action of the host. -/
def hostAct (h : HostAction) (s : State) : Host.Outcome State Fault Refusal :=
  match h with
  | .writeReg n w => hostWriteReg n w s
  | .readReg n => hostReadReg n s
  | .writeMem sp a b => hostWriteMem sp a b s
  | .readMem sp a => hostReadMem sp a s
  | .hardReset => .next (hardReset s)

/-- The first waiting action is taken off the list and performed; with none waiting the block is idle and nothing changes
(spec/70_reset_and_hazards.md R335). -/
def hostTurn (s : State) : Host.Outcome State Fault Refusal :=
  match s.host with
  | [] => .next s
  | h :: rest => hostAct h { s with host := rest }

/-- The host is about to write the word `w` to CMD. -/
def issueFirst (w : Word) (s : State) : State :=
  { s with host := .writeReg 0 w :: s.host }

end Sys2Proof.Machine
end

