-- ==== Sys2Proof/Machine/Step.lean ====
section
/-! DEFINITION. One step of the machine: the next action of the host. The block fetches no instruction from any memory; a
command is the data of a CMD write (spec/10_state.md R24, spec/20_memory.md R69). -/

namespace Sys2Proof.Machine

/-- One step: the first waiting host action, which for a write of CMD is a whole command (spec/00_scope.md R12). -/
def step (s : State) : Host.Outcome State Fault Refusal :=
  hostTurn s

/-- The word whose bits are `w` becomes the very next thing the host writes to CMD. -/
def State.withFetchWord (s : State) (nbits w : Nat) : State :=
  issueFirst (tableWord nbits w) s

end Sys2Proof.Machine
end

