-- ==== Sys2Proof/Safety.lean ====
section
/-! DEFINITION. What is true of the block between any two actions of the host, in the terms that the statements use: the
invariants that the spec itself gives for STATUS and RESULT (spec/10_state.md R26), VERSION (R29), BITLEN (R30) and
RSNEXT (R31), the canonical form of the memories, and which bytes of TMP and OUT have been written in each PHASE
(spec/20_memory.md R66, spec/60_exceptions.md R301). -/

namespace Sys2Proof.Machine

/-- The bytes 0 .. n-1 have values. -/
abbrev Memory.written (m : Memory) (n : Nat) : Prop :=
  ∀ a < n, (m.read a).isSome = true

/-- The bytes at the listed indexes have values. -/
abbrev Memory.writtenAt (m : Memory) (as : List Nat) : Prop :=
  ∀ a ∈ as, (m.read a).isSome = true

/-- R26: ERRCODE is 0 exactly when ERR is 0, FATAL stands for code 3, and RESULT is 0 while ERR is set. -/
abbrev State.StatusInv (s : State) : Prop :=
  s.err = s.errCode.isSome ∧ s.fatal = (s.errCode == some .internal) ∧ (s.err = true → s.result = 0)

/-- R29: VERSION is at most 40, and 0 exactly in PHASE 0. -/
abbrev State.VersionInv (s : State) : Prop :=
  s.v ≤ Config.vMax ∧ (s.v = 0 ↔ s.phase = .idle)

/-- R30: BITLEN never passes the capacity, and equals it from PACKED on. -/
abbrev State.BitLenInv (s : State) : Prop :=
  s.bitLen.toNat ≤ 23648 ∧ (2 ≤ s.phase.toNat → s.bitLen.toNat ≤ 8 * cap s.v) ∧
    (3 ≤ s.phase.toNat → s.bitLen.toNat = 8 * cap s.v)

/-- R31: RSNEXT is at most 25; in PACKED a block is still to be encoded, from CODED on none is. -/
abbrev State.RsNextInv (s : State) : Prop :=
  s.rsNext.toNat ≤ 25 ∧ (s.phase = .packed → s.rsNext.toNat < nblk s.v) ∧
    (4 ≤ s.phase.toNat → s.rsNext.toNat = nblk s.v)

/-- The four memories are in their canonical form. -/
abbrev State.MemInv (s : State) : Prop :=
  s.url.wf ∧ s.data.wf ∧ s.tmp.wf ∧ s.out.wf

/-- R66, R301: what of TMP and OUT has been written in each phase of a run. -/
abbrev State.WrittenInv (s : State) : Prop :=
  (s.phase = .packing → s.tmp.written ((s.bitLen.toNat + 7) / 8)) ∧
    (s.phase = .packed → s.tmp.written (cap s.v + (cat s.v).k * s.rsNext.toNat)) ∧
    (4 ≤ s.phase.toNat → s.tmp.written (tot s.v)) ∧
    (5 ≤ s.phase.toNat → s.out.written (img s.v))

/-- All of these together. -/
structure State.Inv (s : State) : Prop where
  status : s.StatusInv
  version : s.VersionInv
  bitLen : s.BitLenInv
  rsNext : s.RsNextInv
  memories : s.MemInv
  written : s.WrittenInv

/-- The command that the word names reads URL or DATA: GENERATE, PKBIN or PKNUM (spec/20_memory.md R50). -/
def readsSource (w : Word) : Bool :=
  match decode w with
  | .ok .generate | .ok (.pkbin _) | .ok (.pknum _) => true
  | _ => false

/-- The host has given every byte of URL and DATA that the length registers name
(spec/70_reset_and_hazards.md R323 (3), (4)). -/
abbrev State.sourcesGiven (s : State) : Prop :=
  s.url.written s.urlLen.toNat ∧ s.data.written s.dataLen.toNat

/-- The action names a location that exists (spec/00_scope.md R13, spec/20_memory.md R50). -/
def HostAction.legal : HostAction → Prop
  | .writeReg n _ => n < Config.regSlots
  | .readReg n => n < Config.regSlots
  | .writeMem _ a _ => a < Config.indexBound
  | .readMem _ a => a < Config.indexBound
  | .hardReset => True

/-! ### The tables of faults and phases -/

/-- Which faults a command can raise (spec/60_exceptions.md R293, R297: none under lock-out). -/
def faultsOf : Instr → List FaultCode
  | .clear | .maxsz _ | .gfmul _ _ | .gfexp _ => []
  | .gfdiv _ _ | .gfinv _ | .gflog _ => [.gfDomain]
  | .vset _ | .vcap _ | .vpar _ => [.badOperand]
  | .vsel => [.inputTooLarge]
  | .generate => [.bufferTooSmall, .inputTooLarge, .badDigit, .internal]
  | .pkinit | .pkterm => [.sequence, .bufferTooSmall]
  | .pkbin _ => [.sequence, .badOperand, .bufferTooSmall, .inputTooLarge]
  | .pknum _ => [.sequence, .badOperand, .bufferTooSmall, .inputTooLarge, .badDigit]
  | .rsclr | .rsfeed _ => [.sequence]
  | .rsblk _ => [.sequence, .badOperand, .bufferTooSmall]
  | .rsall => [.sequence, .bufferTooSmall]
  | .mxinit | .mxfind | .mxtime | .mxalign | .mxrsvd | .mxfmt | .mxver | .mask => [.sequence, .bufferTooSmall]
  | .mxdata => [.sequence, .bufferTooSmall, .internal]
  | .ilvrd _ => [.sequence, .badOperand, .bufferTooSmall]
  | .cellclass _ _ => [.sequence, .badOperand]

/-- The column "requires PHASE" of R300. -/
def phaseAllows : Instr → Phase → Bool
  | .clear, _ | .generate, _ | .maxsz _, _ | .gfmul _ _, _ | .gfdiv _ _, _ | .gfinv _, _ | .gfexp _, _ => true
  | .gflog _, _ | .vset _, _ | .vsel, _ | .vcap _, _ | .vpar _, _ => true
  | .pkinit, p | .rsclr, p | .rsfeed _, p | .cellclass _ _, p => p != .idle
  | .pkbin _, p | .pknum _, p | .pkterm, p => p == .packing
  | .rsblk _, p | .rsall, p => p == .packed
  | .mxinit, p => p == .coded
  | .mxfind, p => p == .blank
  | .mxtime, p => p == .finders
  | .mxalign, p => p == .timing
  | .mxrsvd, p => p == .aligned
  | .mxdata, p => p == .reserved
  | .mxfmt, p => p == .placed
  | .mxver, p => p == .formatted
  | .mask, p => p == .versionInfo
  | .ilvrd _, p => decide (4 ≤ p.toNat)

/-- The column "next PHASE" of R300, for a command that starts in state `s` and completes without a fault. -/
def phaseAfter : Instr → State → Phase
  | .clear, _ => .idle
  | .generate, _ => .done
  | .maxsz _, s | .gfmul _ _, s | .gfdiv _ _, s | .gfinv _, s | .gfexp _, s | .gflog _, s => s.phase
  | .vcap _, s | .vpar _, s | .rsclr, s | .rsfeed _, s | .ilvrd _, s | .cellclass _ _, s => s.phase
  | .vset _, _ | .vsel, _ => .versioned
  | .pkinit, _ | .pkbin _, _ | .pknum _, _ => .packing
  | .pkterm, _ => .packed
  | .rsblk b, s => if b.toNat + 1 = nblk s.v then .coded else .packed
  | .rsall, _ => .coded
  | .mxinit, _ => .blank
  | .mxfind, _ => .finders
  | .mxtime, _ => .timing
  | .mxalign, _ => .aligned
  | .mxrsvd, _ => .reserved
  | .mxdata, _ => .placed
  | .mxfmt, _ => .formatted
  | .mxver, _ => .versionInfo
  | .mask, _ => .done

/-- Commands issued one after another while no fault is taken. -/
def runCommands : List Instr → State → Host.Outcome State Fault Refusal
  | [], s => .next s
  | i :: rest, s =>
    match exec i s with
    | .next t => if t.err then .next t else runCommands rest t
    | .fault f => .fault f
    | .refused r => .refused r

/-- The sequence of spec/47_generator.md R272. -/
def generatorSequence (up : Bool) : List Instr :=
  let segments : List Instr := if up then [.pkbin 0, .pknum 1] else [.pkbin 1]
  let rest : List Instr := [.pkterm, .rsall, .mxinit, .mxfind, .mxtime, .mxalign, .mxrsvd, .mxdata, .mxfmt, .mxver, .mask]
  .vsel :: .pkinit :: (segments ++ rest)

/-! ### What the formats mean, said without the commands -/

/-- Multiplication by x modulo x^8 + x^4 + x^3 + x^2 + 1 (spec/40_gf256.md R110, R122). -/
def xtime (a : Byte) : Byte :=
  (a <<< 1) ^^^ (if a.getLsbD 7 then 0x1D#8 else 0#8)

/-- The product of two polynomials over GF(2) modulo x^8 + x^4 + x^3 + x^2 + 1, highest coefficient of `b` first (R110). -/
def polyMul (a b : Byte) : Byte :=
  (List.range 8).foldl (fun acc i => xtime acc ^^^ (if b.getLsbD (7 - i) then a else 0#8)) 0#8

/-- The value at `x` of the polynomial whose coefficients are `cs`, highest power first (spec/44_reed_solomon.md R190). -/
def polyAt (x : Byte) (cs : List Byte) : Byte :=
  cs.foldl (fun acc c => gfmul acc x ^^^ c) 0#8

/-- The coefficients of `p(x) * (x + a)`, highest power first, for `p` without its leading 1 (spec/44_reed_solomon.md R191). -/
def timesRoot (p : List Byte) (a : Byte) : List Byte :=
  List.zipWith (fun u w => u ^^^ gfmul a w) (p ++ [0#8]) (1#8 :: p)

/-- `g_k` without its leading 1, by the recurrence `g_(i+1)(x) = g_i(x) * (x + alpha^i)` (R191). -/
def genByRoots : Nat → List Byte
  | 0 => []
  | i + 1 => timesRoot (genByRoots i) (gfexp i)

/-- The remainder of a division over GF(2): `fuel` steps, from the bit of weight `fuel - 1` of the quotient down. -/
def bitRemainder (divisor : Nat) : Nat → Nat → Nat
  | 0, x => x
  | fuel + 1, x =>
    bitRemainder divisor fuel (if x / 2 ^ (Nat.log2 divisor + fuel) % 2 = 1 then x ^^^ (divisor <<< fuel) else x)

/-- Bit p of a segment's header: the mode indicator, then the count (spec/42_segment_packer.md R150 to R154). -/
def headerBit (mode : Mode) (n v p : Nat) : Bool :=
  if p < 4 then (match mode with | .binary => 0b0100 | .numeric => 0b0001 : Nat).testBit (3 - p)
  else n.testBit (lenBits mode v - 1 - (p - 4))

/-- Bit p of the data of a Binary segment (R157). -/
def binaryBit (bytes : Nat → Byte) (p : Nat) : Bool :=
  (bytes (p / 8)).getLsbD (7 - p % 8)

/-- Bit p of the data of a Numeric segment of n digits: full groups in 10 bits, a trailing pair in 7, a trailing single in
4 (R158). -/
def numericBit (d : Nat → Nat) (n p : Nat) : Bool :=
  let g := p / 10
  if 3 * g + 2 < n then (100 * d (3 * g) + 10 * d (3 * g + 1) + d (3 * g + 2)).testBit (9 - p % 10)
  else if 3 * g + 1 < n then (10 * d (3 * g) + d (3 * g + 1)).testBit (6 - p % 10)
  else (d (3 * g)).testBit (3 - p % 10)

/-- What a bit that lands in the byte the stream has begun keeps of that byte: later bits of a byte are OR-ed in (R152). It
is false in a run in which only the block writes TMP. -/
def State.leftover (s : State) (q : Nat) : Bool :=
  decide (q / 8 = s.bitLen.toNat / 8) && decide (s.bitLen.toNat % 8 ≠ 0) && decide (streamBit s.tmp q = some true)

/-- The TMP indexes of the interleaved stream in the order of the loops of spec/45_matrix_builder.md R225 and R226. -/
def roundRobin (v : Nat) : List Nat :=
  ((List.range ((cat v).g1s + 1)).flatMap fun j =>
      ((List.range (nblk v)).filter fun b => decide (j < blkLen v b)).map fun b => blkOff v b + j) ++
    (List.range (cat v).k).flatMap fun j => (List.range (nblk v)).map fun b => eccOff v b + j

/-- The right column of the column pair that holds column c (spec/45_matrix_builder.md R231). -/
def pairOf (c : Nat) : Nat :=
  if c < 6 then c / 2 * 2 + 1 else (c + 1) / 2 * 2

/-- The walk of R231 comes to cell `x` before cell `y`: pairs from the right edge, rows upward or downward, the right cell of
a row first. -/
def walkedBefore (x y : Nat × Nat) : Prop :=
  pairOf y.2 < pairOf x.2 ∨
    (pairOf x.2 = pairOf y.2 ∧
      ((if (pairOf x.2 + 1) &&& 2 = 0 then y.1 < x.1 else x.1 < y.1) ∨ (x.1 = y.1 ∧ y.2 < x.2)))

/-- The finder shape at cell (r, c) of a zone whose pattern has its top-left corner at (r0, c0) (R215). -/
def finderModule (r0 c0 r c : Nat) : Bool :=
  let m := max (absDiff r (r0 + 3)) (absDiff c (c0 + 3))
  decide (m = 3) || decide (m ≤ 1)

/-- The codeword of block b: its data bytes, then its ECC bytes (spec/44_reed_solomon.md R190, R198). -/
def codeword (v b : Nat) (tmp : Memory) : List Byte :=
  (blockIndexes v b ++ List.range' (eccOff v b) (cat v).k).map fun a => (tmp.read a).getD 0#8

/-! ### Reading a symbol back

A reader of finished bitmaps, written as the inverse of spec/46_masker.md R260, spec/45_matrix_builder.md R231 and R225 to
R227, and spec/42_segment_packer.md R150 to R158 (spec/95_test_vectors.md T7). It sees the width and the bitmap and nothing
else of the block. DESIGN CHOICE, safe (notes/assumptions/23.md). -/

/-- The module of a Data cell without the mask (R260); a byte that nothing has written counts as light. -/
def unmasked (stride : Nat) (out : Memory) (rc : Nat × Nat) : Bool :=
  (moduleAt out stride rc.1 rc.2).getD false ^^ decide ((rc.1 + rc.2) % 2 = 0)

/-- The bits of the interleaved stream, and the remainder bits after them, in the order of the walk (R231). -/
def readStream (v : Nat) (out : Memory) : List Bool :=
  (cellOrder v).map (unmasked (stride v) out)

/-- Where byte j of block b stands in the interleaved stream (R225). -/
def streamPlace (v b j : Nat) : Nat :=
  if j < (cat v).g1s then j * nblk v + b else (cat v).g1s * nblk v + (b - (cat v).g1b)

/-- The places of the data codewords in the interleaved stream, block after block. -/
def dataPlaces (v : Nat) : List Nat :=
  (List.range (nblk v)).flatMap fun b => (List.range (blkLen v b)).map (streamPlace v b)

/-- The bit-stream of the segments, taken out of the interleaved stream codeword by codeword. -/
def readBitStream (v : Nat) (out : Memory) : List Bool :=
  let bits := readStream v out
  (dataPlaces v).flatMap fun i => (bits.drop (8 * i)).take 8

/-- The number that the bits spell, most significant first (R152). -/
def bitsNat (bits : List Bool) : Nat :=
  bits.foldl (fun n b => 2 * n + b.toNat) 0

/-- The bytes of a Binary segment of n bytes (R157). -/
def readBytes : Nat → List Bool → List Byte
  | 0, _ => []
  | n + 1, bits => BitVec.ofNat 8 (bitsNat (bits.take 8)) :: readBytes n (bits.drop 8)

/-- The ASCII code of a digit (R159). -/
def digitByte (d : Nat) : Byte :=
  BitVec.ofNat 8 (0x30 + d)

/-- The digits of a Numeric segment of n digits: three to a group of 10 bits, a trailing pair in 7, a trailing single in 4
(R158). -/
def readDigits : Nat → List Bool → List Byte
  | 0, _ => []
  | 1, bits => [digitByte (bitsNat (bits.take 4))]
  | 2, bits =>
    let g := bitsNat (bits.take 7)
    [digitByte (g / 10), digitByte (g % 10)]
  | n + 3, bits =>
    let g := bitsNat (bits.take 10)
    digitByte (g / 100) :: digitByte (g / 10 % 10) :: digitByte (g % 10) :: readDigits n (bits.drop 10)

/-- The segments of a bit-stream: a mode indicator, a count, the data, and so on (R150, R151, R153). The list ends at the
stop marker, or where fewer than four bits are left (R161), or after `fuel` segments. -/
def readSegments (v : Nat) : Nat → List Bool → List (Mode × List Byte)
  | 0, _ => []
  | fuel + 1, bits =>
    if bits.length < 4 then []
    else if bitsNat (bits.take 4) = 0b0100 then
      let n := bitsNat ((bits.drop 4).take (lenBits .binary v))
      let rest := bits.drop (4 + lenBits .binary v)
      (.binary, readBytes n rest) :: readSegments v fuel (rest.drop (8 * n))
    else if bitsNat (bits.take 4) = 0b0001 then
      let n := bitsNat ((bits.drop 4).take (lenBits .numeric v))
      let rest := bits.drop (4 + lenBits .numeric v)
      (.numeric, readDigits n rest) :: readSegments v fuel (rest.drop (dataBits .numeric n))
    else []

/-- The segments of the symbol of the given width in OUT: its version follows from the width, and no symbol of this block has
more than two segments (spec/00_scope.md R8), so a third is looked for and not found. -/
def readSymbol (w : Nat) (out : Memory) : List (Mode × List Byte) :=
  let v := (w - 17) / 4
  readSegments v 3 (readBitStream v out)

/-- The bytes 0 .. n-1 of a source that the host has given. -/
def Memory.bytes (m : Memory) (n : Nat) : List Byte :=
  (List.range n).map fun a => (m.read a).getD 0#8

/-- What a GENERATE is given to encode (spec/43_version_selector.md R180). -/
def State.payload (s : State) : List (Mode × List Byte) :=
  if s.up then [(.binary, s.url.bytes s.urlLen.toNat), (.numeric, s.data.bytes s.dataLen.toNat)]
  else [(.binary, s.data.bytes s.dataLen.toNat)]

end Sys2Proof.Machine
end

