-- ==== Sys2Proof/Certificates/Slice0/Obligations.lean ====
section
/-! DEFINITION. The statements for the provers, in the order of the spec's files. Each docstring names the rules it says. -/

open Sys2Proof Sys2Proof.Machine

/-! ### Encoding -/

/-- spec/30_encoding.md R84, R88: the decoder reads from the word of a command that command, with every operand at every
value of its field. -/
def Obligations.DecodeOfEncodeIsTheCommand : Prop :=
  ∀ i : Instr, i.wellFormed = true → decode (encode i) = .ok i

/-- spec/30_encoding.md R82, R88: a word that decodes is the word of the command it decodes to; no bit of it is ignored. -/
def Obligations.EncodeOfDecodeIsTheWord : Prop :=
  ∀ (w : Word) (i : Instr), decode w = .ok i → encode i = w

/-- spec/30_encoding.md R82, R87: a word decodes to a command of a row exactly when that row's mask and match select it, and
no two rows select one word. -/
def Obligations.WordSelectsItsRow : Prop :=
  ∀ w : Word,
    (∀ row ∈ opRows, row.selects w = true ↔ ∃ i, decode w = .ok i ∧ i.row = row) ∧
      (∀ i, decode w = .ok i → i.row ∈ opRows) ∧
      (∀ row ∈ opRows, ∀ row' ∈ opRows, row.selects w = true → row'.selects w = true → row = row')

/-- spec/30_encoding.md R84: words written out from the opcode map, at least one of each family, decode to their commands, and
four words outside the map do not decode. Which of the four reasons the decoder names is the model's choice
(notes/assumptions/15.md). -/
def Obligations.SampleWordsDecode : Prop :=
  decode 0x00000001#32 = .ok .clear ∧ decode 0x00002803#32 = .ok (.maxsz 40) ∧
    decode 0x00070310#32 = .ok (.gfmul 3 7) ∧ decode 0x00000720#32 = .ok (.vset 7) ∧ decode 0x00000021#32 = .ok .vsel ∧
    decode 0x00000132#32 = .ok (.pknum 1) ∧ decode 0x00004041#32 = .ok (.rsfeed 64) ∧
    decode 0x00011158#32 = .ok (.ilvrd 273) ∧ decode 0x00080759#32 = .ok (.cellclass 7 8) ∧
    decode 0x00000060#32 = .ok .mask ∧ decode 0x00000000#32 = .error (.unassignedOp 0) ∧
    decode 0x01000060#32 = .error .nonzeroZ ∧ decode 0x00010720#32 = .error .nonzeroB ∧
    decode 0x00000130#32 = .error .nonzeroA

/-! ### The host's accesses -/

/-- spec/30_encoding.md R80: a write of CMD stores the word, and when the block is not locked out runs the command that the
word decodes to; what a step adds around `exec` is that the action is taken off the host's list. The last clause is about the
model's own `withFetchWord`. -/
def Obligations.StepRunsTheDecodedCommand : Prop :=
  ∀ (s : State) (w : Word) (i : Instr), s.err = false → s.fatal = false →
    (∀ rest, decode w = .ok i → s.host = .writeReg 0 w :: rest → step s = exec i { s with host := rest, cmd := w }) ∧
      (∀ nbits n, decode (tableWord nbits n) = .ok i →
        step (s.withFetchWord nbits n) = exec i { s with cmd := tableWord nbits n })

/-- spec/60_exceptions.md R297: under lock-out a CMD write only stores the word, unless it is CLEAR with FATAL = 0, which
runs; register reads and memory accesses work as ever. That a read puts its value in `hostRead` is the model's choice
(notes/assumptions/5.md), and so is the byte that it finds where nothing has been written (notes/assumptions/22.md). -/
def Obligations.LockOutOnlyStoresTheWord : Prop :=
  ∀ (s : State) (rest : List HostAction), s.err = true ∨ s.fatal = true →
    (∀ w : Word, s.host = .writeReg 0 w :: rest → w ≠ 0x00000001#32 ∨ s.fatal = true →
      step s = .next { s with host := rest, cmd := w }) ∧
    (s.host = .writeReg 0 0x00000001#32 :: rest → s.fatal = false →
      step s = exec .clear { s with host := rest, cmd := 1 }) ∧
    (∀ n, n < 64 → s.host = .readReg n :: rest →
      ∃ x, s.readReg n = some x ∧ step s = .next { s with host := rest, hostRead := x }) ∧
    (∀ sp a b, a < 2 ^ 32 → s.host = .writeMem sp a b :: rest →
      step s = .next ({ s with host := rest }.setMem sp ((s.mem sp).write a b))) ∧
    (∀ sp a, a < 2 ^ 32 → s.host = .readMem sp a :: rest →
      step s = .next { s with host := rest, hostRead := (s.hostByte sp a).setWidth 32 }) ∧
    (∀ sp a x, (s.mem sp).read a = some x → s.hostByte sp a = x)

/-- spec/30_encoding.md R86: every word that no row of the map selects raises ILLEGAL_CMD, and such words are exactly those
with an opcode outside the map, a non-zero Z, a non-zero B in formats N and A, or a non-zero A in format N. -/
def Obligations.IllegalWordsRaiseIllegalCmd : Prop :=
  ∀ w : Word,
    ((∀ row ∈ opRows, row.selects w = false) ↔
      ((∀ row ∈ opRows, row.op ≠ opField w) ∨ zField w ≠ 0 ∨
        (∃ row ∈ opRows, row.op = opField w ∧ (row.format = .n ∨ row.format = .a) ∧ bField w ≠ 0) ∨
        (∃ row ∈ opRows, row.op = opField w ∧ row.format = .n ∧ aField w ≠ 0))) ∧
    ∀ (s : State) (rest : List HostAction), (∀ row ∈ opRows, row.selects w = false) → s.err = false → s.fatal = false →
      s.host = .writeReg 0 w :: rest → step s = .next ({ s with host := rest, cmd := w }.takeFault .illegalCmd)

/-- spec/10_state.md R21, R22, R23, R26 to R34: what each register number reads as; a host write of CTRL stores only bit 0,
which is UP, URL_LEN, DATA_LEN, OUT_SIZE and TMP_SIZE take all 32 bits, and every read-only or reserved register ignores the
write. Nothing else changes. That a read puts its value in `hostRead` is the model's choice (notes/assumptions/5.md); that the
writes take effect under lock-out too is the model's reading (notes/assumptions/18.md). -/
def Obligations.RegisterWindow : Prop :=
  ∀ (s : State) (rest : List HostAction) (n : Nat) (w : Word),
    (s.readReg 0 = some s.cmd ∧ s.readReg 2 = some s.result ∧ s.readReg 3 = some (s.version.setWidth 32) ∧
      s.readReg 4 = some s.bitLen ∧ s.readReg 5 = some s.rsNext ∧ s.readReg 6 = some (if s.up then 1 else 0) ∧
      s.readReg 7 = some s.urlLen ∧ s.readReg 8 = some s.dataLen ∧ s.readReg 9 = some s.outSize ∧
      s.readReg 10 = some s.tmpSize ∧ (∀ i : Fin 30, s.readReg (16 + i) = some (s.rem[i].setWidth 32)) ∧
      ((11 ≤ n ∧ n ≤ 15) ∨ (46 ≤ n ∧ n ≤ 63) → s.readReg n = some 0)) ∧
    (s.host = .readReg n :: rest → n < 64 →
      ∃ x, s.readReg n = some x ∧ step s = .next { s with host := rest, hostRead := x }) ∧
    (s.host = .writeReg n w :: rest →
      (n = 6 → step s = .next { s with host := rest, up := w.getLsbD 0 }) ∧
      (n = 7 → step s = .next { s with host := rest, urlLen := w }) ∧
      (n = 8 → step s = .next { s with host := rest, dataLen := w }) ∧
      (n = 9 → step s = .next { s with host := rest, outSize := w }) ∧
      (n = 10 → step s = .next { s with host := rest, tmpSize := w }) ∧
      ((1 ≤ n ∧ n ≤ 5) ∨ (11 ≤ n ∧ n ≤ 63) → step s = .next { s with host := rest }))

/-- spec/10_state.md R26: how STATUS reads, bit by bit, and what holds of its fields: ERRCODE is 0 exactly when ERR is 0,
whenever ERR is set RESULT is 0, and FATAL = 1 implies ERR = 1 and ERRCODE = 3. Every step keeps this. -/
def Obligations.StatusRegister : Prop :=
  (∀ s : State, s.readReg 1 = some s.statusWord ∧ s.statusWord.getLsbD 0 = s.err ∧ s.statusWord.getLsbD 1 = s.fatal ∧
    s.statusWord.getLsbD 2 = false ∧ s.statusWord.getLsbD 3 = false ∧
    (s.statusWord.extractLsb' 4 4).toNat = errCodeNat s.errCode ∧
    (s.statusWord.extractLsb' 8 4).toNat = s.phase.toNat ∧ s.statusWord.extractLsb' 12 20 = 0) ∧
  (∀ s : State, s.StatusInv → (s.err = false ↔ errCodeNat s.errCode = 0) ∧
    (s.fatal = true → s.err = true ∧ errCodeNat s.errCode = 3) ∧ (s.err = true → s.result = 0)) ∧
  ∀ s t : State, s.StatusInv → step s = .next t → t.StatusInv

/-- spec/00_scope.md R13, spec/20_memory.md R50, R51, R54, R63: a byte that the host writes is what the host reads there
afterwards, no other byte of that space and no byte of another space changes; the host may read any byte, and a read changes
no register and no memory. What it finds where nothing has been written is a free value (notes/assumptions/22.md), and that a
read puts its value in `hostRead` is the model's choice (notes/assumptions/5.md). The last two clauses are the model's stops:
an index that does not fit in 32 bits, and a register number above 63 (notes/assumptions/4.md). -/
def Obligations.HostMemoryAccesses : Prop :=
  ∀ (s : State) (rest : List HostAction) (sp : Space) (a n : Nat) (b : Byte) (w : Word),
    (a < 2 ^ 32 → s.host = .writeMem sp a b :: rest →
      ∃ t, step s = .next t ∧ (t.mem sp).read a = some b ∧ (∀ a', a' ≠ a → (t.mem sp).read a' = (s.mem sp).read a') ∧
        (∀ sp', sp' ≠ sp → t.mem sp' = s.mem sp') ∧
        t = { s with host := rest, url := t.url, data := t.data, tmp := t.tmp, out := t.out }) ∧
    (a < 2 ^ 32 → s.host = .readMem sp a :: rest → (s.mem sp).read a = some b →
      step s = .next { s with host := rest, hostRead := b.setWidth 32 }) ∧
    (a < 2 ^ 32 → s.host = .readMem sp a :: rest → (s.mem sp).read a = none →
      step s = .next { s with
        host := rest, hostRead := (Config.unwrittenByte s.resets sp.toNat a).setWidth 32 }) ∧
    (2 ^ 32 ≤ a → s.host = .readMem sp a :: rest ∨ s.host = .writeMem sp a b :: rest →
      step s = .fault (.noSuchIndex sp a)) ∧
    (64 ≤ n → s.host = .readReg n :: rest ∨ s.host = .writeReg n w :: rest → step s = .refused (.outsideWindow n))

/-- spec/10_state.md R46, spec/70_reset_and_hazards.md R320: after power-on and after the reset input every register of the
window reads 0. That no byte of memory has a known value then is the model's reading of 'unspecified' (notes/assumptions/2.md
and 3.md). -/
def Obligations.ResetRegistersAreZero : Prop :=
  (∀ n, n < 64 → State.reset.readReg n = some 0) ∧ (∀ sp a, (State.reset.mem sp).read a = none) ∧
    ∀ (s : State) (rest : List HostAction), s.host = .hardReset :: rest →
      ∃ t, step s = .next t ∧ (∀ n, n < 64 → t.readReg n = some 0) ∧ (∀ sp a, (t.mem sp).read a = none) ∧ t.host = rest

/-- spec/10_state.md R47: a GENERATE issued after reset, before the host writes anything, faults with BUFFER_TOO_SMALL, and
no memory is touched. -/
def Obligations.GenerateAtResetFaults : Prop :=
  step (State.reset.withFetchWord 32 0x02) =
    .next ({ State.reset with cmd := 0x02 }.takeFault .bufferTooSmall)

/-! ### Faults and phases -/

/-- spec/60_exceptions.md R295, R296: a command other than GENERATE that takes a fault sets ERR, ERRCODE and, for INTERNAL,
FATAL, makes RESULT 0, and writes nothing else; GENERATE takes its fault in the same way, in a state in which none is held. -/
def Obligations.FaultingCommandWritesNothingElse : Prop :=
  ∀ (i : Instr) (s t : State), s.err = false → exec i s = .next t → t.err = true →
    ∃ (c : FaultCode) (u : State), u.err = false ∧ u.fatal = s.fatal ∧ (i ≠ .generate → u = s) ∧
      t = { u with err := true, errCode := some c, fatal := (u.fatal || c == .internal), result := 0 }

/-- spec/60_exceptions.md R293: the table of which command can raise which fault. -/
def Obligations.EachCommandRaisesItsOwnFaults : Prop :=
  ∀ (i : Instr) (s t : State) (c : FaultCode), s.err = false → exec i s = .next t → t.err = true → t.errCode = some c →
    c ∈ faultsOf i

/-- spec/60_exceptions.md R300: a command whose PHASE requirement does not hold raises SEQUENCE and nothing changes; a command
that completes without a fault leaves the PHASE of the table. -/
def Obligations.PhaseTable : Prop :=
  ∀ (i : Instr) (s : State), s.err = false → s.fatal = false →
    (phaseAllows i s.phase = false → exec i s = .next (s.takeFault .sequence)) ∧
      ∀ t, exec i s = .next t → t.err = false → phaseAllows i s.phase = true ∧ t.phase = phaseAfter i s

/-- spec/47_generator.md R276: CLEAR returns the block to IDLE, keeps CTRL, the four length and size registers and all
memories, and does nothing when FATAL is set. That it clears all of REM is the model's choice between R276 and
spec/10_state.md R23 (notes/assumptions/24.md). -/
def Obligations.ClearReturnsToIdle : Prop :=
  ∀ s : State, decode 0x00000001#32 = .ok .clear ∧
    (s.fatal = true → exec .clear s = .next s) ∧
    (s.fatal = false → exec .clear s = .next { s with
      err := false, errCode := none, phase := .idle, version := 0, bitLen := 0, rsNext := 0
      rem := Vector.replicate 30 0, result := 0 })

/-- spec/10_state.md R21, R25, spec/20_memory.md R50: no command writes CMD, CTRL, URL_LEN, DATA_LEN, OUT_SIZE, TMP_SIZE, the
URL space or the DATA space (nor the three fields of the model's own); only CLEAR drops ERR. -/
def Obligations.CommandsKeepTheHostsState : Prop :=
  ∀ (i : Instr) (s t : State), exec i s = .next t →
    t.cmd = s.cmd ∧ t.up = s.up ∧ t.urlLen = s.urlLen ∧ t.dataLen = s.dataLen ∧ t.outSize = s.outSize ∧
      t.tmpSize = s.tmpSize ∧ t.url = s.url ∧ t.data = s.data ∧ t.host = s.host ∧ t.hostRead = s.hostRead ∧ t.resets = s.resets ∧
      (i ≠ .clear → s.err = true → t.err = true) ∧ (s.fatal = true → t.fatal = true)

/-- spec/20_memory.md R52, R60: no command writes TMP at or beyond tot(VERSION) or OUT at or beyond img(VERSION), where
VERSION is the version after the command. -/
def Obligations.WritesStayBelowTotAndImg : Prop :=
  ∀ (i : Instr) (s t : State), s.BitLenInv → exec i s = .next t →
    (∀ a, tot t.v ≤ a → t.tmp.read a = s.tmp.read a) ∧ (∀ a, img t.v ≤ a → t.out.read a = s.out.read a)

/-- Every step from a state that meets the invariant ends in one that does: the fields of STATUS, VERSION, BITLEN, RSNEXT, the
canonical form of the memories, and which bytes of TMP and OUT have been written in each PHASE (spec/10_state.md R26, R29,
R30, R31, spec/20_memory.md R66, spec/60_exceptions.md R301). -/
def Obligations.EveryStepKeepsTheInvariant : Prop :=
  ∀ s t : State, s.Inv → step s = .next t → t.Inv

/-- The state after reset meets the invariant. -/
def Obligations.ResetMeetsTheInvariant : Prop :=
  State.reset.Inv

/-- spec/45_matrix_builder.md R234: the condition that MXDATA checks holds for all 40 versions, so INTERNAL is unreachable:
from a state that meets the invariant and has FATAL = 0, no step sets FATAL. -/
def Obligations.InternalIsUnreachable : Prop :=
  (∀ v, 1 ≤ v → v ≤ 40 → 8 * tot v ≤ (cellOrder v).length ∧ (cellOrder v).length < 8 * tot v + 8) ∧
    ∀ s t : State, s.Inv → s.fatal = false → step s = .next t → t.fatal = false

/-- spec/70_reset_and_hazards.md R327, spec/60_exceptions.md R313: from a state that meets the invariant, every action of the
host has an outcome, provided that it names a location that exists and, for a write of CMD with a command that reads URL or
DATA, the host has given the bytes that the length registers announce. -/
def Obligations.EveryActionHasAnOutcome : Prop :=
  ∀ (s : State) (h : HostAction) (rest : List HostAction), s.Inv → s.host = h :: rest → h.legal →
    (∀ w, h = .writeReg 0 w → readsSource w = true → s.sourcesGiven) → ∃ t, step s = .next t

/-! ### GF(256) -/

/-- spec/40_gf256.md R110, R114: the product by logarithms is the product of polynomials over GF(2) modulo x^8 + x^4 + x^3 +
x^2 + 1. -/
def Obligations.GfmulIsThePolynomialProduct : Prop :=
  ∀ a b : Byte, gfmul a b = polyMul a b

/-- spec/40_gf256.md R122: the laws of the field. -/
def Obligations.FieldLaws : Prop :=
  (∀ a b c : Byte, gfmul a b = gfmul b a ∧ gfmul a (gfmul b c) = gfmul (gfmul a b) c ∧
    gfmul a (b ^^^ c) = gfmul a b ^^^ gfmul a c) ∧
  (∀ a : Byte, gfmul a 1 = a ∧ gfmul a 0 = 0 ∧
    gfmul a 2 = ((a <<< 1) &&& 0xFF) ^^^ (if a.getLsbD 7 then 0x1D else 0)) ∧
  (∀ a : Byte, a ≠ 0 → ∃ x, gfinv a = some x ∧ gfmul a x = 1) ∧
  (∀ a b : Byte, b ≠ 0 → ∃ q x, gfdiv a b = some q ∧ gfinv b = some x ∧ q = gfmul a x ∧ gfmul q b = a)

/-- The tables in ROM follow from the rules beside them: EXP and LOG (spec/40_gf256.md R111, R112), the ten generator
polynomials from their roots and their logarithms all existing (spec/44_reed_solomon.md R191, R192), the alignment
coordinates from the arithmetic rule (spec/45_matrix_builder.md R219), the format word and the version words from their BCH
codes (R235, R236, R239, R240). -/
def Obligations.RomTables : Prop :=
  (gfexp 0 = 1 ∧ (∀ i, i < 254 → gfexp (i + 1) = xtime (gfexp i)) ∧ gfexp 255 = 1 ∧
    (∀ i, i < 255 → gflog (gfexp i) = some i) ∧ gflog 0 = none) ∧
  (∀ k ∈ [7, 10, 15, 18, 20, 22, 24, 26, 28, 30], (gen k).map (BitVec.ofNat 8) = genByRoots k ∧
    (∀ g ∈ gen k, g ≠ 0 ∧ g < 256)) ∧
  (∀ v, 2 ≤ v → v ≤ 40 → (alignCoords v).length = v / 7 + 2 ∧ (alignCoords v)[0]? = some 6 ∧
    ∀ j, 1 ≤ j → j < v / 7 + 2 → (alignCoords v)[j]? = some (width v - 7 - (v / 7 + 1 - j) *
      (if v = 32 then 26 else 2 * ((4 * v + 2 * (v / 7 + 2) + 1) / (2 * (v / 7 + 2) - 2))))) ∧
  alignCoords 1 = [] ∧
  fmtWord = (0b01000 * 2 ^ 10 + bitRemainder 0x537 5 (0b01000 * 2 ^ 10)) ^^^ 0x5412 ∧
  (∀ v, 7 ≤ v → v ≤ 40 → verWord v = v * 2 ^ 12 + bitRemainder 0x1F25 6 (v * 2 ^ 12))

/-- spec/40_gf256.md R117, R118, R119, R120, R121: the five field commands, with their results and their only fault. -/
def Obligations.FieldCommands : Prop :=
  ∀ (a b : Byte) (s : State),
    (decode (assembleAB 0x10#8 a b) = .ok (.gfmul a b) ∧ decode (assembleAB 0x11#8 a b) = .ok (.gfdiv a b) ∧
      decode (assembleAB 0x12#8 a 0) = .ok (.gfinv a) ∧ decode (assembleAB 0x13#8 a 0) = .ok (.gfexp a) ∧
      decode (assembleAB 0x14#8 a 0) = .ok (.gflog a)) ∧
    exec (.gfmul a b) s = .next { s with result := (gfmul a b).setWidth 32 } ∧
    exec (.gfexp a) s = .next { s with result := (gfexp a.toNat).setWidth 32 } ∧
    (b = 0 → exec (.gfdiv a b) s = .next (s.takeFault .gfDomain)) ∧
    (b ≠ 0 → ∃ q, gfdiv a b = some q ∧ exec (.gfdiv a b) s = .next { s with result := q.setWidth 32 }) ∧
    (a = 0 → exec (.gfinv a) s = .next (s.takeFault .gfDomain) ∧ exec (.gflog a) s = .next (s.takeFault .gfDomain)) ∧
    (a ≠ 0 → (∃ x, gfinv a = some x ∧ exec (.gfinv a) s = .next { s with result := x.setWidth 32 }) ∧
      ∃ n, gflog a = some n ∧ n < 255 ∧ gfexp n = a ∧ exec (.gflog a) s = .next { s with result := BitVec.ofNat 32 n })

/-! ### The catalog and the selector -/

/-- spec/41_version_catalog.md R134, R135, R136: VSET, VCAP and VPAR on a legal version, and BAD_OPERAND on any other. -/
def Obligations.CatalogCommands : Prop :=
  ∀ (v : Byte) (s : State),
    (decode (assembleAB 0x20#8 v 0) = .ok (.vset v) ∧ decode (assembleAB 0x22#8 v 0) = .ok (.vcap v) ∧
      decode (assembleAB 0x23#8 v 0) = .ok (.vpar v)) ∧
    (1 ≤ v.toNat ∧ v.toNat ≤ 40 →
      (∃ t, exec (.vset v) s = .next t ∧ t.v = v.toNat ∧
        t = { s with version := t.version, phase := .versioned, result := v.setWidth 32 }) ∧
      exec (.vcap v) s = .next { s with result := BitVec.ofNat 32 (cap v.toNat) } ∧
      exec (.vpar v) s = .next { s with
        result := BitVec.ofNat 8 (cat v.toNat).g2b ++ BitVec.ofNat 8 (cat v.toNat).g1s ++
          BitVec.ofNat 8 (cat v.toNat).g1b ++ BitVec.ofNat 8 (cat v.toNat).k }) ∧
    (¬ (1 ≤ v.toNat ∧ v.toNat ≤ 40) →
      exec (.vset v) s = .next (s.takeFault .badOperand) ∧ exec (.vcap v) s = .next (s.takeFault .badOperand) ∧
      exec (.vpar v) s = .next (s.takeFault .badOperand))

/-- spec/41_version_catalog.md R132: the invariants of the catalog, its tie to the number of Data cells of the grid among
them. -/
def Obligations.CatalogInvariants : Prop :=
  cap 1 = 19 ∧ cap 40 = 2956 ∧
  ∀ v, 1 ≤ v → v ≤ 40 →
    (v < 40 → cap v < cap (v + 1)) ∧ (cat v).k ∈ [7, 10, 15, 18, 20, 22, 24, 26, 28, 30] ∧ (cat v).k ≤ 30 ∧
    1 ≤ (cat v).g1b ∧ 19 ≤ (cat v).g1s ∧ (cat v).g1s + 1 ≤ 123 ∧ 1 ≤ nblk v ∧ nblk v ≤ 25 ∧
    tot v = ((allCells v).filter fun rc => cellClass v rc.1 rc.2 = .data).length / 8 ∧
    ((allCells v).filter fun rc => cellClass v rc.1 rc.2 = .data).length - 8 * tot v ∈ [0, 3, 4, 7] ∧
    (cat v).g2b = tot v % nblk v ∧ (cat v).g1b = nblk v - (cat v).g2b ∧ (cat v).g1s = tot v / nblk v - (cat v).k

/-- spec/20_memory.md R56: the data slices of the blocks tile TMP[0 .. C-1] exactly, in block order, and the ECC slices tile
the ECC area of R55. -/
def Obligations.BlocksTileTheAreas : Prop :=
  ∀ v, 1 ≤ v → v ≤ 40 →
    blkOff v 0 = 0 ∧ blkOff v (nblk v) = cap v ∧ (∀ b, blkOff v (b + 1) = blkOff v b + blkLen v b) ∧
    (∀ a, a < cap v → ∃! b, b < nblk v ∧ blkOff v b ≤ a ∧ a < blkOff v b + blkLen v b) ∧
    (∀ a, cap v ≤ a → a < tot v → ∃! b, b < nblk v ∧ eccOff v b ≤ a ∧ a < eccOff v b + (cat v).k)

/-- spec/43_version_selector.md R182: VSEL takes the first version of 1 .. 40 whose capacity in bits is at least Req(v);
when there is none it raises INPUT_TOO_LARGE. -/
def Obligations.VselTakesTheFirstFit : Prop :=
  ∀ s : State,
    decode 0x00000021#32 = .ok .vsel ∧
    (∀ v, 1 ≤ v → v ≤ 40 → reqBits s.segments v ≤ 8 * cap v →
      (∀ u, 1 ≤ u → u < v → 8 * cap u < reqBits s.segments u) →
      ∃ t, exec .vsel s = .next t ∧ t.v = v ∧
        t = { s with version := t.version, phase := .versioned, result := BitVec.ofNat 32 v }) ∧
    ((∀ v, 1 ≤ v → v ≤ 40 → 8 * cap v < reqBits s.segments v) → exec .vsel s = .next (s.takeFault .inputTooLarge))

/-- spec/43_version_selector.md R184: every version after the first fitting one fits too, and what fits passes the packer's
capacity checks from BITLEN = 0. -/
def Obligations.LaterVersionsFitToo : Prop :=
  ∀ (s : State) (v : Nat), 1 ≤ v → v ≤ 40 → reqBits s.segments v ≤ 8 * cap v →
    (∀ u, v ≤ u → u ≤ 40 → reqBits s.segments u ≤ 8 * cap u) ∧
    (s.up = true → segBits .binary s.urlLen.toNat v ≤ 8 * cap v ∧
      segBits .binary s.urlLen.toNat v + segBits .numeric s.dataLen.toNat v ≤ 8 * cap v) ∧
    (s.up = false → segBits .binary s.dataLen.toNat v ≤ 8 * cap v)

/-! ### The packer -/

/-- spec/42_segment_packer.md R156: PKINIT. -/
def Obligations.PkinitOpensTheStream : Prop :=
  ∀ s : State,
    decode 0x00000030#32 = .ok .pkinit ∧
    (s.phase = .idle → exec .pkinit s = .next (s.takeFault .sequence)) ∧
    (s.phase ≠ .idle → s.tmpSize.toNat < tot s.v → exec .pkinit s = .next (s.takeFault .bufferTooSmall)) ∧
    (s.phase ≠ .idle → tot s.v ≤ s.tmpSize.toNat →
      exec .pkinit s = .next { s with bitLen := 0, phase := .packing, result := 0 })

/-- spec/42_segment_packer.md R157: the checks of PKBIN in their order, and the segment it appends: the stream before it is
kept, the header and the source bytes follow bit by bit, the byte that the segment ends in holds nothing after it, and no
other byte of TMP changes. That source 0 is URL with URL_LEN also when UP = 0 is the model's choice between R157 and
spec/10_state.md R33 (notes/assumptions/21.md). -/
def Obligations.PkbinAppendsItsSegment : Prop :=
  ∀ (s : State) (src : Byte),
    let n := (if src = 0 then s.urlLen else s.dataLen).toNat
    let S := if src = 0 then s.url else s.data
    let last := s.bitLen.toNat + segBits .binary n s.v
    decode (assembleAB 0x31#8 src 0) = .ok (.pkbin src) ∧
    (s.phase ≠ .packing → exec (.pkbin src) s = .next (s.takeFault .sequence)) ∧
    (s.phase = .packing → 1 < src.toNat → exec (.pkbin src) s = .next (s.takeFault .badOperand)) ∧
    (s.phase = .packing → src.toNat ≤ 1 → s.tmpSize.toNat < tot s.v →
      exec (.pkbin src) s = .next (s.takeFault .bufferTooSmall)) ∧
    (s.phase = .packing → src.toNat ≤ 1 → tot s.v ≤ s.tmpSize.toNat → 8 * cap s.v < last →
      exec (.pkbin src) s = .next (s.takeFault .inputTooLarge)) ∧
    (∀ bytes : Nat → Byte, s.phase = .packing → src.toNat ≤ 1 → tot s.v ≤ s.tmpSize.toNat → last ≤ 8 * cap s.v →
      (∀ i < n, S.read i = some (bytes i)) →
      (s.bitLen.toNat % 8 ≠ 0 → (s.tmp.read (s.bitLen.toNat / 8)).isSome = true) →
      ∃ t, exec (.pkbin src) s = .next t ∧ t.bitLen.toNat = last ∧
        t = { s with tmp := t.tmp, bitLen := t.bitLen, result := t.bitLen } ∧
        (∀ q < s.bitLen.toNat, streamBit t.tmp q = streamBit s.tmp q) ∧
        (∀ p < 4 + lenBits .binary s.v,
          streamBit t.tmp (s.bitLen.toNat + p) =
            some (headerBit .binary n s.v p || s.leftover (s.bitLen.toNat + p))) ∧
        (∀ p < 8 * n,
          streamBit t.tmp (s.bitLen.toNat + (4 + lenBits .binary s.v) + p) =
            some (binaryBit bytes p || s.leftover (s.bitLen.toNat + (4 + lenBits .binary s.v) + p))) ∧
        (∀ q, last ≤ q → q / 8 = (last - 1) / 8 → streamBit t.tmp q = some (s.leftover q)) ∧
        (∀ a, a < s.bitLen.toNat / 8 ∨ last ≤ 8 * a → t.tmp.read a = s.tmp.read a))

/-- spec/42_segment_packer.md R158, R159, R160: the checks of PKNUM in their order, the scan for a byte that is no digit the
last of them, and the segment it appends. That source 0 is URL with URL_LEN also when UP = 0 is the model's choice between
R160 and spec/10_state.md R33 (notes/assumptions/21.md). -/
def Obligations.PknumAppendsItsSegment : Prop :=
  ∀ (s : State) (src : Byte),
    let n := (if src = 0 then s.urlLen else s.dataLen).toNat
    let S := if src = 0 then s.url else s.data
    let last := s.bitLen.toNat + segBits .numeric n s.v
    decode (assembleAB 0x32#8 src 0) = .ok (.pknum src) ∧
    (s.phase ≠ .packing → exec (.pknum src) s = .next (s.takeFault .sequence)) ∧
    (s.phase = .packing → 1 < src.toNat → exec (.pknum src) s = .next (s.takeFault .badOperand)) ∧
    (s.phase = .packing → src.toNat ≤ 1 → s.tmpSize.toNat < tot s.v →
      exec (.pknum src) s = .next (s.takeFault .bufferTooSmall)) ∧
    (s.phase = .packing → src.toNat ≤ 1 → tot s.v ≤ s.tmpSize.toNat → 8 * cap s.v < last →
      exec (.pknum src) s = .next (s.takeFault .inputTooLarge)) ∧
    (∀ bytes : Nat → Byte, s.phase = .packing → src.toNat ≤ 1 → tot s.v ≤ s.tmpSize.toNat → last ≤ 8 * cap s.v →
      (∀ i < n, S.read i = some (bytes i)) →
      ((∃ i < n, (bytes i).toNat < 0x30 ∨ 0x39 < (bytes i).toNat) →
        exec (.pknum src) s = .next (s.takeFault .badDigit)) ∧
      ((∀ i < n, 0x30 ≤ (bytes i).toNat ∧ (bytes i).toNat ≤ 0x39) →
        (s.bitLen.toNat % 8 ≠ 0 → (s.tmp.read (s.bitLen.toNat / 8)).isSome = true) →
        ∃ t, exec (.pknum src) s = .next t ∧ t.bitLen.toNat = last ∧
          t = { s with tmp := t.tmp, bitLen := t.bitLen, result := t.bitLen } ∧
          (∀ q < s.bitLen.toNat, streamBit t.tmp q = streamBit s.tmp q) ∧
          (∀ p < 4 + lenBits .numeric s.v,
            streamBit t.tmp (s.bitLen.toNat + p) =
              some (headerBit .numeric n s.v p || s.leftover (s.bitLen.toNat + p))) ∧
          (∀ p < dataBits .numeric n,
            streamBit t.tmp (s.bitLen.toNat + (4 + lenBits .numeric s.v) + p) =
              some (numericBit (fun i => (bytes i).toNat - 0x30) n p ||
                s.leftover (s.bitLen.toNat + (4 + lenBits .numeric s.v) + p))) ∧
          (∀ q, last ≤ q → q / 8 = (last - 1) / 8 → streamBit t.tmp q = some (s.leftover q)) ∧
          (∀ a, a < s.bitLen.toNat / 8 ∨ last ≤ 8 * a → t.tmp.read a = s.tmp.read a)))

/-- spec/42_segment_packer.md R161, R162, R163, R164: PKTERM appends the stop marker, cut to the bits that remain, zero bits to
the byte boundary, and the pad bytes 0xEC, 0x11, ... up to the capacity; the premise on BITLEN is the invariant of R30. -/
def Obligations.PktermClosesTheStream : Prop :=
  ∀ s : State,
    let pad := (min (s.bitLen.toNat + 4) (8 * cap s.v) + 7) / 8
    decode 0x00000033#32 = .ok .pkterm ∧
    (s.phase ≠ .packing → exec .pkterm s = .next (s.takeFault .sequence)) ∧
    (s.phase = .packing → s.tmpSize.toNat < tot s.v → exec .pkterm s = .next (s.takeFault .bufferTooSmall)) ∧
    (s.phase = .packing → tot s.v ≤ s.tmpSize.toNat → s.bitLen.toNat ≤ 8 * cap s.v →
      (s.bitLen.toNat % 8 ≠ 0 → (s.tmp.read (s.bitLen.toNat / 8)).isSome = true) →
      ∃ t, exec .pkterm s = .next t ∧ t.bitLen.toNat = 8 * cap s.v ∧
        t = { s with tmp := t.tmp, bitLen := t.bitLen, rsNext := 0, phase := .packed, result := t.bitLen } ∧
        (∀ q < s.bitLen.toNat, streamBit t.tmp q = streamBit s.tmp q) ∧
        (∀ q, s.bitLen.toNat ≤ q → q < 8 * pad → streamBit t.tmp q = some (s.leftover q)) ∧
        (∀ j, pad + j < cap s.v → t.tmp.read (pad + j) = some (if j % 2 = 0 then 0xEC else 0x11)) ∧
        (s.tmp.written ((s.bitLen.toNat + 7) / 8) → t.tmp.written (cap s.v)) ∧
        (∀ a, a < s.bitLen.toNat / 8 ∨ cap s.v ≤ a → t.tmp.read a = s.tmp.read a))

/-- spec/42_segment_packer.md R166: a segment that fits the version has a count that fits its length field. -/
def Obligations.CharacterCountFits : Prop :=
  ∀ (mode : Mode) (n v : Nat), 1 ≤ v → v ≤ 40 → segBits mode n v ≤ 8 * cap v → n < 2 ^ lenBits mode v

/-! ### The divider -/

/-- spec/44_reed_solomon.md R193, R194, R195: RSCLR clears all 30 bytes; RSFEED makes one division step and leaves
REM[k .. 29]; both need PHASE >= 1. -/
def Obligations.RsclrAndRsfeed : Prop :=
  ∀ (s : State) (d : Byte),
    (decode 0x00000040#32 = .ok .rsclr ∧ decode (assembleAB 0x41#8 d 0) = .ok (.rsfeed d)) ∧
    (s.phase = .idle → exec .rsclr s = .next (s.takeFault .sequence) ∧
      exec (.rsfeed d) s = .next (s.takeFault .sequence)) ∧
    (s.phase ≠ .idle →
      exec .rsclr s = .next { s with rem := Vector.replicate 30 0, result := 0 } ∧
      ∃ t, exec (.rsfeed d) s = .next t ∧ t = { s with rem := t.rem, result := (remAt t.rem 0).setWidth 32 } ∧
        (∀ j, j + 1 < (cat s.v).k →
          remAt t.rem j = remAt s.rem (j + 1) ^^^ gfmul (genAt (cat s.v).k j) (d ^^^ remAt s.rem 0)) ∧
        (∀ j, j + 1 = (cat s.v).k → remAt t.rem j = gfmul (genAt (cat s.v).k j) (d ^^^ remAt s.rem 0)) ∧
        (∀ j, (cat s.v).k ≤ j → remAt t.rem j = remAt s.rem j))

/-- spec/44_reed_solomon.md R196: the checks of RSBLK in their order, and the block it encodes. That REM[k .. 29] are 0
afterwards is the model's choice between R196 and spec/10_state.md R23 (notes/assumptions/24.md). -/
def Obligations.RsblkEncodesOneBlock : Prop :=
  ∀ (s : State) (b : Byte),
    decode (assembleAB 0x42#8 b 0) = .ok (.rsblk b) ∧
    (s.phase ≠ .packed → exec (.rsblk b) s = .next (s.takeFault .sequence)) ∧
    (s.phase = .packed → nblk s.v ≤ b.toNat → exec (.rsblk b) s = .next (s.takeFault .badOperand)) ∧
    (s.phase = .packed → b.toNat < nblk s.v → b.toNat ≠ s.rsNext.toNat →
      exec (.rsblk b) s = .next (s.takeFault .sequence)) ∧
    (s.phase = .packed → b.toNat < nblk s.v → b.toNat = s.rsNext.toNat → s.tmpSize.toNat < tot s.v →
      exec (.rsblk b) s = .next (s.takeFault .bufferTooSmall)) ∧
    (∀ bytes : List Byte, s.phase = .packed → b.toNat < nblk s.v → b.toNat = s.rsNext.toNat →
      tot s.v ≤ s.tmpSize.toNat → bytes.length = blkLen s.v b.toNat →
      (∀ i < blkLen s.v b.toNat, s.tmp.read (blkOff s.v b.toNat + i) = bytes[i]?) →
      ∃ t, exec (.rsblk b) s = .next t ∧ t.rsNext.toNat = b.toNat + 1 ∧
        t = { s with rem := t.rem, tmp := t.tmp, rsNext := t.rsNext, result := t.rsNext,
                     phase := if b.toNat + 1 = nblk s.v then .coded else .packed } ∧
        t.rem = feedAll (cat s.v).k (Vector.replicate 30 0) bytes ∧
        (∀ i < (cat s.v).k, t.tmp.read (eccOff s.v b.toNat + i) = some (remAt t.rem i)) ∧
        (∀ a, a < eccOff s.v b.toNat ∨ eccOff s.v b.toNat + (cat s.v).k ≤ a → t.tmp.read a = s.tmp.read a))

/-- spec/44_reed_solomon.md R197: RSALL has the effect of RSBLK on each block not yet encoded, in order; its checks, and that
it completes when the data codewords have been written, changing only REM, the ECC area of TMP, RSNEXT, PHASE and RESULT. -/
def Obligations.RsallIsTheRemainingBlocks : Prop :=
  ∀ s : State,
    decode 0x00000043#32 = .ok .rsall ∧
    (s.phase ≠ .packed → exec .rsall s = .next (s.takeFault .sequence)) ∧
    (s.phase = .packed → s.tmpSize.toNat < tot s.v → exec .rsall s = .next (s.takeFault .bufferTooSmall)) ∧
    (s.phase = .packed → tot s.v ≤ s.tmpSize.toNat → s.err = false → s.rsNext.toNat < nblk s.v →
      exec .rsall s = runCommands ((List.range' s.rsNext.toNat (nblk s.v - s.rsNext.toNat)).map fun b =>
        .rsblk (BitVec.ofNat 8 b)) s) ∧
    (s.phase = .packed → tot s.v ≤ s.tmpSize.toNat → s.tmp.written (cap s.v) →
      ∃ t, exec .rsall s = .next t ∧ t.rsNext.toNat = nblk s.v ∧
        t = { s with rem := t.rem, tmp := t.tmp, rsNext := t.rsNext, phase := .coded, result := t.rsNext } ∧
        (∀ a, a < cap s.v ∨ tot s.v ≤ a → t.tmp.read a = s.tmp.read a) ∧
        (∀ b, s.rsNext.toNat ≤ b → b < nblk s.v → ∀ i < (cat s.v).k,
          t.tmp.read (eccOff s.v b + i) = some (remAt (feedAll (cat s.v).k (Vector.replicate 30 0)
            ((blockIndexes s.v b).map fun a => (s.tmp.read a).getD 0)) i)))

/-- spec/44_reed_solomon.md R198: after RSBLK b, feeding the codeword of block b through the divider from REM = 0 leaves
REM[0 .. k-1] = 0. -/
def Obligations.CodewordLeavesZeroRemainder : Prop :=
  ∀ (s t : State) (b : Byte), 1 ≤ s.v → s.v ≤ 40 → s.err = false → exec (.rsblk b) s = .next t → t.err = false →
    ∀ i < (cat s.v).k, remAt (feedAll (cat s.v).k (Vector.replicate 30 0) (codeword s.v b.toNat t.tmp)) i = 0

/-- spec/44_reed_solomon.md R190, R191, R198: after RSBLK b, the polynomial whose coefficients are the codeword of block b,
first byte the highest power, is zero at alpha^0 .. alpha^(k-1), the roots of the generator. -/
def Obligations.CodewordVanishesAtTheRoots : Prop :=
  ∀ (s t : State) (b : Byte), 1 ≤ s.v → s.v ≤ 40 → s.err = false → exec (.rsblk b) s = .next t → t.err = false →
    ∀ i < (cat s.v).k, polyAt (gfexp i) (codeword s.v b.toNat t.tmp) = 0

/-! ### The matrix -/

/-- spec/45_matrix_builder.md R214: MXINIT. -/
def Obligations.MxinitClearsTheBitmap : Prop :=
  ∀ s : State,
    decode 0x00000050#32 = .ok .mxinit ∧
    (s.phase ≠ .coded → exec .mxinit s = .next (s.takeFault .sequence)) ∧
    (s.phase = .coded → s.outSize.toNat < img s.v → exec .mxinit s = .next (s.takeFault .bufferTooSmall)) ∧
    (s.phase = .coded → img s.v ≤ s.outSize.toNat →
      ∃ t, exec .mxinit s = .next t ∧
        t = { s with out := t.out, phase := .blank, result := BitVec.ofNat 32 (img s.v) } ∧
        (∀ a < img s.v, t.out.read a = some 0) ∧ (∀ a, img s.v ≤ a → t.out.read a = s.out.read a))

/-- spec/45_matrix_builder.md R215, R216: the cells that MXFIND writes are those of lines 1 to 3 of R212, each the ring
pattern of its own corner; every other module, and every byte that holds none of those cells, is as before. -/
def Obligations.MxfindPlacesTheFinders : Prop :=
  ∀ s : State,
    let w := width s.v
    let zone := fun r c => (r ≤ 7 ∧ c ≤ 7) ∨ (r ≤ 7 ∧ w - 8 ≤ c ∧ c < w) ∨ (w - 8 ≤ r ∧ r < w ∧ c ≤ 7)
    decode 0x00000051#32 = .ok .mxfind ∧
    (s.phase ≠ .blank → exec .mxfind s = .next (s.takeFault .sequence)) ∧
    (s.phase = .blank → s.outSize.toNat < img s.v → exec .mxfind s = .next (s.takeFault .bufferTooSmall)) ∧
    (s.phase = .blank → img s.v ≤ s.outSize.toNat → 1 ≤ s.v → s.out.written (img s.v) →
      ∃ t, exec .mxfind s = .next t ∧ t = { s with out := t.out, phase := .finders, result := 0 } ∧
        (∀ r c, r < w → c < 8 * stride s.v → zone r c →
          moduleAt t.out (stride s.v) r c =
            some (finderModule (if r ≤ 7 then 0 else w - 7) (if c ≤ 7 then 0 else w - 7) r c)) ∧
        (∀ r c, c < 8 * stride s.v → ¬ zone r c →
          moduleAt t.out (stride s.v) r c = moduleAt s.out (stride s.v) r c) ∧
        (∀ a, (∀ r c, zone r c → moduleIndex (stride s.v) r c ≠ a) → t.out.read a = s.out.read a))

/-- spec/45_matrix_builder.md R217: MXTIME writes row 6 and column 6 between the finder patterns, dark at even index. -/
def Obligations.MxtimePlacesTheTiming : Prop :=
  ∀ s : State,
    let w := width s.v
    let zone := fun r c => (r = 6 ∧ 8 ≤ c ∧ c ≤ w - 9) ∨ (c = 6 ∧ 8 ≤ r ∧ r ≤ w - 9)
    decode 0x00000052#32 = .ok .mxtime ∧
    (s.phase ≠ .finders → exec .mxtime s = .next (s.takeFault .sequence)) ∧
    (s.phase = .finders → s.outSize.toNat < img s.v → exec .mxtime s = .next (s.takeFault .bufferTooSmall)) ∧
    (s.phase = .finders → img s.v ≤ s.outSize.toNat → s.out.written (img s.v) →
      ∃ t, exec .mxtime s = .next t ∧ t = { s with out := t.out, phase := .timing, result := 0 } ∧
        (∀ r c, zone r c → moduleAt t.out (stride s.v) r c = some (decide ((r + c) % 2 = 0))) ∧
        (∀ r c, c < 8 * stride s.v → ¬ zone r c →
          moduleAt t.out (stride s.v) r c = moduleAt s.out (stride s.v) r c) ∧
        (∀ a, (∀ r c, zone r c → moduleIndex (stride s.v) r c ≠ a) → t.out.read a = s.out.read a))

/-- spec/45_matrix_builder.md R211, R218, R220: MXALIGN writes the 5 x 5 pattern around every centre, and RESULT is their
number, n * n - 3 for n coordinates. -/
def Obligations.MxalignPlacesThePatterns : Prop :=
  ∀ s : State,
    let zone := fun r c => ∃ ctr ∈ centres s.v, absDiff r ctr.1 ≤ 2 ∧ absDiff c ctr.2 ≤ 2
    decode 0x00000053#32 = .ok .mxalign ∧
    (s.phase ≠ .timing → exec .mxalign s = .next (s.takeFault .sequence)) ∧
    (s.phase = .timing → s.outSize.toNat < img s.v → exec .mxalign s = .next (s.takeFault .bufferTooSmall)) ∧
    (s.phase = .timing → img s.v ≤ s.outSize.toNat → 1 ≤ s.v → s.v ≤ 40 → s.out.written (img s.v) →
      ∃ t, exec .mxalign s = .next t ∧
        t = { s with out := t.out, phase := .aligned, result := t.result } ∧
        t.result.toNat = (alignCoords s.v).length * (alignCoords s.v).length - 3 ∧
        t.result.toNat = (centres s.v).length ∧
        (∀ ctr ∈ centres s.v, ∀ r c, absDiff r ctr.1 ≤ 2 → absDiff c ctr.2 ≤ 2 →
          moduleAt t.out (stride s.v) r c = some (decide (max (absDiff r ctr.1) (absDiff c ctr.2) ≠ 1))) ∧
        (∀ r c, c < 8 * stride s.v → ¬ zone r c →
          moduleAt t.out (stride s.v) r c = moduleAt s.out (stride s.v) r c) ∧
        (∀ a, (∀ r c, zone r c → moduleIndex (stride s.v) r c ≠ a) → t.out.read a = s.out.read a))

/-- spec/45_matrix_builder.md R221, R222, R223: MXRSVD makes every Reserved cell light and the dark module dark, and RESULT
is the number of Reserved cells, 30 for v < 7 and 66 from version 7 on. -/
def Obligations.MxrsvdReservesTheAreas : Prop :=
  ∀ s : State,
    let w := width s.v
    let zone := fun r c => (r < w ∧ c < w ∧ cellClass s.v r c = .reserved) ∨ (r = w - 8 ∧ c = 8)
    decode 0x00000054#32 = .ok .mxrsvd ∧
    (s.phase ≠ .aligned → exec .mxrsvd s = .next (s.takeFault .sequence)) ∧
    (s.phase = .aligned → s.outSize.toNat < img s.v → exec .mxrsvd s = .next (s.takeFault .bufferTooSmall)) ∧
    (s.phase = .aligned → img s.v ≤ s.outSize.toNat → 1 ≤ s.v → s.v ≤ 40 → s.out.written (img s.v) →
      ∃ t, exec .mxrsvd s = .next t ∧
        t = { s with out := t.out, phase := .reserved, result := BitVec.ofNat 32 (reservedCells s.v).length } ∧
        (reservedCells s.v).length = (if s.v < 7 then 30 else 66) ∧
        (∀ r c, r < w → c < w → cellClass s.v r c = .reserved → moduleAt t.out (stride s.v) r c = some false) ∧
        moduleAt t.out (stride s.v) (4 * s.v + 9) 8 = some true ∧
        (∀ r c, c < 8 * stride s.v → ¬ zone r c →
          moduleAt t.out (stride s.v) r c = moduleAt s.out (stride s.v) r c) ∧
        (∀ a, (∀ r c, zone r c → moduleIndex (stride s.v) r c ≠ a) → t.out.read a = s.out.read a))

/-- spec/45_matrix_builder.md R237, R238: MXFMT writes bit i of 0x77C4 to both of its cells. -/
def Obligations.MxfmtWritesBothCopies : Prop :=
  ∀ s : State,
    let w := width s.v
    let first := [(0, 8), (1, 8), (2, 8), (3, 8), (4, 8), (5, 8), (7, 8), (8, 8), (8, 7), (8, 5), (8, 4), (8, 3), (8, 2),
      (8, 1), (8, 0)]
    let second := [(8, w - 1), (8, w - 2), (8, w - 3), (8, w - 4), (8, w - 5), (8, w - 6), (8, w - 7), (8, w - 8),
      (w - 7, 8), (w - 6, 8), (w - 5, 8), (w - 4, 8), (w - 3, 8), (w - 2, 8), (w - 1, 8)]
    decode 0x00000056#32 = .ok .mxfmt ∧
    (s.phase ≠ .placed → exec .mxfmt s = .next (s.takeFault .sequence)) ∧
    (s.phase = .placed → s.outSize.toNat < img s.v → exec .mxfmt s = .next (s.takeFault .bufferTooSmall)) ∧
    (s.phase = .placed → img s.v ≤ s.outSize.toNat → 1 ≤ s.v → s.out.written (img s.v) →
      ∃ t, exec .mxfmt s = .next t ∧ t = { s with out := t.out, phase := .formatted, result := 0x77C4 } ∧
        (∀ i rc, first[i]? = some rc ∨ second[i]? = some rc →
          moduleAt t.out (stride s.v) rc.1 rc.2 = some ((0b111011111000100 : Nat).testBit i)) ∧
        (∀ r c, c < 8 * stride s.v → (r, c) ∉ first ++ second →
          moduleAt t.out (stride s.v) r c = moduleAt s.out (stride s.v) r c) ∧
        (∀ a, (∀ rc ∈ first ++ second, moduleIndex (stride s.v) rc.1 rc.2 ≠ a) → t.out.read a = s.out.read a))

/-- spec/45_matrix_builder.md R241, R242: MXVER writes bit i of VER(v) to both version-information blocks from version 7 on,
and nothing below it. -/
def Obligations.MxverWritesBothBlocks : Prop :=
  ∀ s : State,
    let w := width s.v
    let zone := fun r c => 7 ≤ s.v ∧ ∃ i < 18, (r = i / 3 ∧ c = w - 11 + i % 3) ∨ (r = w - 11 + i % 3 ∧ c = i / 3)
    decode 0x00000057#32 = .ok .mxver ∧
    (s.phase ≠ .formatted → exec .mxver s = .next (s.takeFault .sequence)) ∧
    (s.phase = .formatted → s.outSize.toNat < img s.v → exec .mxver s = .next (s.takeFault .bufferTooSmall)) ∧
    (s.phase = .formatted → img s.v ≤ s.outSize.toNat → 1 ≤ s.v → s.v ≤ 40 → s.out.written (img s.v) →
      ∃ t, exec .mxver s = .next t ∧
        t = { s with out := t.out, phase := .versionInfo,
                     result := if 7 ≤ s.v then BitVec.ofNat 32 (verWord s.v) else 0 } ∧
        (7 ≤ s.v → ∀ i < 18,
          moduleAt t.out (stride s.v) (i / 3) (w - 11 + i % 3) = some ((verWord s.v).testBit i) ∧
          moduleAt t.out (stride s.v) (w - 11 + i % 3) (i / 3) = some ((verWord s.v).testBit i)) ∧
        (∀ r c, c < 8 * stride s.v → ¬ zone r c →
          moduleAt t.out (stride s.v) r c = moduleAt s.out (stride s.v) r c) ∧
        (∀ a, (∀ r c, zone r c → moduleIndex (stride s.v) r c ≠ a) → t.out.read a = s.out.read a))

/-- spec/45_matrix_builder.md R213, R237, R241: the 30 format cells and the 36 version-information cells are exactly the
Reserved cells, and no alignment pattern overlaps a Reserved area or the dark module. -/
def Obligations.ReservedCellsAreTheInformationCells : Prop :=
  ∀ v, 1 ≤ v → v ≤ 40 → ∀ r c, r < width v → c < width v →
    (cellClass v r c = .reserved ↔
      (∃ i < 15, (r, c) = fmtCell1 i ∨ (r, c) = fmtCell2 v i) ∨
        (7 ≤ v ∧ ∃ i < 18, (r, c) = (i / 3, width v - 11 + i % 3) ∨ (r, c) = (width v - 11 + i % 3, i / 3))) ∧
    (onAlignment v r c = true → cellClass v r c = .function ∧ ¬ (r = width v - 8 ∧ c = 8))

/-- spec/45_matrix_builder.md R225, R226, R227: the address generator lists the bytes in the order of the two round-robin
loops. -/
def Obligations.StreamIsTheRoundRobin : Prop :=
  ∀ v, 1 ≤ v → v ≤ 40 → (List.range (tot v)).map (streamIndex v) = roundRobin v

/-- spec/45_matrix_builder.md R231: the cell order lists every Data cell exactly once, and in the order of the walk. -/
def Obligations.CellOrderIsTheWalk : Prop :=
  ∀ v, 1 ≤ v → v ≤ 40 →
    (∀ r c, (r, c) ∈ cellOrder v ↔ (r < width v ∧ c < width v) ∧ cellClass v r c = .data) ∧
      (cellOrder v).Pairwise walkedBefore ∧ (∀ x y, walkedBefore x y → x ≠ y)

/-- spec/45_matrix_builder.md R232, R233: MXDATA writes bit 7 - (i mod 8) of Stream(v, i div 8) to the i-th cell of the walk;
the remainder cells and all other modules keep their values. The clause on INTERNAL speaks of states that no run reaches
(`InternalIsUnreachable`). -/
def Obligations.MxdataPlacesTheStream : Prop :=
  ∀ s : State,
    let used := fun r c => ∃ i < 8 * tot s.v, (cellOrder s.v)[i]? = some (r, c)
    decode 0x00000055#32 = .ok .mxdata ∧
    (s.phase ≠ .reserved → exec .mxdata s = .next (s.takeFault .sequence)) ∧
    (s.phase = .reserved → s.outSize.toNat < img s.v → exec .mxdata s = .next (s.takeFault .bufferTooSmall)) ∧
    (s.phase = .reserved → img s.v ≤ s.outSize.toNat → s.tmpSize.toNat < tot s.v →
      exec .mxdata s = .next (s.takeFault .bufferTooSmall)) ∧
    (s.phase = .reserved → img s.v ≤ s.outSize.toNat → tot s.v ≤ s.tmpSize.toNat →
      ¬ (8 * tot s.v ≤ (cellOrder s.v).length ∧ (cellOrder s.v).length < 8 * tot s.v + 8) →
      exec .mxdata s = .next (s.takeFault .internal)) ∧
    (s.phase = .reserved → img s.v ≤ s.outSize.toNat → tot s.v ≤ s.tmpSize.toNat → 1 ≤ s.v → s.v ≤ 40 →
      s.out.written (img s.v) → s.tmp.written (tot s.v) →
      ∃ t, exec .mxdata s = .next t ∧
        t = { s with out := t.out, phase := .placed, result := BitVec.ofNat 32 (8 * tot s.v) } ∧
        (∀ i rc x, i < 8 * tot s.v → (cellOrder s.v)[i]? = some rc → s.tmp.read (streamIndex s.v (i / 8)) = some x →
          moduleAt t.out (stride s.v) rc.1 rc.2 = some (x.getLsbD (7 - i % 8))) ∧
        (∀ r c, c < 8 * stride s.v → ¬ used r c →
          moduleAt t.out (stride s.v) r c = moduleAt s.out (stride s.v) r c) ∧
        (∀ a, (∀ r c, used r c → moduleIndex (stride s.v) r c ≠ a) → t.out.read a = s.out.read a))

/-- spec/45_matrix_builder.md R228, R243: ILVRD and CLASS, with their checks in order. -/
def Obligations.IlvrdAndClass : Prop :=
  ∀ (s : State) (i : BitVec 16) (r c x : Byte),
    (decode (assembleI 0x58#8 i) = .ok (.ilvrd i) ∧ decode (assembleAB 0x59#8 r c) = .ok (.cellclass r c)) ∧
    (s.phase.toNat < 4 → exec (.ilvrd i) s = .next (s.takeFault .sequence)) ∧
    (4 ≤ s.phase.toNat → tot s.v ≤ i.toNat → exec (.ilvrd i) s = .next (s.takeFault .badOperand)) ∧
    (4 ≤ s.phase.toNat → i.toNat < tot s.v → s.tmpSize.toNat < tot s.v →
      exec (.ilvrd i) s = .next (s.takeFault .bufferTooSmall)) ∧
    (4 ≤ s.phase.toNat → i.toNat < tot s.v → tot s.v ≤ s.tmpSize.toNat →
      s.tmp.read (streamIndex s.v i.toNat) = some x →
      exec (.ilvrd i) s = .next { s with result := x.setWidth 32 }) ∧
    (s.phase = .idle → exec (.cellclass r c) s = .next (s.takeFault .sequence)) ∧
    (s.phase ≠ .idle → ¬ (r.toNat < width s.v ∧ c.toNat < width s.v) →
      exec (.cellclass r c) s = .next (s.takeFault .badOperand)) ∧
    (s.phase ≠ .idle → r.toNat < width s.v ∧ c.toNat < width s.v →
      ∃ t, exec (.cellclass r c) s = .next t ∧ t = { s with result := t.result } ∧
        (cellClass s.v r.toNat c.toNat = .function → t.result = 0) ∧
        (cellClass s.v r.toNat c.toNat = .reserved → t.result = 1) ∧
        (cellClass s.v r.toNat c.toNat = .data → t.result = 2))

/-- spec/46_masker.md R260, R261: MASK inverts exactly the Data cells whose row plus column is even. -/
def Obligations.MaskInvertsTheEvenDataCells : Prop :=
  ∀ s : State,
    let zone := fun r c => (r < width s.v ∧ c < width s.v) ∧ cellClass s.v r c = .data ∧ (r + c) % 2 = 0
    decode 0x00000060#32 = .ok .mask ∧
    (s.phase ≠ .versionInfo → exec .mask s = .next (s.takeFault .sequence)) ∧
    (s.phase = .versionInfo → s.outSize.toNat < img s.v → exec .mask s = .next (s.takeFault .bufferTooSmall)) ∧
    (s.phase = .versionInfo → img s.v ≤ s.outSize.toNat → 1 ≤ s.v → s.out.written (img s.v) →
      ∃ t, exec .mask s = .next t ∧
        t = { s with out := t.out, phase := .done, result := BitVec.ofNat 32 (width s.v) } ∧
        (∀ r c, zone r c → moduleAt t.out (stride s.v) r c = (moduleAt s.out (stride s.v) r c).map (!·)) ∧
        (∀ r c, c < 8 * stride s.v → ¬ zone r c →
          moduleAt t.out (stride s.v) r c = moduleAt s.out (stride s.v) r c) ∧
        (∀ a, (∀ r c, zone r c → moduleIndex (stride s.v) r c ≠ a) → t.out.read a = s.out.read a))

/-- spec/46_masker.md R263: the mask applied twice is the bitmap as before, byte for byte; it changes no cell that is not
Data, and changes exactly the Data cells with even row plus column. -/
def Obligations.MaskIsItsOwnInverse : Prop :=
  ∀ (v : Nat) (m m' m'' : Memory), flipAll (stride v) m (maskedCells v) = .ok m' →
    flipAll (stride v) m' (maskedCells v) = .ok m'' →
    (∀ a, m''.read a = m.read a) ∧
      ∀ r c, r < width v → c < width v →
        (moduleAt m' (stride v) r c ≠ moduleAt m (stride v) r c ↔
          cellClass v r c = .data ∧ (r + c) % 2 = 0 ∧ (m.read (moduleIndex (stride v) r c)).isSome = true)

/-- spec/20_memory.md R60: a row has 3 padding bits for odd v and 7 for even v; an MXINIT that completes makes them 0, every
other command but GENERATE leaves them, and a GENERATE that completes leaves them 0. -/
def Obligations.PaddingBitsStayZero : Prop :=
  (∀ v, 8 * stride v = width v + (if v % 2 = 1 then 3 else 7)) ∧
  ∀ (i : Instr) (s t : State), exec i s = .next t → ∀ r c, r < width s.v → width s.v ≤ c → c < 8 * stride s.v →
    (i ≠ .mxinit → i ≠ .generate → moduleAt t.out (stride s.v) r c = moduleAt s.out (stride s.v) r c) ∧
    (i = .mxinit → t.err = false → moduleAt t.out (stride s.v) r c = some false) ∧
    (i = .mxinit → s.err = false → t.err = true → moduleAt t.out (stride s.v) r c = moduleAt s.out (stride s.v) r c) ∧
    (i = .generate → s.err = false → t.err = false → ∀ r' c', r' < width t.v → width t.v ≤ c' → c' < 8 * stride t.v →
      moduleAt t.out (stride t.v) r' c' = some false)

/-! ### The generator -/

/-- spec/47_generator.md R271, R272, R273: GENERATE makes its three checks, then has the effect of its commands issued one
after another; a fault in the sequence stops it there, and RESULT is then 0, else the width. The last clause is the model's stop at
a source byte that the host has not given (notes/assumptions/2.md). -/
def Obligations.GenerateIsItsSequence : Prop :=
  ∀ s : State, s.err = false →
    decode 0x00000002#32 = .ok .generate ∧
    (s.outSize.toNat < 4071 ∨ s.tmpSize.toNat < 3706 ∨ s.outSize.toNat < s.dataLen.toNat →
      exec .generate s = .next (s.takeFault .bufferTooSmall)) ∧
    (4071 ≤ s.outSize.toNat → 3706 ≤ s.tmpSize.toNat → s.dataLen.toNat ≤ s.outSize.toNat →
      (∀ t, runCommands (generatorSequence s.up) s = .next t →
        (t.err = true → t.result = 0 ∧ exec .generate s = .next t) ∧
        (t.err = false → exec .generate s = .next { t with result := BitVec.ofNat 32 (width t.v) })) ∧
      (∀ f, runCommands (generatorSequence s.up) s = .fault f → exec .generate s = .fault f))

/-- spec/47_generator.md R273, R277: when the input fits a version, the buffers have the version-40 minima and the host has
given the source bytes (digits when a URL is present), GENERATE completes in the state that R273 gives, and reading the
bitmap back gives the segments that went in (R277, spec/95_test_vectors.md T7; the reader is `readSymbol`); and the states that
its two other faults leave: INPUT_TOO_LARGE nothing changed, BAD_DIGIT the URL segment packed. -/
def Obligations.GenerateCompletes : Prop :=
  ∀ s : State, s.err = false → 4071 ≤ s.outSize.toNat → 3706 ≤ s.tmpSize.toNat → s.dataLen.toNat ≤ s.outSize.toNat →
    (∀ v, selectVersion s.segments = some v → s.data.written s.dataLen.toNat →
      (s.up = true → s.url.written s.urlLen.toNat) →
      (s.up = true → ∀ i < s.dataLen.toNat, ∀ x, s.data.read i = some x → isDigit x = true) →
      ∃ t, exec .generate s = .next t ∧ t.v = v ∧ 1 ≤ v ∧ v ≤ 40 ∧
        t = { s with phase := .done, version := t.version, bitLen := BitVec.ofNat 32 (8 * cap v),
                     rsNext := BitVec.ofNat 32 (nblk v), rem := t.rem, tmp := t.tmp, out := t.out,
                     result := BitVec.ofNat 32 (width v) } ∧
        t.tmp.written (tot v) ∧ t.out.written (img v) ∧
        (∀ i < (cat v).k, t.tmp.read (eccOff v (nblk v - 1) + i) = some (remAt t.rem i)) ∧
        (∀ a, tot v ≤ a → t.tmp.read a = s.tmp.read a) ∧ (∀ a, img v ≤ a → t.out.read a = s.out.read a) ∧
        readSymbol t.result.toNat t.out = s.payload) ∧
    (selectVersion s.segments = none → exec .generate s = .next (s.takeFault .inputTooLarge)) ∧
    (∀ v, selectVersion s.segments = some v → s.up = true → s.data.written s.dataLen.toNat →
      s.url.written s.urlLen.toNat → (∃ i < s.dataLen.toNat, ∃ x, s.data.read i = some x ∧ isDigit x = false) →
      let n := s.urlLen.toNat
      let last := segBits .binary n v
      ∃ t, exec .generate s = .next t ∧ t.v = v ∧
        t = { s with err := true, errCode := some .badDigit, phase := .packing, version := t.version,
                     bitLen := BitVec.ofNat 32 last, tmp := t.tmp, result := 0 } ∧
        (∀ p < 4 + lenBits .binary v, streamBit t.tmp p = some (headerBit .binary n v p)) ∧
        (∀ p < 8 * n,
          streamBit t.tmp (4 + lenBits .binary v + p) = some (binaryBit (fun i => (s.url.read i).getD 0) p)) ∧
        (∀ q, last ≤ q → q / 8 = (last - 1) / 8 → streamBit t.tmp q = some false) ∧
        (∀ a, last ≤ 8 * a → t.tmp.read a = s.tmp.read a))

/-- spec/47_generator.md R277, spec/00_scope.md R14: two GENERATEs with equal inputs give equal VERSION, RESULT, bitmap and
codewords, whatever TMP, OUT, REM and PHASE held before. -/
def Obligations.GenerateIsDeterministic : Prop :=
  ∀ s₁ s₂ t₁ t₂ : State, s₁.err = false → s₂.err = false →
    4071 ≤ s₁.outSize.toNat → 3706 ≤ s₁.tmpSize.toNat → s₁.dataLen.toNat ≤ s₁.outSize.toNat →
    4071 ≤ s₂.outSize.toNat → 3706 ≤ s₂.tmpSize.toNat → s₂.dataLen.toNat ≤ s₂.outSize.toNat →
    s₁.up = s₂.up → s₁.urlLen = s₂.urlLen → s₁.dataLen = s₂.dataLen →
    (∀ a < s₁.urlLen.toNat, s₁.url.read a = s₂.url.read a) →
    (∀ a < s₁.dataLen.toNat, s₁.data.read a = s₂.data.read a) →
    exec .generate s₁ = .next t₁ → exec .generate s₂ = .next t₂ →
    t₁.err = t₂.err ∧ (t₁.err = true → t₁.errCode = t₂.errCode) ∧ t₁.result = t₂.result ∧
      (t₁.err = false → t₁.version = t₂.version ∧ (∀ a < img t₁.v, t₁.out.read a = t₂.out.read a) ∧
        (∀ a < tot t₁.v, t₁.tmp.read a = t₂.tmp.read a))

/-- spec/47_generator.md R274, R275: MAXSZ answers MaxSz(v, URL_LEN) for every v, writes only RESULT and never faults. -/
def Obligations.MaxszAnswersTheBudget : Prop :=
  ∀ (v : Byte) (s : State),
    decode (assembleAB 0x03#8 v 0) = .ok (.maxsz v) ∧
    (v.toNat < 1 ∨ 40 < v.toNat → exec (.maxsz v) s = .next { s with result := 0 }) ∧
    (1 ≤ v.toNat → v.toNat ≤ 40 →
      (s.urlLen = 0 → ∃ t, exec (.maxsz v) s = .next t ∧ t.result.toNat + 3 = cap v.toNat ∧
        t = { s with result := t.result }) ∧
      (s.urlLen ≠ 0 → cap v.toNat ≤ s.urlLen.toNat + 5 → exec (.maxsz v) s = .next { s with result := 0 }) ∧
      (s.urlLen ≠ 0 → s.urlLen.toNat + 5 < cap v.toNat → ∃ t, exec (.maxsz v) s = .next t ∧
        t.result.toNat = (cap v.toNat - s.urlLen.toNat - 5) * 39 / 40 ∧ t = { s with result := t.result }))
end

