-- ==== Sys2Proof/Laws/Attempt.lean ====
section
/-! SUPPORT. How a command's body ends, said once for each building block: a check, a piece of memory work, a sequence;
and what each end means for the machine. A proof about a command rewrites with these and never unfolds `Except`. -/

namespace Sys2Proof.Machine

variable {α : Type}

@[simp] theorem ok_bind (x : α) {β : Type} (k : α → Except Stop β) : (Except.ok x >>= k) = k x := rfl

@[simp] theorem error_bind (e : Stop) {β : Type} (k : α → Except Stop β) : (Except.error e >>= k) = .error e := rfl

theorem require_true {c : Prop} [Decidable c] (f : FaultCode) (s : State) (h : c) : require c f s = .ok () := if_pos h

theorem require_false {c : Prop} [Decidable c] (f : FaultCode) (s : State) (h : ¬ c) :
    require c f s = .error (.raise f s) := if_neg h

@[simp] theorem orHalt_ok (x : α) : orHalt (.ok x) = .ok x := rfl

@[simp] theorem orHalt_error (f : Fault) : orHalt (α := α) (.error f) = .error (.halt f) := rfl

/-! ### A check -/

theorem require_bind_ok {c : Prop} [Decidable c] {f : FaultCode} {s : State} {k : Unit → Except Stop α} {x : α} :
    (require c f s >>= k) = .ok x ↔ c ∧ k () = .ok x := by
  by_cases h : c <;> simp [require, h]

theorem require_bind_raise {c : Prop} [Decidable c] {f g : FaultCode} {s s' : State} {k : Unit → Except Stop α} :
    (require c f s >>= k) = .error (.raise g s') ↔ (¬ c ∧ g = f ∧ s' = s) ∨ (c ∧ k () = .error (.raise g s')) := by
  by_cases h : c
  · simp [require, h]
  · simp only [require, h, if_false, error_bind, Except.error.injEq, Stop.raise.injEq, false_and, or_false,
      not_false_eq_true, true_and]
    exact ⟨fun ⟨h1, h2⟩ => ⟨h1.symm, h2.symm⟩, fun ⟨h1, h2⟩ => ⟨h1.symm, h2.symm⟩⟩

theorem require_bind_halt {c : Prop} [Decidable c] {f : FaultCode} {s : State} {k : Unit → Except Stop α} {g : Fault} :
    (require c f s >>= k) = .error (.halt g) ↔ c ∧ k () = .error (.halt g) := by
  by_cases h : c <;> simp [require, h]

/-! ### Memory work -/

theorem orHalt_bind_ok {β : Type} {e : Except Fault β} {k : β → Except Stop α} {x : α} :
    (orHalt e >>= k) = .ok x ↔ ∃ y, e = .ok y ∧ k y = .ok x := by
  cases e <;> simp

theorem orHalt_bind_raise {β : Type} {e : Except Fault β} {k : β → Except Stop α} {g : FaultCode} {s' : State} :
    (orHalt e >>= k) = .error (.raise g s') ↔ ∃ y, e = .ok y ∧ k y = .error (.raise g s') := by
  cases e <;> simp

theorem orHalt_bind_halt {β : Type} {e : Except Fault β} {k : β → Except Stop α} {g : Fault} :
    (orHalt e >>= k) = .error (.halt g) ↔ e = .error g ∨ ∃ y, e = .ok y ∧ k y = .error (.halt g) := by
  cases e <;> simp

/-! ### A sequence of bodies -/

theorem attempt_bind_ok {β : Type} {a : Except Stop β} {k : β → Except Stop α} {x : α} :
    (a >>= k) = .ok x ↔ ∃ y, a = .ok y ∧ k y = .ok x := by
  cases a <;> simp

theorem attempt_bind_raise {β : Type} {a : Except Stop β} {k : β → Except Stop α} {g : FaultCode} {s' : State} :
    (a >>= k) = .error (.raise g s') ↔
      a = .error (.raise g s') ∨ ∃ y, a = .ok y ∧ k y = .error (.raise g s') := by
  cases a <;> simp

theorem attempt_bind_halt {β : Type} {a : Except Stop β} {k : β → Except Stop α} {g : Fault} :
    (a >>= k) = .error (.halt g) ↔ a = .error (.halt g) ∨ ∃ y, a = .ok y ∧ k y = .error (.halt g) := by
  cases a <;> simp

/-! ### What an end means -/

@[simp] theorem finish_ok (s : State) : finish (.ok s) = .next s := rfl

@[simp] theorem finish_raise (c : FaultCode) (s : State) : finish (.error (.raise c s)) = .next (s.takeFault c) := rfl

@[simp] theorem finish_halt (f : Fault) : finish (.error (.halt f)) = .fault f := rfl

/-- A body leads to a next state in two ways: it completes, or its fault is taken. -/
theorem finish_next {a : Attempt} {t : State} :
    finish a = .next t ↔ a = .ok t ∨ ∃ c s, a = .error (.raise c s) ∧ t = s.takeFault c := by
  rcases a with (⟨c, s⟩ | f) | s
  · simp only [finish, Host.Outcome.next.injEq, reduceCtorEq, false_or, Except.error.injEq, Stop.raise.injEq]
    exact ⟨fun h => ⟨c, s, ⟨rfl, rfl⟩, h.symm⟩, fun ⟨_, _, ⟨h1, h2⟩, h3⟩ => by rw [h3, h1, h2]⟩
  · simp [finish]
  · simp [finish]

theorem finish_fault {a : Attempt} {f : Fault} : finish a = .fault f ↔ a = .error (.halt f) := by
  rcases a with (⟨c, s⟩ | g) | s <;> simp [finish]

theorem finish_refused {a : Attempt} {r : Refusal} : finish a ≠ .refused r := by
  rcases a with (⟨c, s⟩ | g) | s <;> simp [finish]

end Sys2Proof.Machine
end

