-- ==== Sys2Proof/Laws/Memory.lean ====
section
/-! SUPPORT. The laws of a memory space: what a read finds after a write, a run of writes, and a fetch of several bytes;
and that every operation keeps the canonical form. -/

namespace Sys2Proof.Machine

/-! ### Read after write -/

@[simp] theorem Memory.read_nil (a : Nat) : Memory.read [] a = none := rfl

theorem Memory.read_cons (k : Nat) (x : Byte) (m : Memory) (a : Nat) :
    Memory.read ((k, x) :: m) a = if a = k then some x else Memory.read m a := rfl

theorem Memory.read_write (m : Memory) (a b : Nat) (x : Byte) :
    (m.write a x).read b = if b = a then some x else m.read b := by
  induction m with
  | nil => rfl
  | cons e m ih =>
    obtain ⟨k, y⟩ := e
    unfold Memory.write
    split
    · exact Memory.read_cons a x _ b
    · split
      · subst a
        simp only [Memory.read_cons]
        split <;> rfl
      · simp only [Memory.read_cons, ih]
        by_cases hb : b = k
        · subst hb
          simp [show ¬ b = a by omega]
        · simp [hb]

@[simp] theorem Memory.read_write_same (m : Memory) (a : Nat) (x : Byte) : (m.write a x).read a = some x := by
  simp [Memory.read_write]

theorem Memory.read_write_other (m : Memory) {a b : Nat} (x : Byte) (h : b ≠ a) : (m.write a x).read b = m.read b := by
  simp [Memory.read_write, h]

/-! ### The canonical form -/

theorem Memory.wf_nil : Memory.wf [] := ⟨List.Pairwise.nil, by simp⟩

theorem Memory.mem_write {m : Memory} {a : Nat} {x : Byte} {e : Host.Cell} (h : e ∈ m.write a x) :
    e = (a, x) ∨ e ∈ m := by
  induction m with
  | nil => simpa [Memory.write] using h
  | cons d m ih =>
    obtain ⟨k, y⟩ := d
    unfold Memory.write at h
    split at h
    · simpa using h
    · split at h
      · simp only [List.mem_cons] at h ⊢
        tauto
      · simp only [List.mem_cons] at h ⊢
        rcases h with h | h
        · tauto
        · rcases ih h with h | h <;> tauto

theorem Memory.write_wf {m : Memory} {a : Nat} (x : Byte) (hm : m.wf) (ha : a < Config.indexBound) :
    (m.write a x).wf := by
  refine ⟨?_, fun e he => ?_⟩
  · have hp := hm.1
    clear hm
    induction m with
    | nil => simp [Memory.write]
    | cons d m ih =>
      obtain ⟨k, y⟩ := d
      rw [List.pairwise_cons] at hp
      unfold Memory.write
      split
      · rename_i hk
        refine List.pairwise_cons.2 ⟨fun e he => ?_, List.pairwise_cons.2 hp⟩
        rcases List.mem_cons.1 he with rfl | he
        · exact hk
        · exact hk.trans (hp.1 e he)
      · split
        · rename_i h1 h2
          subst h2
          exact List.pairwise_cons.2 ⟨hp.1, hp.2⟩
        · rename_i h1 h2
          refine List.pairwise_cons.2 ⟨fun e he => ?_, ih hp.2⟩
          rcases Memory.mem_write he with rfl | he
          · exact Nat.lt_of_le_of_ne (Nat.le_of_not_lt h1) (fun h => h2 h.symm)
          · exact hp.1 e he
  · rcases Memory.mem_write he with rfl | he
    · exact ha
    · exact hm.2 e he

/-! ### Runs of writes -/

theorem Memory.read_writeRun (xs : List Byte) (m : Memory) (a b : Nat) :
    (m.writeRun a xs).read b = if a ≤ b ∧ b < a + xs.length then xs[b - a]? else m.read b := by
  induction xs generalizing m a with
  | nil =>
    simp only [Memory.writeRun, List.length_nil, Nat.add_zero]
    rw [if_neg (by omega)]
  | cons x xs ih =>
    simp only [Memory.writeRun, ih, Memory.read_write, List.length_cons]
    by_cases h1 : a + 1 ≤ b ∧ b < a + 1 + xs.length
    · rw [if_pos h1, if_pos (by omega), show b - a = (b - (a + 1)) + 1 by omega, List.getElem?_cons_succ]
    · rw [if_neg h1]
      by_cases h2 : b = a
      · subst h2
        simp
      · rw [if_neg h2, if_neg (by omega)]

theorem Memory.writeRun_wf (xs : List Byte) {m : Memory} {a : Nat} (hm : m.wf) (ha : a + xs.length ≤ Config.indexBound) :
    (m.writeRun a xs).wf := by
  induction xs generalizing m a with
  | nil => exact hm
  | cons x xs ih =>
    simp only [List.length_cons] at ha
    exact ih (Memory.write_wf x hm (by omega)) (by omega)

/-! ### Fetches -/

theorem Memory.fetch_ok {sp : Space} {m : Memory} {a : Nat} {x : Byte} :
    m.fetch sp a = .ok x ↔ m.read a = some x := by
  unfold Memory.fetch
  split <;> simp_all

theorem Memory.fetch_error {sp : Space} {m : Memory} {a : Nat} {f : Fault} :
    m.fetch sp a = .error f ↔ m.read a = none ∧ f = .unwritten sp a := by
  unfold Memory.fetch
  split
  · rename_i x hx
    simp [hx]
  · rename_i hx
    simp [hx, eq_comm]

theorem Memory.fetch_of_isSome {sp : Space} {m : Memory} {a : Nat} (h : (m.read a).isSome) :
    m.fetch sp a = .ok ((m.read a).get h) := by
  rw [Memory.fetch_ok]
  simp

/-- What `fetchAll` answers when every listed byte has a value. -/
theorem Memory.fetchAll_ok {sp : Space} {m : Memory} {as : List Nat} (h : ∀ a ∈ as, (m.read a).isSome) :
    m.fetchAll sp as = .ok (as.map fun a => (m.read a).getD 0) := by
  induction as with
  | nil => rfl
  | cons a as ih =>
    have ha := h a (by simp)
    obtain ⟨x, hx⟩ := Option.isSome_iff_exists.1 ha
    simp [Memory.fetchAll, Memory.fetch_ok.2 hx, ih fun b hb => h b (by simp [hb]), hx]

/-- Everything a `fetchAll` that answers bytes can have done. -/
theorem Memory.fetchAll_inv {sp : Space} {m : Memory} {as : List Nat} {xs : List Byte}
    (h : m.fetchAll sp as = .ok xs) : (∀ a ∈ as, (m.read a).isSome) ∧ xs = as.map fun a => (m.read a).getD 0 := by
  have key : ∀ a ∈ as, (m.read a).isSome := by
    induction as generalizing xs with
    | nil => simp
    | cons a as ih =>
      unfold Memory.fetchAll at h
      split at h
      · cases h
      · rename_i x hx
        split at h
        · cases h
        · rename_i ys hys
          intro b hb
          rcases List.mem_cons.1 hb with rfl | hb
          · simp [Memory.fetch_ok.1 hx]
          · exact ih hys b hb
  refine ⟨key, ?_⟩
  rw [Memory.fetchAll_ok key] at h
  exact (Except.ok.inj h).symm

theorem Memory.fetchAll_length {sp : Space} {m : Memory} {as : List Nat} {xs : List Byte}
    (h : m.fetchAll sp as = .ok xs) : xs.length = as.length := by
  rw [(Memory.fetchAll_inv h).2, List.length_map]

/-- A fetch that does not answer stops on a byte of that space that has no value. -/
theorem Memory.fetchAll_error {sp : Space} {m : Memory} {as : List Nat} {f : Fault}
    (h : m.fetchAll sp as = .error f) : ∃ a ∈ as, m.read a = none ∧ f = .unwritten sp a := by
  induction as with
  | nil => cases h
  | cons a as ih =>
    unfold Memory.fetchAll at h
    split at h
    · rename_i g hg
      cases h
      exact ⟨a, by simp, Memory.fetch_error.1 hg⟩
    · split at h
      · rename_i g hg
        cases h
        obtain ⟨b, hb, hb'⟩ := ih hg
        exact ⟨b, by simp [hb], hb'⟩
      · cases h

/-! ### The space accessors -/

@[simp] theorem State.mem_url (s : State) : s.mem .url = s.url := rfl
@[simp] theorem State.mem_data (s : State) : s.mem .data = s.data := rfl
@[simp] theorem State.mem_tmp (s : State) : s.mem .tmp = s.tmp := rfl
@[simp] theorem State.mem_out (s : State) : s.mem .out = s.out := rfl
@[simp] theorem State.setMem_url (s : State) (m : Memory) : s.setMem .url m = { s with url := m } := rfl
@[simp] theorem State.setMem_data (s : State) (m : Memory) : s.setMem .data m = { s with data := m } := rfl
@[simp] theorem State.setMem_tmp (s : State) (m : Memory) : s.setMem .tmp m = { s with tmp := m } := rfl
@[simp] theorem State.setMem_out (s : State) (m : Memory) : s.setMem .out m = { s with out := m } := rfl

theorem State.mem_setMem_same (s : State) (sp : Space) (m : Memory) : (s.setMem sp m).mem sp = m := by
  cases sp <;> rfl

theorem State.mem_setMem_other (s : State) {sp sp' : Space} (m : Memory) (h : sp' ≠ sp) :
    (s.setMem sp m).mem sp' = s.mem sp' := by
  cases sp <;> cases sp' <;> first | rfl | exact absurd rfl h

/-! ### What the host finds at an index -/

theorem State.hostByte_of_read {s : State} {sp : Space} {a : Nat} {x : Byte} (h : (s.mem sp).read a = some x) :
    s.hostByte sp a = x := by
  rw [State.hostByte, h]

theorem State.hostByte_of_unwritten {s : State} {sp : Space} {a : Nat} (h : (s.mem sp).read a = none) :
    s.hostByte sp a = Config.unwrittenByte s.resets sp.toNat a := by
  rw [State.hostByte, h]

end Sys2Proof.Machine
end

