-- ==== Sys2Proof/Laws/Bitmap.lean ====
section
/-! SUPPORT. The laws of the bitmap in OUT: what a module reads as after `SetM`, after a list of `SetM`, and after a list
of inversions; and which bytes those leave alone. -/

namespace Sys2Proof.Machine

/-! ### One byte -/

theorem getLsbD_moduleBit (c i : Nat) : (moduleBit c).getLsbD i = decide (i + c % 8 = 7) := by
  have h80 : ∀ n, (0x80#8).getLsbD n = decide (n = 7) := by
    intro n
    by_cases h : n < 8
    · interval_cases n <;> rfl
    · rw [BitVec.getLsbD_of_ge _ _ (by omega)]
      simp; omega
  rw [moduleBit, BitVec.getLsbD_ushiftRight, h80]
  congr 1
  rw [Nat.add_comm]

theorem byteModule_setByteModule (x : Byte) (c d : Nat) (b : Bool) :
    byteModule (setByteModule x c b) d = if d % 8 = c % 8 then b else byteModule x d := by
  have hd : 7 - d % 8 < 8 := by omega
  have hb : (if b then moduleBit c else 0#8).getLsbD (7 - d % 8) = (b && decide (7 - d % 8 + c % 8 = 7)) := by
    cases b
    · simp
    · simp [getLsbD_moduleBit c _]
  unfold byteModule setByteModule
  rw [BitVec.getLsbD_or, BitVec.getLsbD_and, BitVec.getLsbD_not, getLsbD_moduleBit c _]
  rw [show ((if b = true then moduleBit c else 0) : Byte) = (if b then moduleBit c else 0#8) from rfl, hb]
  by_cases h : d % 8 = c % 8
  · have : 7 - d % 8 + c % 8 = 7 := by omega
    rw [if_pos h, this]
    simp
  · have : ¬ 7 - d % 8 + c % 8 = 7 := by omega
    simp [h, this, hd]

/-! ### Where a module lies -/

theorem moduleIndex_inj {stride r c r' c' : Nat} (hc : c < 8 * stride) (hc' : c' < 8 * stride)
    (h : moduleIndex stride r c = moduleIndex stride r' c') : r = r' ∧ c / 8 = c' / 8 := by
  unfold moduleIndex at h
  have h1 : c / 8 < stride := by omega
  have h2 : c' / 8 < stride := by omega
  have hr : r = r' := by
    rcases Nat.lt_trichotomy r r' with hlt | heq | hgt
    · have : (r + 1) * stride ≤ r' * stride := Nat.mul_le_mul_right _ hlt
      rw [Nat.add_mul] at this
      omega
    · exact heq
    · have : (r' + 1) * stride ≤ r * stride := Nat.mul_le_mul_right _ hgt
      rw [Nat.add_mul] at this
      omega
  subst hr
  exact ⟨rfl, by omega⟩

theorem moduleIndex_lt {stride w r c : Nat} (hr : r < w) (hc : c < 8 * stride) :
    moduleIndex stride r c < stride * w := by
  unfold moduleIndex
  have h1 : c / 8 < stride := by omega
  have : (r + 1) * stride ≤ w * stride := Nat.mul_le_mul_right _ hr
  rw [Nat.add_mul] at this
  rw [Nat.mul_comm stride w]
  omega

/-! ### One module -/

/-- Everything a `SetM` that answers can have done. -/
theorem setM_inv {m m' : Memory} {stride r c : Nat} {b : Bool} (h : setM m stride r c b = .ok m') :
    ∃ x, m.read (moduleIndex stride r c) = some x ∧
      m' = m.write (moduleIndex stride r c) (setByteModule x c b) := by
  unfold setM at h
  split at h
  · cases h
  · rename_i x hx
    exact ⟨x, Memory.fetch_ok.1 hx, (Except.ok.inj h).symm⟩

theorem setM_ok {m : Memory} {stride r c : Nat} (b : Bool) (h : (m.read (moduleIndex stride r c)).isSome) :
    ∃ m', setM m stride r c b = .ok m' := by
  obtain ⟨x, hx⟩ := Option.isSome_iff_exists.1 h
  exact ⟨_, by rw [setM, Memory.fetch_ok.2 hx]⟩

theorem setM_moduleAt {m m' : Memory} {stride r c : Nat} {b : Bool} (h : setM m stride r c b = .ok m')
    {r' c' : Nat} (hc : c < 8 * stride) (hc' : c' < 8 * stride) :
    moduleAt m' stride r' c' = if r' = r ∧ c' = c then some b else moduleAt m stride r' c' := by
  obtain ⟨x, hx, rfl⟩ := setM_inv h
  unfold moduleAt
  by_cases hi : moduleIndex stride r' c' = moduleIndex stride r c
  · obtain ⟨rfl, hq⟩ := moduleIndex_inj hc' hc hi
    rw [hi, Memory.read_write_same, hx]
    simp only [Option.map_some, byteModule_setByteModule]
    by_cases he : c' = c
    · simp [he]
    · have : ¬ c' % 8 = c % 8 := by omega
      simp [he, this]
  · rw [Memory.read_write_other _ _ hi, if_neg]
    rintro ⟨rfl, rfl⟩
    exact hi rfl

theorem setM_read_other {m m' : Memory} {stride r c : Nat} {b : Bool} (h : setM m stride r c b = .ok m') {a : Nat}
    (ha : a ≠ moduleIndex stride r c) : m'.read a = m.read a := by
  obtain ⟨x, hx, rfl⟩ := setM_inv h
  exact Memory.read_write_other _ _ ha

/-- A `SetM` gives no byte a value that had none. -/
theorem setM_isSome {m m' : Memory} {stride r c : Nat} {b : Bool} (h : setM m stride r c b = .ok m') (a : Nat) :
    (m'.read a).isSome = (m.read a).isSome := by
  obtain ⟨x, hx, rfl⟩ := setM_inv h
  rw [Memory.read_write]
  split
  · rename_i ha
    rw [ha, hx]
    rfl
  · rfl

theorem Memory.read_mem {m : Memory} {a : Nat} {x : Byte} (h : m.read a = some x) : (a, x) ∈ m := by
  induction m with
  | nil => cases h
  | cons e m ih =>
    obtain ⟨k, y⟩ := e
    rw [Memory.read_cons] at h
    split at h
    · rename_i ha
      cases h
      simp [ha]
    · exact List.mem_cons_of_mem _ (ih h)

theorem setM_wf {m m' : Memory} {stride r c : Nat} {b : Bool} (h : setM m stride r c b = .ok m') (hm : m.wf) :
    m'.wf := by
  obtain ⟨x, hx, rfl⟩ := setM_inv h
  exact Memory.write_wf _ hm (hm.2 _ (Memory.read_mem hx))

/-! ### A list of modules -/

theorem plotAll_cons {stride : Nat} {m m' : Memory} {p : Plot} {ps : List Plot}
    (h : plotAll stride m (p :: ps) = .ok m') :
    ∃ m1, setM m stride p.r p.c p.bit = .ok m1 ∧ plotAll stride m1 ps = .ok m' := by
  unfold plotAll at h
  split at h
  · cases h
  · rename_i m1 h1
    exact ⟨m1, h1, h⟩

theorem plotAll_isSome {stride : Nat} {m m' : Memory} {ps : List Plot} (h : plotAll stride m ps = .ok m') (a : Nat) :
    (m'.read a).isSome = (m.read a).isSome := by
  induction ps generalizing m with
  | nil => cases h; rfl
  | cons p ps ih =>
    obtain ⟨m1, h1, h2⟩ := plotAll_cons h
    rw [ih h2, setM_isSome h1]

theorem plotAll_wf {stride : Nat} {m m' : Memory} {ps : List Plot} (h : plotAll stride m ps = .ok m') (hm : m.wf) :
    m'.wf := by
  induction ps generalizing m with
  | nil => cases h; exact hm
  | cons p ps ih =>
    obtain ⟨m1, h1, h2⟩ := plotAll_cons h
    exact ih h2 (setM_wf h1 hm)

/-- Every listed module's byte has a value: the list is written whole. -/
theorem plotAll_ok {stride : Nat} {m : Memory} {ps : List Plot}
    (h : ∀ p ∈ ps, (m.read (moduleIndex stride p.r p.c)).isSome) : ∃ m', plotAll stride m ps = .ok m' := by
  induction ps generalizing m with
  | nil => exact ⟨m, rfl⟩
  | cons p ps ih =>
    obtain ⟨m1, h1⟩ := setM_ok p.bit (h p (by simp))
    obtain ⟨m2, h2⟩ := ih (m := m1) fun q hq => by rw [setM_isSome h1]; exact h q (by simp [hq])
    exact ⟨m2, by rw [plotAll, h1]; exact h2⟩

theorem plotAll_read_other {stride : Nat} {m m' : Memory} {ps : List Plot} (h : plotAll stride m ps = .ok m') {a : Nat}
    (ha : ∀ p ∈ ps, a ≠ moduleIndex stride p.r p.c) : m'.read a = m.read a := by
  induction ps generalizing m with
  | nil => cases h; rfl
  | cons p ps ih =>
    obtain ⟨m1, h1, h2⟩ := plotAll_cons h
    rw [ih h2 fun q hq => ha q (by simp [hq]), setM_read_other h1 (ha p (by simp))]

/-- A module that no entry of the list names keeps its value. -/
theorem plotAll_moduleAt_other {stride : Nat} {m m' : Memory} {ps : List Plot} (h : plotAll stride m ps = .ok m')
    {r c : Nat} (hps : ∀ p ∈ ps, p.c < 8 * stride) (hc : c < 8 * stride) (hn : ∀ p ∈ ps, ¬ (r = p.r ∧ c = p.c)) :
    moduleAt m' stride r c = moduleAt m stride r c := by
  induction ps generalizing m with
  | nil => cases h; rfl
  | cons p ps ih =>
    obtain ⟨m1, h1, h2⟩ := plotAll_cons h
    rw [ih h2 (fun q hq => hps q (by simp [hq])) fun q hq => hn q (by simp [hq]),
      setM_moduleAt h1 (hps p (by simp)) hc, if_neg (hn p (by simp))]

/-- A module that some entry names, and that all entries naming it agree on, holds that bit. -/
theorem plotAll_moduleAt {stride : Nat} {m m' : Memory} {ps : List Plot} (h : plotAll stride m ps = .ok m')
    {r c : Nat} {b : Bool} (hps : ∀ p ∈ ps, p.c < 8 * stride) (hin : ∃ p ∈ ps, r = p.r ∧ c = p.c)
    (hb : ∀ p ∈ ps, r = p.r → c = p.c → p.bit = b) : moduleAt m' stride r c = some b := by
  induction ps generalizing m with
  | nil => obtain ⟨p, hp, _⟩ := hin; cases hp
  | cons p ps ih =>
    obtain ⟨m1, h1, h2⟩ := plotAll_cons h
    by_cases hlater : ∃ q ∈ ps, r = q.r ∧ c = q.c
    · exact ih h2 (fun q hq => hps q (by simp [hq])) hlater fun q hq => hb q (by simp [hq])
    · have hpc : r = p.r ∧ c = p.c := by
        obtain ⟨q, hq, hqe⟩ := hin
        rcases List.mem_cons.1 hq with rfl | hq
        · exact hqe
        · exact absurd ⟨q, hq, hqe⟩ hlater
      have hcs : c < 8 * stride := by rw [hpc.2]; exact hps p (by simp)
      rw [plotAll_moduleAt_other h2 (fun q hq => hps q (by simp [hq])) hcs
        (fun q hq hqe => hlater ⟨q, hq, hqe⟩), setM_moduleAt h1 (hps p (by simp)) hcs, if_pos hpc,
        hb p (by simp) hpc.1 hpc.2]

/-! ### A list of inversions -/

theorem getM_eq {m : Memory} {stride r c : Nat} {b : Bool} :
    getM m stride r c = .ok b ↔ moduleAt m stride r c = some b := by
  unfold getM moduleAt
  cases hx : m.read (moduleIndex stride r c) with
  | none => simp [Memory.fetch, hx]
  | some x => simp [Memory.fetch, hx]

theorem flipAll_cons {stride : Nat} {m m' : Memory} {rc : Nat × Nat} {rest : List (Nat × Nat)}
    (h : flipAll stride m (rc :: rest) = .ok m') :
    ∃ b m1, moduleAt m stride rc.1 rc.2 = some b ∧ setM m stride rc.1 rc.2 (!b) = .ok m1 ∧
      flipAll stride m1 rest = .ok m' := by
  unfold flipAll at h
  split at h
  · cases h
  · rename_i b hb
    split at h
    · cases h
    · rename_i m1 h1
      exact ⟨b, m1, getM_eq.1 hb, h1, h⟩

theorem flipAll_isSome {stride : Nat} {m m' : Memory} {cells : List (Nat × Nat)}
    (h : flipAll stride m cells = .ok m') (a : Nat) : (m'.read a).isSome = (m.read a).isSome := by
  induction cells generalizing m with
  | nil => cases h; rfl
  | cons rc rest ih =>
    obtain ⟨b, m1, _, h1, h2⟩ := flipAll_cons h
    rw [ih h2, setM_isSome h1]

theorem flipAll_wf {stride : Nat} {m m' : Memory} {cells : List (Nat × Nat)} (h : flipAll stride m cells = .ok m')
    (hm : m.wf) : m'.wf := by
  induction cells generalizing m with
  | nil => cases h; exact hm
  | cons rc rest ih =>
    obtain ⟨b, m1, _, h1, h2⟩ := flipAll_cons h
    exact ih h2 (setM_wf h1 hm)

theorem flipAll_ok {stride : Nat} {m : Memory} {cells : List (Nat × Nat)}
    (h : ∀ rc ∈ cells, (m.read (moduleIndex stride rc.1 rc.2)).isSome) : ∃ m', flipAll stride m cells = .ok m' := by
  induction cells generalizing m with
  | nil => exact ⟨m, rfl⟩
  | cons rc rest ih =>
    obtain ⟨x, hx⟩ := Option.isSome_iff_exists.1 (h rc (by simp))
    have hb : moduleAt m stride rc.1 rc.2 = some (byteModule x rc.2) := by simp [moduleAt, hx]
    obtain ⟨m1, h1⟩ := setM_ok (!byteModule x rc.2) (h rc (by simp))
    obtain ⟨m2, h2⟩ := ih (m := m1) fun q hq => by rw [setM_isSome h1]; exact h q (by simp [hq])
    exact ⟨m2, by rw [flipAll, getM_eq.2 hb]; simp only [h1, h2]⟩

theorem flipAll_read_other {stride : Nat} {m m' : Memory} {cells : List (Nat × Nat)}
    (h : flipAll stride m cells = .ok m') {a : Nat} (ha : ∀ rc ∈ cells, a ≠ moduleIndex stride rc.1 rc.2) :
    m'.read a = m.read a := by
  induction cells generalizing m with
  | nil => cases h; rfl
  | cons rc rest ih =>
    obtain ⟨b, m1, _, h1, h2⟩ := flipAll_cons h
    rw [ih h2 fun q hq => ha q (by simp [hq]), setM_read_other h1 (ha rc (by simp))]

/-- A list of inversions that names no cell twice inverts exactly the cells it names. -/
theorem flipAll_moduleAt {stride : Nat} {m m' : Memory} {cells : List (Nat × Nat)}
    (h : flipAll stride m cells = .ok m') (hnd : cells.Nodup) (hcs : ∀ rc ∈ cells, rc.2 < 8 * stride)
    {r c : Nat} (hc : c < 8 * stride) :
    moduleAt m' stride r c = (moduleAt m stride r c).map fun b => xor b (decide ((r, c) ∈ cells)) := by
  induction cells generalizing m with
  | nil => cases h; simp
  | cons rc rest ih =>
    obtain ⟨b, m1, hb, h1, h2⟩ := flipAll_cons h
    rw [List.nodup_cons] at hnd
    rw [ih h2 hnd.2 fun q hq => hcs q (by simp [hq]), setM_moduleAt h1 (hcs rc (by simp)) hc]
    by_cases he : r = rc.1 ∧ c = rc.2
    · have hrc : (r, c) = rc := by rw [he.1, he.2]
      have hn : (r, c) ∉ rest := by rw [hrc]; exact hnd.1
      rw [if_pos he, he.1, he.2, hb]
      rw [he.1, he.2] at hn
      simp [hn]
    · have hne : (r, c) ≠ rc := fun hh => he ⟨by rw [← hh], by rw [← hh]⟩
      rw [if_neg he]
      simp [hne]

end Sys2Proof.Machine
end

