-- ==== Sys2Proof/Laws/Catalog.lean ====
section
/-! SUPPORT. Bounds of the catalog and of the functions derived from it (spec/41_version_catalog.md R132, R133), and the
arithmetic of block addresses (spec/20_memory.md R56). -/

namespace Sys2Proof.Machine

/-! ### The grid and the bitmap -/

theorem width_le_stride (v : Nat) : width v ≤ 8 * stride v := by
  unfold stride
  omega

theorem width_pos (v : Nat) : 17 ≤ width v := by
  unfold width
  omega

theorem img_le {v : Nat} (hv : v ≤ 40) : img v ≤ Config.outMin := by
  have h1 : width v ≤ 177 := by unfold width; omega
  have h2 : stride v ≤ 23 := by unfold stride; omega
  exact (Nat.mul_le_mul h2 h1).trans (by decide)

/-! ### Rows -/

theorem cat_outside {v : Nat} (hv : v = 0 ∨ 40 < v) : cat v = ⟨0, 0, 0, 0⟩ := by
  rcases hv with rfl | hv
  · rfl
  · obtain ⟨u, rfl⟩ : ∃ u, v = u + 1 := ⟨v - 1, by omega⟩
    show catalogRows.getD u _ = _
    rw [List.getD_eq_getElem?_getD, List.getElem?_eq_none (by
      have : catalogRows.length = 40 := rfl
      omega)]
    rfl

/-- What holds of every row (R132 b, c). -/
theorem cat_row_bounds : ∀ v, v < 41 → 1 ≤ v →
    7 ≤ (cat v).k ∧ (cat v).k ≤ 30 ∧ 1 ≤ (cat v).g1b ∧ (cat v).g1b ≤ 20 ∧ 19 ≤ (cat v).g1s ∧ (cat v).g1s ≤ 122 ∧
      (cat v).g2b ≤ 18 ∧ nblk v ≤ 25 := by
  decide

theorem tot_bound : ∀ v, v < 41 → tot v ≤ 3706 ∧ 8 * cap v ≤ 23648 := by
  decide

theorem tot_le (v : Nat) : tot v ≤ Config.tmpMin := by
  by_cases hv : v < 41
  · exact (tot_bound v hv).1
  · simp [tot, cap, nblk, cat_outside (Or.inr (by omega : 40 < v))]

theorem cap_le (v : Nat) : cap v ≤ 2956 := by
  by_cases hv : v < 41
  · have := (tot_bound v hv).2
    omega
  · simp [cap, cat_outside (Or.inr (by omega : 40 < v))]

theorem k_le (v : Nat) : (cat v).k ≤ 30 := by
  by_cases hv : v < 41
  · by_cases h0 : 1 ≤ v
    · exact (cat_row_bounds v hv h0).2.1
    · simp [cat_outside (Or.inl (by omega : v = 0))]
  · simp [cat_outside (Or.inr (by omega : 40 < v))]

theorem nblk_le (v : Nat) : nblk v ≤ 25 := by
  by_cases hv : v < 41
  · by_cases h0 : 1 ≤ v
    · exact (cat_row_bounds v hv h0).2.2.2.2.2.2.2
    · simp [nblk, cat_outside (Or.inl (by omega : v = 0))]
  · simp [nblk, cat_outside (Or.inr (by omega : 40 < v))]

theorem nblk_pos {v : Nat} (h1 : 1 ≤ v) (h2 : v ≤ 40) : 1 ≤ nblk v := by
  have := (cat_row_bounds v (by omega) h1).2.2.1
  unfold nblk
  omega

theorem cap_le_tot (v : Nat) : cap v ≤ tot v := Nat.le_add_right _ _

/-! ### Block addresses -/

/-- The data slice of a block lies inside the data area (R56). -/
theorem blkOff_add_blkLen_le {v b : Nat} (hb : b < nblk v) : blkOff v b + blkLen v b ≤ cap v := by
  unfold blkOff blkLen cap
  unfold nblk at hb
  generalize (cat v).g1b = g1b at *
  generalize (cat v).g1s = g1s at *
  generalize (cat v).g2b = g2b at *
  split
  · rename_i h
    have : (b + 1) * g1s ≤ g1b * g1s := Nat.mul_le_mul_right _ h
    rw [Nat.add_mul] at this
    omega
  · have : (b - g1b + 1) * (g1s + 1) ≤ g2b * (g1s + 1) := Nat.mul_le_mul_right _ (by omega)
    rw [Nat.add_mul] at this
    omega

/-- The ECC slice of a block lies inside the ECC area (R56). -/
theorem eccOff_add_k_le {v b : Nat} (hb : b < nblk v) : eccOff v b + (cat v).k ≤ tot v := by
  unfold eccOff tot
  have : (cat v).k * (b + 1) ≤ (cat v).k * nblk v := Nat.mul_le_mul_left _ hb
  rw [Nat.mul_add] at this
  omega

theorem cap_le_eccOff (v b : Nat) : cap v ≤ eccOff v b := Nat.le_add_right _ _

/-- The slices of consecutive blocks touch (R56: the data slices tile the data area). -/
theorem blkOff_succ (v b : Nat) : blkOff v (b + 1) = blkOff v b + blkLen v b := by
  unfold blkOff blkLen
  generalize (cat v).g1b = g1b
  generalize (cat v).g1s = g1s
  by_cases h1 : b + 1 < g1b
  · rw [if_pos h1, if_pos (by omega), if_pos (by omega), Nat.add_mul]
    omega
  · by_cases h2 : b < g1b
    · have hb : g1b = b + 1 := by omega
      rw [if_neg h1, if_pos h2, if_pos h2, hb, Nat.sub_self, Nat.add_mul]
      omega
    · have hb : b + 1 - g1b = b - g1b + 1 := by omega
      rw [if_neg h1, if_neg h2, if_neg h2, hb, Nat.add_mul]
      omega

end Sys2Proof.Machine
end

