-- ==== Sys2Proof/Laws/Geometry.lean ====
section
/-! SUPPORT. The geometry of the grid: which cells each list of modules names, that all of them lie inside the grid, and the
small facts about alignment coordinates that this rests on (spec/45_matrix_builder.md R211 to R242). -/

namespace Sys2Proof.Machine

/-! ### Lists of cells -/

theorem mem_allCells {v : Nat} {rc : Nat × Nat} : rc ∈ allCells v ↔ rc.1 < width v ∧ rc.2 < width v := by
  obtain ⟨r, c⟩ := rc
  simp [allCells]

theorem allCells_nodup (v : Nat) : (allCells v).Nodup := by
  unfold allCells
  rw [List.nodup_flatMap]
  constructor
  · intro r _
    exact List.nodup_range.map fun a b h => (Prod.mk.inj h).2
  · refine List.Nodup.pairwise_of_forall_ne List.nodup_range fun a _ b _ hab => ?_
    simp only [Function.onFun, List.disjoint_left, List.mem_map]
    rintro x ⟨c, -, rfl⟩ ⟨d, -, h⟩
    exact hab (Prod.mk.inj h).1.symm

theorem mem_reservedCells {v : Nat} {rc : Nat × Nat} :
    rc ∈ reservedCells v ↔ (rc.1 < width v ∧ rc.2 < width v) ∧ cellClass v rc.1 rc.2 = .reserved := by
  simp [reservedCells, mem_allCells]

theorem mem_maskedCells {v : Nat} {rc : Nat × Nat} :
    rc ∈ maskedCells v ↔
      (rc.1 < width v ∧ rc.2 < width v) ∧ cellClass v rc.1 rc.2 = .data ∧ (rc.1 + rc.2) % 2 = 0 := by
  simp [maskedCells, mem_allCells, masked]

theorem maskedCells_nodup (v : Nat) : (maskedCells v).Nodup := (allCells_nodup v).filter _

/-! ### Alignment coordinates -/

/-- Every coordinate is even, at least 6 and at most w - 7 (R213, R219). -/
theorem alignCoords_bounds : ∀ v < 41, ∀ x ∈ alignCoords v, 6 ≤ x ∧ x + 7 ≤ width v ∧ x % 2 = 0 := by
  decide +kernel

theorem alignCoords_outside {v : Nat} (h : 40 < v) : alignCoords v = [] := by
  obtain ⟨n, rfl⟩ : ∃ n, v = n + 1 := ⟨v - 1, by omega⟩
  simp only [alignCoords]
  have hl : alignRows.length = 40 := by decide
  rw [List.getD_eq_getElem?_getD, List.getElem?_eq_none (by omega)]
  rfl

theorem alignCoord_bounds {v x : Nat} (h : x ∈ alignCoords v) : 6 ≤ x ∧ x + 7 ≤ width v ∧ x % 2 = 0 := by
  by_cases hv : v < 41
  · exact alignCoords_bounds v hv x h
  · rw [alignCoords_outside (by omega)] at h
    cases h

theorem mem_centres {v : Nat} {ctr : Nat × Nat} :
    ctr ∈ centres v ↔ ctr.1 ∈ alignCoords v ∧ ctr.2 ∈ alignCoords v ∧ onFinder v ctr.1 ctr.2 = false := by
  obtain ⟨a, b⟩ := ctr
  simp [centres]

/-! ### Every listed module lies inside the grid -/

theorem finderPlots_range {w r0 c0 : Nat} {p : Plot} (h : p ∈ finderPlots w r0 c0) : p.r < w ∧ p.c < w := by
  simp only [finderPlots, List.mem_flatMap, List.mem_map, List.mem_filter, Bool.and_eq_true, decide_eq_true_eq] at h
  obtain ⟨i, -, j, ⟨-, h⟩, rfl⟩ := h
  exact ⟨h.1.1.2, h.2⟩

theorem allFinderPlots_range {v : Nat} {p : Plot} (h : p ∈ allFinderPlots v) : p.r < width v ∧ p.c < width v := by
  simp only [allFinderPlots, List.mem_append] at h
  rcases h with (h | h) | h <;> exact finderPlots_range h

theorem mem_timingPlots {v : Nat} {p : Plot} :
    p ∈ timingPlots v ↔
      ∃ i, (8 ≤ i ∧ i + 9 ≤ width v) ∧ (p = ⟨6, i, i % 2 = 0⟩ ∨ p = ⟨i, 6, i % 2 = 0⟩) := by
  have hw := width_pos v
  simp only [timingPlots, List.mem_flatMap, List.mem_range'_1, List.mem_cons, List.not_mem_nil, or_false]
  refine exists_congr fun i => and_congr_left fun _ => ?_
  omega

theorem timingPlots_range {v : Nat} {p : Plot} (h : p ∈ timingPlots v) : p.r < width v ∧ p.c < width v := by
  obtain ⟨i, hi, rfl | rfl⟩ := mem_timingPlots.mp h <;> constructor <;> simp only <;> omega

theorem mem_alignmentPlots {ctr : Nat × Nat} (h1 : 2 ≤ ctr.1) (h2 : 2 ≤ ctr.2) {p : Plot} :
    p ∈ alignmentPlots ctr ↔
      absDiff p.r ctr.1 ≤ 2 ∧ absDiff p.c ctr.2 ≤ 2 ∧
        p.bit = decide (max (absDiff p.r ctr.1) (absDiff p.c ctr.2) ≠ 1) := by
  obtain ⟨r, c, b⟩ := p
  simp only [alignmentPlots, List.mem_flatMap, List.mem_map, List.mem_range, Plot.mk.injEq]
  constructor
  · rintro ⟨i, hi, j, hj, rfl, rfl, rfl⟩
    have e1 : absDiff (ctr.1 + i - 2) ctr.1 = absDiff i 2 := by simp only [absDiff]; omega
    have e2 : absDiff (ctr.2 + j - 2) ctr.2 = absDiff j 2 := by simp only [absDiff]; omega
    rw [e1, e2]
    refine ⟨?_, ?_, rfl⟩ <;> simp only [absDiff] <;> omega
  · rintro ⟨hr, hc, hb⟩
    refine ⟨r + 2 - ctr.1, ?_, c + 2 - ctr.2, ?_, ?_, ?_, ?_⟩
    · simp only [absDiff] at hr; omega
    · simp only [absDiff] at hc; omega
    · simp only [absDiff] at hr; omega
    · simp only [absDiff] at hc; omega
    · have e1 : absDiff (r + 2 - ctr.1) 2 = absDiff r ctr.1 := by simp only [absDiff] at *; omega
      have e2 : absDiff (c + 2 - ctr.2) 2 = absDiff c ctr.2 := by simp only [absDiff] at *; omega
      rw [e1, e2, hb]

theorem centre_bounds {v : Nat} {ctr : Nat × Nat} (h : ctr ∈ centres v) :
    6 ≤ ctr.1 ∧ ctr.1 + 7 ≤ width v ∧ 6 ≤ ctr.2 ∧ ctr.2 + 7 ≤ width v := by
  obtain ⟨h1, h2, -⟩ := mem_centres.mp h
  have := alignCoord_bounds h1
  have := alignCoord_bounds h2
  omega

theorem mem_allAlignmentPlots {v : Nat} {p : Plot} :
    p ∈ allAlignmentPlots v ↔
      ∃ ctr ∈ centres v, absDiff p.r ctr.1 ≤ 2 ∧ absDiff p.c ctr.2 ≤ 2 ∧
        p.bit = decide (max (absDiff p.r ctr.1) (absDiff p.c ctr.2) ≠ 1) := by
  simp only [allAlignmentPlots, List.mem_flatMap]
  refine exists_congr fun ctr => and_congr_right fun h => ?_
  have := centre_bounds h
  exact mem_alignmentPlots (by omega) (by omega)

theorem allAlignmentPlots_range {v : Nat} {p : Plot} (h : p ∈ allAlignmentPlots v) :
    p.r < width v ∧ p.c < width v := by
  obtain ⟨ctr, hc, h1, h2, -⟩ := mem_allAlignmentPlots.mp h
  have := centre_bounds hc
  simp only [absDiff] at h1 h2
  omega

theorem mem_reservedPlots {v : Nat} {p : Plot} :
    p ∈ reservedPlots v ↔
      (((p.r < width v ∧ p.c < width v) ∧ cellClass v p.r p.c = .reserved) ∧ p.bit = false) ∨
        p = ⟨width v - 8, 8, true⟩ := by
  obtain ⟨r, c, b⟩ := p
  simp only [reservedPlots, List.mem_append, List.mem_map, List.mem_singleton]
  refine or_congr ⟨?_, ?_⟩ Iff.rfl
  · rintro ⟨rc, h, e⟩
    simp only [Plot.mk.injEq] at e
    obtain ⟨rfl, rfl, rfl⟩ := e
    exact ⟨mem_reservedCells.mp h, rfl⟩
  · rintro ⟨h, hb⟩
    exact ⟨(r, c), mem_reservedCells.mpr h, by simp [hb]⟩

theorem reservedPlots_range {v : Nat} {p : Plot} (h : p ∈ reservedPlots v) : p.r < width v ∧ p.c < width v := by
  rcases mem_reservedPlots.mp h with h | rfl
  · exact h.1.1
  · have := width_pos v
    constructor <;> simp only <;> omega

theorem fmtCell1_range {v i : Nat} (hi : i < 15) : (fmtCell1 i).1 < width v ∧ (fmtCell1 i).2 < width v := by
  have := width_pos v
  unfold fmtCell1
  split_ifs <;> constructor <;> simp only <;> omega

theorem fmtCell2_range {v i : Nat} (hi : i < 15) : (fmtCell2 v i).1 < width v ∧ (fmtCell2 v i).2 < width v := by
  have := width_pos v
  unfold fmtCell2
  split_ifs <;> constructor <;> simp only <;> omega

theorem mem_formatPlots {v : Nat} {p : Plot} :
    p ∈ formatPlots v ↔
      ∃ i < 15, p = ⟨(fmtCell1 i).1, (fmtCell1 i).2, fmtWord.testBit i⟩ ∨
        p = ⟨(fmtCell2 v i).1, (fmtCell2 v i).2, fmtWord.testBit i⟩ := by
  simp [formatPlots, List.mem_flatMap]

theorem formatPlots_range {v : Nat} {p : Plot} (h : p ∈ formatPlots v) : p.r < width v ∧ p.c < width v := by
  obtain ⟨i, hi, rfl | rfl⟩ := mem_formatPlots.mp h
  · exact fmtCell1_range hi
  · exact fmtCell2_range hi

theorem mem_versionPlots {v : Nat} {p : Plot} :
    p ∈ versionPlots v ↔
      7 ≤ v ∧ ∃ i < 18, p = ⟨i / 3, width v - 11 + i % 3, (verWord v).testBit i⟩ ∨
        p = ⟨width v - 11 + i % 3, i / 3, (verWord v).testBit i⟩ := by
  unfold versionPlots
  split
  · next h => simp [List.mem_flatMap, h]
  · next h => simp [h]

theorem versionPlots_range {v : Nat} {p : Plot} (h : p ∈ versionPlots v) : p.r < width v ∧ p.c < width v := by
  have := width_pos v
  obtain ⟨-, i, hi, rfl | rfl⟩ := mem_versionPlots.mp h <;> constructor <;> simp only <;> omega

/-! ### From a cell to its byte -/

theorem cell_index_lt {v r c : Nat} (hr : r < width v) (hc : c < width v) : moduleIndex (stride v) r c < img v := by
  have := width_le_stride v
  exact moduleIndex_lt hr (by omega)

theorem cell_column_lt {v c : Nat} (hc : c < width v) : c < 8 * stride v := by
  have := width_le_stride v
  omega

end Sys2Proof.Machine
end

