-- ==== Sys2Proof/Laws/CellOrder.lean ====
section
/-! SUPPORT. The placement walk: it lists every Data cell exactly once (spec/45_matrix_builder.md R231), and the number of
Data cells agrees with the catalog (spec/41_version_catalog.md R132 (d), R133). The count goes row by row through the
intervals of columns that are not Data. -/

namespace Sys2Proof.Machine

/-! ### The column pairs -/

theorem columnPairs_six {fuel : Nat} (h : 3 ≤ fuel) : columnPairs fuel 6 = [5, 3, 1] := by
  obtain ⟨n, rfl⟩ : ∃ n, fuel = n + 3 := ⟨fuel - 3, by omega⟩
  cases n <;> rfl

theorem columnPairs_step {fuel right : Nat} (h : 7 ≤ right) :
    columnPairs (fuel + 1) right = right :: columnPairs fuel (right - 2) := by
  rw [columnPairs, if_neg (by omega), if_neg (by omega)]

/-- The pairs from an even right edge cover each column but 6 once, and their right columns fall by at least 2. -/
theorem columnPairs_cover (m : Nat) : ∀ fuel, m + 3 ≤ fuel →
    (∀ c, (∃ right ∈ columnPairs fuel (2 * m + 6), c = right ∨ c + 1 = right) ↔ c ≤ 2 * m + 6 ∧ c ≠ 6) ∧
      (columnPairs fuel (2 * m + 6)).Pairwise (fun a b => b + 2 ≤ a) ∧
      (∀ right ∈ columnPairs fuel (2 * m + 6), 1 ≤ right ∧ right ≤ 2 * m + 6) := by
  induction m with
  | zero =>
    intro fuel hf
    rw [Nat.mul_zero, Nat.zero_add, columnPairs_six (by omega)]
    refine ⟨fun c => ?_, by decide, by decide⟩
    simp only [List.mem_cons, List.not_mem_nil, or_false, exists_eq_or_imp, exists_eq_left]
    omega
  | succ m ih =>
    intro fuel hf
    obtain ⟨n, rfl⟩ : ∃ n, fuel = n + 1 := ⟨fuel - 1, by omega⟩
    obtain ⟨h1, h2, h3⟩ := ih n (by omega)
    rw [columnPairs_step (by omega)]
    have e : 2 * (m + 1) + 6 - 2 = 2 * m + 6 := by omega
    rw [e]
    refine ⟨fun c => ?_, ?_, ?_⟩
    · simp only [List.mem_cons, exists_eq_or_imp]
      rw [h1 c]
      omega
    · rw [List.pairwise_cons]
      exact ⟨fun b hb => by have := h3 b hb; omega, h2⟩
    · intro right hr
      rcases List.mem_cons.mp hr with rfl | hr
      · omega
      · have := h3 right hr
        omega

theorem columnPairs_width (v : Nat) :
    (∀ c, (∃ right ∈ columnPairs (width v) (width v - 1), c = right ∨ c + 1 = right) ↔ c < width v ∧ c ≠ 6) ∧
      (columnPairs (width v) (width v - 1)).Pairwise (fun a b => b + 2 ≤ a) ∧
      (∀ right ∈ columnPairs (width v) (width v - 1), 1 ≤ right ∧ right < width v) := by
  have e : width v - 1 = 2 * (2 * v + 5) + 6 := by simp only [width]; omega
  obtain ⟨h1, h2, h3⟩ := columnPairs_cover (2 * v + 5) (width v) (by simp only [width]; omega)
  rw [e]
  refine ⟨fun c => ?_, h2, fun right hr => ?_⟩
  · rw [h1 c]
    simp only [width]
    omega
  · have := h3 right hr
    simp only [width]
    omega

/-! ### The walk -/

theorem mem_pairCells {v right : Nat} (h : 1 ≤ right) {rc : Nat × Nat} :
    rc ∈ pairCells v right ↔
      rc.1 < width v ∧ (rc.2 = right ∨ rc.2 + 1 = right) ∧ cellClass v rc.1 rc.2 = .data := by
  obtain ⟨r, c⟩ := rc
  simp only [pairCells, List.mem_flatMap, List.mem_range, List.mem_filter, List.mem_cons, Prod.mk.injEq,
    List.not_mem_nil, or_false, decide_eq_true_eq]
  constructor
  · rintro ⟨t, ht, h1, h2⟩
    refine ⟨?_, ?_, h2⟩
    · rcases h1 with ⟨rfl, -⟩ | ⟨rfl, -⟩ <;> split <;> omega
    · omega
  · rintro ⟨hr, hc, h2⟩
    by_cases hu : walksUp right = true
    · refine ⟨width v - 1 - r, by omega, ?_, h2⟩
      rw [if_pos hu]
      omega
    · refine ⟨r, hr, ?_, h2⟩
      rw [if_neg hu]
      omega

theorem pairCells_nodup {v right : Nat} (h : 1 ≤ right) : (pairCells v right).Nodup := by
  unfold pairCells
  rw [List.nodup_flatMap]
  constructor
  · intro t _
    refine List.Nodup.filter _ ?_
    simp only [List.nodup_cons, List.mem_singleton, Prod.mk.injEq, List.not_mem_nil, not_false_eq_true, List.nodup_nil,
      and_true]
    omega
  · refine List.Nodup.pairwise_of_forall_ne List.nodup_range fun a ha b hb hab => ?_
    simp only [List.mem_range] at ha hb
    simp only [Function.onFun, List.disjoint_left, List.mem_filter, List.mem_cons, List.not_mem_nil, or_false]
    rintro x ⟨hx, -⟩ ⟨hy, -⟩
    have e1 : x.1 = if walksUp right = true then width v - 1 - a else a := by rcases hx with rfl | rfl <;> rfl
    have e2 : x.1 = if walksUp right = true then width v - 1 - b else b := by rcases hy with rfl | rfl <;> rfl
    rw [e1] at e2
    split at e2 <;> omega

theorem cellClass_timing {v r : Nat} : cellClass v r 6 = .function := by
  unfold cellClass
  simp only [or_true, if_true, ite_self]

/-- The walk lists the Data cells of the grid and no other cell (R231). -/
theorem mem_cellOrder {v : Nat} {rc : Nat × Nat} :
    rc ∈ cellOrder v ↔ (rc.1 < width v ∧ rc.2 < width v) ∧ cellClass v rc.1 rc.2 = .data := by
  obtain ⟨h1, -, h3⟩ := columnPairs_width v
  simp only [cellOrder, List.mem_flatMap]
  constructor
  · rintro ⟨right, hr, hm⟩
    rw [mem_pairCells (h3 right hr).1] at hm
    have := (h1 rc.2).mp ⟨right, hr, hm.2.1⟩
    exact ⟨⟨hm.1, this.1⟩, hm.2.2⟩
  · rintro ⟨⟨hr, hc⟩, hd⟩
    have h6 : rc.2 ≠ 6 := by
      intro h6
      rw [h6, cellClass_timing] at hd
      cases hd
    obtain ⟨right, hm, hcr⟩ := (h1 rc.2).mpr ⟨hc, h6⟩
    exact ⟨right, hm, (mem_pairCells (h3 right hm).1).mpr ⟨hr, hcr, hd⟩⟩

theorem cellOrder_nodup_list (v : Nat) : (cellOrder v).Nodup := by
  obtain ⟨-, h2, h3⟩ := columnPairs_width v
  unfold cellOrder
  rw [List.nodup_flatMap]
  constructor
  · exact fun right hr => pairCells_nodup (h3 right hr).1
  · refine List.Pairwise.imp_of_mem ?_ h2
    intro a b ha hb hab
    simp only [Function.onFun, List.disjoint_left]
    intro x hx hy
    rw [mem_pairCells (h3 a ha).1] at hx
    rw [mem_pairCells (h3 b hb).1] at hy
    omega

/-! ### Counting the Data cells -/

/-- The eleventh line of R212. -/
theorem cellClass_data_iff {v r c : Nat} :
    cellClass v r c = .data ↔
      ¬ (r ≤ 7 ∧ c ≤ 7) ∧ ¬ (r ≤ 7 ∧ width v - 8 ≤ c) ∧ ¬ (width v - 8 ≤ r ∧ c ≤ 7) ∧ ¬ (r = 6 ∨ c = 6) ∧
        ¬ onAlignment v r c = true ∧ ¬ (r = width v - 8 ∧ c = 8) ∧ ¬ ((r = 8 ∧ c ≤ 8) ∨ (c = 8 ∧ r ≤ 8)) ∧
        ¬ ((r = 8 ∧ width v - 8 ≤ c) ∨ (c = 8 ∧ width v - 7 ≤ r)) ∧
        ¬ (7 ≤ v ∧ r ≤ 5 ∧ width v - 11 ≤ c ∧ c ≤ width v - 9) ∧
        ¬ (7 ≤ v ∧ c ≤ 5 ∧ width v - 11 ≤ r ∧ r ≤ width v - 9) := by
  unfold cellClass
  simp only
  split_ifs <;> simp only [*, not_true_eq_false, false_and, and_false, not_false_eq_true, and_self, reduceCtorEq]

/-- A run of columns: first column and number of columns. -/
abbrev Span := Nat × Nat

/-- Some run holds column c. -/
def covered (L : List Span) (c : Nat) : Prop := ∃ s ∈ L, s.1 ≤ c ∧ c < s.1 + s.2

theorem covered_nil (c : Nat) : covered [] c ↔ False := by simp [covered]

theorem covered_cons (s : Span) (L : List Span) (c : Nat) :
    covered (s :: L) c ↔ (s.1 ≤ c ∧ c < s.1 + s.2) ∨ covered L c := by simp [covered]

theorem covered_append (L M : List Span) (c : Nat) : covered (L ++ M) c ↔ covered L c ∨ covered M c := by
  simp [covered, or_and_right, exists_or]

theorem covered_ite (p : Prop) [Decidable p] (L : List Span) (c : Nat) :
    covered (if p then L else []) c ↔ p ∧ covered L c := by
  split <;> simp [*, covered_nil]

/-- The columns that the alignment patterns cover in row r. -/
def alignSpans (v r : Nat) : List Span :=
  (alignCoords v).flatMap fun cr =>
    if absDiff r cr ≤ 2 then ((alignCoords v).filter fun cc => !onFinder v cr cc).map fun cc => (cc - 2, 5) else []

theorem covered_alignSpans {v r c : Nat} : covered (alignSpans v r) c ↔ onAlignment v r c = true := by
  simp only [covered, alignSpans, onAlignment, List.any_eq_true, List.mem_flatMap, Bool.and_eq_true, decide_eq_true_eq]
  constructor
  · rintro ⟨s, ⟨cr, hcr, hs⟩, h1, h2⟩
    split at hs
    · next hr =>
      simp only [List.mem_map, List.mem_filter, Bool.not_eq_true'] at hs
      obtain ⟨cc, ⟨hcc, hf⟩, rfl⟩ := hs
      have := alignCoord_bounds hcc
      refine ⟨(cr, cc), mem_centres.mpr ⟨hcr, hcc, hf⟩, hr, ?_⟩
      simp only [absDiff] at *
      omega
    · cases hs
  · rintro ⟨⟨cr, cc⟩, hm, h1, h2⟩
    obtain ⟨hcr, hcc, hf⟩ := mem_centres.mp hm
    have := alignCoord_bounds hcc
    refine ⟨(cc - 2, 5), ⟨cr, hcr, ?_⟩, ?_⟩
    · rw [if_pos h1]
      simp only [List.mem_map, List.mem_filter, Bool.not_eq_true']
      exact ⟨cc, ⟨hcc, hf⟩, rfl⟩
    · simp only [absDiff] at *
      omega

/-- The columns of row r whose cells are not Data, line by line of R212. -/
def nonDataSpans (v r : Nat) : List Span :=
  (if r ≤ 7 then [(0, 8)] else []) ++ (if r ≤ 7 then [(width v - 8, 8)] else []) ++
    (if width v - 8 ≤ r then [(0, 8)] else []) ++ (if r = 6 then [(0, width v)] else []) ++ [(6, 1)] ++ alignSpans v r ++
    (if r = width v - 8 then [(8, 1)] else []) ++ (if r = 8 then [(0, 9)] else []) ++
    (if r ≤ 8 then [(8, 1)] else []) ++ (if r = 8 then [(width v - 8, 8)] else []) ++
    (if width v - 7 ≤ r then [(8, 1)] else []) ++ (if 7 ≤ v ∧ r ≤ 5 then [(width v - 11, 3)] else []) ++
    (if 7 ≤ v ∧ width v - 11 ≤ r ∧ r ≤ width v - 9 then [(0, 6)] else [])

theorem covered_nonDataSpans {v r c : Nat} (hc : c < width v) :
    covered (nonDataSpans v r) c ↔ cellClass v r c ≠ .data := by
  have hw := width_pos v
  rw [Ne, cellClass_data_iff]
  simp only [nonDataSpans, covered_append, covered_ite, covered_cons, covered_nil, covered_alignSpans, or_false,
    not_and_or, not_not, or_assoc]
  generalize onAlignment v r c = al
  generalize width v = w at *
  iterate 5 refine or_congr (by omega) ?_
  refine or_congr Iff.rfl ?_
  iterate 6 refine or_congr (by omega) ?_
  omega

/-- The number of columns from `pos` on that the runs cover, when the runs are listed by first column. -/
def sweep : Nat → List Span → Nat
  | _, [] => 0
  | pos, s :: L => (s.1 + s.2 - (s.1 + (pos - s.1))) + sweep (pos + (s.1 + s.2 - pos)) L

open Classical in
theorem card_covered {N : Nat} (L : List Span) (hs : L.Pairwise fun s t => s.1 ≤ t.1)
    (hN : ∀ s ∈ L, s.1 + s.2 ≤ N) (pos : Nat) :
    ((Finset.range N).filter fun c => pos ≤ c ∧ covered L c).card = sweep pos L := by
  induction L generalizing pos with
  | nil => simp [covered_nil, sweep]
  | cons s L ih =>
    rw [List.pairwise_cons] at hs
    have e : ((Finset.range N).filter fun c => pos ≤ c ∧ covered (s :: L) c) =
        Finset.Ico (s.1 + (pos - s.1)) (s.1 + s.2) ∪
          ((Finset.range N).filter fun c => pos + (s.1 + s.2 - pos) ≤ c ∧ covered L c) := by
      ext c
      have h1 := hN s (by simp)
      have h2 : covered L c → s.1 ≤ c := fun ⟨t, ht, h, _⟩ => le_trans (hs.1 t ht) h
      simp only [Finset.mem_filter, Finset.mem_range, Finset.mem_union, Finset.mem_Ico, covered_cons]
      by_cases hc : covered L c
      · have := h2 hc
        simp only [hc, or_true, and_true]
        omega
      · simp only [hc, or_false, and_false]
        omega
    rw [e, Finset.card_union_of_disjoint, Nat.card_Ico, ih hs.2 (fun t ht => hN t (by simp [ht])), sweep]
    rw [Finset.disjoint_left]
    intro c h1 h2
    simp only [Finset.mem_Ico, Finset.mem_filter] at h1 h2
    omega

/-- Insert a run into a list of runs by first column; `Nat.ble` keeps the kernel's evaluation short. -/
def insertSpan (s : Span) : List Span → List Span
  | [] => [s]
  | t :: L => bif Nat.ble s.1 t.1 then s :: t :: L else t :: insertSpan s L

theorem mem_insertSpan {s t : Span} {L : List Span} : t ∈ insertSpan s L ↔ t = s ∨ t ∈ L := by
  induction L with
  | nil => simp [insertSpan]
  | cons u L ih =>
    cases h : Nat.ble s.1 u.1 <;> simp [insertSpan, h, ih]
    tauto

theorem insertSpan_pairwise {s : Span} {L : List Span} (h : L.Pairwise fun s t => s.1 ≤ t.1) :
    (insertSpan s L).Pairwise fun s t => s.1 ≤ t.1 := by
  induction L with
  | nil => simp [insertSpan]
  | cons u L ih =>
    rw [List.pairwise_cons] at h
    cases hb : Nat.ble s.1 u.1
    · simp only [insertSpan, hb, cond_false, List.pairwise_cons]
      refine ⟨fun t ht => ?_, ih h.2⟩
      rcases mem_insertSpan.mp ht with rfl | ht
      · have := Nat.le_of_ble_eq_true (n := u.1) (m := t.1)
        by_contra hn
        rw [Nat.ble_eq_true_of_le (by omega)] at hb
        cases hb
      · exact h.1 t ht
    · simp only [insertSpan, hb, cond_true, List.pairwise_cons, List.mem_cons]
      have := Nat.le_of_ble_eq_true hb
      refine ⟨fun t ht => ?_, fun t ht => h.1 t ht, h.2⟩
      rcases ht with rfl | ht
      · exact this
      · exact le_trans this (h.1 t ht)

/-- The runs of a row by first column. -/
def sortedSpans (v r : Nat) : List Span := (nonDataSpans v r).foldr insertSpan []

theorem mem_foldr_insertSpan {t : Span} {L : List Span} : t ∈ L.foldr insertSpan [] ↔ t ∈ L := by
  induction L with
  | nil => rfl
  | cons u L ih => rw [List.foldr_cons, mem_insertSpan, ih, List.mem_cons]

theorem foldr_insertSpan_pairwise (L : List Span) : (L.foldr insertSpan []).Pairwise fun s t => s.1 ≤ t.1 := by
  induction L with
  | nil => exact List.Pairwise.nil
  | cons u L ih => exact insertSpan_pairwise ih

/-- The number of Data cells in row r. -/
def rowData (v r : Nat) : Nat := width v - sweep 0 (sortedSpans v r)

/-- A row that meets no pattern but the vertical timing line. -/
def plainRow (v r : Nat) : Bool :=
  Nat.ble 9 r && (Nat.ble (r + 12) (width v) &&
    (alignCoords v).all fun cr => Nat.ble (cr + 3) r || Nat.ble (r + 3) cr)

/-- The number of Data cells of a row, with the short answer for a plain row. -/
def rowDataFast (v r : Nat) : Nat := bif plainRow v r then width v - 1 else rowData v r

theorem rowDataFast_eq (v r : Nat) : rowDataFast v r = rowData v r := by
  have hw := width_pos v
  cases h : plainRow v r
  · rw [rowDataFast, h, cond_false]
  · have hp := h
    simp only [plainRow, Bool.and_eq_true, List.all_eq_true, Bool.or_eq_true, Nat.ble_eq] at h
    obtain ⟨h1, h2, h3⟩ := h
    have ha : alignSpans v r = [] := by
      simp only [alignSpans, List.flatMap_eq_nil_iff]
      intro cr hcr
      have := h3 cr hcr
      rw [if_neg]
      simp only [absDiff]
      omega
    have hs : nonDataSpans v r = [(6, 1)] := by
      unfold nonDataSpans
      rw [ha]
      iterate 11 rw [if_neg (by omega)]
      rfl
    rw [rowDataFast, hp, cond_true, rowData, sortedSpans, hs]
    rfl

/-- The number of Data cells of the grid, by rows. -/
def dataCount (v : Nat) : Nat := ((List.range (width v)).map (rowDataFast v)).sum

theorem nonDataSpans_end {v r : Nat} : ∀ s ∈ nonDataSpans v r, s.1 + s.2 ≤ width v := by
  have hw := width_pos v
  intro s hs
  simp only [nonDataSpans, alignSpans, List.mem_append, List.mem_ite_nil_right, List.mem_cons, List.not_mem_nil,
    or_false, List.mem_flatMap, List.mem_map, List.mem_filter] at hs
  by_cases h : ∃ cc ∈ alignCoords v, s = (cc - 2, 5)
  · obtain ⟨cc, hcc, rfl⟩ := h
    have := alignCoord_bounds hcc
    simp only
    omega
  · have hn : ¬ ∃ cr ∈ alignCoords v, absDiff r cr ≤ 2 ∧
        ∃ cc, (cc ∈ alignCoords v ∧ (!onFinder v cr cc) = true) ∧ (cc - 2, 5) = s := by
      rintro ⟨cr, -, -, cc, ⟨hcc, -⟩, e⟩
      exact h ⟨cc, hcc, e.symm⟩
    simp only [hn, or_false] at hs
    obtain ⟨x, n⟩ := s
    simp only [Prod.mk.injEq] at hs
    simp only
    omega

theorem countP_row (v r : Nat) :
    (List.range (width v)).countP (fun c => decide (cellClass v r c = .data)) = rowData v r := by
  classical
  have hmem : ∀ t, t ∈ sortedSpans v r ↔ t ∈ nonDataSpans v r := fun t => mem_foldr_insertSpan
  have hsort : (sortedSpans v r).Pairwise fun s t => s.1 ≤ t.1 := foldr_insertSpan_pairwise _
  have h := card_covered (N := width v) (sortedSpans v r) hsort
    (fun s hs => nonDataSpans_end s ((hmem s).mp hs)) 0
  have hc : ∀ c, covered (sortedSpans v r) c ↔ covered (nonDataSpans v r) c := fun c => by
    simp only [covered, hmem]
  have h1 : (List.range (width v)).countP (fun c => decide (cellClass v r c ≠ .data)) = sweep 0 (sortedSpans v r) := by
    rw [← h, List.countP_eq_length_filter, ← List.toFinset_card_of_nodup (List.nodup_range.filter _)]
    congr 1
    ext c
    simp only [List.mem_toFinset, List.mem_filter, List.mem_range, decide_eq_true_eq, Finset.mem_filter,
      Finset.mem_range, Nat.zero_le, true_and]
    refine and_congr_right fun hcw => ?_
    rw [hc, covered_nonDataSpans hcw]
  have h2 := List.length_eq_countP_add_countP (fun c => decide (cellClass v r c = .data)) (l := List.range (width v))
  simp only [List.length_range, decide_eq_true_eq] at h2
  rw [rowData, ← h1]
  simp only [ne_eq]
  omega

theorem cellOrder_length (v : Nat) : (cellOrder v).length = dataCount v := by
  have hp : (cellOrder v).Perm ((allCells v).filter fun rc => decide (cellClass v rc.1 rc.2 = .data)) := by
    rw [List.perm_ext_iff_of_nodup (cellOrder_nodup_list v) ((allCells_nodup v).filter _)]
    intro rc
    simp [mem_cellOrder, mem_allCells]
  rw [hp.length_eq, allCells, List.filter_flatMap, List.length_flatMap, dataCount]
  congr 1
  refine List.map_congr_left fun r _ => ?_
  rw [rowDataFast_eq, ← countP_row, List.filter_map, List.length_map, ← List.countP_eq_length_filter]
  rfl

theorem dataCount_table : ∀ v < 41, 1 ≤ v → 8 * tot v ≤ dataCount v ∧ dataCount v < 8 * tot v + 8 := by
  decide +kernel

/-- The condition that MXDATA checks holds for every version (R132 (d), R234). -/
theorem cellOrder_length_bounds {v : Nat} (h1 : 1 ≤ v) (h2 : v ≤ 40) :
    8 * tot v ≤ (cellOrder v).length ∧ (cellOrder v).length < 8 * tot v + 8 := by
  rw [cellOrder_length]
  exact dataCount_table v (by omega) h1

end Sys2Proof.Machine
end

