-- ==== Sys2Proof/Laws/Commands.lean ====
section
/-! SUPPORT. One lemma per command body: what a body that completes has checked and done, and where a body that raises a
fault leaves the state. The statements about commands are proved from these; the bodies are not unfolded again. -/

namespace Sys2Proof.Machine

/-! ### Bodies that complete -/

theorem ok_eq_ok {a t : State} : (Except.ok a : Attempt) = .ok t ↔ t = a := by
  rw [Except.ok.injEq, eq_comm]

theorem domainResult_ok {r : Option Nat} {s t : State} :
    domainResult r s = .ok t ↔ ∃ n, r = some n ∧ t = s.withResult n := by
  cases r <;> simp [domainResult, eq_comm]

theorem doVset_ok {v : Byte} {s t : State} :
    doVset v s = .ok t ↔
      versionOk v ∧ t = { s with version := v.setWidth 6, phase := .versioned }.withResult v.toNat := by
  simp only [doVset, require_bind_ok, ok_eq_ok]

theorem doVcap_ok {v : Byte} {s t : State} :
    doVcap v s = .ok t ↔ versionOk v ∧ t = s.withResult (cap v.toNat) := by
  simp only [doVcap, require_bind_ok, ok_eq_ok]

theorem doVpar_ok {v : Byte} {s t : State} :
    doVpar v s = .ok t ↔ versionOk v ∧ t = s.withResult (vparWord (cat v.toNat)) := by
  simp only [doVpar, require_bind_ok, ok_eq_ok]

theorem doVsel_ok {s t : State} :
    doVsel s = .ok t ↔
      ∃ v, selectVersion s.segments = some v ∧
        t = { s with version := BitVec.ofNat 6 v, phase := .versioned }.withResult v := by
  unfold doVsel
  cases h : selectVersion s.segments <;> simp [eq_comm]

theorem doPkinit_ok {s t : State} :
    doPkinit s = .ok t ↔
      1 ≤ s.phase.toNat ∧ tot s.v ≤ s.tmpSize.toNat ∧ t = { s with bitLen := 0, phase := .packing, result := 0 } := by
  simp only [doPkinit, require_bind_ok, ok_eq_ok]

/-- The bits of a segment as a command pushes them. -/
def segmentBits (mode : Mode) (n v : Nat) (bytes : List Byte) : List Bool :=
  fieldBits (headerFields mode n v ++ segmentData mode bytes)

theorem doPkbin_ok {src : Byte} {s t : State} :
    doPkbin src s = .ok t ↔
      s.phase = .packing ∧ src.toNat ≤ 1 ∧ tot s.v ≤ s.tmpSize.toNat ∧
        s.bitLen.toNat + segBits .binary (s.sourceLen src) s.v ≤ 8 * cap s.v ∧
        ∃ bytes, s.sourceBytes src = .ok bytes ∧
          ∃ bs, pushBits s.stream (segmentBits .binary (s.sourceLen src) s.v bytes) = .ok bs ∧ t = s.withStream bs := by
  simp only [doPkbin, require_bind_ok, orHalt_bind_ok, segmentBits, ok_eq_ok]

theorem doPknum_ok {src : Byte} {s t : State} :
    doPknum src s = .ok t ↔
      s.phase = .packing ∧ src.toNat ≤ 1 ∧ tot s.v ≤ s.tmpSize.toNat ∧
        s.bitLen.toNat + segBits .numeric (s.sourceLen src) s.v ≤ 8 * cap s.v ∧
        ∃ bytes, s.sourceBytes src = .ok bytes ∧ bytes.all isDigit = true ∧
          ∃ bs, pushBits s.stream (segmentBits .numeric (s.sourceLen src) s.v bytes) = .ok bs ∧
            t = s.withStream bs := by
  simp only [doPknum, require_bind_ok, orHalt_bind_ok, segmentBits, ok_eq_ok]

theorem doPkterm_ok {s t : State} :
    doPkterm s = .ok t ↔
      s.phase = .packing ∧ tot s.v ≤ s.tmpSize.toNat ∧
        ∃ bs, pushBits s.stream (fieldBits (termFields s.bitLen.toNat (8 * cap s.v))) = .ok bs ∧
          t = { s.withStream bs with rsNext := 0, phase := .packed } := by
  simp only [doPkterm, require_bind_ok, orHalt_bind_ok, ok_eq_ok]

theorem doRsclr_ok {s t : State} :
    doRsclr s = .ok t ↔ 1 ≤ s.phase.toNat ∧ t = { s with rem := remZero, result := 0 } := by
  simp only [doRsclr, require_bind_ok, ok_eq_ok]

theorem doRsfeed_ok {d : Byte} {s t : State} :
    doRsfeed d s = .ok t ↔
      1 ≤ s.phase.toNat ∧
        t = { s with rem := stepRem (cat s.v).k s.rem d }.withResult
          (remAt (stepRem (cat s.v).k s.rem d) 0).toNat := by
  simp only [doRsfeed, require_bind_ok, ok_eq_ok]

theorem doRsblk_ok {b : Byte} {s t : State} :
    doRsblk b s = .ok t ↔
      s.phase = .packed ∧ b.toNat < nblk s.v ∧ b.toNat = s.rsNext.toNat ∧ tot s.v ≤ s.tmpSize.toNat ∧
        ∃ r, encodeBlock s.v b.toNat s.tmp = .ok r ∧
          t = { s with
            rem := r.1
            tmp := r.2
            rsNext := BitVec.ofNat 32 (b.toNat + 1)
            phase := if b.toNat + 1 = nblk s.v then .coded else s.phase }.withResult (b.toNat + 1) := by
  simp only [doRsblk, require_bind_ok, orHalt_bind_ok, ok_eq_ok]

theorem doRsall_ok {s t : State} :
    doRsall s = .ok t ↔
      s.phase = .packed ∧ tot s.v ≤ s.tmpSize.toNat ∧
        ∃ r, encodeBlocks s.v s.rem s.tmp (List.range' s.rsNext.toNat (nblk s.v - s.rsNext.toNat)) = .ok r ∧
          t = { s with
            rem := r.1
            tmp := r.2
            rsNext := BitVec.ofNat 32 (nblk s.v)
            phase := .coded }.withResult (nblk s.v) := by
  simp only [doRsall, require_bind_ok, orHalt_bind_ok, ok_eq_ok]

/-- Everything a step that writes modules can do when it completes. -/
theorem plotStep_ok {need next : Phase} {plots : List Plot} {n : Nat} {s t : State} :
    plotStep need next plots n s = .ok t ↔
      s.phase = need ∧ img s.v ≤ s.outSize.toNat ∧
        ∃ out, plotAll (stride s.v) s.out plots = .ok out ∧ t = { s with out := out, phase := next }.withResult n := by
  simp only [plotStep, require_bind_ok, orHalt_bind_ok, ok_eq_ok]

theorem doMxinit_ok {s t : State} :
    doMxinit s = .ok t ↔
      s.phase = .coded ∧ img s.v ≤ s.outSize.toNat ∧
        t = { s with
          out := s.out.writeRun 0 (List.replicate (img s.v) 0), phase := .blank }.withResult (img s.v) := by
  simp only [doMxinit, require_bind_ok, ok_eq_ok]

theorem doMxdata_ok {s t : State} :
    doMxdata s = .ok t ↔
      s.phase = .reserved ∧ img s.v ≤ s.outSize.toNat ∧ tot s.v ≤ s.tmpSize.toNat ∧
        (8 * tot s.v ≤ (cellOrder s.v).length ∧ (cellOrder s.v).length < 8 * tot s.v + 8) ∧
        ∃ bytes, streamBytes s.v s.tmp = .ok bytes ∧
          ∃ out, plotAll (stride s.v) s.out (dataPlots (cellOrder s.v) bytes) = .ok out ∧
            t = { s with out := out, phase := .placed }.withResult (8 * tot s.v) := by
  simp only [doMxdata, require_bind_ok, orHalt_bind_ok, ok_eq_ok]

theorem doIlvrd_ok {i : BitVec 16} {s t : State} :
    doIlvrd i s = .ok t ↔
      4 ≤ s.phase.toNat ∧ i.toNat < tot s.v ∧ tot s.v ≤ s.tmpSize.toNat ∧
        ∃ x, s.tmp.fetch .tmp (streamIndex s.v i.toNat) = .ok x ∧ t = s.withResult x.toNat := by
  simp only [doIlvrd, require_bind_ok, orHalt_bind_ok, ok_eq_ok]

theorem doCellclass_ok {r c : Byte} {s t : State} :
    doCellclass r c s = .ok t ↔
      1 ≤ s.phase.toNat ∧ (r.toNat < width s.v ∧ c.toNat < width s.v) ∧
        t = s.withResult (cellClass s.v r.toNat c.toNat).toNat := by
  simp only [doCellclass, require_bind_ok, ok_eq_ok]

theorem doMask_ok {s t : State} :
    doMask s = .ok t ↔
      s.phase = .versionInfo ∧ img s.v ≤ s.outSize.toNat ∧
        ∃ out, flipAll (stride s.v) s.out (maskedCells s.v) = .ok out ∧
          t = { s with out := out, phase := .done }.withResult (width s.v) := by
  simp only [doMask, require_bind_ok, orHalt_bind_ok, ok_eq_ok]

theorem doClear_ok {s t : State} : doClear s = .ok t ↔ t = if s.fatal then s else s.clearFault := by
  unfold doClear
  split <;> simp [eq_comm]

theorem doGenerate_ok {s t : State} :
    doGenerate s = .ok t ↔
      Config.outMin ≤ s.outSize.toNat ∧ Config.tmpMin ≤ s.tmpSize.toNat ∧ s.dataLen.toNat ≤ s.outSize.toNat ∧
        ∃ u, doPipeline s = .ok u ∧ t = u.withResult (width u.v) := by
  simp only [doGenerate, require_bind_ok]
  simp only [attempt_bind_ok, ok_eq_ok]

/-! ### Bodies that raise a fault: the state is the one the command started in (R295) -/

/-- A body raises faults only in the state it started in, and only the listed ones. -/
def raisesOnly (codes : List FaultCode) (s : State) (a : Attempt) : Prop :=
  ∀ c s', a = .error (.raise c s') → s' = s ∧ c ∈ codes

theorem raisesOnly_ok (codes : List FaultCode) (s t : State) : raisesOnly codes s (.ok t) := by
  intro c s' h
  cases h

theorem raisesOnly_require {codes : List FaultCode} {s : State} {p : Prop} [Decidable p] {f : FaultCode}
    {k : Unit → Attempt} (hf : f ∈ codes) (hk : raisesOnly codes s (k ())) :
    raisesOnly codes s (require p f s >>= k) := by
  intro c s' h
  rcases require_bind_raise.mp h with ⟨-, rfl, rfl⟩ | ⟨-, h⟩
  · exact ⟨rfl, hf⟩
  · exact hk c s' h

theorem raisesOnly_orHalt {codes : List FaultCode} {s : State} {α : Type} {e : Except Fault α} {k : α → Attempt}
    (hk : ∀ x, raisesOnly codes s (k x)) : raisesOnly codes s (orHalt e >>= k) := by
  intro c s' h
  obtain ⟨x, -, h⟩ := orHalt_bind_raise.mp h
  exact hk x c s' h

theorem domainResult_raises (r : Option Nat) (s : State) : raisesOnly [.gfDomain] s (domainResult r s) := by
  intro c s' h
  cases r <;> simp [domainResult] at h
  obtain ⟨rfl, rfl⟩ := h
  simp

theorem doVset_raises (v : Byte) (s : State) : raisesOnly [.badOperand] s (doVset v s) :=
  raisesOnly_require (by simp) (raisesOnly_ok _ _ _)

theorem doVcap_raises (v : Byte) (s : State) : raisesOnly [.badOperand] s (doVcap v s) :=
  raisesOnly_require (by simp) (raisesOnly_ok _ _ _)

theorem doVpar_raises (v : Byte) (s : State) : raisesOnly [.badOperand] s (doVpar v s) :=
  raisesOnly_require (by simp) (raisesOnly_ok _ _ _)

theorem doVsel_raises (s : State) : raisesOnly [.inputTooLarge] s (doVsel s) := by
  intro c s' h
  unfold doVsel at h
  split at h <;> cases h
  simp

theorem doPkinit_raises (s : State) : raisesOnly [.sequence, .bufferTooSmall] s (doPkinit s) :=
  raisesOnly_require (by simp) (raisesOnly_require (by simp) (raisesOnly_ok _ _ _))

theorem doPkbin_raises (src : Byte) (s : State) :
    raisesOnly [.sequence, .badOperand, .bufferTooSmall, .inputTooLarge] s (doPkbin src s) :=
  raisesOnly_require (by simp) (raisesOnly_require (by simp) (raisesOnly_require (by simp)
    (raisesOnly_require (by simp) (raisesOnly_orHalt fun _ => raisesOnly_orHalt fun _ => raisesOnly_ok _ _ _))))

theorem doPknum_raises (src : Byte) (s : State) :
    raisesOnly [.sequence, .badOperand, .bufferTooSmall, .inputTooLarge, .badDigit] s (doPknum src s) :=
  raisesOnly_require (by simp) (raisesOnly_require (by simp) (raisesOnly_require (by simp)
    (raisesOnly_require (by simp) (raisesOnly_orHalt fun _ =>
      raisesOnly_require (by simp) (raisesOnly_orHalt fun _ => raisesOnly_ok _ _ _)))))

theorem doPkterm_raises (s : State) : raisesOnly [.sequence, .bufferTooSmall] s (doPkterm s) :=
  raisesOnly_require (by simp) (raisesOnly_require (by simp) (raisesOnly_orHalt fun _ => raisesOnly_ok _ _ _))

theorem doRsclr_raises (s : State) : raisesOnly [.sequence] s (doRsclr s) :=
  raisesOnly_require (by simp) (raisesOnly_ok _ _ _)

theorem doRsfeed_raises (d : Byte) (s : State) : raisesOnly [.sequence] s (doRsfeed d s) :=
  raisesOnly_require (by simp) (raisesOnly_ok _ _ _)

theorem doRsblk_raises (b : Byte) (s : State) :
    raisesOnly [.sequence, .badOperand, .bufferTooSmall] s (doRsblk b s) :=
  raisesOnly_require (by simp) (raisesOnly_require (by simp) (raisesOnly_require (by simp)
    (raisesOnly_require (by simp) (raisesOnly_orHalt fun _ => raisesOnly_ok _ _ _))))

theorem doRsall_raises (s : State) : raisesOnly [.sequence, .bufferTooSmall] s (doRsall s) :=
  raisesOnly_require (by simp) (raisesOnly_require (by simp) (raisesOnly_orHalt fun _ => raisesOnly_ok _ _ _))

theorem plotStep_raises (need next : Phase) (plots : List Plot) (n : Nat) (s : State) :
    raisesOnly [.sequence, .bufferTooSmall] s (plotStep need next plots n s) :=
  raisesOnly_require (by simp) (raisesOnly_require (by simp) (raisesOnly_orHalt fun _ => raisesOnly_ok _ _ _))

theorem doMxinit_raises (s : State) : raisesOnly [.sequence, .bufferTooSmall] s (doMxinit s) :=
  raisesOnly_require (by simp) (raisesOnly_require (by simp) (raisesOnly_ok _ _ _))

theorem doMxdata_raises (s : State) : raisesOnly [.sequence, .bufferTooSmall, .internal] s (doMxdata s) :=
  raisesOnly_require (by simp) (raisesOnly_require (by simp) (raisesOnly_require (by simp)
    (raisesOnly_require (by simp) (raisesOnly_orHalt fun _ => raisesOnly_orHalt fun _ => raisesOnly_ok _ _ _))))

theorem doIlvrd_raises (i : BitVec 16) (s : State) :
    raisesOnly [.sequence, .badOperand, .bufferTooSmall] s (doIlvrd i s) :=
  raisesOnly_require (by simp) (raisesOnly_require (by simp) (raisesOnly_require (by simp)
    (raisesOnly_orHalt fun _ => raisesOnly_ok _ _ _)))

theorem doCellclass_raises (r c : Byte) (s : State) : raisesOnly [.sequence, .badOperand] s (doCellclass r c s) :=
  raisesOnly_require (by simp) (raisesOnly_require (by simp) (raisesOnly_ok _ _ _))

theorem doMask_raises (s : State) : raisesOnly [.sequence, .bufferTooSmall] s (doMask s) :=
  raisesOnly_require (by simp) (raisesOnly_require (by simp) (raisesOnly_orHalt fun _ => raisesOnly_ok _ _ _))

theorem doClear_raises (s : State) : raisesOnly [] s (doClear s) := by
  unfold doClear
  split <;> exact raisesOnly_ok _ _ _

/-! ### Every command is the end of a body -/

/-- The body of each command. -/
def body (i : Instr) (s : State) : Attempt :=
  match i with
  | .clear => doClear s
  | .generate => doGenerate s
  | .maxsz v => .ok (s.withResult (maxSz v.toNat s.urlLen.toNat))
  | .gfmul a b => .ok (s.withResult (gfmul a b).toNat)
  | .gfdiv a b => domainResult ((gfdiv a b).map BitVec.toNat) s
  | .gfinv a => domainResult ((gfinv a).map BitVec.toNat) s
  | .gfexp n => .ok (s.withResult (gfexp n.toNat).toNat)
  | .gflog a => domainResult (gflog a) s
  | .vset v => doVset v s
  | .vsel => doVsel s
  | .vcap v => doVcap v s
  | .vpar v => doVpar v s
  | .pkinit => doPkinit s
  | .pkbin src => doPkbin src s
  | .pknum src => doPknum src s
  | .pkterm => doPkterm s
  | .rsclr => doRsclr s
  | .rsfeed d => doRsfeed d s
  | .rsblk b => doRsblk b s
  | .rsall => doRsall s
  | .mxinit => doMxinit s
  | .mxfind => plotStep .blank .finders (allFinderPlots s.v) 0 s
  | .mxtime => plotStep .finders .timing (timingPlots s.v) 0 s
  | .mxalign => plotStep .timing .aligned (allAlignmentPlots s.v) (centres s.v).length s
  | .mxrsvd => plotStep .aligned .reserved (reservedPlots s.v) (reservedCount s.v) s
  | .mxdata => doMxdata s
  | .mxfmt => plotStep .placed .formatted (formatPlots s.v) fmtWord s
  | .mxver => plotStep .formatted .versionInfo (versionPlots s.v) (verResult s.v) s
  | .ilvrd n => doIlvrd n s
  | .cellclass r c => doCellclass r c s
  | .mask => doMask s

theorem exec_eq_finish (i : Instr) (s : State) : exec i s = finish (body i s) := by
  cases i <;> rfl

end Sys2Proof.Machine
end

