-- ==== Sys2Proof/Laws/Encoding.lean ====
section
/-! SUPPORT. A command word is its four byte fields: the fields of an assembled word, the word rebuilt from its fields,
and the row of the opcode map that selects it, said by fields. Every term of `Instr` is well formed. -/

namespace Sys2Proof

theorem Instr.wellFormed_all (i : Instr) : i.wellFormed = true := by
  have h8 : ∀ x : Byte, x.toNat < 256 := fun x => x.isLt
  have h16 : ∀ x : BitVec 16, x.toNat < 65536 := fun x => x.isLt
  cases i <;> simp [Instr.wellFormed, h8, h16]

/-! ### Fields of an assembled word -/

@[simp] theorem opField_assembleAB (op a b : Byte) : opField (assembleAB op a b) = op := by
  unfold opField assembleAB
  ext i hi
  simp [hi, show i < 16 by omega, show i < 32 by omega]

@[simp] theorem aField_assembleAB (op a b : Byte) : aField (assembleAB op a b) = a := by
  unfold aField assembleAB
  ext i hi
  simp [hi, BitVec.getLsbD_of_ge, show 8 + i < 16 by omega, show 8 + i < 32 by omega]

@[simp] theorem bField_assembleAB (op a b : Byte) : bField (assembleAB op a b) = b := by
  unfold bField assembleAB
  ext i hi
  simp [hi, BitVec.getLsbD_of_ge op (16 + i) (by omega), BitVec.getLsbD_of_ge a (16 + i - 8) (by omega),
    show 16 + i < 32 by omega]

@[simp] theorem zField_assembleAB (op a b : Byte) : zField (assembleAB op a b) = 0 := by
  unfold zField assembleAB
  ext i hi
  simp [BitVec.getLsbD_of_ge op (24 + i) (by omega), BitVec.getLsbD_of_ge a (24 + i - 8) (by omega),
    BitVec.getLsbD_of_ge b (24 + i - 16) (by omega)]

@[simp] theorem opField_assembleI (op : Byte) (n : BitVec 16) : opField (assembleI op n) = op := by
  unfold opField assembleI
  ext i hi
  simp [hi, show i < 32 by omega]

@[simp] theorem iField_assembleI (op : Byte) (n : BitVec 16) : iField (assembleI op n) = n := by
  unfold iField assembleI
  ext i hi
  simp [hi, show 8 + i < 32 by omega]

@[simp] theorem zField_assembleI (op : Byte) (n : BitVec 16) : zField (assembleI op n) = 0 := by
  unfold zField assembleI
  ext i hi
  simp [BitVec.getLsbD_of_ge op (24 + i) (by omega), BitVec.getLsbD_of_ge n (24 + i - 8) (by omega)]

/-! ### A word rebuilt from its fields -/

theorem getLsbD_word_lt {w : Word} {j : Nat} (h : w.getLsbD j = true) : j < 32 := by
  by_contra hj
  rw [BitVec.getLsbD_of_ge w j (by omega)] at h
  cases h

/-- Two words with the same four fields are the same word. -/
theorem word_eq_of_fields {w u : Word} (h0 : opField w = opField u) (h1 : aField w = aField u)
    (h2 : bField w = bField u) (h3 : zField w = zField u) : w = u := by
  apply BitVec.eq_of_getLsbD_eq
  intro i hi
  have key : ∀ {x y : Word} {s : Nat}, x.extractLsb' s 8 = y.extractLsb' s 8 → ∀ j, j < 8 →
      x.getLsbD (s + j) = y.getLsbD (s + j) := by
    intro x y s h j hj
    have := congrArg (fun z : Byte => z.getLsbD j) h
    simpa [hj] using this
  rcases (by omega : i < 8 ∨ (8 ≤ i ∧ i < 16) ∨ (16 ≤ i ∧ i < 24) ∨ 24 ≤ i) with h | ⟨ha, hb⟩ | ⟨ha, hb⟩ | ha
  · simpa using key h0 i h
  · simpa [show 8 + (i - 8) = i by omega] using key h1 (i - 8) (by omega)
  · simpa [show 16 + (i - 16) = i by omega] using key h2 (i - 16) (by omega)
  · simpa [show 24 + (i - 24) = i by omega] using key h3 (i - 24) (by omega)

theorem assembleAB_fields {w : Word} (hz : zField w = 0) : assembleAB (opField w) (aField w) (bField w) = w :=
  word_eq_of_fields (by simp) (by simp) (by simp) (by simp [hz])

theorem aField_eq_iField (w : Word) : aField w = (iField w).extractLsb' 0 8 := by
  unfold aField iField
  ext i hi
  simp [show i < 16 by omega]

theorem bField_eq_iField (w : Word) : bField w = (iField w).extractLsb' 8 8 := by
  unfold bField iField
  ext i hi
  simp [show 8 + i < 16 by omega, ← Nat.add_assoc]

theorem assembleI_fields {w : Word} (hz : zField w = 0) : assembleI (opField w) (iField w) = w :=
  word_eq_of_fields (by simp) (by simp [aField_eq_iField]) (by simp [bField_eq_iField]) (by simp [hz])

/-! ### Which row selects a word -/

theorem field_and (w m : Word) (s : Nat) : (w &&& m).extractLsb' s 8 = w.extractLsb' s 8 &&& m.extractLsb' s 8 := by
  ext i hi
  simp

theorem field_setWidth_zero (op : Byte) (s : Nat) (hs : 8 ≤ s) : (op.setWidth 32 : Word).extractLsb' s 8 = 0 := by
  ext i hi
  simp [BitVec.getLsbD_of_ge op (s + i) (by omega)]

theorem field_setWidth (op : Byte) : (op.setWidth 32 : Word).extractLsb' 0 8 = op := by
  ext i hi
  simp [hi, show i < 32 by omega]

theorem byte_and_ones (x : Byte) : x &&& 0xFF#8 = x := BitVec.and_allOnes (x := x)

/-- A row selects a word exactly when the opcode agrees and every field that the row's mask covers is zero (R82). -/
theorem selects_iff (row : OpRow) (w : Word) :
    row.selects w = true ↔
      opField w = row.op ∧ zField w = 0 ∧ (row.format = .n ∨ row.format = .a → bField w = 0) ∧
        (row.format = .n → aField w = 0) := by
  obtain ⟨op, fm⟩ := row
  unfold OpRow.selects
  rw [beq_iff_eq]
  have hop := field_setWidth op
  have h8 := field_setWidth_zero op 8 (by omega)
  have h16 := field_setWidth_zero op 16 (by omega)
  have h24 := field_setWidth_zero op 24 (by omega)
  constructor
  · intro h
    have e0 := congrArg (fun z : Word => z.extractLsb' 0 8) h
    have e1 := congrArg (fun z : Word => z.extractLsb' 8 8) h
    have e2 := congrArg (fun z : Word => z.extractLsb' 16 8) h
    have e3 := congrArg (fun z : Word => z.extractLsb' 24 8) h
    simp only [field_and, hop, h8, h16, h24] at e0 e1 e2 e3
    cases fm <;> simp [Format.mask, byte_and_ones] at e0 e1 e2 e3 <;>
      simp [opField, aField, bField, zField, e0, e1, e2, e3]
  · rintro ⟨h0, h3, h2, h1⟩
    unfold opField at h0
    unfold zField at h3
    unfold bField at h2
    unfold aField at h1
    apply word_eq_of_fields <;> simp only [opField, aField, bField, zField, field_and, hop, h8, h16, h24, h0, h3] <;>
      cases fm <;> simp_all [Format.mask, byte_and_ones]

end Sys2Proof
end

