-- ==== Sys2Proof/Laws/State.lean ====
section
/-! SUPPORT. What each named update of the state leaves in each field: one lemma per field and update, so that no proof
unfolds a record update. -/

namespace Sys2Proof.Machine

/-! ### `State.withResult` -/

@[simp] theorem State.withResult_cmd (s : State) (n : Nat) : (s.withResult n).cmd = s.cmd := rfl
@[simp] theorem State.withResult_err (s : State) (n : Nat) : (s.withResult n).err = s.err := rfl
@[simp] theorem State.withResult_fatal (s : State) (n : Nat) : (s.withResult n).fatal = s.fatal := rfl
@[simp] theorem State.withResult_errCode (s : State) (n : Nat) : (s.withResult n).errCode = s.errCode := rfl
@[simp] theorem State.withResult_phase (s : State) (n : Nat) : (s.withResult n).phase = s.phase := rfl
@[simp] theorem State.withResult_result (s : State) (n : Nat) : (s.withResult n).result = BitVec.ofNat 32 n := rfl
@[simp] theorem State.withResult_version (s : State) (n : Nat) : (s.withResult n).version = s.version := rfl
@[simp] theorem State.withResult_bitLen (s : State) (n : Nat) : (s.withResult n).bitLen = s.bitLen := rfl
@[simp] theorem State.withResult_rsNext (s : State) (n : Nat) : (s.withResult n).rsNext = s.rsNext := rfl
@[simp] theorem State.withResult_up (s : State) (n : Nat) : (s.withResult n).up = s.up := rfl
@[simp] theorem State.withResult_urlLen (s : State) (n : Nat) : (s.withResult n).urlLen = s.urlLen := rfl
@[simp] theorem State.withResult_dataLen (s : State) (n : Nat) : (s.withResult n).dataLen = s.dataLen := rfl
@[simp] theorem State.withResult_outSize (s : State) (n : Nat) : (s.withResult n).outSize = s.outSize := rfl
@[simp] theorem State.withResult_tmpSize (s : State) (n : Nat) : (s.withResult n).tmpSize = s.tmpSize := rfl
@[simp] theorem State.withResult_rem (s : State) (n : Nat) : (s.withResult n).rem = s.rem := rfl
@[simp] theorem State.withResult_url (s : State) (n : Nat) : (s.withResult n).url = s.url := rfl
@[simp] theorem State.withResult_data (s : State) (n : Nat) : (s.withResult n).data = s.data := rfl
@[simp] theorem State.withResult_tmp (s : State) (n : Nat) : (s.withResult n).tmp = s.tmp := rfl
@[simp] theorem State.withResult_out (s : State) (n : Nat) : (s.withResult n).out = s.out := rfl
@[simp] theorem State.withResult_host (s : State) (n : Nat) : (s.withResult n).host = s.host := rfl
@[simp] theorem State.withResult_hostRead (s : State) (n : Nat) : (s.withResult n).hostRead = s.hostRead := rfl
@[simp] theorem State.withResult_resets (s : State) (n : Nat) : (s.withResult n).resets = s.resets := rfl
@[simp] theorem State.withResult_v (s : State) (n : Nat) : (s.withResult n).v = s.v := rfl

/-! ### `State.setFaultFlags` -/

@[simp] theorem State.setFaultFlags_cmd (s : State) (c : FaultCode) : (s.setFaultFlags c).cmd = s.cmd := rfl
@[simp] theorem State.setFaultFlags_err (s : State) (c : FaultCode) : (s.setFaultFlags c).err = true := rfl
@[simp] theorem State.setFaultFlags_fatal (s : State) (c : FaultCode) : (s.setFaultFlags c).fatal = (s.fatal || c == .internal) := rfl
@[simp] theorem State.setFaultFlags_errCode (s : State) (c : FaultCode) : (s.setFaultFlags c).errCode = some c := rfl
@[simp] theorem State.setFaultFlags_phase (s : State) (c : FaultCode) : (s.setFaultFlags c).phase = s.phase := rfl
@[simp] theorem State.setFaultFlags_result (s : State) (c : FaultCode) : (s.setFaultFlags c).result = s.result := rfl
@[simp] theorem State.setFaultFlags_version (s : State) (c : FaultCode) : (s.setFaultFlags c).version = s.version := rfl
@[simp] theorem State.setFaultFlags_bitLen (s : State) (c : FaultCode) : (s.setFaultFlags c).bitLen = s.bitLen := rfl
@[simp] theorem State.setFaultFlags_rsNext (s : State) (c : FaultCode) : (s.setFaultFlags c).rsNext = s.rsNext := rfl
@[simp] theorem State.setFaultFlags_up (s : State) (c : FaultCode) : (s.setFaultFlags c).up = s.up := rfl
@[simp] theorem State.setFaultFlags_urlLen (s : State) (c : FaultCode) : (s.setFaultFlags c).urlLen = s.urlLen := rfl
@[simp] theorem State.setFaultFlags_dataLen (s : State) (c : FaultCode) : (s.setFaultFlags c).dataLen = s.dataLen := rfl
@[simp] theorem State.setFaultFlags_outSize (s : State) (c : FaultCode) : (s.setFaultFlags c).outSize = s.outSize := rfl
@[simp] theorem State.setFaultFlags_tmpSize (s : State) (c : FaultCode) : (s.setFaultFlags c).tmpSize = s.tmpSize := rfl
@[simp] theorem State.setFaultFlags_rem (s : State) (c : FaultCode) : (s.setFaultFlags c).rem = s.rem := rfl
@[simp] theorem State.setFaultFlags_url (s : State) (c : FaultCode) : (s.setFaultFlags c).url = s.url := rfl
@[simp] theorem State.setFaultFlags_data (s : State) (c : FaultCode) : (s.setFaultFlags c).data = s.data := rfl
@[simp] theorem State.setFaultFlags_tmp (s : State) (c : FaultCode) : (s.setFaultFlags c).tmp = s.tmp := rfl
@[simp] theorem State.setFaultFlags_out (s : State) (c : FaultCode) : (s.setFaultFlags c).out = s.out := rfl
@[simp] theorem State.setFaultFlags_host (s : State) (c : FaultCode) : (s.setFaultFlags c).host = s.host := rfl
@[simp] theorem State.setFaultFlags_hostRead (s : State) (c : FaultCode) : (s.setFaultFlags c).hostRead = s.hostRead := rfl
@[simp] theorem State.setFaultFlags_resets (s : State) (c : FaultCode) : (s.setFaultFlags c).resets = s.resets := rfl
@[simp] theorem State.setFaultFlags_v (s : State) (c : FaultCode) : (s.setFaultFlags c).v = s.v := rfl

/-! ### `State.takeFault` -/

@[simp] theorem State.takeFault_cmd (s : State) (c : FaultCode) : (s.takeFault c).cmd = s.cmd := rfl
@[simp] theorem State.takeFault_err (s : State) (c : FaultCode) : (s.takeFault c).err = true := rfl
@[simp] theorem State.takeFault_fatal (s : State) (c : FaultCode) : (s.takeFault c).fatal = (s.fatal || c == .internal) := rfl
@[simp] theorem State.takeFault_errCode (s : State) (c : FaultCode) : (s.takeFault c).errCode = some c := rfl
@[simp] theorem State.takeFault_phase (s : State) (c : FaultCode) : (s.takeFault c).phase = s.phase := rfl
@[simp] theorem State.takeFault_result (s : State) (c : FaultCode) : (s.takeFault c).result = 0 := rfl
@[simp] theorem State.takeFault_version (s : State) (c : FaultCode) : (s.takeFault c).version = s.version := rfl
@[simp] theorem State.takeFault_bitLen (s : State) (c : FaultCode) : (s.takeFault c).bitLen = s.bitLen := rfl
@[simp] theorem State.takeFault_rsNext (s : State) (c : FaultCode) : (s.takeFault c).rsNext = s.rsNext := rfl
@[simp] theorem State.takeFault_up (s : State) (c : FaultCode) : (s.takeFault c).up = s.up := rfl
@[simp] theorem State.takeFault_urlLen (s : State) (c : FaultCode) : (s.takeFault c).urlLen = s.urlLen := rfl
@[simp] theorem State.takeFault_dataLen (s : State) (c : FaultCode) : (s.takeFault c).dataLen = s.dataLen := rfl
@[simp] theorem State.takeFault_outSize (s : State) (c : FaultCode) : (s.takeFault c).outSize = s.outSize := rfl
@[simp] theorem State.takeFault_tmpSize (s : State) (c : FaultCode) : (s.takeFault c).tmpSize = s.tmpSize := rfl
@[simp] theorem State.takeFault_rem (s : State) (c : FaultCode) : (s.takeFault c).rem = s.rem := rfl
@[simp] theorem State.takeFault_url (s : State) (c : FaultCode) : (s.takeFault c).url = s.url := rfl
@[simp] theorem State.takeFault_data (s : State) (c : FaultCode) : (s.takeFault c).data = s.data := rfl
@[simp] theorem State.takeFault_tmp (s : State) (c : FaultCode) : (s.takeFault c).tmp = s.tmp := rfl
@[simp] theorem State.takeFault_out (s : State) (c : FaultCode) : (s.takeFault c).out = s.out := rfl
@[simp] theorem State.takeFault_host (s : State) (c : FaultCode) : (s.takeFault c).host = s.host := rfl
@[simp] theorem State.takeFault_hostRead (s : State) (c : FaultCode) : (s.takeFault c).hostRead = s.hostRead := rfl
@[simp] theorem State.takeFault_resets (s : State) (c : FaultCode) : (s.takeFault c).resets = s.resets := rfl
@[simp] theorem State.takeFault_v (s : State) (c : FaultCode) : (s.takeFault c).v = s.v := rfl

/-! ### `State.dropFaultFlags` -/

@[simp] theorem State.dropFaultFlags_cmd (s : State) : s.dropFaultFlags.cmd = s.cmd := rfl
@[simp] theorem State.dropFaultFlags_err (s : State) : s.dropFaultFlags.err = false := rfl
@[simp] theorem State.dropFaultFlags_fatal (s : State) : s.dropFaultFlags.fatal = s.fatal := rfl
@[simp] theorem State.dropFaultFlags_errCode (s : State) : s.dropFaultFlags.errCode = none := rfl
@[simp] theorem State.dropFaultFlags_phase (s : State) : s.dropFaultFlags.phase = s.phase := rfl
@[simp] theorem State.dropFaultFlags_result (s : State) : s.dropFaultFlags.result = s.result := rfl
@[simp] theorem State.dropFaultFlags_version (s : State) : s.dropFaultFlags.version = s.version := rfl
@[simp] theorem State.dropFaultFlags_bitLen (s : State) : s.dropFaultFlags.bitLen = s.bitLen := rfl
@[simp] theorem State.dropFaultFlags_rsNext (s : State) : s.dropFaultFlags.rsNext = s.rsNext := rfl
@[simp] theorem State.dropFaultFlags_up (s : State) : s.dropFaultFlags.up = s.up := rfl
@[simp] theorem State.dropFaultFlags_urlLen (s : State) : s.dropFaultFlags.urlLen = s.urlLen := rfl
@[simp] theorem State.dropFaultFlags_dataLen (s : State) : s.dropFaultFlags.dataLen = s.dataLen := rfl
@[simp] theorem State.dropFaultFlags_outSize (s : State) : s.dropFaultFlags.outSize = s.outSize := rfl
@[simp] theorem State.dropFaultFlags_tmpSize (s : State) : s.dropFaultFlags.tmpSize = s.tmpSize := rfl
@[simp] theorem State.dropFaultFlags_rem (s : State) : s.dropFaultFlags.rem = s.rem := rfl
@[simp] theorem State.dropFaultFlags_url (s : State) : s.dropFaultFlags.url = s.url := rfl
@[simp] theorem State.dropFaultFlags_data (s : State) : s.dropFaultFlags.data = s.data := rfl
@[simp] theorem State.dropFaultFlags_tmp (s : State) : s.dropFaultFlags.tmp = s.tmp := rfl
@[simp] theorem State.dropFaultFlags_out (s : State) : s.dropFaultFlags.out = s.out := rfl
@[simp] theorem State.dropFaultFlags_host (s : State) : s.dropFaultFlags.host = s.host := rfl
@[simp] theorem State.dropFaultFlags_hostRead (s : State) : s.dropFaultFlags.hostRead = s.hostRead := rfl
@[simp] theorem State.dropFaultFlags_resets (s : State) : s.dropFaultFlags.resets = s.resets := rfl
@[simp] theorem State.dropFaultFlags_v (s : State) : s.dropFaultFlags.v = s.v := rfl

/-! ### `State.clearFault` -/

@[simp] theorem State.clearFault_cmd (s : State) : s.clearFault.cmd = s.cmd := rfl
@[simp] theorem State.clearFault_err (s : State) : s.clearFault.err = false := rfl
@[simp] theorem State.clearFault_fatal (s : State) : s.clearFault.fatal = s.fatal := rfl
@[simp] theorem State.clearFault_errCode (s : State) : s.clearFault.errCode = none := rfl
@[simp] theorem State.clearFault_phase (s : State) : s.clearFault.phase = .idle := rfl
@[simp] theorem State.clearFault_result (s : State) : s.clearFault.result = 0 := rfl
@[simp] theorem State.clearFault_version (s : State) : s.clearFault.version = 0 := rfl
@[simp] theorem State.clearFault_bitLen (s : State) : s.clearFault.bitLen = 0 := rfl
@[simp] theorem State.clearFault_rsNext (s : State) : s.clearFault.rsNext = 0 := rfl
@[simp] theorem State.clearFault_up (s : State) : s.clearFault.up = s.up := rfl
@[simp] theorem State.clearFault_urlLen (s : State) : s.clearFault.urlLen = s.urlLen := rfl
@[simp] theorem State.clearFault_dataLen (s : State) : s.clearFault.dataLen = s.dataLen := rfl
@[simp] theorem State.clearFault_outSize (s : State) : s.clearFault.outSize = s.outSize := rfl
@[simp] theorem State.clearFault_tmpSize (s : State) : s.clearFault.tmpSize = s.tmpSize := rfl
@[simp] theorem State.clearFault_rem (s : State) : s.clearFault.rem = remZero := rfl
@[simp] theorem State.clearFault_url (s : State) : s.clearFault.url = s.url := rfl
@[simp] theorem State.clearFault_data (s : State) : s.clearFault.data = s.data := rfl
@[simp] theorem State.clearFault_tmp (s : State) : s.clearFault.tmp = s.tmp := rfl
@[simp] theorem State.clearFault_out (s : State) : s.clearFault.out = s.out := rfl
@[simp] theorem State.clearFault_host (s : State) : s.clearFault.host = s.host := rfl
@[simp] theorem State.clearFault_hostRead (s : State) : s.clearFault.hostRead = s.hostRead := rfl
@[simp] theorem State.clearFault_resets (s : State) : s.clearFault.resets = s.resets := rfl
@[simp] theorem State.clearFault_v (s : State) : s.clearFault.v = 0 := rfl

/-! ### `State.withStream` -/

@[simp] theorem State.withStream_cmd (s : State) (bs : BitStream) : (s.withStream bs).cmd = s.cmd := rfl
@[simp] theorem State.withStream_err (s : State) (bs : BitStream) : (s.withStream bs).err = s.err := rfl
@[simp] theorem State.withStream_fatal (s : State) (bs : BitStream) : (s.withStream bs).fatal = s.fatal := rfl
@[simp] theorem State.withStream_errCode (s : State) (bs : BitStream) : (s.withStream bs).errCode = s.errCode := rfl
@[simp] theorem State.withStream_phase (s : State) (bs : BitStream) : (s.withStream bs).phase = s.phase := rfl
@[simp] theorem State.withStream_result (s : State) (bs : BitStream) : (s.withStream bs).result = BitVec.ofNat 32 bs.pos := rfl
@[simp] theorem State.withStream_version (s : State) (bs : BitStream) : (s.withStream bs).version = s.version := rfl
@[simp] theorem State.withStream_bitLen (s : State) (bs : BitStream) : (s.withStream bs).bitLen = BitVec.ofNat 32 bs.pos := rfl
@[simp] theorem State.withStream_rsNext (s : State) (bs : BitStream) : (s.withStream bs).rsNext = s.rsNext := rfl
@[simp] theorem State.withStream_up (s : State) (bs : BitStream) : (s.withStream bs).up = s.up := rfl
@[simp] theorem State.withStream_urlLen (s : State) (bs : BitStream) : (s.withStream bs).urlLen = s.urlLen := rfl
@[simp] theorem State.withStream_dataLen (s : State) (bs : BitStream) : (s.withStream bs).dataLen = s.dataLen := rfl
@[simp] theorem State.withStream_outSize (s : State) (bs : BitStream) : (s.withStream bs).outSize = s.outSize := rfl
@[simp] theorem State.withStream_tmpSize (s : State) (bs : BitStream) : (s.withStream bs).tmpSize = s.tmpSize := rfl
@[simp] theorem State.withStream_rem (s : State) (bs : BitStream) : (s.withStream bs).rem = s.rem := rfl
@[simp] theorem State.withStream_url (s : State) (bs : BitStream) : (s.withStream bs).url = s.url := rfl
@[simp] theorem State.withStream_data (s : State) (bs : BitStream) : (s.withStream bs).data = s.data := rfl
@[simp] theorem State.withStream_tmp (s : State) (bs : BitStream) : (s.withStream bs).tmp = bs.tmp := rfl
@[simp] theorem State.withStream_out (s : State) (bs : BitStream) : (s.withStream bs).out = s.out := rfl
@[simp] theorem State.withStream_host (s : State) (bs : BitStream) : (s.withStream bs).host = s.host := rfl
@[simp] theorem State.withStream_hostRead (s : State) (bs : BitStream) : (s.withStream bs).hostRead = s.hostRead := rfl
@[simp] theorem State.withStream_resets (s : State) (bs : BitStream) : (s.withStream bs).resets = s.resets := rfl
@[simp] theorem State.withStream_v (s : State) (bs : BitStream) : (s.withStream bs).v = s.v := rfl

/-! ### `State.latchCmd` -/

@[simp] theorem State.latchCmd_cmd (s : State) (w : Word) : (s.latchCmd w).cmd = w := rfl
@[simp] theorem State.latchCmd_err (s : State) (w : Word) : (s.latchCmd w).err = s.err := rfl
@[simp] theorem State.latchCmd_fatal (s : State) (w : Word) : (s.latchCmd w).fatal = s.fatal := rfl
@[simp] theorem State.latchCmd_errCode (s : State) (w : Word) : (s.latchCmd w).errCode = s.errCode := rfl
@[simp] theorem State.latchCmd_phase (s : State) (w : Word) : (s.latchCmd w).phase = s.phase := rfl
@[simp] theorem State.latchCmd_result (s : State) (w : Word) : (s.latchCmd w).result = s.result := rfl
@[simp] theorem State.latchCmd_version (s : State) (w : Word) : (s.latchCmd w).version = s.version := rfl
@[simp] theorem State.latchCmd_bitLen (s : State) (w : Word) : (s.latchCmd w).bitLen = s.bitLen := rfl
@[simp] theorem State.latchCmd_rsNext (s : State) (w : Word) : (s.latchCmd w).rsNext = s.rsNext := rfl
@[simp] theorem State.latchCmd_up (s : State) (w : Word) : (s.latchCmd w).up = s.up := rfl
@[simp] theorem State.latchCmd_urlLen (s : State) (w : Word) : (s.latchCmd w).urlLen = s.urlLen := rfl
@[simp] theorem State.latchCmd_dataLen (s : State) (w : Word) : (s.latchCmd w).dataLen = s.dataLen := rfl
@[simp] theorem State.latchCmd_outSize (s : State) (w : Word) : (s.latchCmd w).outSize = s.outSize := rfl
@[simp] theorem State.latchCmd_tmpSize (s : State) (w : Word) : (s.latchCmd w).tmpSize = s.tmpSize := rfl
@[simp] theorem State.latchCmd_rem (s : State) (w : Word) : (s.latchCmd w).rem = s.rem := rfl
@[simp] theorem State.latchCmd_url (s : State) (w : Word) : (s.latchCmd w).url = s.url := rfl
@[simp] theorem State.latchCmd_data (s : State) (w : Word) : (s.latchCmd w).data = s.data := rfl
@[simp] theorem State.latchCmd_tmp (s : State) (w : Word) : (s.latchCmd w).tmp = s.tmp := rfl
@[simp] theorem State.latchCmd_out (s : State) (w : Word) : (s.latchCmd w).out = s.out := rfl
@[simp] theorem State.latchCmd_host (s : State) (w : Word) : (s.latchCmd w).host = s.host := rfl
@[simp] theorem State.latchCmd_hostRead (s : State) (w : Word) : (s.latchCmd w).hostRead = s.hostRead := rfl
@[simp] theorem State.latchCmd_resets (s : State) (w : Word) : (s.latchCmd w).resets = s.resets := rfl
@[simp] theorem State.latchCmd_v (s : State) (w : Word) : (s.latchCmd w).v = s.v := rfl

/-! ### Hard reset keeps only what is the host's -/

@[simp] theorem hardReset_host (s : State) : (hardReset s).host = s.host := rfl
@[simp] theorem hardReset_hostRead (s : State) : (hardReset s).hostRead = s.hostRead := rfl
@[simp] theorem hardReset_resets (s : State) : (hardReset s).resets = s.resets + 1 := rfl
@[simp] theorem hardReset_phase (s : State) : (hardReset s).phase = .idle := rfl
@[simp] theorem hardReset_err (s : State) : (hardReset s).err = false := rfl
@[simp] theorem hardReset_fatal (s : State) : (hardReset s).fatal = false := rfl

/-! ### The value of a natural number that fits a register -/

theorem toNat_ofNat_32 {n : Nat} (h : n < 2 ^ 32) : (BitVec.ofNat 32 n).toNat = n := by
  rw [BitVec.toNat_ofNat, Nat.mod_eq_of_lt h]

theorem toNat_ofNat_6 {n : Nat} (h : n < 64) : (BitVec.ofNat 6 n).toNat = n := by
  rw [BitVec.toNat_ofNat, Nat.mod_eq_of_lt (by omega)]

theorem Phase.toNat_le (p : Phase) : p.toNat ≤ 13 := by cases p <;> decide

theorem Phase.toNat_inj {p q : Phase} (h : p.toNat = q.toNat) : p = q := by
  cases p <;> cases q <;> first | rfl | exact absurd h (by decide)

theorem Phase.one_le {p : Phase} : 1 ≤ p.toNat ↔ p ≠ .idle := by cases p <;> decide

/-! ### The register window by number -/

theorem State.readReg_of_ge (s : State) {n : Nat} (h : 11 ≤ n) :
    s.readReg n = if 16 ≤ n ∧ n ≤ 45 then some ((remAt s.rem (n - 16)).setWidth 32)
      else if n < Config.regSlots then some 0 else none := by
  unfold State.readReg
  iterate 11 rw [if_neg (by omega)]

/-- The eleven registers before the first reserved slot (R21). -/
theorem State.readReg_low (s : State) {n : Nat} (h : n < 11) :
    s.readReg n = [s.cmd, s.statusWord, s.result, s.version.setWidth 32, s.bitLen, s.rsNext, if s.up then 1 else 0,
      s.urlLen, s.dataLen, s.outSize, s.tmpSize][n]? := by
  rcases (by omega : n = 0 ∨ n = 1 ∨ n = 2 ∨ n = 3 ∨ n = 4 ∨ n = 5 ∨ n = 6 ∨ n = 7 ∨ n = 8 ∨ n = 9 ∨ n = 10) with
    rfl | rfl | rfl | rfl | rfl | rfl | rfl | rfl | rfl | rfl | rfl <;> rfl

theorem State.readReg_lt (s : State) {n : Nat} (h : n < 64) : ∃ x, s.readReg n = some x := by
  by_cases h' : n < 11
  · rw [State.readReg_low s h']
    exact ⟨_, List.getElem?_eq_getElem h'⟩
  · rw [State.readReg_of_ge s (by omega), if_pos (show n < Config.regSlots from h)]
    split <;> exact ⟨_, rfl⟩

/-- A write to a register that takes none changes nothing (R21, R22). -/
theorem State.writeReg_ignored (s : State) (w : Word) {n : Nat} (h : n ≤ 5 ∨ 11 ≤ n) : s.writeReg n w = s := by
  unfold State.writeReg
  iterate 5 rw [if_neg (by omega)]

end Sys2Proof.Machine
end

