-- ==== Sys2Proof/Laws/Frame.lean ====
section
/-! SUPPORT. What no command body changes: the registers and memories that only the host writes, and the fault state, which
only a fault and CLEAR change (spec/10_state.md R21, spec/60_exceptions.md R296). -/

namespace Sys2Proof.Machine

/-- The part of the state that a body leaves alone. -/
structure SameHost (s t : State) : Prop where
  cmd : t.cmd = s.cmd
  err : t.err = s.err
  fatal : t.fatal = s.fatal
  errCode : t.errCode = s.errCode
  up : t.up = s.up
  urlLen : t.urlLen = s.urlLen
  dataLen : t.dataLen = s.dataLen
  outSize : t.outSize = s.outSize
  tmpSize : t.tmpSize = s.tmpSize
  url : t.url = s.url
  data : t.data = s.data
  host : t.host = s.host
  hostRead : t.hostRead = s.hostRead
  resets : t.resets = s.resets

theorem SameHost.refl (s : State) : SameHost s s :=
  ⟨rfl, rfl, rfl, rfl, rfl, rfl, rfl, rfl, rfl, rfl, rfl, rfl, rfl, rfl⟩

/-- Any update of the registers and memories that the block works on. -/
theorem SameHost.work (s : State) (p : Phase) (r : Word) (v : BitVec 6) (b n : Word) (rem : Vector Byte Config.maxEc)
    (tmp out : Memory) :
    SameHost s { s with
      phase := p, result := r, version := v, bitLen := b, rsNext := n, rem := rem, tmp := tmp, out := out } :=
  ⟨rfl, rfl, rfl, rfl, rfl, rfl, rfl, rfl, rfl, rfl, rfl, rfl, rfl, rfl⟩

theorem SameHost.trans {s t u : State} (h : SameHost s t) (k : SameHost t u) : SameHost s u :=
  ⟨k.cmd.trans h.cmd, k.err.trans h.err, k.fatal.trans h.fatal, k.errCode.trans h.errCode, k.up.trans h.up,
    k.urlLen.trans h.urlLen, k.dataLen.trans h.dataLen, k.outSize.trans h.outSize, k.tmpSize.trans h.tmpSize,
    k.url.trans h.url, k.data.trans h.data, k.host.trans h.host, k.hostRead.trans h.hostRead, k.resets.trans h.resets⟩

theorem doVsel_sameHost {s t : State} (h : doVsel s = .ok t) : SameHost s t := by
  obtain ⟨v, -, rfl⟩ := doVsel_ok.mp h
  exact SameHost.work _ _ _ _ _ _ _ _ _

theorem doPkinit_sameHost {s t : State} (h : doPkinit s = .ok t) : SameHost s t := by
  obtain ⟨-, -, rfl⟩ := doPkinit_ok.mp h
  exact SameHost.work _ _ _ _ _ _ _ _ _

theorem doPkbin_sameHost {src : Byte} {s t : State} (h : doPkbin src s = .ok t) : SameHost s t := by
  obtain ⟨-, -, -, -, _, -, bs, -, rfl⟩ := doPkbin_ok.mp h
  exact SameHost.work _ _ _ _ _ _ _ _ _

theorem doPknum_sameHost {src : Byte} {s t : State} (h : doPknum src s = .ok t) : SameHost s t := by
  obtain ⟨-, -, -, -, _, -, -, bs, -, rfl⟩ := doPknum_ok.mp h
  exact SameHost.work _ _ _ _ _ _ _ _ _

theorem doPkterm_sameHost {s t : State} (h : doPkterm s = .ok t) : SameHost s t := by
  obtain ⟨-, -, bs, -, rfl⟩ := doPkterm_ok.mp h
  exact SameHost.work _ _ _ _ _ _ _ _ _

theorem doRsall_sameHost {s t : State} (h : doRsall s = .ok t) : SameHost s t := by
  obtain ⟨-, -, r, -, rfl⟩ := doRsall_ok.mp h
  exact SameHost.work _ _ _ _ _ _ _ _ _

theorem doMxinit_sameHost {s t : State} (h : doMxinit s = .ok t) : SameHost s t := by
  obtain ⟨-, -, rfl⟩ := doMxinit_ok.mp h
  exact SameHost.work _ _ _ _ _ _ _ _ _

theorem plotStep_sameHost {need next : Phase} {plots : List Plot} {n : Nat} {s t : State}
    (h : plotStep need next plots n s = .ok t) : SameHost s t := by
  obtain ⟨-, -, out, -, rfl⟩ := plotStep_ok.mp h
  exact SameHost.work _ _ _ _ _ _ _ _ _

theorem doMxdata_sameHost {s t : State} (h : doMxdata s = .ok t) : SameHost s t := by
  obtain ⟨-, -, -, -, _, -, out, -, rfl⟩ := doMxdata_ok.mp h
  exact SameHost.work _ _ _ _ _ _ _ _ _

theorem doMask_sameHost {s t : State} (h : doMask s = .ok t) : SameHost s t := by
  obtain ⟨-, -, out, -, rfl⟩ := doMask_ok.mp h
  exact SameHost.work _ _ _ _ _ _ _ _ _

/-- The twelve steps of GENERATE, with the states between them. -/
theorem doPipeline_ok {s t : State} :
    doPipeline s = .ok t ↔
      ∃ s₁ s₂ s₃ s₄ s₅ s₆ s₇ s₈ s₉ s₁₀ s₁₁ s₁₂ s₁₃, doVsel s = .ok s₁ ∧ doPkinit s₁ = .ok s₂ ∧ doSegments s₂ = .ok s₃ ∧
        doPkterm s₃ = .ok s₄ ∧ doRsall s₄ = .ok s₅ ∧ doMxinit s₅ = .ok s₆ ∧ doMxfind s₆ = .ok s₇ ∧
        doMxtime s₇ = .ok s₈ ∧ doMxalign s₈ = .ok s₉ ∧ doMxrsvd s₉ = .ok s₁₀ ∧ doMxdata s₁₀ = .ok s₁₁ ∧
        doMxfmt s₁₁ = .ok s₁₂ ∧ doMxver s₁₂ = .ok s₁₃ ∧ doMask s₁₃ = .ok t := by
  unfold doPipeline doMatrix
  simp only [attempt_bind_ok]
  constructor
  · rintro ⟨s₁, h₁, s₂, h₂, s₃, h₃, s₄, h₄, s₅, h₅, s₁₃, ⟨s₆, h₆, s₇, h₇, s₈, h₈, s₉, h₉, s₁₀, h₁₀, s₁₁, h₁₁, s₁₂, h₁₂,
      h₁₃⟩, h⟩
    exact ⟨s₁, s₂, s₃, s₄, s₅, s₆, s₇, s₈, s₉, s₁₀, s₁₁, s₁₂, s₁₃, h₁, h₂, h₃, h₄, h₅, h₆, h₇, h₈, h₉, h₁₀, h₁₁, h₁₂,
      h₁₃, h⟩
  · rintro ⟨s₁, s₂, s₃, s₄, s₅, s₆, s₇, s₈, s₉, s₁₀, s₁₁, s₁₂, s₁₃, h₁, h₂, h₃, h₄, h₅, h₆, h₇, h₈, h₉, h₁₀, h₁₁, h₁₂,
      h₁₃, h⟩
    exact ⟨s₁, h₁, s₂, h₂, s₃, h₃, s₄, h₄, s₅, h₅, s₁₃, ⟨s₆, h₆, s₇, h₇, s₈, h₈, s₉, h₉, s₁₀, h₁₀, s₁₁, h₁₁, s₁₂, h₁₂,
      h₁₃⟩, h⟩

theorem doSegments_ok {s t : State} :
    doSegments s = .ok t ↔
      (s.up = true ∧ ∃ u, doPkbin 0 s = .ok u ∧ doPknum 1 u = .ok t) ∨ (s.up = false ∧ doPkbin 1 s = .ok t) := by
  unfold doSegments
  cases h : s.up <;> simp [attempt_bind_ok]

theorem doSegments_sameHost {s t : State} (h : doSegments s = .ok t) : SameHost s t := by
  rcases doSegments_ok.mp h with ⟨-, u, h1, h2⟩ | ⟨-, h⟩
  · exact (doPkbin_sameHost h1).trans (doPknum_sameHost h2)
  · exact doPkbin_sameHost h

theorem doPipeline_sameHost {s t : State} (h : doPipeline s = .ok t) : SameHost s t := by
  obtain ⟨s₁, s₂, s₃, s₄, s₅, s₆, s₇, s₈, s₉, s₁₀, s₁₁, s₁₂, s₁₃, h₁, h₂, h₃, h₄, h₅, h₆, h₇, h₈, h₉, h₁₀, h₁₁, h₁₂,
    h₁₃, h⟩ := doPipeline_ok.mp h
  exact (doVsel_sameHost h₁).trans <| (doPkinit_sameHost h₂).trans <| (doSegments_sameHost h₃).trans <|
    (doPkterm_sameHost h₄).trans <| (doRsall_sameHost h₅).trans <| (doMxinit_sameHost h₆).trans <|
    (plotStep_sameHost h₇).trans <| (plotStep_sameHost h₈).trans <| (plotStep_sameHost h₉).trans <|
    (plotStep_sameHost h₁₀).trans <| (doMxdata_sameHost h₁₁).trans <| (plotStep_sameHost h₁₂).trans <|
    (plotStep_sameHost h₁₃).trans <| doMask_sameHost h

/-- A step that stops the sequence does so in a state that the steps before it reached. -/
theorem doPipeline_raise {s s' : State} {c : FaultCode} (h : doPipeline s = .error (.raise c s')) :
    SameHost s s' ∧
      (doVsel s = .error (.raise c s') ∨
        ∃ s₁, doVsel s = .ok s₁ ∧ (doPkinit s₁ = .error (.raise c s') ∨
        ∃ s₂, doPkinit s₁ = .ok s₂ ∧ (doSegments s₂ = .error (.raise c s') ∨
        ∃ s₃, doSegments s₂ = .ok s₃ ∧ (doPkterm s₃ = .error (.raise c s') ∨
        ∃ s₄, doPkterm s₃ = .ok s₄ ∧ (doRsall s₄ = .error (.raise c s') ∨
        ∃ s₅, doRsall s₄ = .ok s₅ ∧ (doMatrix s₅ = .error (.raise c s') ∨
        ∃ s₆, doMatrix s₅ = .ok s₆ ∧ doMask s₆ = .error (.raise c s'))))))) := by
  have hm : ∀ {a b : State}, doMatrix a = .ok b → SameHost a b := by
    intro a b hab
    unfold doMatrix at hab
    simp only [attempt_bind_ok] at hab
    obtain ⟨s₆, h₆, s₇, h₇, s₈, h₈, s₉, h₉, s₁₀, h₁₀, s₁₁, h₁₁, s₁₂, h₁₂, h₁₃⟩ := hab
    exact (doMxinit_sameHost h₆).trans <| (plotStep_sameHost h₇).trans <| (plotStep_sameHost h₈).trans <|
      (plotStep_sameHost h₉).trans <| (plotStep_sameHost h₁₀).trans <| (doMxdata_sameHost h₁₁).trans <|
      (plotStep_sameHost h₁₂).trans <| plotStep_sameHost h₁₃
  have hmr : ∀ {a : State}, doMatrix a = .error (.raise c s') → SameHost a s' := by
    intro a ha
    unfold doMatrix at ha
    rcases attempt_bind_raise.mp ha with h₆ | ⟨s₆, h₆, ha⟩
    · exact (doMxinit_raises _ _ _ h₆).1 ▸ SameHost.refl _
    refine (doMxinit_sameHost h₆).trans ?_
    rcases attempt_bind_raise.mp ha with h₇ | ⟨s₇, h₇, ha⟩
    · exact (plotStep_raises _ _ _ _ _ _ _ h₇).1 ▸ SameHost.refl _
    refine (plotStep_sameHost h₇).trans ?_
    rcases attempt_bind_raise.mp ha with h₈ | ⟨s₈, h₈, ha⟩
    · exact (plotStep_raises _ _ _ _ _ _ _ h₈).1 ▸ SameHost.refl _
    refine (plotStep_sameHost h₈).trans ?_
    rcases attempt_bind_raise.mp ha with h₉ | ⟨s₉, h₉, ha⟩
    · exact (plotStep_raises _ _ _ _ _ _ _ h₉).1 ▸ SameHost.refl _
    refine (plotStep_sameHost h₉).trans ?_
    rcases attempt_bind_raise.mp ha with h₁₀ | ⟨s₁₀, h₁₀, ha⟩
    · exact (plotStep_raises _ _ _ _ _ _ _ h₁₀).1 ▸ SameHost.refl _
    refine (plotStep_sameHost h₁₀).trans ?_
    rcases attempt_bind_raise.mp ha with h₁₁ | ⟨s₁₁, h₁₁, ha⟩
    · exact (doMxdata_raises _ _ _ h₁₁).1 ▸ SameHost.refl _
    refine (doMxdata_sameHost h₁₁).trans ?_
    rcases attempt_bind_raise.mp ha with h₁₂ | ⟨s₁₂, h₁₂, ha⟩
    · exact (plotStep_raises _ _ _ _ _ _ _ h₁₂).1 ▸ SameHost.refl _
    exact (plotStep_sameHost h₁₂).trans ((plotStep_raises _ _ _ _ _ _ _ ha).1 ▸ SameHost.refl _)
  have hsr : ∀ {a : State}, doSegments a = .error (.raise c s') → SameHost a s' := by
    intro a ha
    unfold doSegments at ha
    split at ha
    · rcases attempt_bind_raise.mp ha with h1 | ⟨u, h1, ha⟩
      · exact (doPkbin_raises _ _ _ _ h1).1 ▸ SameHost.refl _
      · exact (doPkbin_sameHost h1).trans ((doPknum_raises _ _ _ _ ha).1 ▸ SameHost.refl _)
    · exact (doPkbin_raises _ _ _ _ ha).1 ▸ SameHost.refl _
  unfold doPipeline at h
  rcases attempt_bind_raise.mp h with h₁ | ⟨s₁, h₁, h⟩
  · exact ⟨(doVsel_raises _ _ _ h₁).1 ▸ SameHost.refl _, .inl h₁⟩
  rcases attempt_bind_raise.mp h with h₂ | ⟨s₂, h₂, h⟩
  · exact ⟨(doVsel_sameHost h₁).trans ((doPkinit_raises _ _ _ h₂).1 ▸ SameHost.refl _), .inr ⟨s₁, h₁, .inl h₂⟩⟩
  rcases attempt_bind_raise.mp h with h₃ | ⟨s₃, h₃, h⟩
  · exact ⟨(doVsel_sameHost h₁).trans <| (doPkinit_sameHost h₂).trans (hsr h₃), .inr ⟨s₁, h₁, .inr ⟨s₂, h₂, .inl h₃⟩⟩⟩
  have k₃ := (doVsel_sameHost h₁).trans <| (doPkinit_sameHost h₂).trans (doSegments_sameHost h₃)
  rcases attempt_bind_raise.mp h with h₄ | ⟨s₄, h₄, h⟩
  · exact ⟨k₃.trans ((doPkterm_raises _ _ _ h₄).1 ▸ SameHost.refl _),
      .inr ⟨s₁, h₁, .inr ⟨s₂, h₂, .inr ⟨s₃, h₃, .inl h₄⟩⟩⟩⟩
  have k₄ := k₃.trans (doPkterm_sameHost h₄)
  rcases attempt_bind_raise.mp h with h₅ | ⟨s₅, h₅, h⟩
  · exact ⟨k₄.trans ((doRsall_raises _ _ _ h₅).1 ▸ SameHost.refl _),
      .inr ⟨s₁, h₁, .inr ⟨s₂, h₂, .inr ⟨s₃, h₃, .inr ⟨s₄, h₄, .inl h₅⟩⟩⟩⟩⟩
  have k₅ := k₄.trans (doRsall_sameHost h₅)
  rcases attempt_bind_raise.mp h with h₆ | ⟨s₆, h₆, h⟩
  · exact ⟨k₅.trans (hmr h₆), .inr ⟨s₁, h₁, .inr ⟨s₂, h₂, .inr ⟨s₃, h₃, .inr ⟨s₄, h₄, .inr ⟨s₅, h₅, .inl h₆⟩⟩⟩⟩⟩⟩
  · exact ⟨(k₅.trans (hm h₆)).trans ((doMask_raises _ _ _ h).1 ▸ SameHost.refl _),
      .inr ⟨s₁, h₁, .inr ⟨s₂, h₂, .inr ⟨s₃, h₃, .inr ⟨s₄, h₄, .inr ⟨s₅, h₅, .inr ⟨s₆, h₆, h⟩⟩⟩⟩⟩⟩⟩

/-- No body but CLEAR's changes the host's registers and memories or the fault state. -/
theorem body_sameHost {i : Instr} {s t : State} (hi : i ≠ .clear) (h : body i s = .ok t) : SameHost s t := by
  cases i with
  | clear => exact absurd rfl hi
  | generate =>
    obtain ⟨-, -, -, u, hu, rfl⟩ := doGenerate_ok.mp h
    exact (doPipeline_sameHost hu).trans (SameHost.work _ _ _ _ _ _ _ _ _)
  | maxsz _ => cases h; exact SameHost.work _ _ _ _ _ _ _ _ _
  | gfmul _ _ => cases h; exact SameHost.work _ _ _ _ _ _ _ _ _
  | gfexp _ => cases h; exact SameHost.work _ _ _ _ _ _ _ _ _
  | gfdiv _ _ => obtain ⟨n, -, rfl⟩ := domainResult_ok.mp h; exact SameHost.work _ _ _ _ _ _ _ _ _
  | gfinv _ => obtain ⟨n, -, rfl⟩ := domainResult_ok.mp h; exact SameHost.work _ _ _ _ _ _ _ _ _
  | gflog _ => obtain ⟨n, -, rfl⟩ := domainResult_ok.mp h; exact SameHost.work _ _ _ _ _ _ _ _ _
  | vset _ => obtain ⟨-, rfl⟩ := doVset_ok.mp h; exact SameHost.work _ _ _ _ _ _ _ _ _
  | vcap _ => obtain ⟨-, rfl⟩ := doVcap_ok.mp h; exact SameHost.work _ _ _ _ _ _ _ _ _
  | vpar _ => obtain ⟨-, rfl⟩ := doVpar_ok.mp h; exact SameHost.work _ _ _ _ _ _ _ _ _
  | vsel => exact doVsel_sameHost h
  | pkinit => exact doPkinit_sameHost h
  | pkbin _ => exact doPkbin_sameHost h
  | pknum _ => exact doPknum_sameHost h
  | pkterm => exact doPkterm_sameHost h
  | rsclr => obtain ⟨-, rfl⟩ := doRsclr_ok.mp h; exact SameHost.work _ _ _ _ _ _ _ _ _
  | rsfeed _ => obtain ⟨-, rfl⟩ := doRsfeed_ok.mp h; exact SameHost.work _ _ _ _ _ _ _ _ _
  | rsblk _ => obtain ⟨-, -, -, -, r, -, rfl⟩ := doRsblk_ok.mp h; exact SameHost.work _ _ _ _ _ _ _ _ _
  | rsall => exact doRsall_sameHost h
  | mxinit => exact doMxinit_sameHost h
  | mxfind | mxtime | mxalign | mxrsvd | mxfmt | mxver => exact plotStep_sameHost h
  | mxdata => exact doMxdata_sameHost h
  | ilvrd _ => obtain ⟨-, -, -, x, -, rfl⟩ := doIlvrd_ok.mp h; exact SameHost.work _ _ _ _ _ _ _ _ _
  | cellclass _ _ => obtain ⟨-, -, rfl⟩ := doCellclass_ok.mp h; exact SameHost.work _ _ _ _ _ _ _ _ _
  | mask => exact doMask_sameHost h

/-- A fault is raised in the state the command starts in, GENERATE's in one with the same host part. -/
theorem body_raise {i : Instr} {s s' : State} {c : FaultCode} (h : body i s = .error (.raise c s')) :
    SameHost s s' ∧ (i ≠ .generate → s' = s) := by
  have key : s' = s → SameHost s s' ∧ (i ≠ .generate → s' = s) := fun e => ⟨e ▸ SameHost.refl _, fun _ => e⟩
  cases i with
  | generate =>
    refine ⟨?_, fun hi => absurd rfl hi⟩
    rcases require_bind_raise.mp h with ⟨-, -, rfl⟩ | ⟨-, h⟩
    · exact SameHost.refl _
    rcases require_bind_raise.mp h with ⟨-, -, rfl⟩ | ⟨-, h⟩
    · exact SameHost.refl _
    rcases require_bind_raise.mp h with ⟨-, -, rfl⟩ | ⟨-, h⟩
    · exact SameHost.refl _
    rcases attempt_bind_raise.mp h with h | ⟨u, -, h⟩
    · exact (doPipeline_raise h).1
    · cases h
  | clear => exact key (doClear_raises _ _ _ h).1
  | maxsz _ => cases h
  | gfmul _ _ => cases h
  | gfexp _ => cases h
  | gfdiv _ _ => exact key (domainResult_raises _ _ _ _ h).1
  | gfinv _ => exact key (domainResult_raises _ _ _ _ h).1
  | gflog _ => exact key (domainResult_raises _ _ _ _ h).1
  | vset _ => exact key (doVset_raises _ _ _ _ h).1
  | vcap _ => exact key (doVcap_raises _ _ _ _ h).1
  | vpar _ => exact key (doVpar_raises _ _ _ _ h).1
  | vsel => exact key (doVsel_raises _ _ _ h).1
  | pkinit => exact key (doPkinit_raises _ _ _ h).1
  | pkbin _ => exact key (doPkbin_raises _ _ _ _ h).1
  | pknum _ => exact key (doPknum_raises _ _ _ _ h).1
  | pkterm => exact key (doPkterm_raises _ _ _ h).1
  | rsclr => exact key (doRsclr_raises _ _ _ h).1
  | rsfeed _ => exact key (doRsfeed_raises _ _ _ _ h).1
  | rsblk _ => exact key (doRsblk_raises _ _ _ _ h).1
  | rsall => exact key (doRsall_raises _ _ _ h).1
  | mxinit => exact key (doMxinit_raises _ _ _ h).1
  | mxfind | mxtime | mxalign | mxrsvd | mxfmt | mxver => exact key (plotStep_raises _ _ _ _ _ _ _ h).1
  | mxdata => exact key (doMxdata_raises _ _ _ h).1
  | ilvrd _ => exact key (doIlvrd_raises _ _ _ _ h).1
  | cellclass _ _ => exact key (doCellclass_raises _ _ _ _ _ h).1
  | mask => exact key (doMask_raises _ _ _ h).1

end Sys2Proof.Machine
end

