-- ==== Sys2Proof/Laws/Packer.lean ====
section
/-! SUPPORT. The laws of the bit-stream: where a push succeeds, which bits and bytes it writes, which it leaves alone; and
the lengths of what the packer's commands push. -/

namespace Sys2Proof.Machine

/-! ### One bit -/

theorem getLsbD_bitAt (bit : Bool) (i j : Nat) (hi : i < 8) : (bitAt bit i).getLsbD j = (bit && decide (j = i)) := by
  cases bit
  · simp [bitAt]
  · by_cases hj : j < 8
    · have : ∀ i, i < 8 → ∀ j, j < 8 → ((1#8 : Byte) <<< i).getLsbD j = decide (j = i) := by decide
      simpa [bitAt] using this i hi j hj
    · rw [BitVec.getLsbD_of_ge _ _ (by omega)]
      simp
      omega

/-- Everything a push of one bit that succeeds can have done. -/
theorem pushBit_inv {bs bs' : BitStream} {b : Bool} (h : pushBit bs b = .ok bs') :
    (bs.pos % 8 = 0 ∧ bs' = ⟨bs.tmp.write (bs.pos / 8) (bitAt b 7), bs.pos + 1⟩) ∨
      (bs.pos % 8 ≠ 0 ∧ ∃ x, bs.tmp.read (bs.pos / 8) = some x ∧
        bs' = ⟨bs.tmp.write (bs.pos / 8) (x ||| bitAt b (7 - bs.pos % 8)), bs.pos + 1⟩) := by
  unfold pushBit at h
  split at h
  · rename_i h0
    exact .inl ⟨h0, (Except.ok.inj h).symm⟩
  · rename_i h0
    split at h
    · cases h
    · rename_i x hx
      exact .inr ⟨h0, x, Memory.fetch_ok.1 hx, (Except.ok.inj h).symm⟩

theorem pushBit_pos {bs bs' : BitStream} {b : Bool} (h : pushBit bs b = .ok bs') : bs'.pos = bs.pos + 1 := by
  rcases pushBit_inv h with ⟨_, rfl⟩ | ⟨_, x, _, rfl⟩ <;> rfl

theorem pushBit_read_other {bs bs' : BitStream} {b : Bool} (h : pushBit bs b = .ok bs') {a : Nat}
    (ha : a ≠ bs.pos / 8) : bs'.tmp.read a = bs.tmp.read a := by
  rcases pushBit_inv h with ⟨_, rfl⟩ | ⟨_, x, _, rfl⟩ <;> exact Memory.read_write_other _ _ ha

theorem pushBit_isSome {bs bs' : BitStream} {b : Bool} (h : pushBit bs b = .ok bs') :
    (bs'.tmp.read (bs.pos / 8)).isSome := by
  rcases pushBit_inv h with ⟨_, rfl⟩ | ⟨_, x, _, rfl⟩ <;> simp

theorem pushBit_wf {bs bs' : BitStream} {b : Bool} (h : pushBit bs b = .ok bs') (hm : bs.tmp.wf)
    (hp : bs.pos / 8 < Config.indexBound) : bs'.tmp.wf := by
  rcases pushBit_inv h with ⟨_, rfl⟩ | ⟨_, x, _, rfl⟩ <;> exact Memory.write_wf _ hm hp

/-- The bits of the byte that a push writes: the new bit at the cursor; elsewhere the old bits, unless the push is the
first into the byte, which clears them (R152). -/
theorem pushBit_streamBit {bs bs' : BitStream} {b : Bool} (h : pushBit bs b = .ok bs') {p : Nat}
    (hp : p / 8 = bs.pos / 8) :
    streamBit bs'.tmp p =
      some ((decide (p = bs.pos) && b) || (decide (bs.pos % 8 ≠ 0) && decide (streamBit bs.tmp p = some true))) := by
  have hiff : (7 - p % 8 = 7 - bs.pos % 8) ↔ p = bs.pos := by omega
  rcases pushBit_inv h with ⟨h0, rfl⟩ | ⟨h0, x, hx, rfl⟩
  · have h7 : (7 - p % 8 = 7) ↔ p = bs.pos := by omega
    simp only [streamBit, hp, Memory.read_write_same, Option.map_some, getLsbD_bitAt b 7 _ (by omega), h7, h0]
    simp [Bool.and_comm]
  · simp only [streamBit, hp, Memory.read_write_same, Option.map_some, BitVec.getLsbD_or,
      getLsbD_bitAt b (7 - bs.pos % 8) _ (by omega), hiff, hx]
    cases b <;> simp [h0, Bool.or_comm]

/-! ### A list of bits -/

theorem pushBits_cons {bs bs' : BitStream} {b : Bool} {rest : List Bool} (h : pushBits bs (b :: rest) = .ok bs') :
    ∃ bs1, pushBit bs b = .ok bs1 ∧ pushBits bs1 rest = .ok bs' := by
  unfold pushBits at h
  split at h
  · cases h
  · rename_i bs1 h1
    exact ⟨bs1, h1, h⟩

theorem pushBits_pos {bs bs' : BitStream} {bits : List Bool} (h : pushBits bs bits = .ok bs') :
    bs'.pos = bs.pos + bits.length := by
  induction bits generalizing bs with
  | nil => cases h; rfl
  | cons b rest ih =>
    obtain ⟨bs1, h1, h2⟩ := pushBits_cons h
    rw [ih h2, pushBit_pos h1, List.length_cons]
    omega

/-- Bytes outside the ones that the bits fall into keep their values. -/
theorem pushBits_read_other {bs bs' : BitStream} {bits : List Bool} (h : pushBits bs bits = .ok bs') {a : Nat}
    (ha : a < bs.pos / 8 ∨ bs.pos + bits.length ≤ 8 * a) : bs'.tmp.read a = bs.tmp.read a := by
  induction bits generalizing bs with
  | nil => cases h; rfl
  | cons b rest ih =>
    obtain ⟨bs1, h1, h2⟩ := pushBits_cons h
    have hp := pushBit_pos h1
    simp only [List.length_cons] at ha
    rw [ih h2 (by omega), pushBit_read_other h1 (by omega)]

theorem pushBits_isSome_mono {bs bs' : BitStream} {bits : List Bool} (h : pushBits bs bits = .ok bs') {a : Nat}
    (ha : (bs.tmp.read a).isSome) : (bs'.tmp.read a).isSome := by
  induction bits generalizing bs with
  | nil => cases h; exact ha
  | cons b rest ih =>
    obtain ⟨bs1, h1, h2⟩ := pushBits_cons h
    refine ih h2 ?_
    by_cases hb : a = bs.pos / 8
    · rw [hb]
      exact pushBit_isSome h1
    · rw [pushBit_read_other h1 hb]
      exact ha

/-- Every byte that one of the bits falls into has a value afterwards. -/
theorem pushBits_isSome {bs bs' : BitStream} {bits : List Bool} (h : pushBits bs bits = .ok bs') {p : Nat}
    (h1 : bs.pos ≤ p) (h2 : p < bs.pos + bits.length) : (bs'.tmp.read (p / 8)).isSome := by
  induction bits generalizing bs with
  | nil => simp at h2; omega
  | cons b rest ih =>
    obtain ⟨bs1, hb1, hb2⟩ := pushBits_cons h
    have hp := pushBit_pos hb1
    simp only [List.length_cons] at h2
    by_cases hpe : p = bs.pos
    · subst hpe
      exact pushBits_isSome_mono hb2 (pushBit_isSome hb1)
    · exact ih hb2 (by omega) (by omega)

theorem pushBits_wf {bs bs' : BitStream} {bits : List Bool} (h : pushBits bs bits = .ok bs') (hm : bs.tmp.wf)
    (hp : bs.pos + bits.length ≤ 8 * Config.indexBound) : bs'.tmp.wf := by
  induction bits generalizing bs with
  | nil => cases h; exact hm
  | cons b rest ih =>
    obtain ⟨bs1, h1, h2⟩ := pushBits_cons h
    have hpos := pushBit_pos h1
    simp only [List.length_cons] at hp
    exact ih h2 (pushBit_wf h1 hm (by omega)) (by omega)

/-- A push stops only on a byte that was begun before and has no value. -/
theorem pushBits_ok {bs : BitStream} (bits : List Bool)
    (h : bs.pos % 8 ≠ 0 → (bs.tmp.read (bs.pos / 8)).isSome) : ∃ bs', pushBits bs bits = .ok bs' := by
  induction bits generalizing bs with
  | nil => exact ⟨bs, rfl⟩
  | cons b rest ih =>
    have hone : ∃ bs1, pushBit bs b = .ok bs1 := by
      by_cases h0 : bs.pos % 8 = 0
      · exact ⟨_, by rw [pushBit, if_pos h0]⟩
      · obtain ⟨x, hx⟩ := Option.isSome_iff_exists.1 (h h0)
        exact ⟨_, by rw [pushBit, if_neg h0, Memory.fetch_ok.2 hx]⟩
    obtain ⟨bs1, h1⟩ := hone
    have hp := pushBit_pos h1
    obtain ⟨bs2, h2⟩ := ih (bs := bs1) fun h0 => by
      rw [show bs1.pos / 8 = bs.pos / 8 by omega]
      exact pushBit_isSome h1
    exact ⟨bs2, by rw [pushBits, h1]; exact h2⟩

/-- The bits after a list of bits has been pushed: the listed bits from the cursor on; the bits of a byte that was begun
before stay (and are OR-ed in); the other bits of a byte that is begun are 0 (R152). -/
theorem pushBits_streamBit {bs bs' : BitStream} {bits : List Bool} (h : pushBits bs bits = .ok bs') {p : Nat}
    (h1 : bs.pos / 8 ≤ p / 8) (h2 : 8 * (p / 8) < bs.pos + bits.length) (hne : bits ≠ []) :
    streamBit bs'.tmp p =
      some ((decide (bs.pos ≤ p) && bits.getD (p - bs.pos) false) ||
        (decide (p / 8 = bs.pos / 8 ∧ bs.pos % 8 ≠ 0) && decide (streamBit bs.tmp p = some true))) := by
  induction bits generalizing bs with
  | nil => exact absurd rfl hne
  | cons b rest ih =>
    obtain ⟨bs1, hb1, hb2⟩ := pushBits_cons h
    have hp := pushBit_pos hb1
    simp only [List.length_cons] at h2
    have hfar : p / 8 < bs1.pos / 8 ∨ bs1.pos + rest.length ≤ 8 * (p / 8) ∨ rest = [] →
        streamBit bs'.tmp p = streamBit bs1.tmp p := by
      rintro (hh | hh | rfl)
      · rw [streamBit, pushBits_read_other hb2 (.inl hh), streamBit]
      · rw [streamBit, pushBits_read_other hb2 (.inr hh), streamBit]
      · cases hb2
        rfl
    by_cases hlast : p / 8 < bs1.pos / 8 ∨ bs1.pos + rest.length ≤ 8 * (p / 8) ∨ rest = []
    · have hl : rest = [] → rest.length = 0 := fun h => by rw [h]; rfl
      have he : p / 8 = bs.pos / 8 := by
        rcases hlast with hh | hh | hh
        · omega
        · omega
        · have := hl hh
          omega
      rw [hfar hlast, pushBit_streamBit hb1 he]
      by_cases hpp : p = bs.pos
      · subst hpp
        simp
      · have hz : (decide (bs.pos ≤ p) && (b :: rest).getD (p - bs.pos) false) = false := by
          by_cases hle : bs.pos ≤ p
          · have hlen : rest.length ≤ p - bs.pos - 1 := by
              rcases hlast with hh | hh | hh
              · omega
              · omega
              · have := hl hh
                omega
            rw [show p - bs.pos = (p - bs.pos - 1) + 1 by omega, List.getD_cons_succ,
              List.getD_eq_getElem?_getD, List.getElem?_eq_none hlen]
            simp
          · simp [hle]
        rw [hz]
        simp [hpp, he]
    · rw [not_or, not_or] at hlast
      rw [ih hb2 (by omega) (by omega) hlast.2.2]
      by_cases he : p / 8 = bs.pos / 8
      · have h8 : bs1.pos / 8 = bs.pos / 8 := by omega
        have hm : bs1.pos % 8 ≠ 0 := by omega
        rw [pushBit_streamBit hb1 he]
        by_cases hpp : p = bs.pos
        · subst hpp
          have hno : ¬ bs1.pos ≤ bs.pos := by omega
          simp only [hno, h8, hm, decide_true, decide_false, Bool.false_and, Bool.false_or, Bool.true_and, ne_eq,
            not_false_eq_true, and_self, le_refl, Nat.sub_self, List.getD_cons_zero, true_and, Option.some.injEq,
            Bool.decide_eq_true]
        · by_cases hle : bs.pos ≤ p
          · rw [show p - bs.pos = (p - bs1.pos) + 1 by omega, List.getD_cons_succ]
            simp [hpp, hle, show bs1.pos ≤ p by omega, h8, hm, he]
          · simp [hpp, hle, show ¬ bs1.pos ≤ p by omega, h8, hm, he]
      · have hle : bs1.pos ≤ p := by omega
        have hno : ¬ (p / 8 = bs1.pos / 8 ∧ bs1.pos % 8 ≠ 0) := by omega
        rw [show p - bs.pos = (p - bs1.pos) + 1 by omega, List.getD_cons_succ]
        simp [hle, show bs.pos ≤ p by omega, hno, he]

/-! ### Lengths -/

@[simp] theorem msbBits_length (val n : Nat) : (msbBits val n).length = n := by
  induction n with
  | zero => rfl
  | succ n ih => simp [msbBits, ih]

/-- Bit `i` of a pushed field, the most significant first (R152). -/
theorem msbBits_getD (val n i : Nat) (hi : i < n) : (msbBits val n).getD i false = val.testBit (n - 1 - i) := by
  induction n generalizing i with
  | zero => omega
  | succ n ih =>
    cases i with
    | zero => simp [msbBits]
    | succ i =>
      rw [msbBits, List.getD_cons_succ, ih i (by omega)]
      congr 1
      omega

theorem fieldBits_nil : fieldBits [] = [] := rfl

theorem fieldBits_cons (f : BitField) (fs : List BitField) :
    fieldBits (f :: fs) = msbBits f.val f.len ++ fieldBits fs := rfl

theorem fieldBits_append (fs gs : List BitField) : fieldBits (fs ++ gs) = fieldBits fs ++ fieldBits gs := by
  simp [fieldBits, List.flatMap_append]

theorem fieldBits_length (fs : List BitField) : (fieldBits fs).length = (fs.map BitField.len).sum := by
  induction fs with
  | nil => rfl
  | cons f fs ih => simp [fieldBits_cons, ih]

theorem headerBits_length (mode : Mode) (n v : Nat) : (fieldBits (headerFields mode n v)).length = 4 + lenBits mode v := by
  simp [fieldBits_length, headerFields]

theorem binaryBits_length (bytes : List Byte) : (fieldBits (binaryFields bytes)).length = 8 * bytes.length := by
  induction bytes with
  | nil => rfl
  | cons x xs ih =>
    rw [binaryFields, List.map_cons, fieldBits_cons, List.length_append, msbBits_length, List.length_cons]
    have : (fieldBits (xs.map fun x => ⟨x.toNat, 8⟩)).length = 8 * xs.length := ih
    simp only [this]
    omega

theorem numericBits_length (bytes : List Byte) :
    (fieldBits (numericFields bytes)).length = 10 * (bytes.length / 3) + tailBits (bytes.length % 3) := by
  induction bytes using numericFields.induct with
  | case1 d0 d1 d2 rest ih =>
    rw [numericFields, fieldBits_cons, List.length_append, msbBits_length, ih]
    simp only [List.length_cons]
    rw [show (rest.length + 1 + 1 + 1) % 3 = rest.length % 3 by omega]
    omega
  | case2 d0 d1 => simp [numericFields, fieldBits_cons, fieldBits_nil, tailBits]
  | case3 d0 => simp [numericFields, fieldBits_cons, fieldBits_nil, tailBits]
  | case4 => simp [numericFields, fieldBits_nil, tailBits]

/-- A segment's bits are as many as `SegBits` says (R165). -/
theorem segmentBits_length (mode : Mode) (bytes : List Byte) (v : Nat) :
    (fieldBits (headerFields mode bytes.length v ++ segmentData mode bytes)).length = segBits mode bytes.length v := by
  rw [fieldBits_append, List.length_append, headerBits_length]
  cases mode
  · simp [segmentData, numericBits_length, segBits, dataBits]
  · simp [segmentData, binaryBits_length, segBits, dataBits]

theorem segBits_pos (mode : Mode) (n v : Nat) : 12 ≤ segBits mode n v := by
  unfold segBits lenBits
  cases mode <;> simp only <;> split <;> (try split) <;> omega

@[simp] theorem padFields_length (n : Nat) : (fieldBits (padFields n)).length = 8 * n := by
  induction n with
  | zero => rfl
  | succ n ih =>
    rw [padFields, fieldBits_append, List.length_append, ih]
    simp [fieldBits_cons, fieldBits_nil]
    omega

theorem zeroBits_length (n : Nat) : (fieldBits (List.replicate n ⟨0, 1⟩)).length = n := by
  simp [fieldBits_length]

/-- PKTERM fills the stream up to the capacity (R164). -/
theorem termBits_length {pos c : Nat} (hp : pos ≤ c) (hc : c % 8 = 0) :
    pos + (fieldBits (termFields pos c)).length = c := by
  unfold termFields
  simp only [fieldBits_append, List.length_append, fieldBits_cons, fieldBits_nil, msbBits_length, zeroBits_length,
    padFields_length, List.append_nil]
  omega

end Sys2Proof.Machine
end

