-- ==== Sys2Proof/Laws/PerInstr.lean ====
section
/-! SUPPORT. The family `EncodedInRow` of statements about commands as syntax: the word of a command is in the row of the
opcode map that the command stands for, and names only fields that the row's format has (spec/30_encoding.md R82, R88). -/

namespace Sys2Proof.Laws.EncodedInRow

/-- The word of `i` is selected by the row of `i` (R82). -/
def Statement (i : Instr) : Prop :=
  i.row.selects (encode i) = true

theorem selects_assembleAB_n (op : Byte) : (OpRow.mk op .n).selects (assembleAB op 0 0) = true := by
  simp [selects_iff]

theorem selects_assembleAB_a (op a : Byte) : (OpRow.mk op .a).selects (assembleAB op a 0) = true := by
  simp [selects_iff]

theorem selects_assembleAB (op a b : Byte) : (OpRow.mk op .ab).selects (assembleAB op a b) = true := by
  simp [selects_iff]

theorem selects_assembleI (op : Byte) (i : BitVec 16) : (OpRow.mk op .i).selects (assembleI op i) = true := by
  simp [selects_iff]

theorem clear : Statement .clear := selects_assembleAB_n _
theorem generate : Statement .generate := selects_assembleAB_n _
theorem maxsz (a : Byte) : Statement (.maxsz a) := selects_assembleAB_a _ _
theorem gfmul (a b : Byte) : Statement (.gfmul a b) := selects_assembleAB _ _ _
theorem gfdiv (a b : Byte) : Statement (.gfdiv a b) := selects_assembleAB _ _ _
theorem gfinv (a : Byte) : Statement (.gfinv a) := selects_assembleAB_a _ _
theorem gfexp (a : Byte) : Statement (.gfexp a) := selects_assembleAB_a _ _
theorem gflog (a : Byte) : Statement (.gflog a) := selects_assembleAB_a _ _
theorem vset (a : Byte) : Statement (.vset a) := selects_assembleAB_a _ _
theorem vsel : Statement .vsel := selects_assembleAB_n _
theorem vcap (a : Byte) : Statement (.vcap a) := selects_assembleAB_a _ _
theorem vpar (a : Byte) : Statement (.vpar a) := selects_assembleAB_a _ _
theorem pkinit : Statement .pkinit := selects_assembleAB_n _
theorem pkbin (a : Byte) : Statement (.pkbin a) := selects_assembleAB_a _ _
theorem pknum (a : Byte) : Statement (.pknum a) := selects_assembleAB_a _ _
theorem pkterm : Statement .pkterm := selects_assembleAB_n _
theorem rsclr : Statement .rsclr := selects_assembleAB_n _
theorem rsfeed (a : Byte) : Statement (.rsfeed a) := selects_assembleAB_a _ _
theorem rsblk (a : Byte) : Statement (.rsblk a) := selects_assembleAB_a _ _
theorem rsall : Statement .rsall := selects_assembleAB_n _
theorem mxinit : Statement .mxinit := selects_assembleAB_n _
theorem mxfind : Statement .mxfind := selects_assembleAB_n _
theorem mxtime : Statement .mxtime := selects_assembleAB_n _
theorem mxalign : Statement .mxalign := selects_assembleAB_n _
theorem mxrsvd : Statement .mxrsvd := selects_assembleAB_n _
theorem mxdata : Statement .mxdata := selects_assembleAB_n _
theorem mxfmt : Statement .mxfmt := selects_assembleAB_n _
theorem mxver : Statement .mxver := selects_assembleAB_n _
theorem ilvrd (i : BitVec 16) : Statement (.ilvrd i) := selects_assembleI _ _
theorem cellclass (a b : Byte) : Statement (.cellclass a b) := selects_assembleAB _ _ _
theorem mask : Statement .mask := selects_assembleAB_n _

end Sys2Proof.Laws.EncodedInRow
end

