-- ==== Sys2Proof/Laws/Reader.lean ====
section
/-! SUPPORT. The reader of symbols undoes the packer and the interleaver: a pushed field reads as its value, a segment's
bits read as its segment, the stop marker ends the list, and the data codewords are taken from the interleaved stream in
the order in which they stand in TMP (spec/47_generator.md R277). -/

namespace Sys2Proof.Machine

/-! ### One field -/

theorem bitsNat_foldl (bits : List Bool) (k : Nat) :
    bits.foldl (fun n b => 2 * n + b.toNat) k = k * 2 ^ bits.length + bitsNat bits := by
  unfold bitsNat
  induction bits generalizing k with
  | nil => simp
  | cons b bits ih =>
    rw [List.foldl_cons, List.foldl_cons, ih, ih (2 * 0 + b.toNat), List.length_cons, Nat.pow_succ']
    ring

theorem bitsNat_cons (b : Bool) (bits : List Bool) : bitsNat (b :: bits) = b.toNat * 2 ^ bits.length + bitsNat bits := by
  rw [bitsNat, List.foldl_cons, bitsNat_foldl]
  simp

/-- A pushed field reads as its low bits (R152). -/
theorem bitsNat_msbBits (val n : Nat) : bitsNat (msbBits val n) = val % 2 ^ n := by
  induction n with
  | zero => simp [msbBits, bitsNat, Nat.mod_one]
  | succ n ih =>
    rw [msbBits, bitsNat_cons, ih, msbBits_length, Nat.toNat_testBit, Nat.pow_succ, Nat.mod_mul]
    ring

theorem bitsNat_take_msbBits {val n : Nat} (h : val < 2 ^ n) (rest : List Bool) :
    bitsNat ((msbBits val n ++ rest).take n) = val := by
  rw [List.take_left' (msbBits_length val n), bitsNat_msbBits, Nat.mod_eq_of_lt h]

theorem drop_msbBits (val n : Nat) (rest : List Bool) : (msbBits val n ++ rest).drop n = rest :=
  List.drop_left' (msbBits_length val n)

/-! ### The data of a segment -/

theorem readBytes_binary (bytes : List Byte) (rest : List Bool) :
    readBytes bytes.length (fieldBits (binaryFields bytes) ++ rest) = bytes := by
  induction bytes with
  | nil => rfl
  | cons x xs ih =>
    have hx : x.toNat < 2 ^ 8 := x.isLt
    rw [binaryFields, List.map_cons, fieldBits_cons, List.append_assoc, List.length_cons, readBytes,
      bitsNat_take_msbBits hx, drop_msbBits, BitVec.ofNat_toNat, BitVec.setWidth_eq]
    exact congrArg _ ih

theorem digitByte_digitVal {x : Byte} (h : isDigit x = true) : digitByte (digitVal x) = x := by
  simp only [isDigit, Bool.and_eq_true, decide_eq_true_eq] at h
  rw [digitByte, digitVal, Nat.add_sub_cancel' h.1, BitVec.ofNat_toNat, BitVec.setWidth_eq]

theorem digitVal_le {x : Byte} (h : isDigit x = true) : digitVal x ≤ 9 := by
  simp only [isDigit, Bool.and_eq_true, decide_eq_true_eq] at h
  unfold digitVal
  omega

theorem readDigits_numeric (bytes : List Byte) (rest : List Bool) (hd : ∀ x ∈ bytes, isDigit x = true) :
    readDigits bytes.length (fieldBits (numericFields bytes) ++ rest) = bytes := by
  induction bytes using numericFields.induct with
  | case1 d0 d1 d2 ds ih =>
    have h0 := hd d0 (by simp)
    have h1 := hd d1 (by simp)
    have h2 := hd d2 (by simp)
    have l0 := digitVal_le h0
    have l1 := digitVal_le h1
    have l2 := digitVal_le h2
    rw [numericFields, fieldBits_cons, List.append_assoc]
    simp only [List.length_cons, readDigits]
    rw [bitsNat_take_msbBits (by omega), drop_msbBits, ih fun x hx => hd x (by simp [hx]),
      show (100 * digitVal d0 + 10 * digitVal d1 + digitVal d2) / 100 = digitVal d0 by omega,
      show (100 * digitVal d0 + 10 * digitVal d1 + digitVal d2) / 10 % 10 = digitVal d1 by omega,
      show (100 * digitVal d0 + 10 * digitVal d1 + digitVal d2) % 10 = digitVal d2 by omega,
      digitByte_digitVal h0, digitByte_digitVal h1, digitByte_digitVal h2]
  | case2 d0 d1 =>
    have h0 := hd d0 (by simp)
    have h1 := hd d1 (by simp)
    have l0 := digitVal_le h0
    have l1 := digitVal_le h1
    rw [numericFields, fieldBits_cons, List.append_assoc]
    simp only [List.length_cons, List.length_nil, readDigits]
    rw [bitsNat_take_msbBits (by omega), show (10 * digitVal d0 + digitVal d1) / 10 = digitVal d0 by omega,
      show (10 * digitVal d0 + digitVal d1) % 10 = digitVal d1 by omega, digitByte_digitVal h0, digitByte_digitVal h1]
  | case3 d0 =>
    have h0 := hd d0 (by simp)
    have l0 := digitVal_le h0
    rw [numericFields, fieldBits_cons, List.append_assoc]
    simp only [List.length_cons, List.length_nil, readDigits]
    rw [bitsNat_take_msbBits (by omega), digitByte_digitVal h0]
  | case4 => rfl

/-! ### The list of segments -/

theorem headerBits_eq (mode : Mode) (n v : Nat) (bits : List Bool) :
    fieldBits (headerFields mode n v) ++ bits =
      msbBits (modeIndicator mode) 4 ++ (msbBits n (lenBits mode v) ++ bits) := by
  simp [headerFields, fieldBits_cons, fieldBits_nil]

/-- A segment at the front of the stream reads as itself, and the reader goes on behind it. -/
theorem readSegments_segment (v fuel : Nat) (mode : Mode) (bytes : List Byte) (rest : List Bool)
    (hn : bytes.length < 2 ^ lenBits mode v) (hd : mode = .numeric → ∀ x ∈ bytes, isDigit x = true) :
    readSegments v (fuel + 1)
        (fieldBits (headerFields mode bytes.length v ++ segmentData mode bytes) ++ rest) =
      (mode, bytes) :: readSegments v fuel rest := by
  rw [fieldBits_append, List.append_assoc, headerBits_eq, readSegments, List.length_append, msbBits_length,
    if_neg (by omega)]
  have hdrop : ∀ bits : List Bool, (msbBits (modeIndicator mode) 4 ++ (msbBits bytes.length (lenBits mode v) ++ bits)).drop
      (4 + lenBits mode v) = bits := fun bits => by
    rw [← List.drop_drop, drop_msbBits, drop_msbBits]
  cases mode
  · rw [show modeIndicator .numeric = 1 from rfl] at hdrop ⊢
    rw [bitsNat_take_msbBits (by decide), if_neg (by decide), if_pos rfl]
    simp only [drop_msbBits, bitsNat_take_msbBits hn, hdrop, segmentData]
    rw [readDigits_numeric _ _ (hd rfl), List.drop_left' (by rw [numericBits_length]; rfl)]
  · rw [show modeIndicator .binary = 4 from rfl] at hdrop ⊢
    rw [bitsNat_take_msbBits (by decide), if_pos rfl]
    simp only [drop_msbBits, bitsNat_take_msbBits hn, hdrop, segmentData]
    rw [readBytes_binary, List.drop_left' (binaryBits_length bytes)]

/-- Behind the last segment stands the stop marker, or fewer than four bits are left (R161). -/
theorem readSegments_term (v fuel pos c : Nat) (hc : c % 8 = 0) (hp : pos ≤ c) :
    readSegments v fuel (fieldBits (termFields pos c)) = [] := by
  cases fuel with
  | zero => rfl
  | succ fuel =>
    have hl := termBits_length hp hc
    rw [readSegments]
    split
    · rfl
    · have h4 : min 4 (c - pos) = 4 := by omega
      have hz : bitsNat ((fieldBits (termFields pos c)).take 4) = 0 := by
        unfold termFields
        simp only [h4, fieldBits_append, fieldBits_cons, fieldBits_nil, List.append_nil, List.append_assoc]
        exact bitsNat_take_msbBits (by decide) _
      rw [hz, if_neg (by decide), if_neg (by decide)]

/-! ### The codewords -/

/-- The data codewords are taken in the order in which they stand in TMP (R225, R227). -/
theorem dataPlaces_streamIndex : ∀ v < 41, 1 ≤ v → (dataPlaces v).map (streamIndex v) = List.range (cap v) := by
  decide +kernel

theorem dataPlaces_lt : ∀ v < 41, 1 ≤ v → ∀ i ∈ dataPlaces v, i < tot v := by
  decide +kernel

/-- What the reader finds when each Data cell of the walk holds its masked bit of the interleaved stream (R232, R260). -/
theorem readBitStream_eq {v : Nat} (h1 : 1 ≤ v) (h2 : v ≤ 40) {out : Memory} {byte : Nat → Byte}
    (hl : 8 * tot v ≤ (cellOrder v).length)
    (h : ∀ i rc, i < 8 * tot v → (cellOrder v)[i]? = some rc →
      moduleAt out (stride v) rc.1 rc.2 =
        some ((byte (streamIndex v (i / 8))).getLsbD (7 - i % 8) ^^ decide ((rc.1 + rc.2) % 2 = 0))) :
    readBitStream v out = (List.range (cap v)).flatMap fun a => byteBits (byte a) := by
  rw [← dataPlaces_streamIndex v (by omega) h1, List.flatMap_map, readBitStream]
  simp only [List.flatMap]
  congr 1
  refine List.map_congr_left fun i hi => ?_
  have hi' := dataPlaces_lt v (by omega) h1 i hi
  refine List.ext_getElem ?_ fun j hj hj' => ?_
  · simp only [List.length_take, List.length_drop, readStream, List.length_map, byteBits, List.length_range]
    omega
  · have hj8 : j < 8 := by simpa [byteBits] using hj'
    have hlt : 8 * i + j < (cellOrder v).length := by omega
    have hc := h (8 * i + j) _ (by omega) (List.getElem?_eq_getElem hlt)
    rw [show (8 * i + j) / 8 = i by omega, show (8 * i + j) % 8 = j by omega] at hc
    simp only [List.getElem_take, List.getElem_drop, readStream, List.getElem_map, unmasked, hc, Option.getD_some,
      byteBits, List.getElem_range]
    simp

/-- The bytes of a stream that holds the listed bits, written out bit by bit. -/
theorem flatMap_byteBits {n : Nat} {tmp : Memory} {byte : Nat → Byte} {bits : List Bool} (hb : bits.length = 8 * n)
    (ht : ∀ a < n, tmp.read a = some (byte a)) (h : ∀ p < 8 * n, streamBit tmp p = bits[p]?) :
    ((List.range n).flatMap fun a => byteBits (byte a)) = bits := by
  induction n generalizing bits with
  | zero => simpa using List.eq_nil_of_length_eq_zero hb
  | succ n ih =>
    have := ih (bits := bits.take (8 * n)) (by simp; omega) (fun a ha => ht a (by omega)) fun p hp => by
      rw [h p (by omega), List.getElem?_take_of_lt hp]
    rw [List.range_succ, List.flatMap_append, this, List.flatMap_singleton]
    conv_rhs => rw [← List.take_append_drop (8 * n) bits]
    congr 1
    refine List.ext_getElem (by simp [byteBits]; omega) fun j hj hj' => ?_
    have hj8 : j < 8 := by simpa [byteBits] using hj
    have hp := h (8 * n + j) (by omega)
    rw [streamBit, show (8 * n + j) / 8 = n by omega, show (8 * n + j) % 8 = j by omega, ht n (by omega),
      List.getElem?_eq_getElem (by omega)] at hp
    simpa [byteBits] using hp

/-! ### The modules of a finished symbol -/

theorem format_not_data {v : Nat} {p : Plot} (hp : p ∈ formatPlots v) : cellClass v p.r p.c ≠ .data := by
  intro h
  obtain ⟨-, -, -, h6, -, hdark, h1, h2, -, -⟩ := cellClass_data_iff.mp h
  have hw : width v = 4 * v + 17 := rfl
  obtain ⟨i, hi, rfl | rfl⟩ := mem_formatPlots.mp hp
  · simp only [fmtCell1] at h6 h1
    split_ifs at h6 h1 <;> simp only [true_and] at h6 h1 <;> omega
  · simp only [fmtCell2] at h2 hdark
    split_ifs at h2 hdark <;> simp only [true_and] at h2 hdark <;> omega

theorem version_not_data {v : Nat} {p : Plot} (hp : p ∈ versionPlots v) : cellClass v p.r p.c ≠ .data := by
  intro h
  obtain ⟨-, -, -, -, -, -, -, -, h1, h2⟩ := cellClass_data_iff.mp h
  have hw : width v = 4 * v + 17 := rfl
  obtain ⟨h7, i, hi, rfl | rfl⟩ := mem_versionPlots.mp hp <;> simp only at h1 h2 <;> omega

theorem flatMap_byteBits_length (bytes : List Byte) : (bytes.flatMap byteBits).length = 8 * bytes.length := by
  induction bytes with
  | nil => rfl
  | cons x xs ih =>
    rw [List.flatMap_cons, List.length_append, ih, byteBits, List.length_map, List.length_range, List.length_cons]
    omega

theorem flatMap_byteBits_getElem? (bytes : List Byte) (i : Nat) :
    (bytes.flatMap byteBits)[i]? = (bytes[i / 8]?).map fun x => x.getLsbD (7 - i % 8) := by
  induction bytes generalizing i with
  | nil => simp
  | cons x xs ih =>
    have hl : (byteBits x).length = 8 := by simp [byteBits]
    rw [List.flatMap_cons]
    by_cases hi : i < 8
    · rw [List.getElem?_append_left (by omega), show i / 8 = 0 by omega, show i % 8 = i by omega]
      simp [byteBits, hi]
    · rw [List.getElem?_append_right (by omega), ih, hl, show i / 8 = (i - 8) / 8 + 1 by omega,
        show i % 8 = (i - 8) % 8 by omega, List.getElem?_cons_succ]

/-- Each Data cell that MXDATA writes holds its bit of the interleaved stream (R232). -/
theorem dataPlots_moduleAt {v : Nat} {m m' : Memory} {bytes : List Byte}
    (h : plotAll (stride v) m (dataPlots (cellOrder v) bytes) = .ok m') {i : Nat} {rc : Nat × Nat} {x : Byte}
    (hc : (cellOrder v)[i]? = some rc) (hx : bytes[i / 8]? = some x) :
    moduleAt m' (stride v) rc.1 rc.2 = some (x.getLsbD (7 - i % 8)) := by
  have hbit : (bytes.flatMap byteBits)[i]? = some (x.getLsbD (7 - i % 8)) := by
    rw [flatMap_byteBits_getElem?, hx, Option.map_some]
  have hmem : ∀ p, p ∈ dataPlots (cellOrder v) bytes ↔
      ∃ j, ∃ (c : Nat × Nat) (b : Bool), (cellOrder v)[j]? = some c ∧ (bytes.flatMap byteBits)[j]? = some b ∧ p = ⟨c.1, c.2, b⟩ := fun p => by
    rw [dataPlots, List.mem_map]
    simp only [List.mem_iff_getElem?, List.getElem?_zip_eq_some]
    constructor
    · rintro ⟨⟨c, b⟩, ⟨j, h1, h2⟩, rfl⟩
      exact ⟨j, c, b, h1, h2, rfl⟩
    · rintro ⟨j, c, b, h1, h2, rfl⟩
      exact ⟨(c, b), ⟨j, h1, h2⟩, rfl⟩
  refine plotAll_moduleAt h ?_ ⟨_, (hmem _).2 ⟨i, rc, _, hc, hbit, rfl⟩, rfl, rfl⟩ ?_
  · rintro p hp
    obtain ⟨j, c, b, h1, -, rfl⟩ := (hmem p).1 hp
    exact cell_column_lt (mem_cellOrder.mp (List.mem_of_getElem? h1)).1.2
  · rintro p hp hr hcol
    obtain ⟨j, c, b, h1, h2, rfl⟩ := (hmem p).1 hp
    have hcc : c = rc := Prod.ext hr.symm hcol.symm
    have hj : j = i := (List.getElem?_inj (List.getElem?_eq_some_iff.mp h1).1 (cellOrder_nodup_list v)).1
      (by rw [h1, hc, hcc])
    rw [hj, hbit] at h2
    exact (Option.some.inj h2).symm

/-- What MXDATA, MXFMT, MXVER and MASK leave in the Data cells of the walk: the bits of the interleaved stream, masked. -/
theorem finished_moduleAt {s s₁ s₂ s₃ t : State} (hd : doMxdata s = .ok s₁) (hf : doMxfmt s₁ = .ok s₂)
    (hv : doMxver s₂ = .ok s₃) (hm : doMask s₃ = .ok t) {i : Nat} {rc : Nat × Nat} {x : Byte}
    (hc : (cellOrder s.v)[i]? = some rc) (hi : i < 8 * tot s.v) (hx : s.tmp.read (streamIndex s.v (i / 8)) = some x) :
    moduleAt t.out (stride s.v) rc.1 rc.2 = some (x.getLsbD (7 - i % 8) ^^ decide ((rc.1 + rc.2) % 2 = 0)) := by
  obtain ⟨-, -, -, -, bytes, hb, o1, h1, rfl⟩ := doMxdata_ok.mp hd
  obtain ⟨-, -, o2, h2, rfl⟩ := plotStep_ok.mp hf
  obtain ⟨-, -, o3, h3, rfl⟩ := plotStep_ok.mp hv
  obtain ⟨-, -, o4, h4, rfl⟩ := doMask_ok.mp hm
  obtain ⟨hin, hdata⟩ := mem_cellOrder.mp (List.mem_of_getElem? hc)
  have hcol := cell_column_lt hin.2
  have hbytes : bytes[i / 8]? = some x := by
    rw [(Memory.fetchAll_inv hb).2]
    simp [hx, show i / 8 < tot s.v by omega]
  have e1 := dataPlots_moduleAt h1 hc hbytes
  have e2 : moduleAt o2 (stride s.v) rc.1 rc.2 = moduleAt o1 (stride s.v) rc.1 rc.2 :=
    plotAll_moduleAt_other h2 (fun p hp => cell_column_lt (formatPlots_range hp).2) hcol fun p hp he =>
      format_not_data hp (by rw [← he.1, ← he.2]; exact hdata)
  have e3 : moduleAt o3 (stride s.v) rc.1 rc.2 = moduleAt o2 (stride s.v) rc.1 rc.2 :=
    plotAll_moduleAt_other h3 (fun p hp => cell_column_lt (versionPlots_range hp).2) hcol fun p hp he =>
      version_not_data hp (by rw [← he.1, ← he.2]; exact hdata)
  have h4' : flipAll (stride s.v) o3 (maskedCells s.v) = .ok o4 := h4
  have e4 := flipAll_moduleAt h4' (maskedCells_nodup s.v)
    (fun q hq => cell_column_lt (mem_maskedCells.mp hq).1.2) (r := rc.1) hcol
  refine e4.trans ?_
  have : (rc.1, rc.2) ∈ maskedCells s.v ↔ (rc.1 + rc.2) % 2 = 0 := by
    rw [mem_maskedCells]
    exact ⟨fun h => h.2.2, fun h => ⟨hin, hdata, h⟩⟩
  rw [e3, e2, e1]
  simp [this]

end Sys2Proof.Machine
end

