-- ==== Sys2Proof/Laws/ReedSolomon.lean ====
section
/-! SUPPORT. The divider: one step byte by byte, and what encoding one block or a list of blocks does to TMP
(spec/44_reed_solomon.md R193, R196, R197). -/

namespace Sys2Proof.Machine

/-! ### One step -/

theorem remAt_eq {rem : Vector Byte Config.maxEc} {i : Nat} (h : i < Config.maxEc) : remAt rem i = rem[i] := by
  simp [remAt, h]

theorem remAt_outside {rem : Vector Byte Config.maxEc} {i : Nat} (h : Config.maxEc ≤ i) : remAt rem i = 0 := by
  simp only [remAt]
  rw [Vector.getElem?_eq_none h]
  rfl

@[simp] theorem remAt_remZero (i : Nat) : remAt remZero i = 0 := by
  by_cases h : i < Config.maxEc
  · rw [remAt_eq h]; simp [remZero]
  · exact remAt_outside (by omega)

theorem rem_ext {a b : Vector Byte Config.maxEc} (h : ∀ i < Config.maxEc, remAt a i = remAt b i) : a = b := by
  apply Vector.ext
  intro i hi
  rw [← remAt_eq hi, ← remAt_eq hi, h i hi]

@[simp] theorem gfmul_zero_right (a : Byte) : gfmul a 0#8 = 0#8 := by
  simp only [gfmul, gflog]
  split <;> simp_all

@[simp] theorem gfmul_zero_left (a : Byte) : gfmul 0#8 a = 0#8 := by
  simp [gfmul, gflog]

/-- Every byte after a step is a function of the register before it (R193). -/
theorem remAt_stepRem {k : Nat} {rem : Vector Byte Config.maxEc} {d : Byte} {i : Nat} (h : i < Config.maxEc) :
    remAt (stepRem k rem d) i =
      if i + 1 < k then remAt rem (i + 1) ^^^ gfmul (genAt k i) (d ^^^ remAt rem 0)
      else if i + 1 = k then gfmul (genAt k i) (d ^^^ remAt rem 0)
      else remAt rem i := by
  rw [remAt_eq h]
  simp [stepRem]

/-- Feeding the leading byte gives `f = 0`, a pure shift (R193, R195). -/
theorem remAt_stepRem_self {k : Nat} {rem : Vector Byte Config.maxEc} {i : Nat} (h : i < Config.maxEc) :
    remAt (stepRem k rem (remAt rem 0)) i =
      if i + 1 < k then remAt rem (i + 1) else if i + 1 = k then 0 else remAt rem i := by
  rw [remAt_stepRem h]
  simp

theorem feedAll_nil (k : Nat) (rem : Vector Byte Config.maxEc) : feedAll k rem [] = rem := by
  rw [feedAll, List.foldl_nil]

theorem feedAll_cons (k : Nat) (rem : Vector Byte Config.maxEc) (d : Byte) (ds : List Byte) :
    feedAll k rem (d :: ds) = feedAll k (stepRem k rem d) ds := by
  rw [feedAll, List.foldl_cons, feedAll]

theorem feedAll_append (k : Nat) (rem : Vector Byte Config.maxEc) (xs ys : List Byte) :
    feedAll k rem (xs ++ ys) = feedAll k (feedAll k rem xs) ys := by
  rw [feedAll, List.foldl_append, feedAll, feedAll]

@[simp] theorem remBytes_length (k : Nat) (rem : Vector Byte Config.maxEc) : (remBytes k rem).length = k := by
  simp [remBytes]

theorem remBytes_getElem? {k i : Nat} (rem : Vector Byte Config.maxEc) (h : i < k) :
    (remBytes k rem)[i]? = some (remAt rem i) := by
  simp [remBytes, h]

/-! ### One block -/

theorem mem_blockIndexes {v b a : Nat} : a ∈ blockIndexes v b ↔ blkOff v b ≤ a ∧ a < blkOff v b + blkLen v b := by
  simp [blockIndexes, List.mem_range'_1]

/-- What encoding a block that succeeds did (R196). -/
theorem encodeBlock_inv {v b : Nat} {tmp tmp' : Memory} {rem' : Vector Byte Config.maxEc}
    (h : encodeBlock v b tmp = .ok (rem', tmp')) :
    ∃ bytes, tmp.fetchAll .tmp (blockIndexes v b) = .ok bytes ∧ rem' = feedAll (cat v).k remZero bytes ∧
      tmp' = tmp.writeRun (eccOff v b) (remBytes (cat v).k rem') := by
  unfold encodeBlock at h
  split at h
  · cases h
  · next bytes hb =>
    cases h
    exact ⟨bytes, hb, rfl, rfl⟩

theorem encodeBlock_ok {v b : Nat} {tmp : Memory} (hb : b < nblk v) (h : tmp.written (cap v)) :
    ∃ r, encodeBlock v b tmp = .ok r := by
  unfold encodeBlock
  rw [Memory.fetchAll_ok]
  · exact ⟨_, rfl⟩
  · intro a ha
    rw [mem_blockIndexes] at ha
    have := blkOff_add_blkLen_le hb
    exact h a (by omega)

/-- The bytes of TMP after a block: its ECC bytes are the register, every other byte is as before (R196). -/
theorem encodeBlock_read {v b : Nat} {tmp tmp' : Memory} {rem' : Vector Byte Config.maxEc}
    (h : encodeBlock v b tmp = .ok (rem', tmp')) (a : Nat) :
    tmp'.read a = if eccOff v b ≤ a ∧ a < eccOff v b + (cat v).k then some (remAt rem' (a - eccOff v b))
      else tmp.read a := by
  obtain ⟨bytes, -, -, rfl⟩ := encodeBlock_inv h
  rw [Memory.read_writeRun, remBytes_length]
  split
  · rw [remBytes_getElem? _ (by omega)]
  · rfl

theorem encodeBlock_wf {v b : Nat} {tmp tmp' : Memory} {rem' : Vector Byte Config.maxEc}
    (h : encodeBlock v b tmp = .ok (rem', tmp')) (hb : b < nblk v) (hm : tmp.wf) : tmp'.wf := by
  obtain ⟨bytes, -, -, rfl⟩ := encodeBlock_inv h
  refine Memory.writeRun_wf _ hm ?_
  have h1 := eccOff_add_k_le hb
  have h2 := tot_le v
  rw [remBytes_length]
  simp only [Config.tmpMin, Config.indexBound] at *
  omega

theorem encodeBlock_isSome {v b : Nat} {tmp tmp' : Memory} {rem' : Vector Byte Config.maxEc}
    (h : encodeBlock v b tmp = .ok (rem', tmp')) {a : Nat} (ha : (tmp.read a).isSome = true) :
    (tmp'.read a).isSome = true := by
  rw [encodeBlock_read h]
  split
  · rfl
  · exact ha

/-! ### A list of blocks -/

theorem encodeBlocks_cons {v b : Nat} {rest : List Nat} {rem rem' : Vector Byte Config.maxEc} {tmp tmp' : Memory}
    (h : encodeBlocks v rem tmp (b :: rest) = .ok (rem', tmp')) :
    ∃ rem1 tmp1, encodeBlock v b tmp = .ok (rem1, tmp1) ∧ encodeBlocks v rem1 tmp1 rest = .ok (rem', tmp') := by
  unfold encodeBlocks at h
  split at h
  · cases h
  · next rem1 tmp1 h1 => exact ⟨rem1, tmp1, h1, h⟩

theorem encodeBlocks_ok {v : Nat} {bs : List Nat} (hbs : ∀ b ∈ bs, b < nblk v) (rem : Vector Byte Config.maxEc)
    {tmp : Memory} (h : tmp.written (cap v)) : ∃ r, encodeBlocks v rem tmp bs = .ok r := by
  induction bs generalizing rem tmp with
  | nil => exact ⟨_, rfl⟩
  | cons b rest ih =>
    obtain ⟨⟨rem1, tmp1⟩, h1⟩ := encodeBlock_ok (hbs b (by simp)) h
    have hw : tmp1.written (cap v) := fun a ha => encodeBlock_isSome h1 (h a ha)
    obtain ⟨r, hr⟩ := ih (fun b' hb' => hbs b' (by simp [hb'])) rem1 hw
    refine ⟨r, ?_⟩
    unfold encodeBlocks
    rw [h1]
    exact hr

theorem encodeBlocks_wf {v : Nat} {bs : List Nat} (hbs : ∀ b ∈ bs, b < nblk v) {rem rem' : Vector Byte Config.maxEc}
    {tmp tmp' : Memory} (h : encodeBlocks v rem tmp bs = .ok (rem', tmp')) (hm : tmp.wf) : tmp'.wf := by
  induction bs generalizing rem tmp with
  | nil => cases h; exact hm
  | cons b rest ih =>
    obtain ⟨rem1, tmp1, h1, h2⟩ := encodeBlocks_cons h
    exact ih (fun b' hb' => hbs b' (by simp [hb'])) h2 (encodeBlock_wf h1 (hbs b (by simp)) hm)

theorem encodeBlocks_isSome {v : Nat} {bs : List Nat} {rem rem' : Vector Byte Config.maxEc} {tmp tmp' : Memory}
    (h : encodeBlocks v rem tmp bs = .ok (rem', tmp')) {a : Nat} (ha : (tmp.read a).isSome = true) :
    (tmp'.read a).isSome = true := by
  induction bs generalizing rem tmp with
  | nil => cases h; exact ha
  | cons b rest ih =>
    obtain ⟨rem1, tmp1, h1, h2⟩ := encodeBlocks_cons h
    exact ih h2 (encodeBlock_isSome h1 ha)

/-- Only ECC bytes of the listed blocks are written. -/
theorem encodeBlocks_read_other {v : Nat} {bs : List Nat} {rem rem' : Vector Byte Config.maxEc} {tmp tmp' : Memory}
    (h : encodeBlocks v rem tmp bs = .ok (rem', tmp')) {a : Nat}
    (ha : ∀ b ∈ bs, ¬ (eccOff v b ≤ a ∧ a < eccOff v b + (cat v).k)) : tmp'.read a = tmp.read a := by
  induction bs generalizing rem tmp with
  | nil => cases h; rfl
  | cons b rest ih =>
    obtain ⟨rem1, tmp1, h1, h2⟩ := encodeBlocks_cons h
    rw [ih h2 (fun b' hb' => ha b' (by simp [hb'])), encodeBlock_read h1, if_neg (ha b (by simp))]

/-- The data bytes are not modified (R196). -/
theorem encodeBlocks_read_data {v : Nat} {bs : List Nat} {rem rem' : Vector Byte Config.maxEc} {tmp tmp' : Memory}
    (h : encodeBlocks v rem tmp bs = .ok (rem', tmp')) {a : Nat} (ha : a < cap v) : tmp'.read a = tmp.read a := by
  refine encodeBlocks_read_other h fun b _ hb => ?_
  have := cap_le_eccOff v b
  omega

/-- Every listed block's ECC bytes have values afterwards. -/
theorem encodeBlocks_ecc_isSome {v : Nat} {bs : List Nat} {rem rem' : Vector Byte Config.maxEc} {tmp tmp' : Memory}
    (h : encodeBlocks v rem tmp bs = .ok (rem', tmp')) {b a : Nat} (hb : b ∈ bs) (h1 : eccOff v b ≤ a)
    (h2 : a < eccOff v b + (cat v).k) : (tmp'.read a).isSome = true := by
  induction bs generalizing rem tmp with
  | nil => cases hb
  | cons b' rest ih =>
    obtain ⟨rem1, tmp1, e1, e2⟩ := encodeBlocks_cons h
    rcases List.mem_cons.mp hb with rfl | hb
    · refine encodeBlocks_isSome e2 ?_
      rw [encodeBlock_read e1, if_pos ⟨h1, h2⟩]
      rfl
    · exact ih e2 hb

/-- An ECC index belongs to a block. -/
theorem ecc_block {v a : Nat} (h1 : cap v ≤ a) (h2 : a < tot v) :
    (a - cap v) / (cat v).k < nblk v ∧ eccOff v ((a - cap v) / (cat v).k) ≤ a ∧
      a < eccOff v ((a - cap v) / (cat v).k) + (cat v).k := by
  have hk : 0 < (cat v).k := by
    rcases Nat.eq_zero_or_pos (cat v).k with h | h
    · simp only [tot, h, Nat.zero_mul, Nat.add_zero] at h2; omega
    · exact h
  have h3 : a - cap v < (cat v).k * nblk v := by simp only [tot] at h2; omega
  have h4 := Nat.div_add_mod (a - cap v) (cat v).k
  have h5 := Nat.mod_lt (a - cap v) hk
  refine ⟨Nat.div_lt_of_lt_mul h3, ?_, ?_⟩ <;> simp only [eccOff] <;> omega

end Sys2Proof.Machine
end

