-- ==== Sys2Proof/Tests/Slice0.lean ====
section
/-! SUPPORT. Tests of the model and witnesses for its statements. Every expected value stands in the spec
(spec/95_test_vectors.md, or the example of the command's own rule); the vector is named beside the test. The second half
gives, for every statement with hypotheses, a state and operands that meet them, at the ends of the ranges where a clause
has a range. -/

namespace Sys2Proof.Tests

open Sys2Proof Sys2Proof.Machine

set_option Elab.async false

/-! ### Helpers -/

/-- The next state of a command, when there is one. -/
def ran (i : Instr) (s : State) : Option State :=
  match exec i s with
  | .next t => some t
  | _ => none

/-- The next state of a step, when there is one. -/
def stepped (s : State) : Option State :=
  match step s with
  | .next t => some t
  | _ => none

/-- The state after the host writes the word `w` to CMD. -/
def issued (w : Nat) (s : State) : Option State :=
  stepped (s.withFetchWord 32 w)

/-- The listed bytes at `a`, `a + 1`, ... -/
def mem (a : Nat) (xs : List Nat) : Memory :=
  xs.zipIdx.map fun xi => (a + xi.2, BitVec.ofNat 8 xi.1)

/-- `n` zero bytes from index 0. -/
def zeros (n : Nat) : Memory :=
  (List.range n).map fun a => (a, 0#8)

/-- The `n` bytes at `a` as numbers; 256 stands for a byte that has no value. -/
def bytes (m : Memory) (a n : Nat) : List Nat :=
  (List.range' a n).map fun i => ((m.read i).map BitVec.toNat).getD 256

/-- Version `v`, phase `ph`, the largest buffers, every other register as after reset. -/
def at' (v : Nat) (ph : Phase) : State :=
  { State.reset with version := BitVec.ofNat 6 v, phase := ph, outSize := 4071, tmpSize := 3706 }

/-- RESULT and STATUS as the host reads them. -/
def resultStatus (s : State) : Nat × Nat := (s.result.toNat, s.statusWord.toNat)

/-- The first `k` bytes of REM. -/
def rems (k : Nat) (s : State) : List Nat := (List.range k).map fun i => (remAt s.rem i).toNat

/-! ### Well-formedness: one ill-formed word for each check (spec/30_encoding.md R86) -/

theorem test_illformed_unassigned_op : Word.wellFormed 0x00000000#32 = false := by decide
theorem test_illformed_nonzero_z : Word.wellFormed 0x01000010#32 = false := by decide
theorem test_illformed_nonzero_b : Word.wellFormed 0x00010012#32 = false := by decide
theorem test_illformed_nonzero_a : Word.wellFormed 0x00000130#32 = false := by decide
theorem test_wellformed_word : Word.wellFormed 0x00070310#32 = true := by decide

/-! ### Decoding: every row of the opcode map by a word that the spec prints (spec/95_test_vectors.md V1 to V9, T4) -/

theorem test_decode_generator :
    decode 0x00000001#32 = .ok .clear ∧ decode 0x00000002#32 = .ok .generate ∧ decode 0x00002803#32 = .ok (.maxsz 40) := by
  decide

theorem test_decode_field :
    decode 0x00070310#32 = .ok (.gfmul 3 7) ∧ decode 0x00020111#32 = .ok (.gfdiv 1 2) ∧
      decode 0x0000FF12#32 = .ok (.gfinv 255) ∧ decode 0x0000FE13#32 = .ok (.gfexp 254) ∧
      decode 0x00001D14#32 = .ok (.gflog 29) := by
  decide

theorem test_decode_catalog :
    decode 0x00002820#32 = .ok (.vset 40) ∧ decode 0x00000021#32 = .ok .vsel ∧ decode 0x00000A22#32 = .ok (.vcap 10) ∧
      decode 0x00002623#32 = .ok (.vpar 38) := by
  decide

theorem test_decode_packer :
    decode 0x00000030#32 = .ok .pkinit ∧ decode 0x00000031#32 = .ok (.pkbin 0) ∧ decode 0x00000132#32 = .ok (.pknum 1) ∧
      decode 0x00000033#32 = .ok .pkterm := by
  decide

theorem test_decode_divider :
    decode 0x00000040#32 = .ok .rsclr ∧ decode 0x00004041#32 = .ok (.rsfeed 64) ∧ decode 0x00000442#32 = .ok (.rsblk 4) ∧
      decode 0x00000043#32 = .ok .rsall := by
  decide

theorem test_decode_matrix :
    decode 0x00000050#32 = .ok .mxinit ∧ decode 0x00000051#32 = .ok .mxfind ∧ decode 0x00000052#32 = .ok .mxtime ∧
      decode 0x00000053#32 = .ok .mxalign ∧ decode 0x00000054#32 = .ok .mxrsvd ∧ decode 0x00000055#32 = .ok .mxdata ∧
      decode 0x00000056#32 = .ok .mxfmt ∧ decode 0x00000057#32 = .ok .mxver := by
  decide

theorem test_decode_queries_and_mask :
    decode 0x000E7958#32 = .ok (.ilvrd 3705) ∧ decode 0x00050930#32 = .error .nonzeroB ∧
      decode 0x002E0659#32 = .ok (.cellclass 6 46) ∧ decode 0x00000060#32 = .ok .mask := by
  decide

theorem test_decode_table_word : decodeTableWord 32 0x00070310 = some (.gfmul 3 7) ∧ decodeTableWord 32 0 = none := by
  decide

/-! ### One command at a time -/

/-- V1. -/
theorem test_gfmul : (ran (.gfmul 3 7) State.reset).map resultStatus = some (9, 0) ∧
    (ran (.gfmul 255 255) State.reset).map resultStatus = some (226, 0) := by decide
/-- V1. -/
theorem test_gfdiv : (ran (.gfdiv 1 2) State.reset).map resultStatus = some (142, 0) ∧
    (ran (.gfdiv 0 0) State.reset).map resultStatus = some (0, 0x61) := by decide
/-- V1. -/
theorem test_gfinv : (ran (.gfinv 255) State.reset).map resultStatus = some (253, 0) ∧
    (ran (.gfinv 0) State.reset).map resultStatus = some (0, 0x61) := by decide
/-- V1. -/
theorem test_gfexp : (ran (.gfexp 254) State.reset).map resultStatus = some (142, 0) ∧
    (ran (.gfexp 255) State.reset).map resultStatus = some (1, 0) := by decide
/-- V1. -/
theorem test_gflog : (ran (.gflog 255) State.reset).map resultStatus = some (175, 0) ∧
    (ran (.gflog 0) State.reset).map resultStatus = some (0, 0x61) := by decide

/-- V2. -/
theorem test_vset : (ran (.vset 40) State.reset).map (fun t => (resultStatus t, t.v)) = some ((40, 0x100), 40) ∧
    (ran (.vset 0) (at' 40 .versioned)).map (fun t => (resultStatus t, t.v)) = some ((0, 0x151), 40) := by decide
/-- V2. -/
theorem test_vcap : (ran (.vcap 10) State.reset).map resultStatus = some (274, 0) ∧
    (ran (.vcap 41) State.reset).map resultStatus = some (0, 0x51) := by decide
/-- V2. -/
theorem test_vpar : (ran (.vpar 38) State.reset).map resultStatus = some (0x127A041E, 0) ∧
    (ran (.vpar 10) State.reset).map resultStatus = some (0x02440212, 0) := by decide
/-- V4: 231 bytes need version 10; the largest length does not wrap. -/
theorem test_vsel : (ran .vsel { State.reset with dataLen := 231 }).map resultStatus = some (10, 0x100) ∧
    (ran .vsel { State.reset with dataLen := 0xFFFFFFFF }).map resultStatus = some (0, 0x21) := by decide +kernel
/-- V4: a URL that is present and empty still has its header; 33 digits after 2 bytes fill version 1 exactly. -/
theorem test_vsel_url : (ran .vsel { State.reset with up := true, dataLen := 38 }).map resultStatus = some (2, 0x100) ∧
    (ran .vsel { State.reset with up := true, urlLen := 2, dataLen := 33 }).map resultStatus = some (1, 0x100) := by
  decide +kernel

/-- V3: `TMP_SIZE` 25 is one byte short of version 1. -/
theorem test_pkinit : (ran .pkinit { at' 1 .versioned with tmpSize := 25 }).map resultStatus = some (0, 0x111) ∧
    (ran .pkinit { at' 1 .versioned with tmpSize := 26 }).map resultStatus = some (0, 0x200) := by decide +kernel
/-- V3, DATA = "A". -/
theorem test_pkbin : (ran (.pkbin 1) { at' 1 .packing with dataLen := 1, data := mem 0 [0x41] }).map
    (fun t => (t.result.toNat, bytes t.tmp 0 3)) = some (20, [0x40, 0x14, 0x10]) := by decide +kernel
/-- V3, URL = A5 at version 10: a 16-bit length field. -/
theorem test_pkbin_url : (ran (.pkbin 0) { at' 10 .packing with urlLen := 1, url := mem 0 [0xA5] }).map
    (fun t => (t.result.toNat, bytes t.tmp 0 4)) = some (28, [0x40, 0x00, 0x1A, 0x50]) := by decide +kernel
/-- V3, DATA = "01234567". -/
theorem test_pknum :
    (ran (.pknum 1) { at' 1 .packing with dataLen := 8, data := mem 0 [0x30, 0x31, 0x32, 0x33, 0x34, 0x35, 0x36, 0x37] }).map
      (fun t => (t.result.toNat, bytes t.tmp 0 6)) = some (41, [0x10, 0x20, 0x0C, 0x56, 0x61, 0x80]) := by decide +kernel
/-- V3, version 27 after PKBIN 0: a 14-bit length field, and the segment starts in a byte that PKBIN began. -/
theorem test_pknum_after_pkbin :
    (ran (.pknum 1) { at' 27 .packing with
      bitLen := 28, tmp := mem 0 [0x40, 0x00, 0x1A, 0x50], dataLen := 1, data := mem 0 [0x35] }).map
      (fun t => (t.result.toNat, bytes t.tmp 0 7)) = some (50, [0x40, 0x00, 0x1A, 0x51, 0x00, 0x05, 0x40]) := by
  decide +kernel
/-- V3, DATA = "12a4". -/
theorem test_pknum_bad_digit :
    (ran (.pknum 1) { at' 1 .packing with dataLen := 4, data := mem 0 [0x31, 0x32, 0x61, 0x34] }).map
      (fun t => (resultStatus t, t.bitLen.toNat, t.tmp)) = some ((0, 0x281), 0, []) := by decide +kernel
/-- V3, after PKBIN of "A". -/
theorem test_pkterm : (ran .pkterm { at' 1 .packing with bitLen := 20, tmp := mem 0 [0x40, 0x14, 0x10] }).map
    (fun t => (resultStatus t, bytes t.tmp 0 20)) = some ((152, 0x300), [0x40, 0x14, 0x10, 0xEC, 0x11, 0xEC, 0x11, 0xEC, 0x11,
      0xEC, 0x11, 0xEC, 0x11, 0xEC, 0x11, 0xEC, 0x11, 0xEC, 0x11, 256]) := by decide +kernel
/-- V3, 41 digits: the stop marker is cut to one bit. -/
theorem test_pkterm_short_marker :
    (ran .pkterm { at' 1 .packing with bitLen := 151, tmp := mem 18 [0xB4] }).map
      (fun t => (resultStatus t, bytes t.tmp 18 2)) = some ((152, 0x300), [0xB4, 256]) := by decide +kernel

/-- spec/44_reed_solomon.md R194. -/
theorem test_rsclr : (ran .rsclr { at' 1 .versioned with rem := Vector.replicate 30 7 }).map (rems 30) =
    some (List.replicate 30 0) := by decide +kernel
/-- V5, first byte at k = 10; R195, k = 7. -/
theorem test_rsfeed : (ran (.rsfeed 32) (at' 2 .versioned)).map (rems 11) =
      some [2, 101, 10, 97, 197, 15, 47, 134, 74, 5, 0] ∧
    (ran (.rsfeed 0) { at' 1 .versioned with
      rem := Vector.ofFn fun i => BitVec.ofNat 8 ([127, 122, 154, 164, 11, 68, 117].getD i 0) }).map (rems 7) =
      some [139, 245, 87, 192, 26, 34, 208] := by decide +kernel
/-- V3, V5: the block of DATA = "A". -/
theorem test_rsblk :
    (ran (.rsblk 0) { at' 1 .packed with tmp := mem 0 [0x40, 0x14, 0x10, 0xEC, 0x11, 0xEC, 0x11, 0xEC, 0x11, 0xEC, 0x11, 0xEC,
      0x11, 0xEC, 0x11, 0xEC, 0x11, 0xEC, 0x11] }).map (fun t => (resultStatus t, bytes t.tmp 19 7)) =
      some ((1, 0x400), [0x52, 0x4B, 0xB5, 0x3B, 0xAF, 0x8D, 0xF1]) := by decide +kernel
/-- V5: BAD_OPERAND before SEQUENCE at version 10. -/
theorem test_rsblk_faults : (ran (.rsblk 4) (at' 10 .packed)).map resultStatus = some (0, 0x351) ∧
    (ran (.rsblk 1) (at' 10 .packed)).map resultStatus = some (0, 0x371) := by decide +kernel
/-- V3, V5: the block that is all padding. -/
theorem test_rsall :
    (ran .rsall { at' 1 .packed with tmp := mem 0 [0x00, 0xEC, 0x11, 0xEC, 0x11, 0xEC, 0x11, 0xEC, 0x11, 0xEC, 0x11, 0xEC,
      0x11, 0xEC, 0x11, 0xEC, 0x11, 0xEC, 0x11] }).map (fun t => (resultStatus t, bytes t.tmp 19 7)) =
      some ((1, 0x400), [0x1F, 0xC2, 0x95, 0x04, 0xF1, 0x49, 0x09]) := by decide +kernel

/-- P2: 63 bytes at version 1, none beyond. -/
theorem test_mxinit : (ran .mxinit (at' 1 .coded)).map (fun t => (resultStatus t, bytes t.out 0 64)) =
    some ((63, 0x500), List.replicate 63 0 ++ [256]) := by decide +kernel
/-- V7, rows 0 to 8 of the grid, without the timing row and the format cells. -/
theorem test_mxfind : (ran .mxfind { at' 1 .blank with out := zeros 63 }).map (fun t => (resultStatus t, bytes t.out 0 27)) =
    some ((0, 0x600), [0xFE, 0x03, 0xF8, 0x82, 0x02, 0x08, 0xBA, 0x02, 0xE8, 0xBA, 0x02, 0xE8, 0xBA, 0x02, 0xE8, 0x82, 0x02,
      0x08, 0xFE, 0x03, 0xF8, 0, 0, 0, 0, 0, 0]) := by decide +kernel
/-- V7, row 6 (columns 8, 10, 12) and column 6 (rows 8, 10, 12). -/
theorem test_mxtime : (ran .mxtime { at' 1 .finders with out := zeros 63 }).map (fun t => bytes t.out 18 21) =
    some [0, 0xA8, 0, 0, 0, 0, 2, 0, 0, 0, 0, 0, 2, 0, 0, 0, 0, 0, 2, 0, 0] := by decide +kernel
/-- V6, version 2: rows 16 to 20, the one pattern at (18, 18). -/
theorem test_mxalign : (ran .mxalign { at' 2 .timing with out := zeros 100 }).map
    (fun t => (t.result.toNat, (List.range 5).map fun i => bytes t.out (64 + 4 * i) 4)) =
      some (1, [[0, 0, 0xF8, 0], [0, 0, 0x88, 0], [0, 0, 0xA8, 0], [0, 0, 0x88, 0], [0, 0, 0xF8, 0]]) := by decide +kernel
/-- V6: RESULT 30, the dark module of version 2 at (17, 8). -/
theorem test_mxrsvd : (ran .mxrsvd { at' 2 .aligned with out := zeros 100 }).map
    (fun t => (resultStatus t, bytes t.out 68 4)) = some ((30, 0x900), [0, 0x80, 0, 0]) := by decide +kernel

/-- TMP of program P2 after RSBLK. -/
def p2Tmp : Memory :=
  mem 0 ([0x40, 0xB6, 0x87, 0x47, 0x47, 0x03, 0xA2, 0xF2, 0xF6, 0x12, 0xE6, 0x22, 0xF1] ++
    [0x02, 0x80, 0xC5, 0x66, 0xA6, 0x90, 0x55, 0x5F, 0x9F, 0x03, 0xC6, 0xF8, 0x4C])
/-- OUT of P2 after MXRSVD. -/
def p2Reserved : List Nat :=
  [0xFE, 0x03, 0xF8, 0x82, 0x02, 0x08, 0xBA, 0x02, 0xE8, 0xBA, 0x02, 0xE8, 0xBA, 0x02, 0xE8, 0x82, 0x02, 0x08, 0xFE, 0xAB, 0xF8] ++
    [0x00, 0x00, 0x00, 0x02, 0x00, 0x00, 0x00, 0x00, 0x00, 0x02, 0x00, 0x00, 0x00, 0x00, 0x00, 0x02, 0x00, 0x00, 0x00, 0x80] ++
    [0x00, 0xFE, 0x00, 0x00, 0x82, 0x00, 0x00, 0xBA, 0x00, 0x00, 0xBA, 0x00, 0x00, 0xBA, 0x00, 0x00, 0x82, 0x00, 0x00, 0xFE, 0x00, 0x00]
/-- OUT of P2 after MXDATA. -/
def p2Placed : List Nat :=
  [0xFE, 0x2B, 0xF8, 0x82, 0x32, 0x08, 0xBA, 0x4A, 0xE8, 0xBA, 0x32, 0xE8, 0xBA, 0x32, 0xE8, 0x82, 0x52, 0x08, 0xFE, 0xAB, 0xF8] ++
    [0x00, 0x00, 0x00, 0x02, 0x18, 0x00, 0x8D, 0xC0, 0xD8, 0x12, 0x45, 0x10, 0xF8, 0x41, 0xC0, 0x36, 0x4B, 0xE8, 0x00, 0xCE] ++
    [0xC8, 0xFE, 0x42, 0x10, 0x82, 0x65, 0xD8, 0xBA, 0x63, 0xE8, 0xBA, 0x30, 0x80, 0xBA, 0x42, 0x00, 0x82, 0x78, 0x80, 0xFE, 0x7A, 0xF0]
/-- OUT of P2 after MXVER; version 1 has no version information, so this is OUT after MXFMT too. -/
def p2Informed : List Nat :=
  [0xFE, 0x2B, 0xF8, 0x82, 0x32, 0x08, 0xBA, 0xCA, 0xE8, 0xBA, 0x32, 0xE8, 0xBA, 0x32, 0xE8, 0x82, 0x52, 0x08, 0xFE, 0xAB, 0xF8] ++
    [0x00, 0x80, 0x00, 0xEF, 0x9E, 0x20, 0x8D, 0xC0, 0xD8, 0x12, 0x45, 0x10, 0xF8, 0x41, 0xC0, 0x36, 0x4B, 0xE8, 0x00, 0xCE] ++
    [0xC8, 0xFE, 0xC2, 0x10, 0x82, 0xE5, 0xD8, 0xBA, 0xE3, 0xE8, 0xBA, 0x30, 0x80, 0xBA, 0xC2, 0x00, 0x82, 0xF8, 0x80, 0xFE, 0xFA, 0xF0]
/-- OUT of P2 at its end. -/
def p2Done : List Nat :=
  [0xFE, 0x03, 0xF8, 0x82, 0x62, 0x08, 0xBA, 0xE2, 0xE8, 0xBA, 0x62, 0xE8, 0xBA, 0x1A, 0xE8, 0x82, 0x02, 0x08, 0xFE, 0xAB, 0xF8] ++
    [0x00, 0xD0, 0x00, 0xEF, 0xB6, 0x20, 0xD8, 0x95, 0x88, 0xBA, 0xEF, 0xB8, 0xAD, 0x14, 0x90, 0x9E, 0xE1, 0x40, 0x00, 0x9B] ++
    [0x98, 0xFE, 0xE8, 0xB8, 0x82, 0xB0, 0x88, 0xBA, 0xC9, 0x40, 0xBA, 0x65, 0xD0, 0xBA, 0xE8, 0xA8, 0x82, 0xAD, 0xD0, 0xFE, 0xD0, 0x58]

/-- P2. -/
theorem test_mxdata : (ran .mxdata { at' 1 .reserved with tmp := p2Tmp, out := mem 0 p2Reserved }).map
    (fun t => (resultStatus t, t.out)) = some ((208, 0xA00), mem 0 p2Placed) := by decide +kernel
/-- P2. -/
theorem test_mxfmt : (ran .mxfmt { at' 1 .placed with out := mem 0 p2Placed }).map
    (fun t => (resultStatus t, t.out)) = some ((0x77C4, 0xB00), mem 0 p2Informed) := by decide +kernel
/-- P2. -/
theorem test_mxver_nothing : (ran .mxver { at' 1 .formatted with out := mem 0 p2Informed }).map
    (fun t => (resultStatus t, t.out)) = some ((0, 0xC00), mem 0 p2Informed) := by decide +kernel
/-- V6, version 7: the top-right block is 001 010 010 011 111 000, rows 34 and 35 begin with 000010 and 011110. -/
theorem test_mxver : (ran .mxver { at' 7 .formatted with out := zeros 270 }).map
    (fun t => (t.result.toNat, (List.range 6).map (fun r => bytes t.out (6 * r + 4) 1), bytes t.out 204 1, bytes t.out 210 1)) =
      some (0x7C94, [[0x08], [0x10], [0x10], [0x18], [0x38], [0]], [0x08], [0x78]) := by decide +kernel
/-- P2. -/
theorem test_mask : (ran .mask { at' 1 .versionInfo with out := mem 0 p2Informed }).map
    (fun t => (resultStatus t, t.out)) = some ((21, 0xD00), mem 0 p2Done) := by decide +kernel
/-- T7, P2: the bitmap reads back as "http://a.b/" and "0123456789". -/
theorem test_readback_p2 : readSymbol 21 (mem 0 p2Done) =
    [(.binary, [0x68, 0x74, 0x74, 0x70, 0x3A, 0x2F, 0x2F, 0x61, 0x2E, 0x62, 0x2F]),
     (.numeric, [0x30, 0x31, 0x32, 0x33, 0x34, 0x35, 0x36, 0x37, 0x38, 0x39])] := by decide +kernel
/-- P5: byte 272 of the stream is TMP[204], byte 345 is TMP[345]; V9: 346 is out of range. -/
theorem test_ilvrd : (ran (.ilvrd 272) { at' 10 .done with tmp := mem 204 [0x28] }).map resultStatus = some (0x28, 0xD00) ∧
    (ran (.ilvrd 346) (at' 10 .done)).map resultStatus = some (0, 0xD51) := by decide +kernel
/-- V6. -/
theorem test_class : (ran (.cellclass 5 48) (at' 10 .versioned)).map resultStatus = some (1, 0x100) ∧
    (ran (.cellclass 21 0) (at' 1 .versioned)).map resultStatus = some (0, 0x151) := by decide +kernel
/-- V6: an alignment centre on the timing row, and the cell above that pattern. -/
theorem test_class_alignment : (ran (.cellclass 4 28) (at' 10 .versioned)).map resultStatus = some (0, 0x100) ∧
    (ran (.cellclass 3 28) (at' 10 .versioned)).map resultStatus = some (2, 0x100) := by decide +kernel

/-- The start of program P1. -/
def p1 : State := { State.reset with outSize := 4071, tmpSize := 3706 }
/-- P1: RESULT, STATUS, VERSION, BITLEN, RSNEXT, the ECC bytes, and the whole bitmap. -/
theorem test_generate : (ran .generate p1).map
    (fun t => t.err.toNat :: [t.result.toNat, t.statusWord.toNat, t.v, t.bitLen.toNat, t.rsNext.toNat] ++ bytes t.tmp 19 8 ++
      bytes t.out 0 64) =
    some ([0, 21, 0xD00, 1, 152, 1, 0xF9, 0xAA, 0x03, 0xCB, 0x06, 0xE3, 0xD2, 256] ++
      [0xFE, 0x2B, 0xF8, 0x82, 0x0A, 0x08, 0xBA, 0xA2, 0xE8, 0xBA, 0x0A, 0xE8, 0xBA, 0x5A, 0xE8, 0x82, 0x72, 0x08, 0xFE, 0xAB] ++
      [0xF8, 0x00, 0xA0, 0x00, 0xEF, 0xAE, 0x20, 0xA4, 0xB5, 0x50, 0x2A, 0x57, 0x70, 0x4D, 0x7D, 0xD8, 0xDF, 0x77, 0x70, 0x00] ++
      [0xE2, 0x30, 0xFE, 0x88, 0x88, 0x82, 0xE2, 0x30, 0xBA, 0x8A, 0xA8, 0xBA, 0x55, 0x50, 0xBA, 0xB7, 0x68, 0x82, 0xDD, 0xD0] ++
      [0xFE, 0xD7, 0x78, 256]) := by decide +kernel
theorem p1_completes : (ran .generate p1).map (fun t => t.err) = some false := by
  have h := test_generate
  cases hr : ran .generate p1 with
  | none => rw [hr] at h; cases h
  | some t =>
    rw [hr] at h
    simp only [Option.map_some, Option.some.injEq, List.cons_append, List.cons.injEq] at h
    cases he : t.err with
    | false => simp [he]
    | true => simp [he] at h

/-- The start of program P4's second GENERATE. -/
def p4 : State :=
  { State.reset with outSize := 4071, tmpSize := 3706, up := true, urlLen := 2, dataLen := 3, url := mem 0 [0x61, 0x62],
                     data := mem 0 [0x31, 0x32, 0x78] }
/-- P4: the steps before the faulting one keep their effects. -/
theorem test_generate_bad_digit : (ran .generate p4).map (fun t => (resultStatus t, t.v, t.bitLen.toNat, t.tmp)) =
    some ((0, 0x281), 1, 28, mem 0 [0x40, 0x26, 0x16, 0x20]) := by decide +kernel
/-- T4. -/
theorem test_maxsz : (ran (.maxsz 40) { State.reset with urlLen := 100 }).map resultStatus = some (2779, 0) ∧
    (ran (.maxsz 1) { State.reset with urlLen := 14 }).map resultStatus = some (0, 0) := by decide +kernel
/-- T5. -/
theorem test_maxsz_no_url : (ran (.maxsz 10) State.reset).map resultStatus = some (271, 0) ∧
    (ran (.maxsz 41) State.reset).map resultStatus = some (0, 0) := by decide +kernel
/-- V8, P4. -/
theorem test_clear : (ran .clear { at' 7 .done with err := true, errCode := some .sequence, bitLen := 9, rsNext := 2 }).map
    (fun t => (resultStatus t, t.v, t.bitLen.toNat, t.rsNext.toNat, t.outSize.toNat)) = some ((0, 0), 0, 0, 0, 4071) := by
  decide

/-- V9: illegal words. -/
theorem test_illegal_cmd : (issued 0x00000000 State.reset).map resultStatus = some (0, 0x41) ∧
    (issued 0x00010030 State.reset).map resultStatus = some (0, 0x41) := by decide
/-- V9: SEQUENCE comes before BAD_OPERAND. -/
theorem test_sequence_first : (issued 0x00000231 (at' 1 .versioned)).map resultStatus = some (0, 0x171) ∧
    (issued 0x00000231 (at' 1 .packing)).map resultStatus = some (0, 0x251) := by decide +kernel
/-- V9, P4: under lock-out only CMD changes; CLEAR returns. -/
theorem test_lock_out : (issued 0x00070310 (State.reset.takeFault .bufferTooSmall)).map
      (fun t => (resultStatus t, t.cmd.toNat)) = some ((0, 0x11), 0x00070310) ∧
    (issued 0x00000001 (State.reset.takeFault .bufferTooSmall)).map resultStatus = some (0, 0) := by decide
/-- V9: with FATAL = 1 even CLEAR changes only CMD. -/
theorem test_fatal : (issued 0x00000001 (State.reset.takeFault .internal)).map (fun t => (resultStatus t, t.cmd.toNat)) =
    some ((0, 0x33), 1) := by decide
/-- P6: STATUS and reserved slots ignore writes, CTRL keeps bit 0. -/
theorem test_register_writes :
    (stepped { State.reset with host := [.writeReg 1 0xFFFFFFFF] }) = some State.reset ∧
      (stepped { State.reset with host := [.writeReg 12 0x1234] }) = some State.reset ∧
      (stepped { State.reset with host := [.writeReg 6 0xFFFFFFFF] }).map (fun t => t.readReg 6) = some (some 1) := by decide

/-! ### Witnesses: states and operands that meet the hypotheses of each statement -/

theorem read_append_single (m : Memory) (k a : Nat) (x : Byte) (h : ∀ e ∈ m, e.1 ≠ k) :
    Memory.read (m ++ [(k, x)]) a = if a = k then some x else Memory.read m a := by
  induction m with
  | nil => simp [Memory.read, Memory.unlisted]
  | cons e m ih =>
    have he := h e (by simp)
    simp only [List.cons_append, Memory.read]
    rw [ih (fun e' h' => h e' (by simp [h']))]
    split_ifs <;> simp_all

theorem zeros_read (n a : Nat) : (zeros n).read a = if a < n then some 0#8 else none := by
  induction n with
  | zero => rfl
  | succ n ih =>
    have : zeros (n + 1) = zeros n ++ [(n, 0#8)] := by simp [zeros, List.range_succ]
    rw [this, read_append_single, ih]
    · split_ifs <;> first | rfl | omega
    · simp only [zeros, List.mem_map, List.mem_range]
      rintro e ⟨b, hb, rfl⟩
      simp only
      omega

theorem zeros_written (n : Nat) : (zeros n).written n := fun a h => by simp [zeros_read, h]

/-- Version `v`, phase `ph`, with all of TMP and OUT of that version holding zero bytes. -/
def full (v : Nat) (ph : Phase) : State :=
  { at' v ph with tmp := zeros (tot v), out := zeros (img v) }

theorem test_witness_decodeOfEncode : (Instr.cellclass 255 0).wellFormed = true ∧ (Instr.ilvrd 65535).wellFormed = true := by
  decide

theorem test_witness_encodeOfDecode : decode 0x00FFFF58#32 = .ok (.ilvrd 65535) ∧ decode 0x00000060#32 = .ok .mask := by
  decide

theorem test_witness_wordSelectsItsRow :
    (⟨0x59#8, .ab⟩ : OpRow) ∈ opRows ∧ (⟨0x59#8, .ab⟩ : OpRow).selects 0x00B0B059#32 = true ∧
      decode 0x00B0B059#32 = .ok (.cellclass 176 176) := by
  decide

theorem test_witness_stepRuns :
    ∃ s : State, s.err = false ∧ s.fatal = false ∧ decode 0x00000220#32 = .ok (.vset 2) ∧
      s.host = .writeReg 0 0x00000220#32 :: [.readReg 2] ∧ decode (tableWord 32 0x220) = .ok (.vset 2) :=
  ⟨{ State.reset with host := [.writeReg 0 0x00000220#32, .readReg 2] }, by decide⟩

/-- Each clause: a word that is no CLEAR, CLEAR with FATAL = 1, CLEAR with FATAL = 0, the last register, the last index. -/
theorem test_witness_lockOut :
    (∃ s : State, (s.err = true ∨ s.fatal = true) ∧ s.host = [.writeReg 0 0x00000101#32] ∧ (0x00000101#32 : Word) ≠ 1#32) ∧
    (∃ s : State, (s.err = true ∨ s.fatal = true) ∧ s.host = [.writeReg 0 0x00000001#32] ∧ s.fatal = true) ∧
    (∃ s : State, (s.err = true ∨ s.fatal = true) ∧ s.host = [.writeReg 0 0x00000001#32] ∧ s.fatal = false) ∧
    (∃ s : State, (s.err = true ∨ s.fatal = true) ∧ s.host = [.readReg 63]) ∧
    (∃ s : State, (s.err = true ∨ s.fatal = true) ∧ s.host = [.writeMem .out (2 ^ 32 - 1) 7]) ∧
    (∃ s : State, (s.err = true ∨ s.fatal = true) ∧ (s.mem .tmp).read (2 ^ 32 - 1) = some 7#8 ∧
      s.host = [.readMem .tmp (2 ^ 32 - 1)]) :=
  ⟨⟨{ State.reset.takeFault .sequence with host := [.writeReg 0 0x00000101#32] }, by decide⟩,
   ⟨{ State.reset.takeFault .internal with host := [.writeReg 0 0x00000001#32] }, by decide⟩,
   ⟨{ State.reset.takeFault .sequence with host := [.writeReg 0 0x00000001#32] }, by decide⟩,
   ⟨{ State.reset.takeFault .sequence with host := [.readReg 63] }, by decide⟩,
   ⟨{ State.reset.takeFault .sequence with host := [.writeMem .out (2 ^ 32 - 1) 7] }, by decide⟩,
   ⟨{ State.reset.takeFault .sequence with host := [.readMem .tmp (2 ^ 32 - 1)], tmp := [(2 ^ 32 - 1, 7#8)] }, by decide⟩⟩

/-- One word for each of the four ways, and a state. -/
theorem test_witness_illegalWords :
    ([0x00000000#32, 0x01000010#32, 0x00010012#32, 0x00000130#32].all fun w => opRows.all fun row => !row.selects w) = true ∧
      ∃ s : State, s.err = false ∧ s.fatal = false ∧ s.host = [.writeReg 0 0x00000000#32] :=
  ⟨by decide, { State.reset with host := [.writeReg 0 0x00000000#32] }, by decide⟩

/-- The ends of each range of register numbers; no number is in two of them. -/
theorem test_witness_registerWindow :
    (∀ n ∈ [0, 1, 5, 6, 7, 8, 9, 10, 11, 15, 16, 45, 46, 63],
      (∃ s : State, s.host = [.readReg n] ∧ n < 64) ∧ ∃ s : State, s.host = [.writeReg n 0xFFFFFFFF#32]) ∧
    ((11 ≤ 11 ∧ 11 ≤ 15) ∨ (46 ≤ 11 ∧ 11 ≤ 63)) ∧ ((11 ≤ 63 ∧ 63 ≤ 15) ∨ (46 ≤ 63 ∧ 63 ≤ 63)) :=
  ⟨fun n hn => ⟨⟨{ State.reset with host := [.readReg n] }, rfl, by revert n; decide⟩,
    { State.reset with host := [.writeReg n 0xFFFFFFFF#32] }, rfl⟩, by decide⟩

theorem test_witness_statusRegister :
    State.StatusInv State.reset ∧ State.StatusInv (State.reset.takeFault .badDigit) ∧
      State.StatusInv (State.reset.takeFault .internal) ∧ (State.reset.takeFault .internal).fatal = true ∧
      (stepped (State.reset.withFetchWord 32 0x12)).isSome = true := by
  decide

theorem test_witness_hostMemory :
    (∃ s : State, s.host = [.writeMem .url (2 ^ 32 - 1) 9#8]) ∧
      ∃ s : State, s.host = [.readMem .data 0] ∧ (s.mem .data).read 0 = some 9#8 :=
  ⟨⟨{ State.reset with host := [.writeMem .url (2 ^ 32 - 1) 9#8] }, rfl⟩,
   { State.reset with host := [.readMem .data 0], data := mem 0 [9] }, by decide⟩

/-- A read of a byte that nothing has written, and one witness for each of the two stops. -/
theorem test_witness_hostStops :
    (∃ s : State, s.host = [.readMem .tmp 0] ∧ (s.mem .tmp).read 0 = none) ∧
      (∃ s : State, s.host = [.writeMem .out (2 ^ 32) 9#8]) ∧ ∃ s : State, s.host = [.writeReg 64 1#32] :=
  ⟨⟨{ State.reset with host := [.readMem .tmp 0] }, by decide⟩,
   ⟨{ State.reset with host := [.writeMem .out (2 ^ 32) 9#8] }, rfl⟩,
   { State.reset with host := [.writeReg 64 1#32] }, rfl⟩

theorem test_witness_reset : ∃ s : State, s.host = [.hardReset] ∧ s.err = true :=
  ⟨{ State.reset.takeFault .internal with host := [.hardReset] }, by decide⟩

/-- A command that faults, and GENERATE stopped after its first steps. -/
theorem test_witness_faultingCommand :
    (ran (.gfinv 0) State.reset).map (fun t => (t.err, t.errCode)) = some (true, some .gfDomain) ∧
      (ran .generate p4).map (fun t => (t.err, t.errCode)) = some (true, some .badDigit) := by
  decide +kernel

theorem test_witness_phaseTable :
    phaseAllows .pkinit State.reset.phase = false ∧
      (ran (.rsblk 0) (full 1 .packed)).map (fun t => (t.err, t.phase)) = some (false, .coded) ∧
      (ran (.rsblk 0) (full 10 .packed)).map (fun t => (t.err, t.phase)) = some (false, .packed) := by
  decide +kernel

theorem test_witness_clear :
    (State.reset.takeFault .internal).fatal = true ∧ (State.reset.takeFault .sequence).fatal = false := by
  decide

theorem test_witness_commandsKeep :
    (ran .vsel (State.reset.takeFault .sequence)).isSome = true ∧ (ran .clear (State.reset.takeFault .internal)).isSome = true := by
  decide +kernel

theorem test_witness_writesStayBelow :
    (full 1 .packing).BitLenInv ∧ (ran .pkterm (full 1 .packing)).map (fun t => (t.tmp.read 18).isSome) = some true ∧
      tot 1 ≤ 26 ∧ img 1 ≤ 63 := by
  decide +kernel

/-- A state in the middle of a run, with PKTERM, RSALL and a memory write to come. -/
def midRun : State := { full 1 .packing with host := [.writeReg 0 0x33#32, .writeReg 0 0x43#32, .writeMem .out 5000 1] }

theorem test_witness_invariant : midRun.Inv ∧ (stepped midRun).map (fun t => t.phase) = some .packed :=
  ⟨⟨by decide, by decide, by decide +kernel, by decide +kernel, by decide +kernel, by decide +kernel⟩, by decide +kernel⟩

theorem test_witness_internal : midRun.Inv ∧ midRun.fatal = false ∧ (stepped midRun).isSome = true :=
  ⟨test_witness_invariant.1, by decide +kernel⟩

theorem test_witness_everyAction :
    midRun.Inv ∧ midRun.host = .writeReg 0 0x33#32 :: midRun.host.tail ∧ (HostAction.writeReg 0 0x33#32).legal ∧
      midRun.sourcesGiven :=
  ⟨test_witness_invariant.1, rfl, by simp [HostAction.legal, Config.regSlots], by decide⟩

/-- The words of GENERATE, PKBIN and PKNUM name commands that read a source; PKTERM and an illegal word do not. -/
theorem test_readsSource :
    readsSource 0x02#32 = true ∧ readsSource 0x131#32 = true ∧ readsSource 0x32#32 = true ∧ readsSource 0x33#32 = false ∧
      readsSource 0x00#32 = false := by decide

theorem test_witness_fieldLaws : (1#8 : Byte) ≠ 0 ∧ (255#8 : Byte) ≠ 0 := by decide

theorem test_witness_fieldCommands : (0#8 : Byte) = 0 ∧ (1#8 : Byte) ≠ 0 ∧ (255#8 : Byte) ≠ 0 := by decide

/-- Versions 0, 1, 40, 41: both sides of both ends. -/
theorem test_witness_catalogCommands :
    ¬ (1 ≤ (0#8 : Byte).toNat ∧ (0#8 : Byte).toNat ≤ 40) ∧ (1 ≤ (1#8 : Byte).toNat ∧ (1#8 : Byte).toNat ≤ 40) ∧
      (1 ≤ (40#8 : Byte).toNat ∧ (40#8 : Byte).toNat ≤ 40) ∧ ¬ (1 ≤ (41#8 : Byte).toNat ∧ (41#8 : Byte).toNat ≤ 40) := by
  decide

/-- The first and last data byte and the first and last ECC byte of version 40. -/
theorem test_witness_blocksTile : 0 < cap 40 ∧ 2955 < cap 40 ∧ cap 40 ≤ 2956 ∧ 2956 < tot 40 ∧ 3705 < tot 40 := by decide

/-- V4: 231 bytes at version 10, 2953 bytes at version 40, 2954 bytes nowhere. -/
theorem test_witness_vsel :
    (reqBits ({ State.reset with dataLen := 231 } : State).segments 10 ≤ 8 * cap 10 ∧
      ∀ u < 10, 1 ≤ u → 8 * cap u < reqBits ({ State.reset with dataLen := 231 } : State).segments u) ∧
    (reqBits ({ State.reset with dataLen := 2953 } : State).segments 40 ≤ 8 * cap 40 ∧
      ∀ u < 40, 1 ≤ u → 8 * cap u < reqBits ({ State.reset with dataLen := 2953 } : State).segments u) ∧
    (∀ v < 41, 1 ≤ v → 8 * cap v < reqBits ({ State.reset with dataLen := 2954 } : State).segments v) := by
  decide +kernel

theorem test_witness_laterVersions :
    reqBits ({ State.reset with dataLen := 17 } : State).segments 1 ≤ 8 * cap 1 ∧
      reqBits ({ State.reset with up := true, urlLen := 2, dataLen := 33 } : State).segments 1 ≤ 8 * cap 1 ∧
      reqBits ({ State.reset with up := true, dataLen := 7083 } : State).segments 40 ≤ 8 * cap 40 := by
  decide +kernel

/-- TMP_SIZE one short and exact, for version 40. -/
theorem test_witness_pkinit :
    (∃ s : State, s.phase = .idle) ∧ (∃ s : State, s.phase ≠ .idle ∧ s.tmpSize.toNat < tot s.v) ∧
      ∃ s : State, s.phase ≠ .idle ∧ tot s.v ≤ s.tmpSize.toNat ∧ s.v = 40 :=
  ⟨⟨State.reset, rfl⟩, ⟨{ at' 40 .done with tmpSize := 3705 }, by decide⟩, ⟨at' 40 .versioned, by decide⟩⟩

/-- The source of the packer's witnesses: one byte, a digit, at version 1. -/
def oneDigit : State := { at' 1 .packing with dataLen := 1, data := mem 0 [0x37] }

/-- Each check; then a segment that starts a stream, one that starts in a begun byte, and one that is empty. -/
theorem test_witness_pkbin :
    (∃ s : State, s.phase ≠ .packing) ∧ (oneDigit.phase = .packing ∧ 1 < (2#8 : Byte).toNat) ∧
    (∃ s : State, s.phase = .packing ∧ s.tmpSize.toNat < tot s.v) ∧
    (∃ s : State, s.phase = .packing ∧ tot s.v ≤ s.tmpSize.toNat ∧
      8 * cap s.v < s.bitLen.toNat + segBits .binary s.dataLen.toNat s.v) ∧
    (∃ (s : State) (b : Nat → Byte), s.phase = .packing ∧ tot s.v ≤ s.tmpSize.toNat ∧
      s.bitLen.toNat + segBits .binary s.dataLen.toNat s.v ≤ 8 * cap s.v ∧
      (∀ i < s.dataLen.toNat, s.data.read i = some (b i)) ∧ s.bitLen.toNat % 8 ≠ 0 ∧
      (s.tmp.read (s.bitLen.toNat / 8)).isSome = true) ∧
    (∃ s : State, s.phase = .packing ∧ s.urlLen = 0 ∧ tot s.v ≤ s.tmpSize.toNat ∧ s.bitLen.toNat % 8 = 0 ∧
      s.bitLen.toNat + segBits .binary s.urlLen.toNat s.v ≤ 8 * cap s.v) :=
  ⟨⟨State.reset, by decide⟩, by decide, ⟨{ at' 1 .packing with tmpSize := 25 }, by decide⟩,
   ⟨{ at' 1 .packing with dataLen := 18 }, by decide⟩,
   ⟨{ oneDigit with bitLen := 28, tmp := mem 0 [0x40, 0x00, 0x1A, 0x50] }, fun _ => 0x37, by decide⟩,
   ⟨at' 1 .packing, by decide⟩⟩

/-- Each check, a byte that is no digit (the two neighbours of the digits), and a digit. -/
theorem test_witness_pknum :
    (∃ s : State, s.phase ≠ .packing) ∧ (oneDigit.phase = .packing ∧ 1 < (2#8 : Byte).toNat) ∧
    (∃ s : State, s.phase = .packing ∧ s.tmpSize.toNat < tot s.v) ∧
    (∃ s : State, s.phase = .packing ∧ tot s.v ≤ s.tmpSize.toNat ∧
      8 * cap s.v < s.bitLen.toNat + segBits .numeric s.dataLen.toNat s.v) ∧
    (∀ x ∈ [0x2F, 0x3A], ∃ (s : State) (b : Nat → Byte), s.phase = .packing ∧ tot s.v ≤ s.tmpSize.toNat ∧
      s.bitLen.toNat + segBits .numeric s.dataLen.toNat s.v ≤ 8 * cap s.v ∧
      (∀ i < s.dataLen.toNat, s.data.read i = some (b i)) ∧
      ∃ i < s.dataLen.toNat, (b i).toNat = x ∧ ((b i).toNat < 0x30 ∨ 0x39 < (b i).toNat)) ∧
    (∃ (s : State) (b : Nat → Byte), s.phase = .packing ∧ tot s.v ≤ s.tmpSize.toNat ∧
      s.bitLen.toNat + segBits .numeric s.dataLen.toNat s.v ≤ 8 * cap s.v ∧
      (∀ i < s.dataLen.toNat, s.data.read i = some (b i)) ∧
      (∀ i < s.dataLen.toNat, 0x30 ≤ (b i).toNat ∧ (b i).toNat ≤ 0x39) ∧ s.bitLen.toNat % 8 ≠ 0 ∧
      (s.tmp.read (s.bitLen.toNat / 8)).isSome = true) := by
  refine ⟨⟨State.reset, by decide⟩, by decide, ⟨{ at' 1 .packing with tmpSize := 25 }, by decide⟩,
   ⟨{ at' 1 .packing with dataLen := 42 }, by decide⟩, ?_,
   ⟨{ oneDigit with bitLen := 28, tmp := mem 0 [0x40, 0x00, 0x1A, 0x50] }, fun _ => 0x37, by decide⟩⟩
  intro x hx
  simp only [List.mem_cons, List.not_mem_nil, or_false] at hx
  rcases hx with rfl | rfl
  · exact ⟨{ oneDigit with data := mem 0 [0x2F] }, fun _ => 0x2F, by decide⟩
  · exact ⟨{ oneDigit with data := mem 0 [0x3A] }, fun _ => 0x3A, by decide⟩

/-- A stream that ends in a byte it has begun, one that is empty, and one that is full. -/
theorem test_witness_pkterm :
    (∃ s : State, s.phase ≠ .packing) ∧ (∃ s : State, s.phase = .packing ∧ s.tmpSize.toNat < tot s.v) ∧
    (∀ n ∈ [0, 20, 151, 152], ∃ s : State, s.phase = .packing ∧ tot s.v ≤ s.tmpSize.toNat ∧ s.bitLen.toNat = n ∧
      s.bitLen.toNat ≤ 8 * cap s.v ∧ (s.bitLen.toNat % 8 ≠ 0 → (s.tmp.read (s.bitLen.toNat / 8)).isSome = true) ∧
      s.tmp.written ((s.bitLen.toNat + 7) / 8)) := by
  refine ⟨⟨State.reset, by decide⟩, ⟨{ at' 1 .packing with tmpSize := 25 }, by decide⟩, ?_⟩
  intro n hn
  refine ⟨{ full 1 .packing with bitLen := BitVec.ofNat 32 n }, ?_⟩
  simp only [List.mem_cons, List.not_mem_nil, or_false] at hn
  rcases hn with rfl | rfl | rfl | rfl <;> decide +kernel

theorem test_witness_characterCount :
    segBits .binary 2953 40 ≤ 8 * cap 40 ∧ segBits .numeric 7089 40 ≤ 8 * cap 40 ∧ segBits .binary 230 9 ≤ 8 * cap 9 := by
  decide

/-- An idle block, and the first and last index of each clause at k = 7 and k = 30. -/
theorem test_witness_rsfeed :
    State.reset.phase = .idle ∧ (at' 1 .versioned).phase ≠ .idle ∧ 0 + 1 < (cat 1).k ∧ 6 + 1 = (cat 1).k ∧ (cat 1).k ≤ 7 ∧
      28 + 1 < (cat 40).k ∧ 29 + 1 = (cat 40).k := by
  decide

/-- Version 10: block 4 is outside, block 1 is not the next, TMP_SIZE one short; block 3 is the last. -/
theorem test_witness_rsblk :
    (at' 10 .versioned).phase ≠ .packed ∧ nblk (at' 10 .packed).v ≤ (4#8 : Byte).toNat ∧
    ((1#8 : Byte).toNat < nblk (at' 10 .packed).v ∧ (1#8 : Byte).toNat ≠ (at' 10 .packed).rsNext.toNat) ∧
    (∃ s : State, s.phase = .packed ∧ 0 < nblk s.v ∧ 0 = s.rsNext.toNat ∧ s.tmpSize.toNat < tot s.v) ∧
    ∃ (s : State) (bs : List Byte), s.phase = .packed ∧ (3#8 : Byte).toNat < nblk s.v ∧ (3#8 : Byte).toNat = s.rsNext.toNat ∧
      tot s.v ≤ s.tmpSize.toNat ∧ bs.length = blkLen s.v 3 ∧ ∀ i < blkLen s.v 3, s.tmp.read (blkOff s.v 3 + i) = bs[i]? :=
  ⟨by decide, by decide, by decide, ⟨{ at' 10 .packed with tmpSize := 345 }, by decide⟩,
   ⟨{ full 10 .packed with rsNext := 3 }, List.replicate 69 0, by decide +kernel⟩⟩

theorem test_witness_rsall :
    (at' 10 .versioned).phase ≠ .packed ∧ (∃ s : State, s.phase = .packed ∧ s.tmpSize.toNat < tot s.v) ∧
    (∃ s : State, s.phase = .packed ∧ tot s.v ≤ s.tmpSize.toNat ∧ s.err = false ∧ s.rsNext.toNat < nblk s.v ∧
      s.tmp.written (cap s.v)) :=
  ⟨by decide, ⟨{ at' 40 .packed with tmpSize := 3705 }, by decide⟩,
   { full 10 .packed with rsNext := 3 }, by decide, by decide, by decide, by decide, by decide +kernel⟩

/-- A block that is encoded; both statements about the codeword have these hypotheses. -/
theorem test_witness_codeword :
    (full 1 .packed).v = 1 ∧ (full 1 .packed).err = false ∧
      (ran (.rsblk 0) (full 1 .packed)).map (fun t => t.err) = some false ∧ 0 < (cat 1).k := by
  decide +kernel

/-- OUT_SIZE one byte short and exact, for version 40. -/
theorem test_witness_mxinit :
    (∃ s : State, s.phase ≠ .coded) ∧ (∃ s : State, s.phase = .coded ∧ s.outSize.toNat < img s.v) ∧
      ∃ s : State, s.phase = .coded ∧ s.v = 40 ∧ s.outSize.toNat = img s.v :=
  ⟨⟨State.reset, by decide⟩, ⟨{ at' 40 .coded with outSize := 4070 }, by decide⟩, ⟨at' 40 .coded, by decide⟩⟩

/-- The hypotheses of the steps that write modules: another phase, OUT_SIZE one byte short, and all of OUT written, at both
ends of the range of versions. It serves MXFIND, MXTIME, MXALIGN, MXRSVD, MXFMT, MXVER and MASK. -/
theorem test_witness_plotSteps :
    ∀ ph ∈ [Phase.blank, .finders, .timing, .aligned, .placed, .formatted, .versionInfo],
      (∃ s : State, s.phase ≠ ph) ∧ (∃ s : State, s.phase = ph ∧ s.outSize.toNat < img s.v) ∧
      ∀ v ∈ [1, 7, 40], ∃ s : State, s.phase = ph ∧ s.v = v ∧ img s.v ≤ s.outSize.toNat ∧ s.out.written (img s.v) := by
  intro ph hph
  have h40 : (at' 40 ph).v = 40 := rfl
  refine ⟨⟨at' 1 .reserved, ?_⟩, ⟨{ at' 40 ph with outSize := 4070 }, rfl, ?_⟩, ?_⟩
  · rintro rfl
    revert hph
    decide
  · show 4070 < img (at' 40 ph).v
    rw [h40]
    decide
  · intro v hv
    have h : v = 1 ∨ v = 7 ∨ v = 40 := by simpa using hv
    have hv' : (full v ph).v = v := by rcases h with rfl | rfl | rfl <;> rfl
    refine ⟨full v ph, rfl, hv', ?_, ?_⟩ <;> rw [hv']
    · show img v ≤ 4071
      rcases h with rfl | rfl | rfl <;> decide
    · exact zeros_written (img v)

/-- A cell in the zone of each of these steps, and one outside it. -/
theorem test_witness_zones :
    (0 ≤ 7 ∧ width 1 - 8 ≤ 20 ∧ 20 < width 1) ∧ (8 ≤ 12 ∧ 12 ≤ width 1 - 9) ∧ (18, 18) ∈ centres 2 ∧ absDiff 16 18 ≤ 2 ∧
      cellClass 1 8 0 = .reserved ∧ cellClass 7 5 34 = .reserved ∧ cellClass 1 20 20 = .data ∧ (20 + 20) % 2 = 0 ∧
      ¬ (23 < width 1) ∧ 23 < 8 * stride 1 := by
  decide

theorem test_witness_reservedCells :
    (0 < width 40 ∧ 176 < width 40) ∧ onAlignment 40 170 170 = true ∧ cellClass 40 0 166 = .reserved := by
  decide +kernel

theorem full_v_40 (ph : Phase) : (full 40 ph).v = 40 := rfl

theorem full_out_written (v : Nat) (ph : Phase) : (full v ph).out.written (img v) := zeros_written (img v)

theorem full_tmp_written (v : Nat) (ph : Phase) : (full v ph).tmp.written (tot v) := zeros_written (tot v)

/-- MXDATA: another phase, each buffer one byte short, and a whole state of version 40. -/
theorem test_witness_mxdata :
    (∃ s : State, s.phase ≠ .reserved) ∧ (∃ s : State, s.phase = .reserved ∧ s.outSize.toNat < img s.v) ∧
    (∃ s : State, s.phase = .reserved ∧ img s.v ≤ s.outSize.toNat ∧ s.tmpSize.toNat < tot s.v) ∧
    (∃ s : State, s.phase = .reserved ∧ img s.v ≤ s.outSize.toNat ∧ tot s.v ≤ s.tmpSize.toNat ∧ s.v = 40 ∧
      s.out.written (img s.v) ∧ s.tmp.written (tot s.v)) ∧
    (cellOrder 1)[0]? = some (20, 20) ∧ p2Tmp.read (streamIndex 1 (0 / 8)) = some 0x40 :=
  ⟨⟨State.reset, by decide⟩, ⟨{ at' 40 .reserved with outSize := 4070 }, by decide⟩,
   ⟨{ at' 40 .reserved with tmpSize := 3705 }, by decide⟩,
   ⟨full 40 .reserved, rfl, by decide, by decide, full_v_40 _, by rw [full_v_40]; exact full_out_written 40 _,
     by rw [full_v_40]; exact full_tmp_written 40 _⟩, by decide +kernel⟩

/-- The clause on INTERNAL is met only by a VERSION that no run reaches. -/
theorem test_witness_mxdataInternal :
    ∃ s : State, s.phase = .reserved ∧ img s.v ≤ s.outSize.toNat ∧ tot s.v ≤ s.tmpSize.toNat ∧
      ¬ (8 * tot s.v ≤ (cellOrder s.v).length ∧ (cellOrder s.v).length < 8 * tot s.v + 8) :=
  ⟨at' 0 .reserved, by decide +kernel⟩

/-- The last byte of version 40's stream and the index after it; the corner of the grid and the cell beside it. -/
theorem test_witness_ilvrdAndClass :
    (at' 40 .packed).phase.toNat < 4 ∧ (4 ≤ (at' 40 .coded).phase.toNat ∧ tot (at' 40 .coded).v ≤ (3706#16).toNat) ∧
    (∃ s : State, 4 ≤ s.phase.toNat ∧ (3705#16).toNat < tot s.v ∧ s.tmpSize.toNat < tot s.v) ∧
    (∃ s : State, 4 ≤ s.phase.toNat ∧ (3705#16).toNat < tot s.v ∧ tot s.v ≤ s.tmpSize.toNat ∧
      s.tmp.read (streamIndex s.v (3705#16).toNat) = some 5#8) ∧
    State.reset.phase = .idle ∧ ¬ ((177#8 : Byte).toNat < width (at' 40 .versioned).v ∧ (0#8 : Byte).toNat < width 40) ∧
    ((176#8 : Byte).toNat < width (at' 40 .versioned).v ∧ (176#8 : Byte).toNat < width (at' 40 .versioned).v) :=
  ⟨by decide, by decide, ⟨{ at' 40 .coded with tmpSize := 3705 }, by decide⟩,
   ⟨{ at' 40 .coded with tmp := mem 3705 [5] }, by decide⟩, by decide, by decide, by decide⟩

theorem test_witness_maskTwice :
    (match flipAll (stride 1) (mem 0 p2Done) (maskedCells 1) with
      | .ok m => (flipAll (stride 1) m (maskedCells 1)).toOption.isSome
      | .error _ => false) = true := by
  decide +kernel

/-- The first and last padding bit of a row of version 1 and of version 2, MXINIT that completes and that faults, and a
GENERATE that completes. -/
theorem test_witness_padding :
    (width 1 ≤ 21 ∧ 23 < 8 * stride 1) ∧ (width 2 ≤ 25 ∧ 31 < 8 * stride 2) ∧
      (ran .mxinit (at' 1 .coded)).map (fun t => t.err) = some false ∧
      (ran .mxinit (at' 1 .packed)).map (fun t => t.err) = some true ∧ (ran .generate p1).map (fun t => t.err) = some false :=
  ⟨by decide, by decide, by decide +kernel, by decide +kernel, p1_completes⟩

/-- The next state of a sequence of commands, when there is one. -/
def ranAll (is : List Instr) (s : State) : Option State :=
  match runCommands is s with
  | .next t => some t
  | _ => none

/-- Each boundary check one short, a sequence that completes, one that faults, and one that stops on a byte not given. -/
theorem test_witness_generateSequence :
    (∃ s : State, s.err = false ∧ s.outSize.toNat < 4071) ∧ (∃ s : State, s.err = false ∧ s.tmpSize.toNat < 3706) ∧
    (∃ s : State, s.err = false ∧ s.outSize.toNat < s.dataLen.toNat) ∧
    (4071 ≤ p1.outSize.toNat ∧ 3706 ≤ p1.tmpSize.toNat ∧ p1.dataLen.toNat ≤ p1.outSize.toNat ∧
      (ranAll (generatorSequence p1.up) p1).map (fun t => t.err) = some false) ∧
    (ranAll (generatorSequence p4.up) p4).map (fun t => t.err) = some true ∧
    (match runCommands (generatorSequence false) { p1 with dataLen := 1 } with
      | .fault f => decide (f = .unwritten .data 0)
      | _ => false) = true :=
  ⟨⟨{ p1 with outSize := 4070 }, by decide⟩, ⟨{ p1 with tmpSize := 3705 }, by decide⟩, ⟨{ p1 with dataLen := 4072 }, by decide⟩,
   by decide +kernel, by decide +kernel, by decide +kernel⟩

/-- An input that fits, with and without a URL; one that fits nowhere; one with a byte that is no digit. -/
theorem test_witness_generateCompletes :
    (selectVersion p1.segments = some 1 ∧ p1.data.written p1.dataLen.toNat ∧ p1.up = false) ∧
    (∃ s : State, s.err = false ∧ 4071 ≤ s.outSize.toNat ∧ 3706 ≤ s.tmpSize.toNat ∧ s.dataLen.toNat ≤ s.outSize.toNat ∧
      selectVersion s.segments = some 1 ∧ s.up = true ∧ s.data.written s.dataLen.toNat ∧ s.url.written s.urlLen.toNat ∧
      ∀ i < s.dataLen.toNat, ∀ x, s.data.read i = some x → isDigit x = true) ∧
    (∃ s : State, s.err = false ∧ 4071 ≤ s.outSize.toNat ∧ s.dataLen.toNat ≤ s.outSize.toNat ∧
      selectVersion s.segments = none) ∧
    (selectVersion p4.segments = some 1 ∧ p4.up = true ∧ p4.data.written p4.dataLen.toNat ∧ p4.url.written p4.urlLen.toNat ∧
      ∃ i < p4.dataLen.toNat, ∃ x, p4.data.read i = some x ∧ isDigit x = false) := by
  refine ⟨by decide +kernel, ⟨{ p4 with data := mem 0 [0x31, 0x32, 0x33] }, by decide, by decide, by decide, by decide,
    by decide +kernel, rfl, by decide, by decide, ?_⟩, ⟨{ p1 with dataLen := 2954 }, by decide +kernel⟩,
    by decide +kernel, rfl, by decide, by decide, 2, by decide, 0x78, by decide⟩
  intro i hi x hx
  have : i < 3 := hi
  interval_cases i <;> simp_all [mem, p4, List.zipIdx, Memory.read] <;> subst hx <;> decide

/-- Two states with equal inputs and different scratch. -/
theorem test_witness_deterministic :
    ∃ s₁ s₂ : State, s₁ ≠ s₂ ∧ s₁.err = false ∧ s₂.err = false ∧ s₁.up = s₂.up ∧ s₁.urlLen = s₂.urlLen ∧
      s₁.dataLen = s₂.dataLen ∧ 4071 ≤ s₁.outSize.toNat ∧ 3706 ≤ s₁.tmpSize.toNat ∧ 4071 ≤ s₂.outSize.toNat ∧
      3706 ≤ s₂.tmpSize.toNat ∧ (ran .generate s₁).map (fun t => t.err) = some false ∧
      (ran .generate s₂).map (fun t => t.err) = some false :=
  ⟨p1, { p1 with tmp := mem 0 [0xFF, 0xFF], out := mem 0 [0xFF], phase := .done, bitLen := 5 }, by decide, rfl, rfl, rfl, rfl, rfl,
    by decide, by decide, by decide, by decide, p1_completes, by decide +kernel⟩

/-- Versions 0, 1, 40, 41; URL_LEN 0, the last that fits version 1 and the first that does not. -/
theorem test_witness_maxsz :
    (0#8 : Byte).toNat < 1 ∧ 40 < (41#8 : Byte).toNat ∧ (1 ≤ (1#8 : Byte).toNat ∧ (40#8 : Byte).toNat ≤ 40) ∧
      (13#32 ≠ (0 : Word) ∧ (13#32).toNat + 5 < cap 1) ∧ (14#32 ≠ (0 : Word) ∧ cap 1 ≤ (14#32).toNat + 5) := by
  decide

end Sys2Proof.Tests
end

