-- ==== Proofs/HostActions.lean ====
section
/-! SUPPORT. One rule per action of the host: what a step is when that action is the next one waiting. -/

namespace Sys2Proof.Machine

variable {s : State} {rest : List HostAction} {sp : Space} {a n : Nat} {b x : Byte} {w : Word}

/-- A step performs the first waiting action and takes it off the list. -/
theorem step_of_host {act : HostAction} (h : s.host = act :: rest) :
    step s = hostAct act { s with host := rest } := by
  rw [step, hostTurn, h]

/-! ### Memory accesses -/

theorem step_writeMem (ha : a < 2 ^ 32) (h : s.host = .writeMem sp a b :: rest) :
    step s = .next ({ s with host := rest }.setMem sp ((s.mem sp).write a b)) :=
  (step_of_host h).trans (if_pos ha)

theorem step_readMem (ha : a < 2 ^ 32) (h : s.host = .readMem sp a :: rest) :
    step s = .next { s with host := rest, hostRead := (s.hostByte sp a).setWidth 32 } :=
  (step_of_host h).trans (if_pos ha)

theorem step_readMem_written (ha : a < 2 ^ 32) (h : s.host = .readMem sp a :: rest)
    (hx : (s.mem sp).read a = some x) :
    step s = .next { s with host := rest, hostRead := x.setWidth 32 } := by
  rw [step_readMem ha h, State.hostByte_of_read hx]

theorem step_readMem_unwritten (ha : a < 2 ^ 32) (h : s.host = .readMem sp a :: rest)
    (hx : (s.mem sp).read a = none) :
    step s = .next { s with
      host := rest, hostRead := (Config.unwrittenByte s.resets sp.toNat a).setWidth 32 } := by
  rw [step_readMem ha h, State.hostByte_of_unwritten hx]

/-- Replacing one space leaves every field but the four memories (the other spaces: `State.mem_setMem_other`). -/
theorem State.setMem_frame (s : State) (sp : Space) (m : Memory) :
    s.setMem sp m = { s with
      url := (s.setMem sp m).url, data := (s.setMem sp m).data,
      tmp := (s.setMem sp m).tmp, out := (s.setMem sp m).out } := by
  cases sp <;> rfl

/-! ### The stops -/

theorem step_writeMem_noSuchIndex (ha : 2 ^ 32 ≤ a) (h : s.host = .writeMem sp a b :: rest) :
    step s = .fault (.noSuchIndex sp a) :=
  (step_of_host h).trans (if_neg (Nat.not_lt.mpr ha))

theorem step_readMem_noSuchIndex (ha : 2 ^ 32 ≤ a) (h : s.host = .readMem sp a :: rest) :
    step s = .fault (.noSuchIndex sp a) :=
  (step_of_host h).trans (if_neg (Nat.not_lt.mpr ha))

theorem not_lt_regSlots (hn : 64 ≤ n) : ¬ n < Config.regSlots := Nat.not_lt.mpr hn

/-- A number above 63 is no register (R22). -/
theorem State.readReg_outside (s : State) (hn : 64 ≤ n) : s.readReg n = none := by
  rw [State.readReg_of_ge s (by omega), if_neg (by omega), if_neg (not_lt_regSlots hn)]

theorem step_readReg_outside (hn : 64 ≤ n) (h : s.host = .readReg n :: rest) :
    step s = .refused (.outsideWindow n) := by
  rw [step_of_host h, hostAct, hostReadReg, State.readReg_outside _ hn]

theorem step_writeReg_outside (hn : 64 ≤ n) (h : s.host = .writeReg n w :: rest) :
    step s = .refused (.outsideWindow n) := by
  rw [step_of_host h, hostAct, hostWriteReg, if_neg (by omega), if_neg (not_lt_regSlots hn)]

end Sys2Proof.Machine
end

