-- ==== Proofs/HostMemoryAccesses.lean ====
section
/-! PROOF. Statement O10 of the family 00_scope. -/

namespace Sys2Proof.Machine

/-- Settles O10: the memory a host write replaces is read by the laws of `Memory.write` and of `State.setMem`; each other
clause is the rule of its action. -/
theorem hostMemoryAccesses : Obligations.HostMemoryAccesses := by
  intro s rest sp a n b w
  refine ⟨fun ha h => ⟨_, step_writeMem ha h, ?written, ?otherBytes, ?otherSpaces, ?frame⟩, step_readMem_written,
    step_readMem_unwritten, fun ha h => ?noIndex, fun hn h => ?noRegister⟩
  case written => rw [State.mem_setMem_same, Memory.read_write_same]
  case otherBytes =>
    intro a' ha'
    rw [State.mem_setMem_same, Memory.read_write_other _ _ ha']
  case otherSpaces => exact fun _ hsp => State.mem_setMem_other _ _ hsp
  case frame => exact State.setMem_frame _ _ _
  case noIndex => exact h.elim (step_readMem_noSuchIndex ha) (step_writeMem_noSuchIndex ha)
  case noRegister => exact h.elim (step_readReg_outside hn) (step_writeReg_outside hn)

end Sys2Proof.Machine
end

