-- ==== Proofs/StepEffect.lean ====
section
/-! SUPPORT. Everything that a step which answers a next state can have done (spec/00_scope.md R13). -/

namespace Sys2Proof.Machine

/-- What a step that answers a next state can have done, said once: the fields that are the host's own, one byte of
memory, the reset input, an illegal command word, or a command (R13, R80, R297, R320, R335). -/
inductive StepEffect (s : State) : State → Prop
  /-- nothing but CMD, the registers that the host writes, and the model's two fields for the host -/
  | hostFields (cmd : Word) (up : Bool) (urlLen dataLen outSize tmpSize : Word) (host : List HostAction)
      (hostRead : Word) :
      StepEffect s { s with
        cmd := cmd, up := up, urlLen := urlLen, dataLen := dataLen, outSize := outSize, tmpSize := tmpSize
        host := host, hostRead := hostRead }
  | memoryByte (rest : List HostAction) (sp : Space) (a : Nat) (b : Byte) (ha : a < Config.indexBound) :
      StepEffect s ({ s with host := rest }.setMem sp ((s.mem sp).write a b))
  | reset (rest : List HostAction) : StepEffect s (hardReset { s with host := rest })
  | illegalWord (rest : List HostAction) (w : Word) (he : s.err = false) (hf : s.fatal = false) :
      StepEffect s (({ s with host := rest }.latchCmd w).takeFault .illegalCmd)
  | command (rest : List HostAction) (w : Word) (i : Instr) (t : State) (he : i ≠ .clear → s.err = false)
      (hf : s.fatal = false) (ht : exec i ({ s with host := rest }.latchCmd w) = .next t) : StepEffect s t

theorem State.writeReg_hostFields (s : State) (n : Nat) (w : Word) :
    ∃ up urlLen dataLen outSize tmpSize, s.writeReg n w = { s with
      up := up, urlLen := urlLen, dataLen := dataLen, outSize := outSize, tmpSize := tmpSize } := by
  unfold State.writeReg
  split_ifs <;> exact ⟨_, _, _, _, _, rfl⟩

theorem lockedOut_eq_false {s : State} : s.lockedOut = false ↔ s.err = false ∧ s.fatal = false := by
  simp [State.lockedOut]

theorem writeCmd_effect {s t : State} {rest : List HostAction} {w : Word}
    (h : writeCmd w { s with host := rest } = .next t) : StepEffect s t := by
  unfold writeCmd at h
  split at h
  · split at h
    · next hc => exact .command rest w .clear t (absurd rfl) hc.1 h
    · cases h
      exact .hostFields _ _ _ _ _ _ _ _
  · next hl =>
    obtain ⟨he, hf⟩ := lockedOut_eq_false.mp (Bool.eq_false_iff.mpr hl)
    split at h
    · cases h
      exact .illegalWord rest w he hf
    · next i _ => exact .command rest w i t (fun _ => he) hf h

theorem hostAct_effect {s t : State} {rest : List HostAction} {act : HostAction}
    (h : hostAct act { s with host := rest } = .next t) : StepEffect s t := by
  cases act with
  | writeReg n w =>
    simp only [hostAct, hostWriteReg] at h
    split at h
    · exact writeCmd_effect h
    · split at h
      · obtain ⟨up, urlLen, dataLen, outSize, tmpSize, e⟩ := State.writeReg_hostFields { s with host := rest } n w
        cases h
        rw [e]
        exact .hostFields _ _ _ _ _ _ _ _
      · cases h
  | readReg n =>
    simp only [hostAct, hostReadReg] at h
    split at h
    · cases h
      exact .hostFields _ _ _ _ _ _ _ _
    · cases h
  | writeMem sp a b =>
    simp only [hostAct, hostWriteMem] at h
    split at h
    · next ha =>
      cases h
      exact .memoryByte rest sp a b ha
    · cases h
  | readMem sp a =>
    simp only [hostAct, hostReadMem] at h
    split at h
    · cases h
      exact .hostFields _ _ _ _ _ _ _ _
    · cases h
  | hardReset =>
    cases h
    exact .reset rest

theorem step_effect {s t : State} (h : step s = .next t) : StepEffect s t := by
  cases hs : s.host with
  | nil =>
    rw [step, hostTurn, hs] at h
    cases h
    exact .hostFields s.cmd s.up s.urlLen s.dataLen s.outSize s.tmpSize s.host s.hostRead
  | cons act rest => exact hostAct_effect ((step_of_host hs).symm.trans h)

end Sys2Proof.Machine
end

