-- ==== Proofs/BodyKeeps.lean ====
section
/-! SUPPORT. A property of states that a command's body keeps, whether the body completes or raises a fault. -/

namespace Sys2Proof.Machine

/-- The property holds of the state that a body completes in and of the state that it raises a fault in. -/
def Attempt.Keeps (P : State → Prop) (a : Attempt) : Prop :=
  (∀ t, a = .ok t → P t) ∧ ∀ c t, a = .error (.raise c t) → P t

variable {P : State → Prop} {s : State}

theorem keeps_ok (h : P s) : Attempt.Keeps P (.ok s) :=
  ⟨fun _ e => ok_eq_ok.mp e ▸ h, fun _ _ e => nomatch e⟩

theorem keeps_bind {a : Attempt} {k : State → Attempt} (ha : a.Keeps P) (hk : ∀ t, P t → (k t).Keeps P) :
    Attempt.Keeps P (a >>= k) := by
  obtain ⟨hok, hraise⟩ := ha
  refine ⟨fun t h => ?_, fun c t h => ?_⟩
  · obtain ⟨u, hu, ht⟩ := attempt_bind_ok.mp h
    exact (hk u (hok u hu)).1 t ht
  · rcases attempt_bind_raise.mp h with h | ⟨u, hu, ht⟩
    · exact hraise c t h
    · exact (hk u (hok u hu)).2 c t ht

theorem keeps_require {p : Prop} [Decidable p] {f : FaultCode} {k : Unit → Attempt} (hs : P s)
    (hk : (k ()).Keeps P) : Attempt.Keeps P (require p f s >>= k) := by
  by_cases hp : p
  · rwa [require_true f s hp]
  · rw [require_false f s hp]
    refine ⟨fun t e => ?_, fun c t e => ?_⟩
    · cases e
    · cases e
      exact hs

/-- A body that raises only in the state it starts in keeps what it keeps when it completes (R295). -/
theorem raisesOnly.keeps {codes : List FaultCode} {a : Attempt} (hr : raisesOnly codes s a) (hs : P s)
    (hok : ∀ t, a = .ok t → P t) : a.Keeps P :=
  ⟨hok, fun c t h => (hr c t h).1 ▸ hs⟩

/-- A property that the body keeps and that taking a fault keeps holds of the command's next state. -/
theorem exec_next_of_keeps {i : Instr} {t : State} (hk : (body i s).Keeps P)
    (hfault : ∀ u c, P u → P (u.takeFault c)) (h : exec i s = .next t) : P t := by
  rw [exec_eq_finish] at h
  rcases finish_next.mp h with ht | ⟨c, u, hu, rfl⟩
  · exact hk.1 t ht
  · exact hfault u c (hk.2 c u hu)

end Sys2Proof.Machine
end

