-- ==== Proofs/WorkInvariant.lean ====
section
/-! SUPPORT. The invariant without STATUS, and what it says in each phase (spec/10_state.md R29 to R31,
spec/20_memory.md R66). -/

namespace Sys2Proof.Machine

/-- The invariant without the fields of STATUS: it mentions no field that the host writes and no RESULT. -/
def State.WorkInv (s : State) : Prop :=
  s.VersionInv ∧ s.BitLenInv ∧ s.RsNextInv ∧ s.MemInv ∧ s.WrittenInv

theorem State.inv_iff {s : State} : s.Inv ↔ s.StatusInv ∧ s.WorkInv :=
  ⟨fun ⟨hs, hv, hb, hr, hm, hw⟩ => ⟨hs, hv, hb, hr, hm, hw⟩, fun ⟨hs, hv, hb, hr, hm, hw⟩ => ⟨hs, hv, hb, hr, hm, hw⟩⟩

/-- What the invariant says in every phase. -/
structure State.Bounds (s : State) : Prop where
  bitLen : s.bitLen.toNat ≤ 23648
  rsNext : s.rsNext.toNat ≤ 25
  memories : s.MemInv

theorem State.WorkInv.bounds {s : State} (h : s.WorkInv) : s.Bounds :=
  let ⟨_, hb, hr, hm, _⟩ := h
  ⟨hb.1, hr.1, hm⟩

/-- A legal version. -/
abbrev State.Versioned (s : State) : Prop := 1 ≤ s.v ∧ s.v ≤ 40

theorem State.WorkInv.versioned {s : State} (h : s.WorkInv) (hp : 1 ≤ s.phase.toNat) : s.Versioned := by
  obtain ⟨⟨hle, h0⟩, -⟩ := h
  refine ⟨Nat.one_le_iff_ne_zero.mpr fun hv => ?_, hle⟩
  rw [h0.mp hv] at hp
  exact absurd hp (by decide)

variable {s : State}

theorem State.Versioned.ne_zero (h : s.Versioned) : s.v ≠ 0 := Nat.one_le_iff_ne_zero.mp h.1

theorem workInv_idle (hp : s.phase = .idle) : s.WorkInv ↔ s.v = 0 ∧ s.Bounds := by
  refine ⟨fun h => ⟨h.1.2.mpr hp, h.bounds⟩, fun ⟨hv, hb, hr, hm⟩ =>
    ⟨⟨hv ▸ Nat.zero_le _, iff_of_true hv hp⟩, ⟨hb, ?_, ?_⟩, ⟨hr, ?_, ?_⟩, hm, ?_, ?_, ?_, ?_⟩⟩ <;>
    simp [hp, Phase.toNat]

theorem workInv_versioned (hp : s.phase = .versioned) : s.WorkInv ↔ s.Versioned ∧ s.Bounds := by
  refine ⟨fun h => ⟨h.versioned (by rw [hp]; decide), h.bounds⟩,
    fun ⟨hv, hb, hr, hm⟩ =>
      ⟨⟨hv.2, ?_⟩, ⟨hb, ?_, ?_⟩, ⟨hr, ?_, ?_⟩, hm, ?_, ?_, ?_, ?_⟩⟩ <;> simp [hp, Phase.toNat, hv.ne_zero]

theorem workInv_packing (hp : s.phase = .packing) :
    s.WorkInv ↔ s.Versioned ∧ s.Bounds ∧ s.bitLen.toNat ≤ 8 * cap s.v ∧ s.tmp.written ((s.bitLen.toNat + 7) / 8) := by
  constructor
  · intro h
    have ⟨_, ⟨_, hcap, _⟩, _, _, hw, _⟩ := h
    exact ⟨h.versioned (by rw [hp]; decide), h.bounds, hcap (by rw [hp]; decide), hw hp⟩
  · rintro ⟨hv, ⟨hb, hr, hm⟩, hcap, hw⟩
    refine ⟨⟨hv.2, ?_⟩, ⟨hb, fun _ => hcap, ?_⟩, ⟨hr, ?_, ?_⟩, hm, fun _ => hw, ?_, ?_, ?_⟩ <;>
      simp [hp, Phase.toNat, hv.ne_zero]

theorem workInv_packed (hp : s.phase = .packed) :
    s.WorkInv ↔ s.Versioned ∧ s.Bounds ∧ s.bitLen.toNat = 8 * cap s.v ∧ s.rsNext.toNat < nblk s.v ∧
      s.tmp.written (cap s.v + (cat s.v).k * s.rsNext.toNat) := by
  constructor
  · intro h
    have ⟨_, ⟨_, _, hcap⟩, ⟨_, hn, _⟩, _, _, hw, _⟩ := h
    exact ⟨h.versioned (by rw [hp]; decide), h.bounds, hcap (by rw [hp]; decide), hn hp, hw hp⟩
  · rintro ⟨hv, ⟨hb, hr, hm⟩, hcap, hn, hw⟩
    refine ⟨⟨hv.2, ?_⟩, ⟨hb, fun _ => hcap.le, fun _ => hcap⟩, ⟨hr, fun _ => hn, ?_⟩, hm, ?_, fun _ => hw, ?_, ?_⟩ <;>
      simp [hp, Phase.toNat, hv.ne_zero]

/-- From CODED on the codewords are complete; from BLANK on the bitmap has its bytes. -/
theorem workInv_coded {p : Phase} (hp : s.phase = p) (h4 : 4 ≤ p.toNat) :
    s.WorkInv ↔ s.Versioned ∧ s.Bounds ∧ s.bitLen.toNat = 8 * cap s.v ∧ s.rsNext.toNat = nblk s.v ∧
      s.tmp.written (tot s.v) ∧ (5 ≤ p.toNat → s.out.written (img s.v)) := by
  subst hp
  constructor
  · intro h
    have ⟨_, ⟨_, _, hcap⟩, ⟨_, _, hn⟩, _, _, _, htmp, hout⟩ := h
    exact ⟨h.versioned (by omega), h.bounds, hcap (by omega), hn h4, htmp h4, hout⟩
  · rintro ⟨hv, ⟨hb, hr, hm⟩, hcap, hn, htmp, hout⟩
    have earlier : ∀ p : Phase, p.toNat < 4 → s.phase ≠ p := fun p hlt e => absurd (e ▸ h4) (Nat.not_le.mpr hlt)
    exact ⟨⟨hv.2, iff_of_false hv.ne_zero (earlier _ (by decide))⟩, ⟨hb, fun _ => hcap.le, fun _ => hcap⟩,
      ⟨hr, fun e => absurd e (earlier _ (by decide)), fun _ => hn⟩, hm,
      fun e => absurd e (earlier _ (by decide)), fun e => absurd e (earlier _ (by decide)), fun _ => htmp, hout⟩

end Sys2Proof.Machine
end

