-- ==== Proofs/WorkInvariantKept.lean ====
section
/-! SUPPORT. Every body, and so every step, keeps the invariant without STATUS. -/

namespace Sys2Proof.Machine

variable {s t : State}

/-! ### Updates that the invariant does not see -/

@[simp] theorem workInv_withResult {n : Nat} : (s.withResult n).WorkInv ↔ s.WorkInv := Iff.rfl

@[simp] theorem workInv_takeFault {c : FaultCode} : (s.takeFault c).WorkInv ↔ s.WorkInv := Iff.rfl

@[simp] theorem workInv_latchCmd {w : Word} : (s.latchCmd w).WorkInv ↔ s.WorkInv := Iff.rfl

theorem workInv_setRem {rem : Vector Byte Config.maxEc} {x : Word} :
    State.WorkInv { s with rem := rem, result := x } ↔ s.WorkInv := Iff.rfl

theorem domainResult_workInv {r : Option Nat} (h : s.WorkInv) (ht : domainResult r s = .ok t) : t.WorkInv := by
  obtain ⟨n, -, rfl⟩ := domainResult_ok.mp ht
  exact workInv_withResult.mpr h

/-! ### Catalog and selector -/

theorem workInv_setVersion {x : BitVec 6} (h : s.WorkInv) (h1 : 1 ≤ x.toNat) (h40 : x.toNat ≤ 40) :
    State.WorkInv { s with version := x, phase := .versioned } :=
  let ⟨hb, hr, hm⟩ := h.bounds
  (workInv_versioned rfl).mpr ⟨⟨h1, h40⟩, hb, hr, hm⟩

theorem doVset_workInv {v : Byte} (h : s.WorkInv) (ht : doVset v s = .ok t) : t.WorkInv := by
  obtain ⟨⟨h1, h40⟩, rfl⟩ := doVset_ok.mp ht
  simp only [Config.vMin, Config.vMax] at h1 h40
  have hv : (v.setWidth 6).toNat = v.toNat := by rw [BitVec.toNat_setWidth, Nat.mod_eq_of_lt (by omega)]
  exact workInv_withResult.mpr (workInv_setVersion h (by omega) (by omega))

theorem selectVersion_bounds {segs : List (Mode × Nat)} {v : Nat} (h : selectVersion segs = some v) :
    1 ≤ v ∧ v ≤ 40 := by
  have hmem : v ∈ List.range' 1 40 := List.mem_of_find?_eq_some h
  rw [List.mem_range'_1] at hmem
  omega

theorem doVsel_workInv (h : s.WorkInv) (ht : doVsel s = .ok t) : t.WorkInv := by
  obtain ⟨v, hv, rfl⟩ := doVsel_ok.mp ht
  obtain ⟨h1, h40⟩ := selectVersion_bounds hv
  have hx : (BitVec.ofNat 6 v).toNat = v := toNat_ofNat_6 (by omega)
  exact workInv_withResult.mpr (workInv_setVersion h (by omega) (by omega))

/-! ### The packer -/

theorem doPkinit_workInv (h : s.WorkInv) (ht : doPkinit s = .ok t) : t.WorkInv := by
  obtain ⟨hp, -, rfl⟩ := doPkinit_ok.mp ht
  obtain ⟨-, hr, hm⟩ := h.bounds
  exact (workInv_packing rfl).mpr ⟨h.versioned hp, ⟨Nat.zero_le _, hr, hm⟩, Nat.zero_le _,
    fun a ha => absurd ha (by simp)⟩

theorem pushBits_written {bs bs' : BitStream} {bits : List Bool} (h : pushBits bs bits = .ok bs')
    (hw : bs.tmp.written ((bs.pos + 7) / 8)) : bs'.tmp.written ((bs'.pos + 7) / 8) := by
  intro a ha
  have hpos := pushBits_pos h
  by_cases hold : 8 * a < bs.pos
  · exact pushBits_isSome_mono h (hw a (by omega))
  · have hnew := pushBits_isSome h (p := 8 * a) (by omega) (by omega)
    rwa [Nat.mul_div_cancel_left a (by omega)] at hnew

/-- A push that ends within the capacity: the cursor fits BITLEN, and TMP has its bytes up to the cursor (R30, R66). -/
theorem push_packing {bits : List Bool} {bs : BitStream} (h : s.WorkInv) (hp : s.phase = .packing)
    (hpush : pushBits s.stream bits = .ok bs) (hfit : s.bitLen.toNat + bits.length ≤ 8 * cap s.v) :
    (s.withStream bs).bitLen.toNat = s.bitLen.toNat + bits.length ∧ bs.tmp.wf ∧
      bs.tmp.written ((s.bitLen.toNat + bits.length + 7) / 8) := by
  obtain ⟨-, ⟨-, -, hm⟩, -, hw⟩ := (workInv_packing hp).mp h
  have hcap := cap_le s.v
  have hpos : bs.pos = s.bitLen.toNat + bits.length := pushBits_pos hpush
  refine ⟨?_, ?_, ?_⟩
  · rw [State.withStream_bitLen, hpos, toNat_ofNat_32 (by omega)]
  · obtain ⟨-, -, htmp, -⟩ := hm
    exact pushBits_wf hpush htmp (by simp only [State.stream, Config.indexBound]; omega)
  · rw [← hpos]
    exact pushBits_written hpush hw

theorem withStream_workInv {bits : List Bool} {bs : BitStream} (h : s.WorkInv) (hp : s.phase = .packing)
    (hpush : pushBits s.stream bits = .ok bs) (hfit : s.bitLen.toNat + bits.length ≤ 8 * cap s.v) :
    (s.withStream bs).WorkInv := by
  obtain ⟨hlen, hwf, hw⟩ := push_packing h hp hpush hfit
  obtain ⟨hv, ⟨-, hr, hurl, hdata, -, hout⟩, -, -⟩ := (workInv_packing hp).mp h
  have hcap := cap_le s.v
  rw [workInv_packing (by exact hp), hlen]
  exact ⟨hv, ⟨by omega, hr, hurl, hdata, hwf, hout⟩, hfit, hw⟩

/-- What PKBIN and PKNUM push has the length that their check has measured (R165). -/
theorem segmentBits_sourceBytes_length {src : Byte} {bytes : List Byte} (mode : Mode)
    (h : s.sourceBytes src = .ok bytes) :
    (segmentBits mode (s.sourceLen src) s.v bytes).length = segBits mode (s.sourceLen src) s.v := by
  have hl : bytes.length = s.sourceLen src := (Memory.fetchAll_length h).trans List.length_range
  rw [segmentBits, ← hl, segmentBits_length]

theorem doPkbin_workInv {src : Byte} (h : s.WorkInv) (ht : doPkbin src s = .ok t) : t.WorkInv := by
  obtain ⟨hp, -, -, hfit, bytes, hbytes, bs, hpush, rfl⟩ := doPkbin_ok.mp ht
  exact withStream_workInv h hp hpush (by rwa [segmentBits_sourceBytes_length _ hbytes])

theorem doPknum_workInv {src : Byte} (h : s.WorkInv) (ht : doPknum src s = .ok t) : t.WorkInv := by
  obtain ⟨hp, -, -, hfit, bytes, hbytes, -, bs, hpush, rfl⟩ := doPknum_ok.mp ht
  exact withStream_workInv h hp hpush (by rwa [segmentBits_sourceBytes_length _ hbytes])

theorem doPkterm_workInv (h : s.WorkInv) (ht : doPkterm s = .ok t) : t.WorkInv := by
  obtain ⟨hp, -, bs, hpush, rfl⟩ := doPkterm_ok.mp ht
  obtain ⟨hv, ⟨-, -, hurl, hdata, -, hout⟩, hle, -⟩ := (workInv_packing hp).mp h
  have hfull := termBits_length hle (Nat.mul_mod_right 8 _)
  obtain ⟨hlen, hwf, hw⟩ := push_packing h hp hpush hfull.le
  rw [hfull] at hlen hw
  have hcap := cap_le s.v
  have hdone : bs.tmp.written (cap s.v + (cat s.v).k * 0) := fun a ha => hw a (by omega)
  exact (workInv_packed rfl).mpr ⟨hv, ⟨hlen.trans_le (by omega), Nat.zero_le _, hurl, hdata, hwf, hout⟩, hlen,
    nblk_pos hv.1 hv.2, hdone⟩

/-! ### The divider -/

theorem encodeBlock_written {v b : Nat} {tmp tmp' : Memory} {rem' : Vector Byte Config.maxEc}
    (h : encodeBlock v b tmp = .ok (rem', tmp')) (hw : tmp.written (cap v + (cat v).k * b)) :
    tmp'.written (cap v + (cat v).k * (b + 1)) := by
  intro a ha
  rw [encodeBlock_read h]
  split
  · rfl
  · next hne =>
    rw [Nat.mul_add, Nat.mul_one] at ha
    simp only [eccOff] at hne
    exact hw a (by omega)

theorem encodeBlocks_written {v n : Nat} {tmp tmp' : Memory} {rem rem' : Vector Byte Config.maxEc}
    (h : encodeBlocks v rem tmp (List.range' n (nblk v - n)) = .ok (rem', tmp'))
    (hw : tmp.written (cap v + (cat v).k * n)) : tmp'.written (tot v) := by
  intro a ha
  by_cases hold : a < cap v + (cat v).k * n
  · exact encodeBlocks_isSome h (hw a hold)
  · obtain ⟨hb, hlo, hhi⟩ := ecc_block (by omega : cap v ≤ a) ha
    refine encodeBlocks_ecc_isSome h (List.mem_range'_1.mpr ⟨?_, by omega⟩) hlo hhi
    have hk : 0 < (cat v).k := by omega
    rw [Nat.le_div_iff_mul_le hk, Nat.mul_comm]
    omega

theorem doRsblk_workInv {b : Byte} (h : s.WorkInv) (ht : doRsblk b s = .ok t) : t.WorkInv := by
  obtain ⟨hp, hb, hnext, -, ⟨rem', tmp'⟩, henc, rfl⟩ := doRsblk_ok.mp ht
  obtain ⟨hv, ⟨hbl, -, hurl, hdata, htmp, hout⟩, hlen, -, hw⟩ := (workInv_packed hp).mp h
  have hn := nblk_le s.v
  have hwf := encodeBlock_wf henc hb htmp
  have hw' := encodeBlock_written henc (hnext ▸ hw)
  have hreg : (BitVec.ofNat 32 (b.toNat + 1)).toNat = b.toNat + 1 := toNat_ofNat_32 (by omega)
  rw [workInv_withResult]
  by_cases hlast : b.toNat + 1 = nblk s.v
  · rw [if_pos hlast]
    exact (workInv_coded (p := .coded) rfl (by decide)).mpr ⟨hv,
      ⟨hbl, hreg.trans_le (by omega), hurl, hdata, hwf, hout⟩, hlen, hreg.trans hlast, hlast ▸ hw',
      fun h5 => absurd h5 (by decide)⟩
  · rw [if_neg hlast]
    have hlt : b.toNat + 1 < nblk s.v := by omega
    exact (workInv_packed (by exact hp)).mpr ⟨hv, ⟨hbl, hreg.trans_le (by omega), hurl, hdata, hwf, hout⟩, hlen,
      hreg.trans_lt hlt, hreg.symm ▸ hw'⟩

theorem doRsall_workInv (h : s.WorkInv) (ht : doRsall s = .ok t) : t.WorkInv := by
  obtain ⟨hp, -, ⟨rem', tmp'⟩, henc, rfl⟩ := doRsall_ok.mp ht
  obtain ⟨hv, ⟨hbl, -, hurl, hdata, htmp, hout⟩, hlen, hlt, hw⟩ := (workInv_packed hp).mp h
  have hn := nblk_le s.v
  have hwf := encodeBlocks_wf (fun b hb => by rw [List.mem_range'_1] at hb; omega) henc htmp
  have hreg : (BitVec.ofNat 32 (nblk s.v)).toNat = nblk s.v := toNat_ofNat_32 (by omega)
  exact workInv_withResult.mpr <| (workInv_coded (p := .coded) rfl (by decide)).mpr
    ⟨hv, ⟨hbl, hreg.trans_le hn, hurl, hdata, hwf, hout⟩, hlen, hreg, encodeBlocks_written henc hw,
      fun h5 => absurd h5 (by decide)⟩

/-! ### The matrix builder and the masker -/

/-- Once the codewords are complete, a bitmap that has all its bytes may be stored and the phase moved on. -/
theorem workInv_bitmap {out : Memory} {next : Phase} (h : s.WorkInv) (hs : 4 ≤ s.phase.toNat)
    (hnext : 4 ≤ next.toNat) (hwf : out.wf) (hw : out.written (img s.v)) :
    State.WorkInv { s with out := out, phase := next } := by
  obtain ⟨hv, ⟨hbl, hr, hurl, hdata, htmp, -⟩, hlen, hn, htot, -⟩ := (workInv_coded rfl hs).mp h
  exact (workInv_coded rfl hnext).mpr ⟨hv, ⟨hbl, hr, hurl, hdata, htmp, hwf⟩, hlen, hn, htot, fun _ => hw⟩

/-- From BLANK on: a bitmap that has the same bytes written may be stored. -/
theorem workInv_redrawn {out : Memory} {next : Phase} (h : s.WorkInv) (hs : 5 ≤ s.phase.toNat)
    (hnext : 4 ≤ next.toNat) (hwf : s.out.wf → out.wf) (hsome : ∀ a, (out.read a).isSome = (s.out.read a).isSome) :
    State.WorkInv { s with out := out, phase := next } := by
  obtain ⟨-, ⟨-, -, -, -, -, hout⟩, -, -, -, hw⟩ := (workInv_coded rfl (by omega)).mp h
  exact workInv_bitmap h (by omega) hnext (hwf hout) fun a ha => (hsome a).trans (hw hs a ha)

theorem doMxinit_workInv (h : s.WorkInv) (ht : doMxinit s = .ok t) : t.WorkInv := by
  obtain ⟨hp, -, rfl⟩ := doMxinit_ok.mp ht
  have h4 : 4 ≤ s.phase.toNat := by rw [hp]; decide
  obtain ⟨-, -, -, hout⟩ := h.bounds.memories
  have himg := img_le (h.versioned (by omega)).2
  refine workInv_withResult.mpr (workInv_bitmap h h4 (by decide) (Memory.writeRun_wf _ hout ?_) fun a ha => ?_)
  · simp only [List.length_replicate, Config.indexBound, Config.outMin] at himg ⊢
    omega
  · rw [Memory.read_writeRun, if_pos (by simpa using ha)]
    simpa using ha

theorem plotStep_workInv {need next : Phase} {plots : List Plot} {n : Nat} (hneed : 5 ≤ need.toNat)
    (hnext : 5 ≤ next.toNat) (h : s.WorkInv) (ht : plotStep need next plots n s = .ok t) : t.WorkInv := by
  obtain ⟨rfl, -, out, hplot, rfl⟩ := plotStep_ok.mp ht
  exact workInv_withResult.mpr (workInv_redrawn h hneed (by omega) (plotAll_wf hplot) (plotAll_isSome hplot))

theorem doMxdata_workInv (h : s.WorkInv) (ht : doMxdata s = .ok t) : t.WorkInv := by
  obtain ⟨hp, -, -, -, _, -, out, hplot, rfl⟩ := doMxdata_ok.mp ht
  have h5 : 5 ≤ s.phase.toNat := by rw [hp]; decide
  exact workInv_withResult.mpr (workInv_redrawn h h5 (by decide) (plotAll_wf hplot) (plotAll_isSome hplot))

theorem doMask_workInv (h : s.WorkInv) (ht : doMask s = .ok t) : t.WorkInv := by
  obtain ⟨hp, -, out, hflip, rfl⟩ := doMask_ok.mp ht
  have h5 : 5 ≤ s.phase.toNat := by rw [hp]; decide
  exact workInv_withResult.mpr (workInv_redrawn h h5 (by decide) (flipAll_wf hflip) (flipAll_isSome hflip))

/-! ### GENERATE -/

theorem doSegments_keeps_workInv (h : s.WorkInv) : (doSegments s).Keeps State.WorkInv := by
  unfold doSegments
  split
  · exact keeps_bind ((doPkbin_raises _ _).keeps h fun _ => doPkbin_workInv h) fun u hu =>
      (doPknum_raises _ _).keeps hu fun _ => doPknum_workInv hu
  · exact (doPkbin_raises _ _).keeps h fun _ => doPkbin_workInv h

theorem plotStep_keeps_workInv {need next : Phase} {plots : List Plot} {n : Nat} (hneed : 5 ≤ need.toNat)
    (hnext : 5 ≤ next.toNat) (h : s.WorkInv) : (plotStep need next plots n s).Keeps State.WorkInv :=
  (plotStep_raises _ _ _ _ _).keeps h fun _ => plotStep_workInv hneed hnext h

theorem doMatrix_keeps_workInv (h : s.WorkInv) : (doMatrix s).Keeps State.WorkInv := by
  refine keeps_bind ((doMxinit_raises _).keeps h fun _ => doMxinit_workInv h) fun s h => ?_
  refine keeps_bind (plotStep_keeps_workInv (by decide) (by decide) h) fun s h => ?_
  refine keeps_bind (plotStep_keeps_workInv (by decide) (by decide) h) fun s h => ?_
  refine keeps_bind (plotStep_keeps_workInv (by decide) (by decide) h) fun s h => ?_
  refine keeps_bind (plotStep_keeps_workInv (by decide) (by decide) h) fun s h => ?_
  refine keeps_bind ((doMxdata_raises _).keeps h fun _ => doMxdata_workInv h) fun s h => ?_
  refine keeps_bind (plotStep_keeps_workInv (by decide) (by decide) h) fun s h => ?_
  exact plotStep_keeps_workInv (by decide) (by decide) h

theorem doPipeline_keeps_workInv (h : s.WorkInv) : (doPipeline s).Keeps State.WorkInv := by
  refine keeps_bind ((doVsel_raises _).keeps h fun _ => doVsel_workInv h) fun s h => ?_
  refine keeps_bind ((doPkinit_raises _).keeps h fun _ => doPkinit_workInv h) fun s h => ?_
  refine keeps_bind (doSegments_keeps_workInv h) fun s h => ?_
  refine keeps_bind ((doPkterm_raises _).keeps h fun _ => doPkterm_workInv h) fun s h => ?_
  refine keeps_bind ((doRsall_raises _).keeps h fun _ => doRsall_workInv h) fun s h => ?_
  refine keeps_bind (doMatrix_keeps_workInv h) fun s h => ?_
  exact (doMask_raises _).keeps h fun _ => doMask_workInv h

theorem doGenerate_keeps_workInv (h : s.WorkInv) : (doGenerate s).Keeps State.WorkInv := by
  unfold doGenerate
  refine keeps_require h ?_
  refine keeps_require h ?_
  refine keeps_require h ?_
  exact keeps_bind (doPipeline_keeps_workInv h) fun u hu => keeps_ok (workInv_withResult.mpr hu)

/-! ### Every command -/

theorem workInv_clearFault (h : s.WorkInv) : s.clearFault.WorkInv :=
  (workInv_idle rfl).mpr ⟨rfl, Nat.zero_le _, Nat.zero_le _, h.bounds.memories⟩

theorem doClear_workInv (h : s.WorkInv) (ht : doClear s = .ok t) : t.WorkInv := by
  rw [doClear_ok.mp ht]
  split
  · exact h
  · exact workInv_clearFault h

theorem body_keeps_workInv (i : Instr) (h : s.WorkInv) : (body i s).Keeps State.WorkInv := by
  cases i with
  | clear => exact (doClear_raises _).keeps h fun _ => doClear_workInv h
  | generate => exact doGenerate_keeps_workInv h
  | maxsz _ | gfmul _ _ | gfexp _ => exact keeps_ok (workInv_withResult.mpr h)
  | gfdiv _ _ | gfinv _ | gflog _ => exact (domainResult_raises _ _).keeps h fun _ => domainResult_workInv h
  | vset _ => exact (doVset_raises _ _).keeps h fun _ => doVset_workInv h
  | vsel => exact (doVsel_raises _).keeps h fun _ => doVsel_workInv h
  | vcap _ | vpar _ => exact keeps_require h (keeps_ok (workInv_withResult.mpr h))
  | pkinit => exact (doPkinit_raises _).keeps h fun _ => doPkinit_workInv h
  | pkbin _ => exact (doPkbin_raises _ _).keeps h fun _ => doPkbin_workInv h
  | pknum _ => exact (doPknum_raises _ _).keeps h fun _ => doPknum_workInv h
  | pkterm => exact (doPkterm_raises _).keeps h fun _ => doPkterm_workInv h
  | rsclr => exact keeps_require h (keeps_ok (workInv_setRem.mpr h))
  | rsfeed _ => exact keeps_require h (keeps_ok (workInv_withResult.mpr (workInv_setRem.mpr h)))
  | rsblk _ => exact (doRsblk_raises _ _).keeps h fun _ => doRsblk_workInv h
  | rsall => exact (doRsall_raises _).keeps h fun _ => doRsall_workInv h
  | mxinit => exact (doMxinit_raises _).keeps h fun _ => doMxinit_workInv h
  | mxfind | mxtime | mxalign | mxrsvd | mxfmt | mxver =>
    exact plotStep_keeps_workInv (by decide) (by decide) h
  | mxdata => exact (doMxdata_raises _).keeps h fun _ => doMxdata_workInv h
  | ilvrd _ =>
    refine (doIlvrd_raises _ _).keeps h fun t ht => ?_
    obtain ⟨-, -, -, x, -, rfl⟩ := doIlvrd_ok.mp ht
    exact workInv_withResult.mpr h
  | cellclass _ _ => exact keeps_require h (keeps_require h (keeps_ok (workInv_withResult.mpr h)))
  | mask => exact (doMask_raises _).keeps h fun _ => doMask_workInv h

/-! ### Every step -/

/-- The host's own write of a memory byte: no phase forbids it, and no byte loses its value (R326). -/
theorem workInv_memoryByte {sp : Space} {a : Nat} {b : Byte} (h : s.WorkInv) (ha : a < Config.indexBound) :
    (s.setMem sp ((s.mem sp).write a b)).WorkInv := by
  obtain ⟨hv, hb, hr, ⟨hurl, hdata, htmp, hout⟩, hpacking, hpacked, hcoded, hblank⟩ := h
  have mono : ∀ {m : Memory} {n : Nat}, m.written n → (m.write a b).written n := fun hw k hk => by
    rw [Memory.read_write]
    split
    · rfl
    · exact hw k hk
  cases sp with
  | url => exact ⟨hv, hb, hr, ⟨Memory.write_wf b hurl ha, hdata, htmp, hout⟩, hpacking, hpacked, hcoded, hblank⟩
  | data => exact ⟨hv, hb, hr, ⟨hurl, Memory.write_wf b hdata ha, htmp, hout⟩, hpacking, hpacked, hcoded, hblank⟩
  | tmp =>
    exact ⟨hv, hb, hr, ⟨hurl, hdata, Memory.write_wf b htmp ha, hout⟩, fun hp => mono (hpacking hp),
      fun hp => mono (hpacked hp), fun hp => mono (hcoded hp), hblank⟩
  | out =>
    exact ⟨hv, hb, hr, ⟨hurl, hdata, htmp, Memory.write_wf b hout ha⟩, hpacking, hpacked, hcoded,
      fun hp => mono (hblank hp)⟩

theorem workInv_reset : State.reset.WorkInv :=
  (workInv_idle rfl).mpr ⟨rfl, Nat.zero_le _, Nat.zero_le _,
    Memory.wf_nil, Memory.wf_nil, Memory.wf_nil, Memory.wf_nil⟩

theorem step_workInv (h : s.WorkInv) (ht : step s = .next t) : t.WorkInv := by
  cases step_effect ht with
  | hostFields => exact h
  | memoryByte rest sp a b ha => exact workInv_memoryByte (s := { s with host := rest }) h ha
  | reset rest => exact workInv_reset
  | illegalWord rest w => exact h
  | command rest w i t _ _ hexec =>
    exact exec_next_of_keeps (body_keeps_workInv i (by exact h)) (fun _ _ hu => hu) hexec

end Sys2Proof.Machine
end

