-- ==== Proofs/ExecFrame.lean ====
section
/-! SUPPORT. What a command's next state has in common with the state before it (spec/60_exceptions.md R295, R298). -/

namespace Sys2Proof.Machine

variable {s t : State} {i : Instr}

/-! ### The two ways in which a command leads to a next state -/

/-- A next state of a command keeps what `SameHost` names, or is what CLEAR leaves, or comes of a fault taken in a state
that keeps it (R276, R295, R296). -/
theorem exec_next_cases (h : exec i s = .next t) :
    (i ≠ .clear ∧ SameHost s t) ∨ (i = .clear ∧ t = if s.fatal then s else s.clearFault) ∨
      ∃ u c, SameHost s u ∧ t = u.takeFault c := by
  rw [exec_eq_finish] at h
  rcases finish_next.mp h with ht | ⟨c, u, hu, rfl⟩
  · by_cases hi : i = .clear
    · subst hi
      exact .inr (.inl ⟨rfl, doClear_ok.mp ht⟩)
    · exact .inl ⟨hi, body_sameHost hi ht⟩
  · exact .inr (.inr ⟨u, c, (body_raise hu).1, rfl⟩)

/-- The part of the state that no command writes: what the host alone writes, and the model's own fields. -/
def KeepsHostState (s t : State) : Prop :=
  t.cmd = s.cmd ∧ t.up = s.up ∧ t.urlLen = s.urlLen ∧ t.dataLen = s.dataLen ∧ t.outSize = s.outSize ∧
    t.tmpSize = s.tmpSize ∧ t.url = s.url ∧ t.data = s.data ∧ t.host = s.host ∧ t.hostRead = s.hostRead ∧
    t.resets = s.resets

theorem SameHost.keepsHostState (h : SameHost s t) : KeepsHostState s t :=
  ⟨h.cmd, h.up, h.urlLen, h.dataLen, h.outSize, h.tmpSize, h.url, h.data, h.host, h.hostRead, h.resets⟩

/-- Taking a fault writes only the fault state and RESULT (R296). -/
theorem keepsHostState_takeFault {c : FaultCode} : KeepsHostState s (t.takeFault c) ↔ KeepsHostState s t := Iff.rfl

theorem keepsHostState_clearFault : KeepsHostState s (t.clearFault) ↔ KeepsHostState s t := Iff.rfl

theorem exec_keepsHostState (h : exec i s = .next t) : KeepsHostState s t := by
  rcases exec_next_cases h with ⟨-, hk⟩ | ⟨-, rfl⟩ | ⟨u, c, hk, rfl⟩
  · exact hk.keepsHostState
  · have hs := (SameHost.refl s).keepsHostState
    split
    · exact hs
    · exact keepsHostState_clearFault.mpr hs
  · exact keepsHostState_takeFault.mpr hk.keepsHostState

/-- Only CLEAR drops ERR (R298). -/
theorem exec_err_sticky (h : exec i s = .next t) (hi : i ≠ .clear) (he : s.err = true) : t.err = true := by
  rcases exec_next_cases h with ⟨-, hk⟩ | ⟨hc, -⟩ | ⟨u, c, -, rfl⟩
  · exact hk.err.trans he
  · exact absurd hc hi
  · exact State.takeFault_err u c

/-- No command drops FATAL (R276, R298). -/
theorem exec_fatal_sticky (h : exec i s = .next t) (hf : s.fatal = true) : t.fatal = true := by
  rcases exec_next_cases h with ⟨-, hk⟩ | ⟨-, rfl⟩ | ⟨u, c, hk, rfl⟩
  · exact hk.fatal.trans hf
  · rw [if_pos hf]
    exact hf
  · rw [State.takeFault_fatal, hk.fatal, hf, Bool.true_or]

end Sys2Proof.Machine
end

