-- ==== Proofs/StatusFields.lean ====
section
/-! SUPPORT. STATUS: the tie between its fields, which every step keeps, and the bits of its word (spec/10_state.md R26). -/

namespace Sys2Proof.Machine

variable {s t : State} {i : Instr}

/-! ### The fields of STATUS -/

/-- No fault has code 0 (R292). -/
theorem errCodeNat_eq_zero {c : Option FaultCode} : errCodeNat c = 0 ↔ c = none := by
  rcases c with _ | c
  · decide
  · cases c <;> decide

theorem statusInv_of_noFault (he : s.err = false) (hc : s.errCode = none) (hf : s.fatal = false) : s.StatusInv := by
  refine ⟨?_, ?_, ?_⟩ <;> simp [he, hc, hf]

theorem statusInv_takeFault {c : FaultCode} (hf : s.fatal = false) : (s.takeFault c).StatusInv := by
  refine ⟨?_, ?_, ?_⟩ <;> simp [hf]

theorem SameHost.statusInv (hk : SameHost s t) (he : s.err = false) (h : s.StatusInv) : t.StatusInv := by
  obtain ⟨herr, hfatal, -⟩ := h
  refine ⟨?_, ?_, ?_⟩
  · rw [hk.err, hk.errCode, herr]
  · rw [hk.fatal, hk.errCode, hfatal]
  · rw [hk.err, he]
    exact fun e => nomatch e

/-- A command that starts with no fault held, or CLEAR with FATAL = 0, keeps the tie between the fields. -/
theorem exec_statusInv (he : i ≠ .clear → s.err = false) (hf : s.fatal = false) (h : s.StatusInv)
    (ht : exec i s = .next t) : t.StatusInv := by
  rcases exec_next_cases ht with ⟨hi, hk⟩ | ⟨-, rfl⟩ | ⟨u, c, hk, rfl⟩
  · exact hk.statusInv (he hi) h
  · rw [if_neg (by simp [hf])]
    exact statusInv_of_noFault rfl rfl hf
  · exact statusInv_takeFault (hk.fatal.trans hf)

theorem step_statusInv (h : s.StatusInv) (ht : step s = .next t) : t.StatusInv := by
  cases step_effect ht with
  | hostFields => exact h
  | memoryByte rest sp a b => cases sp <;> exact h
  | reset rest => exact statusInv_of_noFault rfl rfl rfl
  | illegalWord rest w _ hf => exact statusInv_takeFault hf
  | command rest w i t he hf hexec => exact exec_statusInv (s := { s with host := rest }.latchCmd w) he hf h hexec

/-! ### STATUS as a word -/

/-- The bits of STATUS, field by field from the lowest (R26). -/
theorem statusWord_getLsbD (s : State) (n : Nat) : s.statusWord.getLsbD n =
    if n < 1 then (BitVec.ofBool s.err).getLsbD n
    else if n - 1 < 1 then (BitVec.ofBool s.fatal).getLsbD (n - 1)
    else if n - 1 - 1 < 2 then (0#2).getLsbD (n - 1 - 1)
    else if n - 1 - 1 - 2 < 4 then (BitVec.ofNat 4 (errCodeNat s.errCode)).getLsbD (n - 1 - 1 - 2)
    else if n - 1 - 1 - 2 - 4 < 4 then (BitVec.ofNat 4 s.phase.toNat).getLsbD (n - 1 - 1 - 2 - 4)
    else (0#20).getLsbD (n - 1 - 1 - 2 - 4 - 4) := by
  simp only [State.statusWord, BitVec.getLsbD_append]

theorem statusWord_err (s : State) : s.statusWord.getLsbD 0 = s.err := by
  rw [statusWord_getLsbD]
  simp

theorem statusWord_fatal (s : State) : s.statusWord.getLsbD 1 = s.fatal := by
  rw [statusWord_getLsbD]
  simp

theorem statusWord_reserved (s : State) : s.statusWord.getLsbD 2 = false ∧ s.statusWord.getLsbD 3 = false := by
  rw [statusWord_getLsbD, statusWord_getLsbD]
  simp

theorem errCodeNat_lt (c : Option FaultCode) : errCodeNat c < 2 ^ 4 := by
  rcases c with _ | c
  · decide
  · cases c <;> decide

theorem statusWord_errCode (s : State) : (s.statusWord.extractLsb' 4 4).toNat = errCodeNat s.errCode := by
  have hfield : s.statusWord.extractLsb' 4 4 = BitVec.ofNat 4 (errCodeNat s.errCode) := by
    refine BitVec.eq_of_getLsbD_eq fun i hi => ?_
    rw [BitVec.getLsbD_extractLsb', statusWord_getLsbD]
    iterate 3 rw [if_neg (by omega)]
    rw [if_pos (by omega), decide_eq_true hi, Bool.true_and, show 4 + i - 1 - 1 - 2 = i by omega]
  rw [hfield, BitVec.toNat_ofNat, Nat.mod_eq_of_lt (errCodeNat_lt _)]

theorem statusWord_phase (s : State) : (s.statusWord.extractLsb' 8 4).toNat = s.phase.toNat := by
  have hfield : s.statusWord.extractLsb' 8 4 = BitVec.ofNat 4 s.phase.toNat := by
    refine BitVec.eq_of_getLsbD_eq fun i hi => ?_
    rw [BitVec.getLsbD_extractLsb', statusWord_getLsbD]
    iterate 4 rw [if_neg (by omega)]
    rw [if_pos (by omega), decide_eq_true hi, Bool.true_and, show 8 + i - 1 - 1 - 2 - 4 = i by omega]
  have hlt : s.phase.toNat < 2 ^ 4 := Nat.lt_of_le_of_lt s.phase.toNat_le (by decide)
  rw [hfield, BitVec.toNat_ofNat, Nat.mod_eq_of_lt hlt]

theorem statusWord_high (s : State) : s.statusWord.extractLsb' 12 20 = 0 := by
  refine BitVec.eq_of_getLsbD_eq fun i hi => ?_
  rw [BitVec.getLsbD_extractLsb', statusWord_getLsbD]
  iterate 5 rw [if_neg (by omega)]
  simp

end Sys2Proof.Machine
end

