-- ==== Proofs/RegisterAccesses.lean ====
section
/-! SUPPORT. The register window read and written, after reset and by a step (spec/10_state.md R21 to R34, R46, R47). -/

namespace Sys2Proof.Machine

variable {s : State} {rest : List HostAction} {n : Nat} {w : Word}

/-! ### The reads -/

theorem State.readReg_rem (s : State) (i : Fin 30) : s.readReg (16 + i) = some (s.rem[i].setWidth 32) := by
  have hi : (i : Nat) < Config.maxEc := i.isLt
  rw [State.readReg_of_ge s (by omega), if_pos (by omega), Nat.add_sub_cancel_left, remAt_eq hi]
  rfl

theorem State.readReg_reserved (s : State) (hn : (11 ≤ n ∧ n ≤ 15) ∨ (46 ≤ n ∧ n ≤ 63)) : s.readReg n = some 0 := by
  have hslot : n < Config.regSlots := by simp only [Config.regSlots]; omega
  rw [State.readReg_of_ge s (by omega), if_neg (by omega), if_pos hslot]

/-- Every register reads 0 when every field behind the window is 0 (R46). -/
theorem State.readReg_reset (hn : n < 64) : State.reset.readReg n = some 0 := by
  by_cases hlow : n < 11
  · rw [State.readReg_low _ hlow]
    interval_cases n <;> rfl
  · rw [State.readReg_of_ge _ (by omega), if_pos (show n < Config.regSlots from hn)]
    have hrem : State.reset.rem = remZero := rfl
    rw [hrem, remAt_remZero]
    split <;> rfl

/-- The reset input leaves the registers as power-on does (R320). -/
theorem State.readReg_hardReset (s : State) (n : Nat) : (hardReset s).readReg n = State.reset.readReg n := rfl

/-- After the reset input no byte of any space has a known value (R321). -/
theorem read_reset (sp : Space) (a : Nat) : (State.reset.mem sp).read a = none := by
  cases sp <;> rfl

theorem mem_hardReset (s : State) (sp : Space) : (hardReset s).mem sp = State.reset.mem sp := by
  cases sp <;> rfl

/-! ### The accesses -/

theorem step_readReg (hn : n < 64) (h : s.host = .readReg n :: rest) :
    ∃ x, s.readReg n = some x ∧ step s = .next { s with host := rest, hostRead := x } := by
  obtain ⟨x, hx⟩ := s.readReg_lt hn
  have hx' : State.readReg { s with host := rest } n = some x := hx
  exact ⟨x, hx, by rw [step_of_host h, hostAct, hostReadReg, hx']⟩

theorem step_writeReg (h0 : n ≠ 0) (hn : n < 64) (h : s.host = .writeReg n w :: rest) :
    step s = .next (State.writeReg { s with host := rest } n w) := by
  rw [step_of_host h, hostAct, hostWriteReg, if_neg h0, if_pos (show n < Config.regSlots from hn)]

theorem step_hardReset (h : s.host = .hardReset :: rest) : step s = .next (hardReset { s with host := rest }) :=
  step_of_host h

/-- A word that decodes to a command runs it when no fault is held (R80). -/
theorem step_writeCmd {i : Instr} (he : s.err = false) (hf : s.fatal = false) (hd : decode w = .ok i)
    (h : s.host = .writeReg 0 w :: rest) : step s = exec i { s with host := rest, cmd := w } := by
  have hl : ¬ State.lockedOut { s with host := rest } = true := by simp [State.lockedOut, he, hf]
  rw [step_of_host h, hostAct, hostWriteReg, if_pos rfl, writeCmd, if_neg hl, hd]
  rfl

/-! ### GENERATE before the host has declared its buffers -/

theorem exec_generate_small_out (h : s.outSize.toNat < Config.outMin) :
    exec .generate s = .next (s.takeFault .bufferTooSmall) := by
  rw [exec_eq_finish, body, doGenerate, require_false _ _ (Nat.not_le.mpr h), error_bind, finish_raise]

end Sys2Proof.Machine
end

