-- ==== Proofs/StateFamily.lean ====
section
/-! PROOF. Statements O8, O9, O11, O12, O17, O19 and O20 of the family 10_state. -/

namespace Sys2Proof.Machine

/-- Settles O9: the bits come from the word's concatenation; the tie between the fields is read off `StatusInv`; and each
effect of a step keeps it. -/
theorem statusRegister : Obligations.StatusRegister := by
  refine ⟨fun s => ⟨rfl, statusWord_err s, statusWord_fatal s, (statusWord_reserved s).1, (statusWord_reserved s).2,
    statusWord_errCode s, statusWord_phase s, statusWord_high s⟩, ?meaning, fun s t => step_statusInv⟩
  case meaning =>
    rintro s ⟨herr, hfatal, hresult⟩
    refine ⟨?_, fun hf => ?_, hresult⟩
    · rw [errCodeNat_eq_zero, herr, Option.isSome_eq_false_iff, Option.isNone_iff_eq_none]
    · have hcode : s.errCode = some .internal := by rw [hf] at hfatal; exact beq_iff_eq.mp hfatal.symm
      rw [herr, hcode]
      exact ⟨rfl, rfl⟩

/-- Settles O17: a body leaves the host's state alone, taking a fault and CLEAR write none of it, and the flags are sticky
one by one. -/
theorem commandsKeepTheHostsState : Obligations.CommandsKeepTheHostsState := by
  intro i s t h
  obtain ⟨hcmd, hup, hurlLen, hdataLen, hout, htmp, hurl, hdata, hhost, hread, hresets⟩ := exec_keepsHostState h
  exact ⟨hcmd, hup, hurlLen, hdataLen, hout, htmp, hurl, hdata, hhost, hread, hresets, exec_err_sticky h,
    exec_fatal_sticky h⟩

/-- Settles O19: STATUS is kept by every effect of a step, the rest of the invariant by every effect and by every body. -/
theorem everyStepKeepsTheInvariant : Obligations.EveryStepKeepsTheInvariant := by
  intro s t h hstep
  obtain ⟨hstatus, hwork⟩ := State.inv_iff.mp h
  exact State.inv_iff.mpr ⟨step_statusInv hstatus hstep, step_workInv hwork hstep⟩

/-- Settles O20: in IDLE the invariant asks for VERSION = 0, bounded registers and canonical memories. -/
theorem resetMeetsTheInvariant : Obligations.ResetMeetsTheInvariant :=
  State.inv_iff.mpr ⟨statusInv_of_noFault rfl rfl rfl, workInv_reset⟩

/-- Settles O8: each number is read by its range of the window, and a write stores what `State.writeReg` says. -/
theorem registerWindow : Obligations.RegisterWindow := by
  intro s rest n w
  refine ⟨⟨rfl, rfl, rfl, rfl, rfl, rfl, rfl, rfl, rfl, rfl, s.readReg_rem, s.readReg_reserved⟩,
    fun h hn => step_readReg hn h, fun h => ⟨?_, ?_, ?_, ?_, ?_, fun hn => ?ignored⟩⟩
  case ignored => rw [step_writeReg (by omega) (by omega) h, State.writeReg_ignored _ w (by omega)]
  all_goals
    rintro rfl
    exact step_writeReg (by decide) (by decide) h

/-- Settles O11: the reset input leaves the registers and memories of power-on, in which every register reads 0. -/
theorem resetRegistersAreZero : Obligations.ResetRegistersAreZero := by
  refine ⟨fun n => State.readReg_reset, read_reset, fun s rest h => ⟨_, step_hardReset h, ?_, ?_, rfl⟩⟩
  · intro n hn
    rw [State.readReg_hardReset, State.readReg_reset hn]
  · intro sp a
    rw [mem_hardReset, read_reset]

/-- Settles O12: the word decodes to GENERATE, whose first check fails with OUT_SIZE = 0. -/
theorem generateAtResetFaults : Obligations.GenerateAtResetFaults := by
  have hd : decode 0x02#32 = .ok .generate := by decide
  exact (step_writeCmd rfl rfl hd rfl).trans (exec_generate_small_out (by decide))

end Sys2Proof.Machine
end

