-- ==== Proofs/BlockTiling.lean ====
section
/-! PROOF. Statement O29 of the family 20_memory: the block slices tile the data area and the ECC area of TMP
(spec/20_memory.md R55, R56). -/

namespace Sys2Proof.Machine

/-- Slices that follow one another without a gap hold each byte between their ends exactly once. -/
theorem existsUnique_slice {off len : Nat → Nat} (hsucc : ∀ b, off (b + 1) = off b + len b) {n a : Nat}
    (h0 : off 0 ≤ a) (hn : a < off n) : ∃! b, b < n ∧ off b ≤ a ∧ a < off b + len b := by
  have hmono : Monotone off := monotone_nat_of_le_succ fun b => by rw [hsucc]; exact Nat.le_add_right _ _
  have hex : ∃ b, b < n ∧ off b ≤ a ∧ a < off b + len b := by
    induction n with
    | zero => omega
    | succ n ih =>
      by_cases hlast : off n ≤ a
      · exact ⟨n, n.lt_succ_self, hlast, hsucc n ▸ hn⟩
      · obtain ⟨b, hb, hin⟩ := ih (by omega)
        exact ⟨b, by omega, hin⟩
  have before : ∀ {b c}, off b ≤ a → a < off c + len c → b ≤ c := fun {b c} hb hc => by
    by_contra hlt
    have := hmono (by omega : c + 1 ≤ b)
    rw [hsucc] at this
    omega
  obtain ⟨b, hb, hlo, hhi⟩ := hex
  exact ⟨b, ⟨hb, hlo, hhi⟩, fun c ⟨_, hclo, hchi⟩ => Nat.le_antisymm (before hclo hhi) (before hlo hchi)⟩

theorem blkOff_zero (v : Nat) : blkOff v 0 = 0 := by
  unfold blkOff
  split
  · exact Nat.zero_mul _
  · next h0 =>
    have hnone : (cat v).g1b = 0 := by omega
    simp [hnone]

theorem blkOff_nblk (v : Nat) : blkOff v (nblk v) = cap v := by
  rw [blkOff, if_neg (by simp [nblk]), nblk, Nat.add_sub_cancel_left, cap]

theorem eccOff_zero (v : Nat) : eccOff v 0 = cap v := rfl

theorem eccOff_nblk (v : Nat) : eccOff v (nblk v) = tot v := rfl

theorem eccOff_succ (v b : Nat) : eccOff v (b + 1) = eccOff v b + (cat v).k := by
  rw [eccOff, Nat.mul_succ, ← Nat.add_assoc, eccOff]

/-- Settles O29: the slices of each area follow one another without a gap from its first byte to its last. -/
theorem blocksTileTheAreas : Obligations.BlocksTileTheAreas := by
  refine fun v _ _ => ⟨blkOff_zero v, blkOff_nblk v, blkOff_succ v, fun a ha => ?data, fun a hcap htot => ?ecc⟩
  case data => exact existsUnique_slice (blkOff_succ v) (by simp [blkOff_zero]) (by rwa [blkOff_nblk])
  case ecc => exact existsUnique_slice (eccOff_succ v) (by rwa [eccOff_zero]) (by rwa [eccOff_nblk])

end Sys2Proof.Machine
end

