-- ==== Proofs/WorkingAreas.lean ====
section
/-! SUPPORT. What a command that keeps the version may write: TMP below tot(v) (spec/20_memory.md R55), OUT below img(v),
and of the bitmap's rows no padding bit but by MXINIT (R60). -/

namespace Sys2Proof.Machine

variable {s t u : State}

/-- While segments are packed, the bit cursor has not passed the data area (R30). -/
def State.CursorFits (s : State) : Prop :=
  s.phase = .packing → s.bitLen.toNat ≤ 8 * cap s.v

theorem State.BitLenInv.cursorFits (h : s.BitLenInv) : s.CursorFits := fun hp =>
  let ⟨_, hcap, _⟩ := h
  hcap (by rw [hp]; decide)

theorem cursorFits_of_phase (hp : s.phase ≠ .packing) : s.CursorFits := fun h => absurd h hp

/-- The version stays, and OUT from img(v) on; and when the bit cursor fits, it still does, and TMP stays from tot(v) on. -/
structure WritesWithin (s t : State) : Prop where
  version : t.v = s.v
  cursor : s.CursorFits → t.CursorFits
  tmp : s.CursorFits → ∀ a, tot s.v ≤ a → t.tmp.read a = s.tmp.read a
  out : ∀ a, img s.v ≤ a → t.out.read a = s.out.read a

/-- The padding bits of the bitmap's rows stay too. -/
structure DrawsWithin (s t : State) : Prop extends WritesWithin s t where
  padding : ∀ r c, width s.v ≤ c → c < 8 * stride s.v →
    moduleAt t.out (stride s.v) r c = moduleAt s.out (stride s.v) r c

/-! ### Work on the registers and on TMP -/

theorem drawsWithin_of_tmp (hv : t.v = s.v) (hcursor : s.CursorFits → t.CursorFits) (hout : t.out = s.out)
    (htmp : s.CursorFits → ∀ a, tot s.v ≤ a → t.tmp.read a = s.tmp.read a) : DrawsWithin s t :=
  ⟨⟨hv, hcursor, htmp, fun _ _ => by rw [hout]⟩, fun _ _ _ _ => by rw [hout]⟩

theorem drawsWithin_of_registers (hv : t.v = s.v) (hcursor : s.CursorFits → t.CursorFits) (htmp : t.tmp = s.tmp)
    (hout : t.out = s.out) : DrawsWithin s t :=
  drawsWithin_of_tmp hv hcursor hout fun _ _ _ => by rw [htmp]

theorem drawsWithin_withResult (s : State) (n : Nat) : DrawsWithin s (s.withResult n) :=
  drawsWithin_of_registers rfl id rfl rfl

theorem drawsWithin_setRem (s : State) (rem : Vector Byte Config.maxEc) (x : Word) :
    DrawsWithin s { s with rem := rem, result := x } :=
  drawsWithin_of_registers rfl id rfl rfl

theorem domainResult_drawsWithin {r : Option Nat} (h : domainResult r s = .ok t) : DrawsWithin s t := by
  obtain ⟨n, -, rfl⟩ := domainResult_ok.mp h
  exact drawsWithin_withResult s n

theorem doPkinit_drawsWithin (h : doPkinit s = .ok t) : DrawsWithin s t := by
  obtain ⟨-, -, rfl⟩ := doPkinit_ok.mp h
  exact drawsWithin_of_registers rfl (fun _ _ => Nat.zero_le _) rfl rfl

/-- A push that ends within the data area writes no byte from tot(v) on. -/
theorem pushBits_read_beyond {bits : List Bool} {bs : BitStream} (hpush : pushBits s.stream bits = .ok bs)
    (hfit : s.bitLen.toNat + bits.length ≤ 8 * cap s.v) {a : Nat} (ha : tot s.v ≤ a) :
    bs.tmp.read a = s.tmp.read a := by
  have hcap := cap_le_tot s.v
  exact pushBits_read_other hpush (.inr (by simp only [State.stream]; omega))

theorem withStream_drawsWithin {bits : List Bool} {bs : BitStream} (hpush : pushBits s.stream bits = .ok bs)
    (hfit : s.bitLen.toNat + bits.length ≤ 8 * cap s.v) : DrawsWithin s (s.withStream bs) := by
  refine drawsWithin_of_tmp rfl (fun _ _ => ?_) rfl fun _ a ha => pushBits_read_beyond hpush hfit ha
  calc (BitVec.ofNat 32 bs.pos).toNat ≤ bs.pos := by rw [BitVec.toNat_ofNat]; exact Nat.mod_le _ _
    _ = s.bitLen.toNat + bits.length := pushBits_pos hpush
    _ ≤ 8 * cap s.v := hfit

theorem doPkbin_drawsWithin {src : Byte} (h : doPkbin src s = .ok t) : DrawsWithin s t := by
  obtain ⟨-, -, -, hfit, bytes, hbytes, bs, hpush, rfl⟩ := doPkbin_ok.mp h
  exact withStream_drawsWithin hpush (by rwa [segmentBits_sourceBytes_length _ hbytes])

theorem doPknum_drawsWithin {src : Byte} (h : doPknum src s = .ok t) : DrawsWithin s t := by
  obtain ⟨-, -, -, hfit, bytes, hbytes, -, bs, hpush, rfl⟩ := doPknum_ok.mp h
  exact withStream_drawsWithin hpush (by rwa [segmentBits_sourceBytes_length _ hbytes])

/-- PKTERM fills the data area exactly, from a cursor that has not passed it (R164). -/
theorem doPkterm_drawsWithin (h : doPkterm s = .ok t) : DrawsWithin s t := by
  obtain ⟨hp, -, bs, hpush, rfl⟩ := doPkterm_ok.mp h
  refine drawsWithin_of_tmp rfl (fun _ => cursorFits_of_phase nofun) rfl fun hfits a ha => ?_
  exact pushBits_read_beyond hpush (termBits_length (hfits hp) (Nat.mul_mod_right 8 _)).le ha

theorem encodeBlock_read_beyond {v b : Nat} {tmp tmp' : Memory} {rem' : Vector Byte Config.maxEc}
    (h : encodeBlock v b tmp = .ok (rem', tmp')) (hb : b < nblk v) {a : Nat} (ha : tot v ≤ a) :
    tmp'.read a = tmp.read a := by
  have hend := eccOff_add_k_le hb
  rw [encodeBlock_read h, if_neg (by omega)]

theorem doRsblk_drawsWithin {b : Byte} (h : doRsblk b s = .ok t) : DrawsWithin s t := by
  obtain ⟨hp, hb, -, -, r, henc, rfl⟩ := doRsblk_ok.mp h
  refine drawsWithin_of_tmp rfl (fun _ => cursorFits_of_phase ?_) rfl fun _ a => encodeBlock_read_beyond henc hb
  simp only [State.withResult_phase]
  split <;> simp [hp]

theorem doRsall_drawsWithin (h : doRsall s = .ok t) : DrawsWithin s t := by
  obtain ⟨-, -, r, henc, rfl⟩ := doRsall_ok.mp h
  refine drawsWithin_of_tmp rfl (fun _ => cursorFits_of_phase nofun) rfl fun _ a ha => ?_
  refine encodeBlocks_read_other henc fun b hb => ?_
  rw [List.mem_range'_1] at hb
  have hend := eccOff_add_k_le (v := s.v) (b := b) (by omega)
  omega

/-! ### Work on OUT -/

/-- Modules inside the grid lie below img(v), and none is a padding bit. -/
theorem plotAll_drawsWithin {plots : List Plot} {out : Memory} {next : Phase} {n : Nat}
    (hplot : plotAll (stride s.v) s.out plots = .ok out)
    (hgrid : ∀ p ∈ plots, p.r < width s.v ∧ p.c < width s.v) (hnext : next ≠ .packing) :
    DrawsWithin s ({ s with out := out, phase := next }.withResult n) where
  version := rfl
  cursor _ := cursorFits_of_phase hnext
  tmp _ _ _ := rfl
  out a ha := plotAll_read_other hplot fun p hp he => by
    have := cell_index_lt (hgrid p hp).1 (hgrid p hp).2
    omega
  padding r c hc hc8 := plotAll_moduleAt_other hplot (fun p hp => cell_column_lt (hgrid p hp).2) hc8
    fun p hp he => by
      have := (hgrid p hp).2
      omega

theorem plotStep_drawsWithin {need next : Phase} {plots : List Plot} {n : Nat}
    (hgrid : ∀ p ∈ plots, p.r < width s.v ∧ p.c < width s.v) (hnext : next ≠ .packing)
    (h : plotStep need next plots n s = .ok t) : DrawsWithin s t := by
  obtain ⟨-, -, out, hplot, rfl⟩ := plotStep_ok.mp h
  exact plotAll_drawsWithin hplot hgrid hnext

theorem doMxfind_drawsWithin (h : doMxfind s = .ok t) : DrawsWithin s t :=
  plotStep_drawsWithin (fun _ => allFinderPlots_range) (by decide) h

theorem doMxtime_drawsWithin (h : doMxtime s = .ok t) : DrawsWithin s t :=
  plotStep_drawsWithin (fun _ => timingPlots_range) (by decide) h

theorem doMxalign_drawsWithin (h : doMxalign s = .ok t) : DrawsWithin s t :=
  plotStep_drawsWithin (fun _ => allAlignmentPlots_range) (by decide) h

theorem doMxrsvd_drawsWithin (h : doMxrsvd s = .ok t) : DrawsWithin s t :=
  plotStep_drawsWithin (fun _ => reservedPlots_range) (by decide) h

theorem doMxfmt_drawsWithin (h : doMxfmt s = .ok t) : DrawsWithin s t :=
  plotStep_drawsWithin (fun _ => formatPlots_range) (by decide) h

theorem doMxver_drawsWithin (h : doMxver s = .ok t) : DrawsWithin s t :=
  plotStep_drawsWithin (fun _ => versionPlots_range) (by decide) h

theorem dataPlots_range {v : Nat} {bytes : List Byte} {p : Plot} (h : p ∈ dataPlots (cellOrder v) bytes) :
    p.r < width v ∧ p.c < width v := by
  obtain ⟨⟨rc, b⟩, hz, rfl⟩ := List.mem_map.mp h
  exact (mem_cellOrder.mp (List.of_mem_zip hz).1).1

theorem doMxdata_drawsWithin (h : doMxdata s = .ok t) : DrawsWithin s t := by
  obtain ⟨-, -, -, -, bytes, -, out, hplot, rfl⟩ := doMxdata_ok.mp h
  exact plotAll_drawsWithin hplot (fun _ => dataPlots_range) nofun

/-- MASK inverts modules inside the grid. -/
theorem doMask_drawsWithin (h : doMask s = .ok t) : DrawsWithin s t := by
  obtain ⟨-, -, out, hflip, rfl⟩ := doMask_ok.mp h
  have hgrid : ∀ rc ∈ maskedCells s.v, rc.1 < width s.v ∧ rc.2 < width s.v := fun rc hrc =>
    (mem_maskedCells.mp hrc).1
  refine ⟨⟨rfl, fun _ => cursorFits_of_phase nofun, fun _ _ _ => rfl, fun a ha => ?_⟩, fun r c hc hc8 => ?_⟩
  · refine flipAll_read_other hflip fun rc hrc he => ?_
    have := cell_index_lt (hgrid rc hrc).1 (hgrid rc hrc).2
    omega
  · have hnot : (r, c) ∉ maskedCells s.v := fun hrc => absurd (hgrid _ hrc).2 (Nat.not_lt.mpr hc)
    have hmod := flipAll_moduleAt hflip (maskedCells_nodup _) (fun rc hrc => cell_column_lt (hgrid rc hrc).2)
      (r := r) hc8
    refine hmod.trans ?_
    simp [hnot]

/-- MXINIT clears the bytes below img(v), the padding bits among them (R214). -/
theorem doMxinit_writesWithin (h : doMxinit s = .ok t) : WritesWithin s t := by
  obtain ⟨-, -, rfl⟩ := doMxinit_ok.mp h
  refine ⟨rfl, fun _ => cursorFits_of_phase nofun, fun _ _ _ => rfl, fun a ha => ?_⟩
  rw [State.withResult_out, Memory.read_writeRun, if_neg (by simp; omega)]

/-! ### One command -/

/-- A command but MXINIT and GENERATE that completes leaves both memories as they were, or stays inside the version's
areas. -/
theorem body_unwritten_or_drawsWithin {i : Instr} (hinit : i ≠ .mxinit) (hgen : i ≠ .generate)
    (h : body i s = .ok t) : (t.phase ≠ .packing ∧ t.tmp = s.tmp ∧ t.out = s.out) ∨ DrawsWithin s t := by
  cases i with
  | mxinit => exact absurd rfl hinit
  | generate => exact absurd rfl hgen
  | clear =>
    rw [doClear_ok.mp h]
    split
    · exact .inr (drawsWithin_of_registers rfl id rfl rfl)
    · exact .inl ⟨nofun, rfl, rfl⟩
  | vset _ =>
    obtain ⟨-, rfl⟩ := doVset_ok.mp h
    exact .inl ⟨nofun, rfl, rfl⟩
  | vsel =>
    obtain ⟨v, -, rfl⟩ := doVsel_ok.mp h
    exact .inl ⟨nofun, rfl, rfl⟩
  | maxsz _ | gfmul _ _ | gfexp _ =>
    cases h
    exact .inr (drawsWithin_withResult s _)
  | gfdiv _ _ | gfinv _ | gflog _ => exact .inr (domainResult_drawsWithin h)
  | vcap _ =>
    obtain ⟨-, rfl⟩ := doVcap_ok.mp h
    exact .inr (drawsWithin_withResult s _)
  | vpar _ =>
    obtain ⟨-, rfl⟩ := doVpar_ok.mp h
    exact .inr (drawsWithin_withResult s _)
  | pkinit => exact .inr (doPkinit_drawsWithin h)
  | pkbin _ => exact .inr (doPkbin_drawsWithin h)
  | pknum _ => exact .inr (doPknum_drawsWithin h)
  | pkterm => exact .inr (doPkterm_drawsWithin h)
  | rsclr =>
    obtain ⟨-, rfl⟩ := doRsclr_ok.mp h
    exact .inr (drawsWithin_setRem s _ _)
  | rsfeed _ =>
    obtain ⟨-, rfl⟩ := doRsfeed_ok.mp h
    exact .inr (drawsWithin_setRem s _ _)
  | rsblk _ => exact .inr (doRsblk_drawsWithin h)
  | rsall => exact .inr (doRsall_drawsWithin h)
  | mxfind => exact .inr (doMxfind_drawsWithin h)
  | mxtime => exact .inr (doMxtime_drawsWithin h)
  | mxalign => exact .inr (doMxalign_drawsWithin h)
  | mxrsvd => exact .inr (doMxrsvd_drawsWithin h)
  | mxdata => exact .inr (doMxdata_drawsWithin h)
  | mxfmt => exact .inr (doMxfmt_drawsWithin h)
  | mxver => exact .inr (doMxver_drawsWithin h)
  | ilvrd _ =>
    obtain ⟨-, -, -, x, -, rfl⟩ := doIlvrd_ok.mp h
    exact .inr (drawsWithin_withResult s _)
  | cellclass _ _ =>
    obtain ⟨-, -, rfl⟩ := doCellclass_ok.mp h
    exact .inr (drawsWithin_withResult s _)
  | mask => exact .inr (doMask_drawsWithin h)

end Sys2Proof.Machine
end

