-- ==== Proofs/WritesStayBelow.lean ====
section
/-! PROOF. Statement O18 of the family 20_memory: from a state whose bit cursor fits, every command writes TMP below
tot(VERSION) and OUT below img(VERSION) only. -/

namespace Sys2Proof.Machine

variable {s t u : State}

/-- Since `s`, only bytes below tot and img of the version of `u` have been written. -/
structure WrittenBelow (s u : State) : Prop where
  cursor : u.CursorFits
  tmp : ∀ a, tot u.v ≤ a → u.tmp.read a = s.tmp.read a
  out : ∀ a, img u.v ≤ a → u.out.read a = s.out.read a

theorem writtenBelow_refl (h : s.CursorFits) : WrittenBelow s s :=
  ⟨h, fun _ _ => rfl, fun _ _ => rfl⟩

theorem writtenBelow_of_unwritten (hp : t.phase ≠ .packing) (htmp : t.tmp = s.tmp) (hout : t.out = s.out) :
    WrittenBelow s t :=
  ⟨cursorFits_of_phase hp, fun _ _ => by rw [htmp], fun _ _ => by rw [hout]⟩

theorem writtenBelow_takeFault {c : FaultCode} (h : WrittenBelow s u) : WrittenBelow s (u.takeFault c) :=
  ⟨h.cursor, h.tmp, h.out⟩

theorem writtenBelow_withResult {n : Nat} (h : WrittenBelow s u) : WrittenBelow s (u.withResult n) :=
  ⟨h.cursor, h.tmp, h.out⟩

theorem WrittenBelow.trans (h : WrittenBelow s u) (k : WritesWithin u t) : WrittenBelow s t where
  cursor := k.cursor h.cursor
  tmp a ha := (k.tmp h.cursor a (k.version ▸ ha)).trans (h.tmp a (k.version ▸ ha))
  out a ha := (k.out a (k.version ▸ ha)).trans (h.out a (k.version ▸ ha))

/-! ### GENERATE -/

/-- The bound is kept by a body that raises only in the state it starts in and stays inside the version's areas. -/
theorem WrittenBelow.keeps {codes : List FaultCode} {a : Attempt} (h : WrittenBelow s u) (hr : raisesOnly codes u a)
    (hok : ∀ {t}, a = .ok t → DrawsWithin u t) : a.Keeps (WrittenBelow s) :=
  hr.keeps h fun _ ht => h.trans (hok ht).toWritesWithin

theorem doPkbin_keeps_writtenBelow (src : Byte) (h : WrittenBelow s u) : (doPkbin src u).Keeps (WrittenBelow s) :=
  h.keeps (doPkbin_raises _ _) doPkbin_drawsWithin

theorem doSegments_keeps_writtenBelow (h : WrittenBelow s u) : (doSegments u).Keeps (WrittenBelow s) := by
  unfold doSegments
  split
  · exact keeps_bind (doPkbin_keeps_writtenBelow 0 h) fun u h =>
      h.keeps (doPknum_raises _ _) doPknum_drawsWithin
  · exact doPkbin_keeps_writtenBelow 1 h

theorem doMatrix_keeps_writtenBelow (h : WrittenBelow s u) : (doMatrix u).Keeps (WrittenBelow s) := by
  refine keeps_bind ((doMxinit_raises _).keeps h fun _ ht => h.trans (doMxinit_writesWithin ht)) fun u h => ?_
  refine keeps_bind (h.keeps (plotStep_raises _ _ _ _ _) doMxfind_drawsWithin) fun u h => ?_
  refine keeps_bind (h.keeps (plotStep_raises _ _ _ _ _) doMxtime_drawsWithin) fun u h => ?_
  refine keeps_bind (h.keeps (plotStep_raises _ _ _ _ _) doMxalign_drawsWithin) fun u h => ?_
  refine keeps_bind (h.keeps (plotStep_raises _ _ _ _ _) doMxrsvd_drawsWithin) fun u h => ?_
  refine keeps_bind (h.keeps (doMxdata_raises _) doMxdata_drawsWithin) fun u h => ?_
  refine keeps_bind (h.keeps (plotStep_raises _ _ _ _ _) doMxfmt_drawsWithin) fun u h => ?_
  exact h.keeps (plotStep_raises _ _ _ _ _) doMxver_drawsWithin

/-- VSEL sets the version that the bounds are of; the commands after it keep it. -/
theorem doPipeline_keeps_writtenBelow (h : s.CursorFits) : (doPipeline s).Keeps (WrittenBelow s) := by
  have hvsel : (doVsel s).Keeps (WrittenBelow s) := (doVsel_raises _).keeps (writtenBelow_refl h) fun t ht => by
    obtain ⟨v, -, rfl⟩ := doVsel_ok.mp ht
    exact writtenBelow_of_unwritten nofun rfl rfl
  refine keeps_bind hvsel fun u h => ?_
  refine keeps_bind (h.keeps (doPkinit_raises _) doPkinit_drawsWithin) fun u h => ?_
  refine keeps_bind (doSegments_keeps_writtenBelow h) fun u h => ?_
  refine keeps_bind (h.keeps (doPkterm_raises _) doPkterm_drawsWithin) fun u h => ?_
  refine keeps_bind (h.keeps (doRsall_raises _) doRsall_drawsWithin) fun u h => ?_
  refine keeps_bind (doMatrix_keeps_writtenBelow h) fun u h => ?_
  exact h.keeps (doMask_raises _) doMask_drawsWithin

theorem doGenerate_keeps_writtenBelow (h : s.CursorFits) : (doGenerate s).Keeps (WrittenBelow s) := by
  have hs := writtenBelow_refl h
  unfold doGenerate
  refine keeps_require hs (keeps_require hs (keeps_require hs ?_))
  exact keeps_bind (doPipeline_keeps_writtenBelow h) fun u hu => keeps_ok (writtenBelow_withResult hu)

/-! ### Every command -/

theorem body_keeps_writtenBelow (i : Instr) (h : s.CursorFits) : (body i s).Keeps (WrittenBelow s) := by
  by_cases hgen : i = .generate
  · subst hgen
    exact doGenerate_keeps_writtenBelow h
  · refine ⟨fun t ht => ?_, fun c u hu => ?_⟩
    · by_cases hinit : i = .mxinit
      · subst hinit
        exact (writtenBelow_refl h).trans (doMxinit_writesWithin ht)
      · rcases body_unwritten_or_drawsWithin hinit hgen ht with ⟨hp, htmp, hout⟩ | hdraws
        · exact writtenBelow_of_unwritten hp htmp hout
        · exact (writtenBelow_refl h).trans hdraws.toWritesWithin
    · rw [(body_raise hu).2 hgen]
      exact writtenBelow_refl h

/-- Settles O18: the bound is kept by every body and by taking a fault. -/
theorem writesStayBelowTotAndImg : Obligations.WritesStayBelowTotAndImg := by
  intro i s t hlen h
  obtain ⟨-, htmp, hout⟩ := exec_next_of_keeps (body_keeps_writtenBelow i hlen.cursorFits)
    (fun _ _ => writtenBelow_takeFault) h
  exact ⟨htmp, hout⟩

end Sys2Proof.Machine
end

