-- ==== Proofs/PaddingBits.lean ====
section
/-! PROOF. Statement O56 of the family 20_memory: the padding bits of the bitmap's rows (spec/20_memory.md R60). -/

namespace Sys2Proof.Machine

variable {s t : State} {i : Instr} {r c : Nat}

/-- Every padding bit of the rows of the grid is 0. -/
def State.PaddingLight (s : State) : Prop :=
  ∀ r c, r < width s.v → width s.v ≤ c → c < 8 * stride s.v → moduleAt s.out (stride s.v) r c = some false

theorem paddingLight_withResult {n : Nat} : (s.withResult n).PaddingLight ↔ s.PaddingLight := Iff.rfl

theorem DrawsWithin.paddingLight (h : DrawsWithin s t) (hs : s.PaddingLight) : t.PaddingLight := by
  intro r c hr hc hc8
  rw [h.version] at hr hc hc8 ⊢
  exact (h.padding r c hc hc8).trans (hs r c hr hc hc8)

/-- MXINIT writes the whole of each row (R214). -/
theorem doMxinit_paddingLight (h : doMxinit s = .ok t) : t.PaddingLight := by
  obtain ⟨-, -, rfl⟩ := doMxinit_ok.mp h
  intro r c hr _ hc8
  have hin : moduleIndex (stride s.v) r c < img s.v := moduleIndex_lt hr hc8
  have hread : (s.out.writeRun 0 (List.replicate (img s.v) 0)).read (moduleIndex (stride s.v) r c) = some 0 := by
    rw [Memory.read_writeRun, if_pos (by simpa using hin)]
    simp [hin]
  have hbit : byteModule 0 c = false := by simp [byteModule]
  exact (congrArg (Option.map _) hread).trans (congrArg some hbit)

/-- The steps of GENERATE after MXINIT leave the padding bits as MXINIT made them. -/
theorem doGenerate_paddingLight (h : doGenerate s = .ok t) : t.PaddingLight := by
  obtain ⟨-, -, -, u, hu, rfl⟩ := doGenerate_ok.mp h
  obtain ⟨_, _, _, _, _, _, _, _, _, _, _, _, _, -, -, -, -, -, hinit, hfind, htime, halign, hrsvd, hdata, hfmt, hver,
    hmask⟩ := doPipeline_ok.mp hu
  have hblank := doMxinit_paddingLight hinit
  have hreserved := (doMxrsvd_drawsWithin hrsvd).paddingLight <| (doMxalign_drawsWithin halign).paddingLight <|
    (doMxtime_drawsWithin htime).paddingLight <| (doMxfind_drawsWithin hfind).paddingLight hblank
  exact paddingLight_withResult.mpr <| (doMask_drawsWithin hmask).paddingLight <|
    (doMxver_drawsWithin hver).paddingLight <| (doMxfmt_drawsWithin hfmt).paddingLight <|
    (doMxdata_drawsWithin hdata).paddingLight hreserved

/-- A command but GENERATE that takes a fault leaves OUT as it was (R295). -/
theorem body_raise_out {u : State} {f : FaultCode} (hgen : i ≠ .generate) (h : body i s = .error (.raise f u)) :
    (u.takeFault f).out = s.out := by
  rw [State.takeFault_out, (body_raise h).2 hgen]

theorem exec_padding (hinit : i ≠ .mxinit) (hgen : i ≠ .generate) (h : exec i s = .next t) (hc : width s.v ≤ c)
    (hc8 : c < 8 * stride s.v) : moduleAt t.out (stride s.v) r c = moduleAt s.out (stride s.v) r c := by
  rw [exec_eq_finish] at h
  rcases finish_next.mp h with ht | ⟨f, u, hu, rfl⟩
  · rcases body_unwritten_or_drawsWithin hinit hgen ht with ⟨-, -, hout⟩ | hdraws
    · rw [hout]
    · exact hdraws.padding r c hc hc8
  · rw [body_raise_out hgen hu]

/-- A command that ends with ERR = 0 has completed. -/
theorem body_ok_of_exec (h : exec i s = .next t) (he : t.err = false) : body i s = .ok t := by
  rw [exec_eq_finish] at h
  rcases finish_next.mp h with ht | ⟨f, u, -, rfl⟩
  · exact ht
  · cases he

/-- A command that sets ERR has raised a fault. -/
theorem body_raise_of_exec (hi : i ≠ .clear) (h : exec i s = .next t) (hs : s.err = false) (ht : t.err = true) :
    ∃ f u, body i s = .error (.raise f u) ∧ t = u.takeFault f := by
  rw [exec_eq_finish] at h
  rcases finish_next.mp h with hok | hraise
  · rw [(body_sameHost hi hok).err, hs] at ht
    cases ht
  · exact hraise

theorem eight_mul_stride (v : Nat) : 8 * stride v = width v + (if v % 2 = 1 then 3 else 7) := by
  unfold stride width
  split <;> omega

/-- Settles O56: MXINIT clears whole rows; what the other commands write in OUT are modules of the grid; and a fault of
MXINIT leaves OUT as it was. -/
theorem paddingBitsStayZero : Obligations.PaddingBitsStayZero := by
  refine ⟨eight_mul_stride, fun i s t h r c hr hc hc8 =>
    ⟨fun hinit hgen => exec_padding hinit hgen h hc hc8, ?completed, ?faulted, ?generated⟩⟩
  case completed =>
    rintro rfl he
    have ht := body_ok_of_exec h he
    have hv := (doMxinit_writesWithin ht).version
    rw [← hv] at hr hc hc8 ⊢
    exact doMxinit_paddingLight ht r c hr hc hc8
  case faulted =>
    rintro rfl hs he
    obtain ⟨f, u, hu, rfl⟩ := body_raise_of_exec (by decide) h hs he
    rw [body_raise_out (by decide) hu]
  case generated =>
    rintro rfl - he
    exact doGenerate_paddingLight (body_ok_of_exec h he)

end Sys2Proof.Machine
end

