-- ==== Proofs/Decoding.lean ====
section
/-! SUPPORT. The decoder against the encoder and against the rows of the opcode map (spec/30_encoding.md R82, R84, R86,
R88): what it answers for a word, said once in `decode_answers`. -/

namespace Sys2Proof

variable {w : Word} {i : Instr} {row : OpRow}

/-! ### The rows of the map -/

theorem Instr.row_mem_opRows (i : Instr) : i.row ∈ opRows := by
  cases i <;> simp only [Instr.row] <;> decide

/-- No opcode has two rows (R84). -/
theorem opRows_eq_of_op_eq : ∀ row ∈ opRows, ∀ row' ∈ opRows, row.op = row'.op → row = row' := by
  decide

theorem op_eq_of_selects (h : row.selects w = true) : row.op = opField w :=
  ((selects_iff row w).mp h).1.symm

theorem zField_of_selects (h : row.selects w = true) : zField w = 0 :=
  let ⟨_, hz, _⟩ := (selects_iff row w).mp h
  hz

theorem bField_of_selects (hf : row.format = .n ∨ row.format = .a) (h : row.selects w = true) : bField w = 0 :=
  let ⟨_, _, hb, _⟩ := (selects_iff row w).mp h
  hb hf

theorem aField_of_selects (hf : row.format = .n) (h : row.selects w = true) : aField w = 0 :=
  let ⟨_, _, _, ha⟩ := (selects_iff row w).mp h
  ha hf

theorem opRows_eq_of_selects {row' : OpRow} (hrow : row ∈ opRows) (hrow' : row' ∈ opRows) (h : row.selects w = true)
    (h' : row'.selects w = true) : row = row' :=
  opRows_eq_of_op_eq row hrow row' hrow' ((op_eq_of_selects h).trans (op_eq_of_selects h').symm)

open Laws.EncodedInRow in
theorem Instr.row_selects_encode (i : Instr) : i.row.selects (encode i) = true := by
  cases i <;> simp only [Instr.row, encode, selects_assembleAB_n, selects_assembleAB_a, selects_assembleAB,
    selects_assembleI]

/-! ### The decoder on an assembled word -/

theorem decodeN_assembleAB (op : Byte) (i : Instr) : decodeN (assembleAB op 0 0) i = .ok i := by
  simp [decodeN]

theorem decodeA_assembleAB (op a : Byte) (mk : Byte → Instr) : decodeA (assembleAB op a 0) mk = .ok (mk a) := by
  simp [decodeA]

theorem decodeAB_assembleAB (op a b : Byte) (mk : Byte → Byte → Instr) :
    decodeAB (assembleAB op a b) mk = .ok (mk a b) := by
  simp [decodeAB]

theorem decodeI_assembleI (op : Byte) (n : BitVec 16) (mk : BitVec 16 → Instr) :
    decodeI (assembleI op n) mk = .ok (mk n) := by
  simp [decodeI]

/-- Each command's opcode leads to its own arm, which reads the operands back (R83, R88). -/
theorem decode_encode (i : Instr) : decode (encode i) = .ok i := by
  cases i <;> simp only [encode, decode, opField_assembleAB, opField_assembleI, BitVec.reduceToNat, decodeN_assembleAB,
    decodeA_assembleAB, decodeAB_assembleAB, decodeI_assembleI]

/-! ### The decoder on any word -/

/-- A right answer of the decoder for `w`: a command whose word is `w`, or a refusal of a word that no row selects. -/
inductive Answers (w : Word) : Except Illegal Instr → Prop
  | command (i : Instr) (h : encode i = w) : Answers w (.ok i)
  | illegal (e : Illegal) (h : ∀ row ∈ opRows, row.selects w = false) : Answers w (.error e)

/-- Only the row with the word's opcode can select it. -/
theorem Answers.of_not_selects {e : Illegal} (hop : opField w = i.row.op) (h : i.row.selects w ≠ true) :
    Answers w (.error e) := by
  refine .illegal e fun row hrow => Bool.eq_false_iff.mpr fun hsel => h ?_
  rwa [← opRows_eq_of_op_eq row hrow i.row i.row_mem_opRows ((op_eq_of_selects hsel).trans hop)]

/-- One check of an arm: a row whose format leaves the field unused selects no word in which the field is not zero. -/
theorem Answers.check {x : Byte} {e : Illegal} {answer : Except Illegal Instr} (hop : opField w = i.row.op)
    (hx : i.row.selects w = true → x = 0) (h : x = 0 → Answers w answer) :
    Answers w (if x ≠ 0 then .error e else answer) := by
  split_ifs with hne
  · exact .of_not_selects hop fun hsel => hne (hx hsel)
  · exact h (not_not.mp hne)

theorem decodeN_answers (hop : opField w = i.row.op) (hf : i.row.format = .n)
    (henc : encode i = assembleAB i.row.op 0 0) : Answers w (decodeN w i) := by
  refine .check hop zField_of_selects fun hz => .check hop (bField_of_selects (.inl hf)) fun hb =>
    .check hop (aField_of_selects hf) fun ha => .command i ?_
  rw [henc, ← hop, ← assembleAB_fields hz, ha, hb, opField_assembleAB]

theorem decodeA_answers {mk : Byte → Instr} (hop : opField w = (mk (aField w)).row.op)
    (hf : (mk (aField w)).row.format = .a)
    (henc : encode (mk (aField w)) = assembleAB (mk (aField w)).row.op (aField w) 0) : Answers w (decodeA w mk) := by
  refine .check hop zField_of_selects fun hz => .check hop (bField_of_selects (.inr hf)) fun hb => .command _ ?_
  rw [henc, ← hop, ← hb, assembleAB_fields hz]

theorem decodeAB_answers {mk : Byte → Byte → Instr} (hop : opField w = (mk (aField w) (bField w)).row.op)
    (henc : encode (mk (aField w) (bField w)) = assembleAB (mk (aField w) (bField w)).row.op (aField w) (bField w)) :
    Answers w (decodeAB w mk) := by
  refine .check hop zField_of_selects fun hz => .command _ ?_
  rw [henc, ← hop, assembleAB_fields hz]

theorem decodeI_answers {mk : BitVec 16 → Instr} (hop : opField w = (mk (iField w)).row.op)
    (henc : encode (mk (iField w)) = assembleI (mk (iField w)).row.op (iField w)) : Answers w (decodeI w mk) := by
  refine .check hop zField_of_selects fun hz => .command _ ?_
  rw [henc, ← hop, assembleI_fields hz]

/-- The arms of formats N, A, AB and I, numbered as the decoder lists them, and last the opcodes outside the map
(R84, R86). -/
theorem decode_answers (w : Word) : Answers w (decode w) := by
  unfold decode
  split
  case h_1 h | h_2 h | h_10 h | h_13 h | h_16 h | h_17 h | h_20 h | h_21 h | h_22 h | h_23 h | h_24 h | h_25 h | h_26 h
      | h_27 h | h_28 h | h_31 h =>
    exact decodeN_answers (BitVec.eq_of_toNat_eq h) rfl rfl
  case h_3 h | h_6 h | h_7 h | h_8 h | h_9 h | h_11 h | h_12 h | h_14 h | h_15 h | h_18 h | h_19 h =>
    exact decodeA_answers (BitVec.eq_of_toNat_eq h) rfl rfl
  case h_4 h | h_5 h | h_30 h =>
    exact decodeAB_answers (BitVec.eq_of_toNat_eq h) rfl
  case h_29 h =>
    exact decodeI_answers (BitVec.eq_of_toNat_eq h) rfl
  case h_32 =>
    refine .illegal _ fun row hrow => Bool.eq_false_iff.mpr fun hsel => ?_
    have hop : (opField w).toNat = row.op.toNat := by rw [op_eq_of_selects hsel]
    fin_cases hrow <;> contradiction

theorem decode_eq_ok_iff : decode w = .ok i ↔ encode i = w := by
  constructor
  · intro hd
    have hans := decode_answers w
    rw [hd] at hans
    cases hans with
    | command _ h => exact h
  · rintro rfl
    exact decode_encode i

theorem row_selects_of_decode (hd : decode w = .ok i) : i.row.selects w = true := by
  rw [← decode_eq_ok_iff.mp hd]
  exact i.row_selects_encode

/-- The decoder refuses exactly the words that no row selects (R86). -/
theorem decode_eq_error_iff : (∃ e, decode w = .error e) ↔ ∀ row ∈ opRows, row.selects w = false := by
  constructor
  · rintro ⟨e, hd⟩
    have hans := decode_answers w
    rw [hd] at hans
    cases hans with
    | illegal _ h => exact h
  · intro hnone
    cases hd : decode w with
    | error e => exact ⟨e, rfl⟩
    | ok i =>
      have hsel := row_selects_of_decode hd
      rw [hnone i.row i.row_mem_opRows] at hsel
      cases hsel

theorem selects_iff_decode (hrow : row ∈ opRows) : row.selects w = true ↔ ∃ i, decode w = .ok i ∧ i.row = row := by
  constructor
  · intro hsel
    cases hd : decode w with
    | error e =>
      rw [decode_eq_error_iff.mp ⟨e, hd⟩ row hrow] at hsel
      cases hsel
    | ok i => exact ⟨i, rfl, opRows_eq_of_selects i.row_mem_opRows hrow (row_selects_of_decode hd) hsel⟩
  · rintro ⟨i, hd, rfl⟩
    exact row_selects_of_decode hd

/-! ### The words outside the map -/

/-- No row has the word's opcode, or a field that the row's format leaves unused is not zero (R86). -/
theorem not_selected_iff (w : Word) : (∀ row ∈ opRows, row.selects w = false) ↔
    (∀ row ∈ opRows, row.op ≠ opField w) ∨ zField w ≠ 0 ∨
      (∃ row ∈ opRows, row.op = opField w ∧ (row.format = .n ∨ row.format = .a) ∧ bField w ≠ 0) ∨
      (∃ row ∈ opRows, row.op = opField w ∧ row.format = .n ∧ aField w ≠ 0) := by
  constructor
  · intro hnone
    by_contra! ⟨⟨row, hrow, hop⟩, hz, hb, ha⟩
    have hsel : row.selects w = true := (selects_iff row w).mpr ⟨hop.symm, hz, hb row hrow hop, ha row hrow hop⟩
    rw [hnone row hrow] at hsel
    cases hsel
  · intro hbad row hrow
    by_contra hsel
    rw [Bool.not_eq_false] at hsel
    have hop := op_eq_of_selects hsel
    rcases hbad with hno | hz | ⟨row', hrow', hop', hf, hb⟩ | ⟨row', hrow', hop', hf, ha⟩
    · exact hno row hrow hop
    · exact hz (zField_of_selects hsel)
    · rw [opRows_eq_of_op_eq row' hrow' row hrow (hop'.trans hop.symm)] at hf
      exact hb (bField_of_selects hf hsel)
    · rw [opRows_eq_of_op_eq row' hrow' row hrow (hop'.trans hop.symm)] at hf
      exact ha (aField_of_selects hf hsel)

end Sys2Proof
end

