-- ==== Proofs/EncodingFamily.lean ====
section
/-! PROOF. Statements O1, O2, O3, O4, O5 and O7 of the family 30_encoding. -/

namespace Sys2Proof.Machine

/-- A word that is no command raises ILLEGAL_CMD when no fault is held (R86). -/
theorem step_writeCmd_illegal {s : State} {rest : List HostAction} {w : Word} {e : Illegal} (he : s.err = false)
    (hf : s.fatal = false) (hd : decode w = .error e) (h : s.host = .writeReg 0 w :: rest) :
    step s = .next ({ s with host := rest, cmd := w }.takeFault .illegalCmd) := by
  have hl : ¬ State.lockedOut { s with host := rest } = true := by simp [State.lockedOut, he, hf]
  rw [step_of_host h, hostAct, hostWriteReg, if_pos rfl, writeCmd, if_neg hl, hd]
  rfl

/-- Settles O1: the opcode of each command's word leads to its own arm, which finds the operands in their fields. -/
theorem decodeOfEncodeIsTheCommand : Obligations.DecodeOfEncodeIsTheCommand :=
  fun i _ => decode_encode i

/-- Settles O2: an arm answers with a command only when every field that it does not read is zero. -/
theorem encodeOfDecodeIsTheWord : Obligations.EncodeOfDecodeIsTheWord :=
  fun _ _ => decode_eq_ok_iff.mp

/-- Settles O3: the decoder refuses only words that no row selects, and the command it reads is of the row with the
word's opcode, which is the only one that can select it. -/
theorem wordSelectsItsRow : Obligations.WordSelectsItsRow :=
  fun _ => ⟨fun _ hrow => selects_iff_decode hrow, fun i _ => i.row_mem_opRows,
    fun _ hrow _ hrow' => opRows_eq_of_selects hrow hrow'⟩

/-- Settles O7: a word is outside the map when no row has its opcode or when a field that the row's format leaves unused
is not zero, and the decoder refuses such a word. -/
theorem illegalWordsRaiseIllegalCmd : Obligations.IllegalWordsRaiseIllegalCmd := by
  refine fun w => ⟨not_selected_iff w, fun s rest hnone he hf h => ?_⟩
  obtain ⟨e, hd⟩ := decode_eq_error_iff.mpr hnone
  exact step_writeCmd_illegal he hf hd h

/-- Settles O4: the ten words are the encodings of their commands, and the other four fail one check each. -/
theorem sampleWordsDecode : Obligations.SampleWordsDecode :=
  ⟨decode_encode .clear, decode_encode (.maxsz 40), decode_encode (.gfmul 3 7), decode_encode (.vset 7),
    decode_encode .vsel, decode_encode (.pknum 1), decode_encode (.rsfeed 64), decode_encode (.ilvrd 273),
    decode_encode (.cellclass 7 8), decode_encode .mask, by decide, by decide, by decide, by decide⟩

/-- Settles O5: `withFetchWord` puts the write of the word before the waiting actions, so both clauses are a write of
CMD. -/
theorem stepRunsTheDecodedCommand : Obligations.StepRunsTheDecodedCommand :=
  fun _ _ _ he hf => ⟨fun _ hd h => step_writeCmd he hf hd h, fun _ _ hd => step_writeCmd he hf hd rfl⟩

end Sys2Proof.Machine
end

