-- ==== Proofs/Field.lean ====
section
/-! SUPPORT. GF(256) by powers of alpha: the ROM tables say that every non-zero byte is a power of alpha and that doubling is
multiplication by alpha; all laws of the field follow from these two (spec/40_gf256.md R110 to R116, R122). -/

namespace Sys2Proof.Machine

variable {a : Byte} {m n : Nat}

/-! ### What the tables say -/

/-- EXP follows the doubling recurrence, around the end of its period too (R111). -/
theorem gfexp_succ : ∀ i < 255, gfexp (i + 1) = xtime (gfexp i) := by decide +kernel

theorem gflog_gfexp : ∀ i < 255, gflog (gfexp i) = some i := by decide +kernel

theorem gfexp_logTable :
    ∀ a : Byte, a ≠ 0 → logTable.getD a.toNat 0 < 255 ∧ gfexp (logTable.getD a.toNat 0) = a := by decide +kernel

@[simp] theorem gfexp_zero : gfexp 0 = 1#8 := by decide

theorem gfexp_255 : gfexp 255 = 1#8 := by decide +kernel

/-- Every non-zero byte has a logarithm (R112). -/
theorem exists_gflog (ha : a ≠ 0) : ∃ n, gflog a = some n ∧ n < 255 ∧ gfexp n = a :=
  ⟨_, if_neg ha, gfexp_logTable a ha⟩

@[simp] theorem gflog_zero : gflog 0#8 = none := rfl

/-! ### Powers of alpha -/

/-- alpha^n; the exponents of EXP count modulo 255 (R111, R114). -/
def alphaPow (n : Nat) : Byte :=
  gfexp (n % 255)

theorem alphaPow_congr (h : m % 255 = n % 255) : alphaPow m = alphaPow n := by
  rw [alphaPow, alphaPow, h]

@[simp] theorem alphaPow_zero : alphaPow 0 = 1#8 := gfexp_zero

@[simp] theorem gflog_alphaPow (n : Nat) : gflog (alphaPow n) = some (n % 255) :=
  gflog_gfexp _ (Nat.mod_lt _ (by decide))

theorem exists_alphaPow (ha : a ≠ 0) : ∃ n, a = alphaPow n := by
  obtain ⟨n, -, hn, rfl⟩ := exists_gflog ha
  exact ⟨n, by rw [alphaPow, Nat.mod_eq_of_lt hn]⟩

/-- A byte is zero or a power of alpha: the case split behind every law. -/
theorem zero_or_alphaPow {p : Byte → Prop} (zero : p 0#8) (pow : ∀ n, p (alphaPow n)) (a : Byte) : p a := by
  by_cases ha : a = 0
  · exact ha ▸ zero
  · obtain ⟨n, rfl⟩ := exists_alphaPow ha
    exact pow n

theorem xtime_alphaPow (n : Nat) : xtime (alphaPow n) = alphaPow (n + 1) := by
  have hn : n % 255 < 255 := Nat.mod_lt _ (by decide)
  rw [alphaPow, ← gfexp_succ _ hn, alphaPow]
  by_cases hlast : n % 255 = 254
  · rw [hlast, gfexp_255, show (n + 1) % 255 = 0 by omega, gfexp_zero]
  · rw [show (n + 1) % 255 = n % 255 + 1 by omega]

theorem gfmul_alphaPow (i j : Nat) : gfmul (alphaPow i) (alphaPow j) = alphaPow (i + j) := by
  simp only [gfmul, gflog_alphaPow, ← Nat.add_mod]
  rfl

theorem gfinv_alphaPow (n : Nat) : gfinv (alphaPow n) = some (alphaPow (255 - n % 255)) := by
  simp only [gfinv, gflog_alphaPow]
  rfl

theorem gfdiv_alphaPow (i j : Nat) :
    gfdiv (alphaPow i) (alphaPow j) = some (alphaPow (i % 255 + 255 - j % 255)) := by
  simp only [gfdiv, gflog_alphaPow]
  rfl

theorem gfdiv_zero_alphaPow (j : Nat) : gfdiv 0#8 (alphaPow j) = some 0#8 := by
  simp only [gfdiv, gflog_alphaPow, gflog_zero]
  rfl

theorem gfdiv_zero_right (a : Byte) : gfdiv a 0#8 = none := rfl

theorem gfinv_zero : gfinv 0#8 = none := rfl

/-! ### Doubling -/

@[simp] theorem xtime_zero : xtime 0#8 = 0#8 := by decide

theorem xtime_xor (a b : Byte) : xtime (a ^^^ b) = xtime a ^^^ xtime b := by
  have hreduce : (if (a ^^^ b).getLsbD 7 then 0x1D#8 else 0#8) =
      (if a.getLsbD 7 then 0x1D#8 else 0#8) ^^^ (if b.getLsbD 7 then 0x1D#8 else 0#8) := by
    rw [BitVec.getLsbD_xor]
    cases a.getLsbD 7 <;> cases b.getLsbD 7 <;> rfl
  simp only [xtime, BitVec.shiftLeft_xor_distrib, hreduce]
  ac_rfl

/-- Without a carry out of bit 7, doubling is a shift. -/
theorem xtime_of_not_carry (ha : a.getLsbD 7 = false) : xtime a = a <<< 1 := by
  simp only [xtime, ha, Bool.false_eq_true, if_false, BitVec.xor_zero]

/-! ### The laws of the product -/

theorem gfmul_comm (a b : Byte) : gfmul a b = gfmul b a := by
  induction a using zero_or_alphaPow with
  | zero => simp
  | pow i =>
    induction b using zero_or_alphaPow with
    | zero => simp
    | pow j => rw [gfmul_alphaPow, gfmul_alphaPow, Nat.add_comm]

theorem gfmul_assoc (a b c : Byte) : gfmul a (gfmul b c) = gfmul (gfmul a b) c := by
  induction a using zero_or_alphaPow with
  | zero => simp
  | pow i =>
    induction b using zero_or_alphaPow with
    | zero => simp
    | pow j =>
      induction c using zero_or_alphaPow with
      | zero => simp
      | pow k => simp only [gfmul_alphaPow, Nat.add_assoc]

@[simp] theorem gfmul_one (a : Byte) : gfmul a 1#8 = a := by
  induction a using zero_or_alphaPow with
  | zero => simp
  | pow i => rw [← alphaPow_zero, gfmul_alphaPow, Nat.add_zero]

theorem gfmul_xtime (a b : Byte) : gfmul a (xtime b) = xtime (gfmul a b) := by
  induction a using zero_or_alphaPow with
  | zero => simp
  | pow i =>
    induction b using zero_or_alphaPow with
    | zero => simp
    | pow j => rw [xtime_alphaPow, gfmul_alphaPow, gfmul_alphaPow, xtime_alphaPow, Nat.add_assoc]

theorem gfmul_alphaPow_succ (n : Nat) (b : Byte) : gfmul (alphaPow (n + 1)) b = xtime (gfmul (alphaPow n) b) := by
  rw [gfmul_comm, ← xtime_alphaPow, gfmul_xtime, gfmul_comm]

/-- The product distributes over XOR, because multiplying by alpha^n is doubling n times (R122). -/
theorem gfmul_xor (a b c : Byte) : gfmul a (b ^^^ c) = gfmul a b ^^^ gfmul a c := by
  induction a using zero_or_alphaPow with
  | zero => simp
  | pow n =>
    induction n with
    | zero => simp only [alphaPow_zero, gfmul_comm 1#8, gfmul_one]
    | succ n ih => simp only [gfmul_alphaPow_succ, ih, xtime_xor]

theorem gfmul_two (a : Byte) : gfmul a 2#8 = xtime a := by
  rw [show (2#8 : Byte) = xtime 1#8 by decide, gfmul_xtime, gfmul_one]

theorem gfmul_bit (a : Byte) (c : Bool) : gfmul a (if c then 1#8 else 0#8) = if c then a else 0#8 := by
  cases c <;> simp

theorem exists_gfinv (ha : a ≠ 0) : ∃ x, gfinv a = some x ∧ gfmul a x = 1#8 := by
  obtain ⟨n, rfl⟩ := exists_alphaPow ha
  refine ⟨_, gfinv_alphaPow n, ?_⟩
  rw [gfmul_alphaPow, ← alphaPow_zero]
  exact alphaPow_congr (by omega)

/-- A quotient is the product with the inverse (R122). -/
theorem gfdiv_eq_gfmul_gfinv (a : Byte) {b x : Byte} (hx : gfinv b = some x) : gfdiv a b = some (gfmul a x) := by
  induction b using zero_or_alphaPow with
  | zero => cases hx
  | pow j =>
    obtain rfl : alphaPow (255 - j % 255) = x := Option.some.inj ((gfinv_alphaPow j).symm.trans hx)
    induction a using zero_or_alphaPow with
    | zero => rw [gfdiv_zero_alphaPow, gfmul_zero_left]
    | pow i =>
      rw [gfdiv_alphaPow, gfmul_alphaPow]
      exact congrArg some (alphaPow_congr (by omega))

/-! ### The product of polynomials -/

/-- The leading bits of a byte, one more of them: a doubling and the next bit. -/
theorem shiftRight_eq_xtime (b : Byte) (n : Nat) :
    b >>> n = xtime (b >>> (n + 1)) ^^^ (if b.getLsbD n then 1#8 else 0#8) := by
  rw [xtime_of_not_carry (by simp)]
  ext i hi
  cases i with
  | zero => cases h : b.getLsbD n <;> simp [h]
  | succ i => cases b.getLsbD n <;> simp [Nat.add_assoc, Nat.add_comm 1 i]

/-- After n coefficients of `b`, Horner's scheme holds the product with the leading n bits of `b` (R110). -/
theorem polyMul_loop (a b : Byte) : ∀ n ≤ 8,
    (List.range n).foldl (fun acc i => xtime acc ^^^ (if b.getLsbD (7 - i) then a else 0#8)) 0#8 =
      gfmul a (b >>> (8 - n)) := by
  intro n
  induction n with
  | zero =>
    intro _
    rw [show b >>> (8 - 0) = 0#8 from BitVec.ushiftRight_eq_zero (Nat.le_refl 8), gfmul_zero_right]
    rfl
  | succ n ih =>
    intro hn
    rw [List.range_succ, List.foldl_append, ih (by omega), List.foldl_cons, List.foldl_nil, ← gfmul_xtime, ← gfmul_bit,
      ← gfmul_xor, show 8 - n = 7 - n + 1 by omega, ← shiftRight_eq_xtime, show 8 - (n + 1) = 7 - n by omega]

end Sys2Proof.Machine
end

