-- ==== Proofs/RomTables.lean ====
section
/-! SUPPORT. The tables in ROM that are small enough to be evaluated entry by entry against the rules beside them
(spec/44_reed_solomon.md R191, R192, spec/45_matrix_builder.md R219, R235, R236, R239, R240). -/

namespace Sys2Proof.Machine

/-- Each generator polynomial is the product of its linear factors (R191). -/
theorem gen_eq_genByRoots : ∀ k ∈ [7, 10, 15, 18, 20, 22, 24, 26, 28, 30],
    (gen k).map (BitVec.ofNat 8) = genByRoots k := by
  decide +kernel

/-- Every coefficient is a byte that has a logarithm (R192). -/
theorem gen_coefficients : ∀ k ∈ [7, 10, 15, 18, 20, 22, 24, 26, 28, 30], ∀ g ∈ gen k, g ≠ 0 ∧ g < 256 := by
  decide

/-- The coordinates run from 6 to `width - 7`, and all gaps but the first are one even step (R219). -/
theorem alignCoords_arithmetic : ∀ v, 2 ≤ v → v ≤ 40 →
    (alignCoords v).length = v / 7 + 2 ∧ (alignCoords v)[0]? = some 6 ∧
      ∀ j, 1 ≤ j → j < v / 7 + 2 → (alignCoords v)[j]? = some (width v - 7 - (v / 7 + 1 - j) *
        (if v = 32 then 26 else 2 * ((4 * v + 2 * (v / 7 + 2) + 1) / (2 * (v / 7 + 2) - 2)))) := by
  decide

theorem fmtWord_eq_bch : fmtWord = (0b01000 * 2 ^ 10 + bitRemainder 0x537 5 (0b01000 * 2 ^ 10)) ^^^ 0x5412 := by
  decide

theorem verWord_eq_bch : ∀ v, 7 ≤ v → v ≤ 40 → verWord v = v * 2 ^ 12 + bitRemainder 0x1F25 6 (v * 2 ^ 12) := by
  decide

end Sys2Proof.Machine
end

