-- ==== Proofs/FieldFamily.lean ====
section
/-! PROOF. Statements O23, O24, O25 and O26 of the family 40_gf256. -/

namespace Sys2Proof.Machine

/-! ### What the commands answer -/

theorem withResult_toNat (s : State) (x : Byte) : s.withResult x.toNat = { s with result := x.setWidth 32 } := by
  rw [State.withResult, BitVec.ofNat_toNat]

theorem exec_gfmul (a b : Byte) (s : State) :
    exec (.gfmul a b) s = .next { s with result := (gfmul a b).setWidth 32 } :=
  congrArg Host.Outcome.next (withResult_toNat s (gfmul a b))

theorem exec_gfexp (n : Byte) (s : State) :
    exec (.gfexp n) s = .next { s with result := (gfexp n.toNat).setWidth 32 } :=
  congrArg Host.Outcome.next (withResult_toNat s (gfexp n.toNat))

theorem finish_domainResult_none (s : State) : finish (domainResult none s) = .next (s.takeFault .gfDomain) := rfl

theorem finish_domainResult_some (n : Nat) (s : State) : finish (domainResult (some n) s) = .next (s.withResult n) := rfl

/-- A byte that has a value goes to RESULT (R118, R119). -/
theorem finish_domainResult_map {r : Option Byte} {x : Byte} (h : r = some x) (s : State) :
    finish (domainResult (r.map BitVec.toNat) s) = .next { s with result := x.setWidth 32 } := by
  rw [h, Option.map_some, finish_domainResult_some, withResult_toNat]

theorem exec_gflog_some {a : Byte} {n : Nat} (h : gflog a = some n) (s : State) :
    exec (.gflog a) s = .next { s with result := BitVec.ofNat 32 n } := by
  rw [exec_eq_finish, body, h, finish_domainResult_some, State.withResult]

/-! ### The statements -/

/-- Settles O24: every non-zero byte is a power of alpha, so a law is an equation of exponents modulo 255, and
distribution holds because a product with a power of alpha is a repeated doubling. -/
theorem fieldLaws : Obligations.FieldLaws := by
  refine ⟨fun a b c => ⟨gfmul_comm a b, gfmul_assoc a b c, gfmul_xor a b c⟩,
    fun a => ⟨gfmul_one a, gfmul_zero_right a, ?doubling⟩, fun _ => exists_gfinv, fun a b hb => ?quotient⟩
  case doubling =>
    rw [show (0xFF : Byte) = BitVec.allOnes 8 by decide, BitVec.and_allOnes]
    exact gfmul_two a
  case quotient =>
    obtain ⟨x, hx, hbx⟩ := exists_gfinv hb
    refine ⟨_, x, gfdiv_eq_gfmul_gfinv a hx, hx, rfl, ?_⟩
    rw [← gfmul_assoc, gfmul_comm x, hbx, gfmul_one]

/-- Settles O26: each word is the encoding of its command, and the answer is the value of the field function where it has
one. -/
theorem fieldCommands : Obligations.FieldCommands := by
  refine fun a b s =>
    ⟨⟨decode_encode (.gfmul a b), decode_encode (.gfdiv a b), decode_encode (.gfinv a), decode_encode (.gfexp a),
      decode_encode (.gflog a)⟩, exec_gfmul a b s, exec_gfexp a s, ?divByZero, fun hb => ?quotient, ?ofZero,
      fun ha => ⟨?inverse, ?logarithm⟩⟩
  case divByZero =>
    rintro rfl
    simp only [BitVec.ofNat_eq_ofNat, exec_eq_finish, body, gfdiv_zero_right, Option.map_none, finish_domainResult_none]
  case quotient =>
    obtain ⟨x, hx, -⟩ := exists_gfinv hb
    have hq := gfdiv_eq_gfmul_gfinv a hx
    exact ⟨_, hq, finish_domainResult_map hq s⟩
  case ofZero =>
    rintro rfl
    simp only [BitVec.ofNat_eq_ofNat, exec_eq_finish, body, gfinv_zero, gflog_zero, Option.map_none,
      finish_domainResult_none, and_self]
  case inverse =>
    obtain ⟨x, hx, -⟩ := exists_gfinv ha
    exact ⟨x, hx, finish_domainResult_map hx s⟩
  case logarithm =>
    obtain ⟨n, hlog, hn, hexp⟩ := exists_gflog ha
    exact ⟨n, hlog, hn, hexp, exec_gflog_some hlog s⟩

/-- Settles O23: the product by logarithms distributes over XOR and commutes with doubling, so Horner's scheme over the bits
of the second factor computes it. -/
theorem gfmulIsThePolynomialProduct : Obligations.GfmulIsThePolynomialProduct := by
  intro a b
  rw [polyMul, polyMul_loop a b 8 (Nat.le_refl 8), Nat.sub_self, BitVec.ushiftRight_zero]

/-- Settles O25: the two field tables by their recurrence, each of the other tables by its own rule. -/
theorem romTables : Obligations.RomTables :=
  ⟨⟨gfexp_zero, fun i hi => gfexp_succ i (by omega), gfexp_255, gflog_gfexp, gflog_zero⟩,
    fun k hk => ⟨gen_eq_genByRoots k hk, gen_coefficients k hk⟩, alignCoords_arithmetic, rfl, fmtWord_eq_bch,
    verWord_eq_bch⟩

end Sys2Proof.Machine
end

