-- ==== Proofs/CatalogFamily.lean ====
section
/-! PROOF. Statements O27 and O28 of the family 41_version_catalog. -/

namespace Sys2Proof.Machine

/-! ### The catalog commands -/

/-- A legal version fits the six bits of VERSION (spec/10_state.md R29). -/
theorem toNat_setWidth_of_versionOk {v : Byte} (h : versionOk v) : (v.setWidth 6).toNat = v.toNat := by
  have hmax : v.toNat ≤ 40 := h.2
  rw [BitVec.toNat_setWidth, Nat.mod_eq_of_lt (by omega)]

/-- Four bytes side by side, as an OR of shifted numbers. -/
theorem toNat_append_bytes (a b c d : Byte) :
    (a ++ b ++ c ++ d).toNat = d.toNat ||| c.toNat <<< 8 ||| b.toNat <<< 16 ||| a.toNat <<< 24 := by
  rw [BitVec.toNat_append, BitVec.toNat_append, BitVec.toNat_append]
  simp only [Nat.shiftLeft_or_distrib, ← Nat.shiftLeft_add, Nat.reduceAdd, Nat.or_assoc, Nat.or_comm]

/-- The word of VPAR is its four bytes side by side (R136). -/
theorem ofNat_vparWord {row : CatRow} (hk : row.k < 256) (h1b : row.g1b < 256) (h1s : row.g1s < 256)
    (h2b : row.g2b < 256) :
    BitVec.ofNat 32 (vparWord row) =
      BitVec.ofNat 8 row.g2b ++ BitVec.ofNat 8 row.g1s ++ BitVec.ofNat 8 row.g1b ++ BitVec.ofNat 8 row.k := by
  have hbytes := toNat_append_bytes (BitVec.ofNat 8 row.g2b) (BitVec.ofNat 8 row.g1s) (BitVec.ofNat 8 row.g1b)
    (BitVec.ofNat 8 row.k)
  simp only [BitVec.toNat_ofNat, Nat.mod_eq_of_lt, hk, h1b, h1s, h2b] at hbytes
  rw [vparWord, ← hbytes, BitVec.ofNat_toNat, BitVec.setWidth_eq]

theorem ofNat_vparWord_cat {v : Nat} (h1 : 1 ≤ v) (h40 : v ≤ 40) :
    BitVec.ofNat 32 (vparWord (cat v)) =
      BitVec.ofNat 8 (cat v).g2b ++ BitVec.ofNat 8 (cat v).g1s ++ BitVec.ofNat 8 (cat v).g1b ++
        BitVec.ofNat 8 (cat v).k := by
  obtain ⟨-, hk, -, h1b, -, h1s, h2b, -⟩ := cat_row_bounds v (by omega) h1
  exact ofNat_vparWord (by omega) (by omega) (by omega) (by omega)

theorem exec_vset_legal {v : Byte} (h : versionOk v) (s : State) :
    exec (.vset v) s = .next { s with version := v.setWidth 6, phase := .versioned, result := v.setWidth 32 } := by
  rw [exec_eq_finish, body, doVset_ok.mpr ⟨h, rfl⟩, finish_ok, withResult_toNat]

theorem exec_vcap_legal {v : Byte} (h : versionOk v) (s : State) :
    exec (.vcap v) s = .next { s with result := BitVec.ofNat 32 (cap v.toNat) } := by
  rw [exec_eq_finish, body, doVcap_ok.mpr ⟨h, rfl⟩, finish_ok, State.withResult]

theorem exec_vpar_legal {v : Byte} (h : versionOk v) (s : State) :
    exec (.vpar v) s = .next { s with
      result := BitVec.ofNat 8 (cat v.toNat).g2b ++ BitVec.ofNat 8 (cat v.toNat).g1s ++
        BitVec.ofNat 8 (cat v.toNat).g1b ++ BitVec.ofNat 8 (cat v.toNat).k } := by
  rw [exec_eq_finish, body, doVpar_ok.mpr ⟨h, rfl⟩, finish_ok, State.withResult, ofNat_vparWord_cat h.1 h.2]

/-- A body whose first check fails has its fault taken in the state that the check names (R295, R296). -/
theorem finish_require_false {c : Prop} [Decidable c] (h : ¬ c) (f : FaultCode) (s : State) (k : Unit → Attempt) :
    finish (require c f s >>= k) = .next (s.takeFault f) := by
  rw [require_false _ _ h, error_bind, finish_raise]

/-- Settles O27: the version is the only check of the three commands, and the word of VPAR packs four bytes. -/
theorem catalogCommands : Obligations.CatalogCommands := by
  refine fun v s => ⟨⟨decode_encode (.vset v), decode_encode (.vcap v), decode_encode (.vpar v)⟩, ?legal, ?illegal⟩
  case legal =>
    exact fun h => ⟨⟨_, exec_vset_legal h s, toNat_setWidth_of_versionOk h, rfl⟩, exec_vcap_legal h s,
      exec_vpar_legal h s⟩
  case illegal =>
    exact fun h => ⟨finish_require_false h _ _ _, finish_require_false h _ _ _, finish_require_false h _ _ _⟩

/-! ### The invariants of the catalog -/

theorem cap_lt_cap_succ : ∀ v, v < 40 → 1 ≤ v → cap v < cap (v + 1) := by
  decide

theorem cat_k_mem : ∀ v, v < 41 → 1 ≤ v → (cat v).k ∈ [7, 10, 15, 18, 20, 22, 24, 26, 28, 30] := by
  decide

/-- Every block has `g1s + k` codewords, and those of group 2 have one more. -/
theorem tot_eq_even_split (v : Nat) : tot v = nblk v * ((cat v).g1s + (cat v).k) + (cat v).g2b := by
  unfold tot cap nblk
  ring

/-- The even split of the codewords over the blocks (R132 e): group 2 takes the remainder, since group 1 is not empty. -/
theorem cat_of_even_split {v : Nat} (h1b : 1 ≤ (cat v).g1b) :
    (cat v).g2b = tot v % nblk v ∧ (cat v).g1b = nblk v - (cat v).g2b ∧ (cat v).g1s = tot v / nblk v - (cat v).k := by
  have hlt : (cat v).g2b < nblk v := Nat.lt_add_of_pos_left h1b
  refine ⟨?_, (Nat.add_sub_cancel _ _).symm, ?_⟩
  · rw [tot_eq_even_split, Nat.mul_add_mod, Nat.mod_eq_of_lt hlt]
  · rw [tot_eq_even_split, Nat.mul_add_div (by omega), Nat.div_eq_of_lt hlt, Nat.add_zero, Nat.add_sub_cancel]

/-- The placement walk visits every Data cell of the grid once, so it is as long as they are many (R231). -/
theorem dataCells_length (v : Nat) :
    ((allCells v).filter fun rc => cellClass v rc.1 rc.2 = .data).length = (cellOrder v).length := by
  refine List.Perm.length_eq ?_
  rw [List.perm_ext_iff_of_nodup ((allCells_nodup v).filter _) (cellOrder_nodup_list v)]
  intro rc
  rw [List.mem_filter, mem_allCells, mem_cellOrder, decide_eq_true_eq]

/-- The column `rem` of R133. -/
theorem dataCount_remainder : ∀ v, v < 41 → 1 ≤ v → dataCount v - 8 * tot v ∈ [0, 3, 4, 7] := by
  decide +kernel

/-- Settles O28: the ranges by the table, the tie to the grid by the length of the placement walk, the even split by the
count of codewords over the two groups. -/
theorem catalogInvariants : Obligations.CatalogInvariants := by
  refine ⟨rfl, rfl, fun v h1 h40 => ?_⟩
  obtain ⟨-, hk, h1b, -, h19, h122, -, hn⟩ := cat_row_bounds v (by omega) h1
  obtain ⟨hlo, hhi⟩ := cellOrder_length_bounds h1 h40
  rw [dataCells_length]
  exact ⟨fun hlt => cap_lt_cap_succ v hlt h1, cat_k_mem v (by omega) h1, hk, h1b, h19, by omega, nblk_pos h1 h40, hn,
    by omega, by rw [cellOrder_length]; exact dataCount_remainder v (by omega) h1, cat_of_even_split h1b⟩

end Sys2Proof.Machine
end

