-- ==== Proofs/PushedStream.lean ====
section
/-! SUPPORT. What a list of bits that a command pushes leaves in TMP, said from the state that the command starts in
(spec/42_segment_packer.md R152): the bits before the cursor, the pushed bits, and the rest of the last byte. And a byte of
TMP put together from its eight bits of the stream (spec/20_memory.md R57). -/

namespace Sys2Proof.Machine

variable {s : State} {bits : List Bool} {bs : BitStream}

@[simp] theorem State.stream_tmp (s : State) : s.stream.tmp = s.tmp := rfl
@[simp] theorem State.stream_pos (s : State) : s.stream.pos = s.bitLen.toNat := rfl

/-! ### Bits of a pushed list -/

/-- The bits of every byte that a push has touched: the pushed bits from the cursor on, OR-ed into what the begun byte
held. -/
theorem push_streamBit (hpush : pushBits s.stream bits = .ok bs) (hne : bits ≠ []) {q : Nat}
    (hlo : s.bitLen.toNat ≤ q) (hhi : 8 * (q / 8) < s.bitLen.toNat + bits.length) :
    streamBit bs.tmp q = some (bits.getD (q - s.bitLen.toNat) false || s.leftover q) := by
  rw [pushBits_streamBit hpush (Nat.div_le_div_right hlo) hhi hne, State.stream_pos, decide_eq_true hlo, Bool.true_and,
    Bool.decide_and]
  rfl

/-- A pushed bit is found at its place. -/
theorem push_streamBit_add (hpush : pushBits s.stream bits = .ok bs) {i : Nat} (hi : i < bits.length) :
    streamBit bs.tmp (s.bitLen.toNat + i) = some (bits.getD i false || s.leftover (s.bitLen.toNat + i)) := by
  rw [push_streamBit hpush (List.ne_nil_of_length_pos (by omega)) (Nat.le_add_right _ _) (by omega),
    Nat.add_sub_cancel_left]

/-- Nothing is pushed behind the last bit. -/
theorem push_streamBit_rest (hpush : pushBits s.stream bits = .ok bs) (hne : bits ≠ []) {q : Nat}
    (hlo : s.bitLen.toNat + bits.length ≤ q) (hq : q / 8 = (s.bitLen.toNat + bits.length - 1) / 8) :
    streamBit bs.tmp q = some (s.leftover q) := by
  have hpos := List.length_pos_iff.mpr hne
  have hno : bits.getD (q - s.bitLen.toNat) false = false := List.getD_eq_default _ _ (by omega)
  rw [push_streamBit hpush hne (by omega) (by omega), hno, Bool.false_or]

/-- The stream before the cursor stays. -/
theorem push_streamBit_before (hpush : pushBits s.stream bits = .ok bs)
    (hbegun : s.bitLen.toNat % 8 ≠ 0 → (s.tmp.read (s.bitLen.toNat / 8)).isSome = true) {q : Nat}
    (hq : q < s.bitLen.toNat) : streamBit bs.tmp q = streamBit s.tmp q := by
  by_cases hend : s.bitLen.toNat + bits.length ≤ 8 * (q / 8)
  · rw [streamBit, streamBit, pushBits_read_other hpush (.inr hend), State.stream_tmp]
  by_cases hfar : q / 8 < s.bitLen.toNat / 8
  · rw [streamBit, streamBit, pushBits_read_other hpush (.inl hfar), State.stream_tmp]
  by_cases hne : bits = []
  · subst hne
    cases hpush
    rfl
  have he : q / 8 = s.bitLen.toNat / 8 := by omega
  have hm : s.bitLen.toNat % 8 ≠ 0 := by omega
  obtain ⟨x, hx⟩ := Option.isSome_iff_exists.mp (hbegun hm)
  rw [pushBits_streamBit hpush he.ge (Nat.lt_of_not_le hend) hne]
  simp [streamBit, he, hm, hx, Nat.not_le.mpr hq]

/-- No bit is left over from the first byte boundary at or behind the cursor on. -/
theorem leftover_of_boundary_le {q : Nat} (h : (s.bitLen.toNat + 7) / 8 ≤ q / 8) : s.leftover q = false := by
  by_cases hm : s.bitLen.toNat % 8 = 0
  · simp [State.leftover, hm]
  · simp [State.leftover, show q / 8 ≠ s.bitLen.toNat / 8 by omega]

/-! ### Bytes of the stream -/

/-- A byte whose eight bits of the stream are those of `x` is `x`. -/
theorem read_of_streamBit {m : Memory} {a : Nat} {x : Byte}
    (h : ∀ i < 8, streamBit m (8 * a + i) = some (x.getLsbD (7 - i))) : m.read a = some x := by
  have hbit : ∀ i < 8, (m.read a).map (fun y => y.getLsbD (7 - i)) = some (x.getLsbD (7 - i)) := fun i hi => by
    rw [← h i hi, streamBit, show (8 * a + i) / 8 = a by omega, show (8 * a + i) % 8 = i by omega]
  cases hm : m.read a with
  | none => simpa [hm] using hbit 0 (by omega)
  | some y =>
    refine congrArg some (BitVec.eq_of_getLsbD_eq fun k hk => ?_)
    have hk' := hbit (7 - k) (by omega)
    rwa [hm, Option.map_some, Option.some.injEq, show 7 - (7 - k) = k by omega] at hk'

/-- A byte pushed whole is pushed as its bits, the most significant first (R57, R152). -/
theorem msbBits_toNat (x : Byte) : msbBits x.toNat 8 = byteBits x := by
  simp only [msbBits, byteBits, BitVec.testBit_toNat]
  rfl

theorem fieldBits_bytes (bytes : List Byte) :
    fieldBits (bytes.map fun x => ⟨x.toNat, 8⟩) = bytes.flatMap byteBits := by
  rw [fieldBits, List.flatMap_map]
  exact congrArg (List.flatMap · bytes) (funext msbBits_toNat)

end Sys2Proof.Machine
end

