-- ==== Proofs/PushedSegment.lean ====
section
/-! SUPPORT. The bits of a segment, read one by one: its header, and its data in either mode (spec/42_segment_packer.md R150
to R158); and the sizes of segments (R165). -/

namespace Sys2Proof.Machine

/-! ### Header and data -/

theorem headerBits_getD (mode : Mode) (n v : Nat) {p : Nat} (hp : p < 4 + lenBits mode v) :
    (fieldBits (headerFields mode n v)).getD p false = headerBit mode n v p := by
  rw [← List.append_nil (fieldBits _), headerBits_eq, List.append_nil]
  unfold headerBit
  by_cases h4 : p < 4
  · rw [List.getD_append _ _ _ _ (by simpa using h4), msbBits_getD _ _ _ h4, if_pos h4]
    cases mode <;> rfl
  · rw [List.getD_append_right _ _ _ _ (by simpa using h4), msbBits_length, msbBits_getD _ _ _ (by omega), if_neg h4]

theorem binaryBits_getD (bytes : List Byte) (p : Nat) :
    (fieldBits (binaryFields bytes)).getD p false = binaryBit (fun i => bytes.getD i 0) p := by
  rw [binaryFields, fieldBits_bytes, List.getD_eq_getElem?_getD, flatMap_byteBits_getElem?, binaryBit,
    List.getD_eq_getElem?_getD]
  cases bytes[p / 8]? <;> simp

/-- Behind its first group of three digits, a Numeric segment reads as the segment of the other digits (R158). -/
theorem numericBit_shift (d : Nat → Nat) (n p : Nat) :
    numericBit d (n + 3) (p + 10) = numericBit (fun i => d (i + 3)) n p := by
  have hg : (p + 10) / 10 = p / 10 + 1 := Nat.add_div_right p (by decide)
  have h2 : 3 * (p / 10) + 5 < n + 3 ↔ 3 * (p / 10) + 2 < n := by omega
  have h1 : 3 * (p / 10) + 4 < n + 3 ↔ 3 * (p / 10) + 1 < n := by omega
  simp only [numericBit, hg, Nat.add_mod_right, Nat.mul_add, Nat.add_assoc, Nat.reduceMul, Nat.reduceAdd, h2, h1]

theorem numericBits_getD (bytes : List Byte) {p : Nat} (hp : p < (fieldBits (numericFields bytes)).length) :
    (fieldBits (numericFields bytes)).getD p false = numericBit (fun i => digitVal (bytes.getD i 0)) bytes.length p := by
  induction bytes using numericFields.induct generalizing p with
  | case1 d0 d1 d2 rest ih =>
    have hq : p < 10 + (fieldBits (numericFields rest)).length := by
      simpa [numericFields, fieldBits_cons] using hp
    rw [numericFields, fieldBits_cons]
    by_cases h10 : p < 10
    · rw [List.getD_append _ _ _ _ (by simpa using h10), msbBits_getD _ _ _ h10]
      simp [numericBit, Nat.div_eq_of_lt h10, Nat.mod_eq_of_lt h10]
    · obtain ⟨q, rfl⟩ := Nat.exists_eq_add_of_le' (Nat.le_of_not_lt h10)
      rw [List.getD_append_right _ _ _ _ (by simp), msbBits_length, Nat.add_sub_cancel, ih (by omega)]
      simp only [List.length_cons, Nat.add_assoc, Nat.reduceAdd, numericBit_shift, List.getD_cons_succ]
  | case2 d0 d1 =>
    have h7 : p < 7 := by simpa [numericFields, fieldBits_cons, fieldBits_nil] using hp
    rw [numericFields, fieldBits_cons, fieldBits_nil, List.append_nil, msbBits_getD _ _ _ h7]
    simp [numericBit, show p / 10 = 0 by omega, show p % 10 = p by omega]
  | case3 d0 =>
    have h4 : p < 4 := by simpa [numericFields, fieldBits_cons, fieldBits_nil] using hp
    rw [numericFields, fieldBits_cons, fieldBits_nil, List.append_nil, msbBits_getD _ _ _ h4]
    simp [numericBit, show p / 10 = 0 by omega, show p % 10 = p by omega]
  | case4 => simp [numericFields, fieldBits_nil] at hp

/-- A Numeric segment of `n` digits reads only these digits. -/
theorem numericBit_congr {d e : Nat → Nat} {n p : Nat} (hp : p < dataBits .numeric n) (h : ∀ i < n, d i = e i) :
    numericBit d n p = numericBit e n p := by
  have h0 : 3 * (p / 10) < n := by
    simp only [dataBits, tailBits] at hp
    split_ifs at hp <;> omega
  simp only [numericBit]
  split_ifs with h2 h1
  · rw [h _ h0, h _ (by omega), h _ h2]
  · rw [h _ h0, h _ h1]
  · rw [h _ h0]

/-! ### Sizes -/

theorem dataBits_mono (mode : Mode) {m n : Nat} (h : m ≤ n) : dataBits mode m ≤ dataBits mode n := by
  cases mode with
  | binary => exact Nat.mul_le_mul_left 8 h
  | numeric =>
    simp only [dataBits, tailBits]
    split_ifs <;> omega

/-- The least count that does not fit the length field has more data than any version with that length field holds. -/
theorem cap_lt_dataBits : ∀ mode : Mode, ∀ v < 41, 8 * cap v < 12 + dataBits mode (2 ^ lenBits mode v) := by
  intro mode
  cases mode <;> decide +kernel

end Sys2Proof.Machine
end

