-- ==== Proofs/AppendedSegment.lean ====
section
/-! SUPPORT. What PKBIN and PKNUM have in common (spec/42_segment_packer.md R157, R160): their first four checks, the source
bytes, and the segment that they append; and the digit scan of PKNUM. -/

namespace Sys2Proof.Machine

variable {s : State}

/-! ### The checks -/

/-- A body goes on behind a check that holds. -/
theorem finish_require_true {c : Prop} [Decidable c] (h : c) (f : FaultCode) (s : State) (k : Unit → Attempt) :
    finish (require c f s >>= k) = finish (k ()) := by
  rw [require_true _ _ h, ok_bind]

theorem finish_eq_next_of_ok {a : Attempt} {t : State} (h : a = .ok t) : finish a = .next t :=
  finish_next.mpr (.inl h)

/-- The four checks that PKBIN and PKNUM share, in their order, and then the rest of the body (R157, R160): each of the two
bodies is, by definition, this shape for its mode. -/
def afterSegmentChecks (mode : Mode) (src : Byte) (s : State) (rest : Attempt) : Attempt := do
  require (s.phase = .packing) .sequence s
  require (src.toNat ≤ 1) .badOperand s
  require (tot s.v ≤ s.tmpSize.toNat) .bufferTooSmall s
  require (s.bitLen.toNat + segBits mode (s.sourceLen src) s.v ≤ 8 * cap s.v) .inputTooLarge s
  rest

theorem afterSegmentChecks_faults (mode : Mode) (src : Byte) (s : State) (rest : Attempt) :
    (s.phase ≠ .packing → finish (afterSegmentChecks mode src s rest) = .next (s.takeFault .sequence)) ∧
    (s.phase = .packing → 1 < src.toNat →
      finish (afterSegmentChecks mode src s rest) = .next (s.takeFault .badOperand)) ∧
    (s.phase = .packing → src.toNat ≤ 1 → s.tmpSize.toNat < tot s.v →
      finish (afterSegmentChecks mode src s rest) = .next (s.takeFault .bufferTooSmall)) ∧
    (s.phase = .packing → src.toNat ≤ 1 → tot s.v ≤ s.tmpSize.toNat →
      8 * cap s.v < s.bitLen.toNat + segBits mode (s.sourceLen src) s.v →
      finish (afterSegmentChecks mode src s rest) = .next (s.takeFault .inputTooLarge)) := by
  unfold afterSegmentChecks
  refine ⟨fun hp => ?_, fun hp hsrc => ?_, fun hp hsrc hsize => ?_, fun hp hsrc hsize hfit => ?_⟩
  · exact finish_require_false hp _ _ _
  · rw [finish_require_true hp, finish_require_false (Nat.not_le.mpr hsrc)]
  · rw [finish_require_true hp, finish_require_true hsrc, finish_require_false (Nat.not_le.mpr hsize)]
  · rw [finish_require_true hp, finish_require_true hsrc, finish_require_true hsize,
      finish_require_false (Nat.not_le.mpr hfit)]

/-! ### The source -/

theorem sourceLen_eq (s : State) (src : Byte) :
    s.sourceLen src = (if src = 0 then s.urlLen else s.dataLen).toNat :=
  (apply_ite BitVec.toNat _ _ _).symm

theorem sourceBytes_ok {src : Byte} {bytes : Nat → Byte}
    (h : ∀ i < (if src = 0 then s.urlLen else s.dataLen).toNat,
      (if src = 0 then s.url else s.data).read i = some (bytes i)) :
    s.sourceBytes src = .ok ((List.range (s.sourceLen src)).map bytes) := by
  have hmem : s.mem (sourceSpace src) = if src = 0 then s.url else s.data := by
    unfold sourceSpace
    split <;> rfl
  rw [← sourceLen_eq, ← hmem] at h
  have hread : ∀ i ∈ List.range (s.sourceLen src), (s.mem (sourceSpace src)).read i = some (bytes i) :=
    fun i hi => h i (List.mem_range.mp hi)
  rw [State.sourceBytes, Memory.fetchAll_ok fun i hi => by rw [hread i hi]; rfl]
  exact congrArg _ (List.map_congr_left fun i hi => by rw [hread i hi]; rfl)

/-! ### The segment -/

/-- `t` is `s` after a segment of `n` characters whose data bits are `data` has been appended (R152, R157, R160). -/
def AppendsSegment (s t : State) (mode : Mode) (n : Nat) (data : Nat → Bool) : Prop :=
  let last := s.bitLen.toNat + segBits mode n s.v
  t.bitLen.toNat = last ∧
  t = { s with tmp := t.tmp, bitLen := t.bitLen, result := t.bitLen } ∧
  (∀ q < s.bitLen.toNat, streamBit t.tmp q = streamBit s.tmp q) ∧
  (∀ p < 4 + lenBits mode s.v,
    streamBit t.tmp (s.bitLen.toNat + p) = some (headerBit mode n s.v p || s.leftover (s.bitLen.toNat + p))) ∧
  (∀ p < dataBits mode n,
    streamBit t.tmp (s.bitLen.toNat + (4 + lenBits mode s.v) + p) =
      some (data p || s.leftover (s.bitLen.toNat + (4 + lenBits mode s.v) + p))) ∧
  (∀ q, last ≤ q → q / 8 = (last - 1) / 8 → streamBit t.tmp q = some (s.leftover q)) ∧
  (∀ a, a < s.bitLen.toNat / 8 ∨ last ≤ 8 * a → t.tmp.read a = s.tmp.read a)

theorem withStream_appendsSegment {mode : Mode} {bytes : List Byte} {data : Nat → Bool} {bs : BitStream}
    (hpush : pushBits s.stream (segmentBits mode bytes.length s.v bytes) = .ok bs)
    (hfit : s.bitLen.toNat + segBits mode bytes.length s.v ≤ 8 * cap s.v)
    (hbegun : s.bitLen.toNat % 8 ≠ 0 → (s.tmp.read (s.bitLen.toNat / 8)).isSome = true)
    (hdata : ∀ p < dataBits mode bytes.length, (fieldBits (segmentData mode bytes)).getD p false = data p) :
    AppendsSegment s (s.withStream bs) mode bytes.length data := by
  have hlen : (segmentBits mode bytes.length s.v bytes).length = segBits mode bytes.length s.v :=
    segmentBits_length mode bytes s.v
  have hpos : bs.pos = s.bitLen.toNat + segBits mode bytes.length s.v := hlen ▸ pushBits_pos hpush
  have hne : segmentBits mode bytes.length s.v bytes ≠ [] :=
    List.ne_nil_of_length_pos (by have := segBits_pos mode bytes.length s.v; omega)
  have hsplit : segmentBits mode bytes.length s.v bytes =
    fieldBits (headerFields mode bytes.length s.v) ++ fieldBits (segmentData mode bytes) := fieldBits_append _ _
  have hheader := headerBits_length mode bytes.length s.v
  have hcap := cap_le s.v
  refine ⟨?length, rfl, fun q hq => push_streamBit_before hpush hbegun hq, fun p hp => ?header, fun p hp => ?data,
    hlen ▸ fun q => push_streamBit_rest hpush hne, hlen ▸ fun a => pushBits_read_other hpush⟩
  case length => rw [State.withStream_bitLen, hpos, toNat_ofNat_32 (by omega)]
  case header =>
    have hbit := push_streamBit_add hpush (i := p) (by rw [hlen, segBits]; omega)
    rwa [hsplit, List.getD_append _ _ _ _ (by omega), headerBits_getD _ _ _ hp] at hbit
  case data =>
    have hbit := push_streamBit_add hpush (i := 4 + lenBits mode s.v + p) (by rw [hlen, segBits]; omega)
    rwa [hsplit, List.getD_append_right _ _ _ _ (by omega), hheader, Nat.add_sub_cancel_left, hdata p hp,
      ← Nat.add_assoc] at hbit

/-- A segment that passes the checks is pushed: the only byte of TMP that the push reads is the one that the stream has
begun. -/
theorem exists_pushSegment {mode : Mode} {n : Nat} {bytes : List Byte} {data : Nat → Bool} (hn : bytes.length = n)
    (hfit : s.bitLen.toNat + segBits mode n s.v ≤ 8 * cap s.v)
    (hbegun : s.bitLen.toNat % 8 ≠ 0 → (s.tmp.read (s.bitLen.toNat / 8)).isSome = true)
    (hdata : ∀ p < dataBits mode n, (fieldBits (segmentData mode bytes)).getD p false = data p) :
    ∃ bs, pushBits s.stream (segmentBits mode n s.v bytes) = .ok bs ∧ AppendsSegment s (s.withStream bs) mode n data := by
  subst hn
  obtain ⟨bs, hpush⟩ := pushBits_ok (segmentBits mode bytes.length s.v bytes) (bs := s.stream) hbegun
  exact ⟨bs, hpush, withStream_appendsSegment hpush hfit hbegun hdata⟩

theorem getD_map_range (bytes : Nat → Byte) {n i : Nat} (hi : i < n) : ((List.range n).map bytes).getD i 0 = bytes i := by
  simp [List.getD_eq_getElem?_getD, hi]

theorem binaryBits_map_range (bytes : Nat → Byte) {n p : Nat} (hp : p < dataBits .binary n) :
    (fieldBits (segmentData .binary ((List.range n).map bytes))).getD p false = binaryBit bytes p := by
  rw [dataBits] at hp
  rw [segmentData, binaryBits_getD, binaryBit, getD_map_range bytes (by omega), binaryBit]

theorem numericBits_map_range (bytes : Nat → Byte) {n p : Nat} (hp : p < dataBits .numeric n) :
    (fieldBits (segmentData .numeric ((List.range n).map bytes))).getD p false =
      numericBit (fun i => digitVal (bytes i)) n p := by
  have hlen : ((List.range n).map bytes).length = n := by rw [List.length_map, List.length_range]
  rw [segmentData, numericBits_getD _ (by rwa [numericBits_length, hlen]), hlen]
  exact numericBit_congr hp fun i hi => by rw [getD_map_range bytes hi]

/-! ### The digit scan -/

theorem isDigit_iff {x : Byte} : isDigit x = true ↔ 0x30 ≤ x.toNat ∧ x.toNat ≤ 0x39 := by
  rw [isDigit, Bool.and_eq_true, decide_eq_true_eq, decide_eq_true_eq]

theorem all_isDigit_map_range {bytes : Nat → Byte} {n : Nat} :
    ((List.range n).map bytes).all isDigit = true ↔ ∀ i < n, 0x30 ≤ (bytes i).toNat ∧ (bytes i).toNat ≤ 0x39 := by
  simp only [List.all_map, List.all_eq_true, List.mem_range, Function.comp_apply, isDigit_iff]

/-- The digit scan of PKNUM is its last check (R160). -/
theorem finish_doPknum_badDigit {src : Byte} {bytes : List Byte} (hp : s.phase = .packing) (hsrc : src.toNat ≤ 1)
    (htot : tot s.v ≤ s.tmpSize.toNat)
    (hfit : s.bitLen.toNat + segBits .numeric (s.sourceLen src) s.v ≤ 8 * cap s.v)
    (hbytes : s.sourceBytes src = .ok bytes) (hdigits : bytes.all isDigit ≠ true) :
    finish (doPknum src s) = .next (s.takeFault .badDigit) := by
  rw [doPknum, finish_require_true hp, finish_require_true hsrc, finish_require_true htot, finish_require_true hfit, hbytes,
    orHalt_ok, ok_bind, finish_require_false hdigits]

end Sys2Proof.Machine
end

