-- ==== Proofs/ClosedStream.lean ====
section
/-! SUPPORT. What PKTERM pushes and where it stands in TMP (spec/42_segment_packer.md R161 to R164). -/

namespace Sys2Proof.Machine

variable {s : State}

/-! ### The stop marker and the pad bytes -/

/-- The pad bytes alternate (R163). -/
def padByte (j : Nat) : Byte := if j % 2 = 0 then 0xEC else 0x11

/-- The first byte that PKTERM pads: marker and zero bits reach up to it (R161, R162). -/
def padStart (pos c : Nat) : Nat := (min (pos + 4) (8 * c) + 7) / 8

theorem padBits_eq (n : Nat) : fieldBits (padFields n) = ((List.range n).map padByte).flatMap byteBits := by
  induction n with
  | zero => rfl
  | succ n ih =>
    have hlast : fieldBits [⟨if n % 2 = 0 then 0xEC else 0x11, 8⟩] = byteBits (padByte n) := by
      unfold padByte
      split <;> rfl
    rw [padFields, fieldBits_append, ih, hlast, List.range_succ, List.map_append, List.flatMap_append]
    simp

theorem msbBits_zero (n : Nat) : msbBits 0 n = List.replicate n false := by
  induction n with
  | zero => rfl
  | succ n ih => rw [msbBits, ih, Nat.zero_testBit, List.replicate_succ]

theorem zeroBits_eq (n : Nat) : fieldBits (List.replicate n ⟨0, 1⟩) = List.replicate n false := by
  induction n with
  | zero => rfl
  | succ n ih =>
    rw [List.replicate_succ, fieldBits_cons, ih, List.replicate_succ]
    rfl

/-- PKTERM pushes zeros up to its first pad byte, and pad bytes up to the capacity (R164). -/
theorem termBits_eq {pos c : Nat} (h : pos ≤ 8 * c) :
    fieldBits (termFields pos (8 * c)) = List.replicate (8 * padStart pos c - pos) false ++
      ((List.range (c - padStart pos c)).map padByte).flatMap byteBits := by
  have hzeros : min 4 (8 * c - pos) + (8 - (pos + min 4 (8 * c - pos)) % 8) % 8 = 8 * padStart pos c - pos := by
    unfold padStart
    omega
  have hpads : (8 * c - (pos + min 4 (8 * c - pos) + (8 - (pos + min 4 (8 * c - pos)) % 8) % 8)) / 8 =
      c - padStart pos c := by
    unfold padStart
    omega
  simp only [termFields, fieldBits_append, fieldBits_cons, fieldBits_nil, List.append_nil, msbBits_zero, zeroBits_eq,
    List.replicate_append_replicate, padBits_eq]
  rw [hzeros, hpads]

theorem padStart_bounds {pos c : Nat} (h : pos ≤ 8 * c) : (pos + 7) / 8 ≤ padStart pos c ∧ padStart pos c ≤ c := by
  unfold padStart
  omega

theorem termBits_getD_zero {pos c i : Nat} (h : pos ≤ 8 * c) (hi : i < 8 * padStart pos c - pos) :
    (fieldBits (termFields pos (8 * c))).getD i false = false := by
  rw [termBits_eq h, List.getD_append _ _ _ _ (by rwa [List.length_replicate]), List.getD_replicate _ hi]

theorem termBits_getD_pad {pos c j i : Nat} (h : pos ≤ 8 * c) (hj : padStart pos c + j < c) (hi : i < 8) :
    (fieldBits (termFields pos (8 * c))).getD (8 * (padStart pos c + j) + i - pos) false = (padByte j).getLsbD (7 - i) := by
  obtain ⟨hlo, -⟩ := padStart_bounds h
  rw [termBits_eq h, List.getD_append_right _ _ _ _ (by rw [List.length_replicate]; omega), List.length_replicate,
    show 8 * (padStart pos c + j) + i - pos - (8 * padStart pos c - pos) = 8 * j + i by omega,
    List.getD_eq_getElem?_getD, flatMap_byteBits_getElem?, show (8 * j + i) / 8 = j by omega,
    show (8 * j + i) % 8 = i by omega]
  simp [show j < c - padStart pos c by omega]

/-! ### The stream that PKTERM closes -/

section Term

variable {bs : BitStream} (hpush : pushBits s.stream (fieldBits (termFields s.bitLen.toNat (8 * cap s.v))) = .ok bs)
  (hfit : s.bitLen.toNat ≤ 8 * cap s.v)

include hpush hfit

theorem pushTerm_pos : bs.pos = 8 * cap s.v :=
  (pushBits_pos hpush).trans (termBits_length hfit (Nat.mul_mod_right 8 _))

theorem pushTerm_streamBit {q : Nat} (hlo : s.bitLen.toNat ≤ q) (hq : q < 8 * cap s.v) :
    streamBit bs.tmp q = some
      ((fieldBits (termFields s.bitLen.toNat (8 * cap s.v))).getD (q - s.bitLen.toNat) false || s.leftover q) := by
  have hlen := termBits_length hfit (Nat.mul_mod_right 8 _)
  exact push_streamBit hpush (List.ne_nil_of_length_pos (by omega)) hlo (by omega)

theorem pushTerm_zeros {q : Nat} (hlo : s.bitLen.toNat ≤ q) (hq : q < 8 * padStart s.bitLen.toNat (cap s.v)) :
    streamBit bs.tmp q = some (s.leftover q) := by
  obtain ⟨-, hend⟩ := padStart_bounds hfit
  rw [pushTerm_streamBit hpush hfit hlo (by omega), termBits_getD_zero hfit (by omega), Bool.false_or]

theorem pushTerm_pads {j : Nat} (hj : padStart s.bitLen.toNat (cap s.v) + j < cap s.v) :
    bs.tmp.read (padStart s.bitLen.toNat (cap s.v) + j) = some (padByte j) := by
  obtain ⟨hstart, -⟩ := padStart_bounds hfit
  refine read_of_streamBit fun i hi => ?_
  rw [pushTerm_streamBit hpush hfit (by omega) (by omega), termBits_getD_pad hfit hj hi,
    leftover_of_boundary_le (by omega), Bool.or_false]

theorem pushTerm_written (hw : s.tmp.written ((s.bitLen.toNat + 7) / 8)) : bs.tmp.written (cap s.v) := fun a ha =>
  pushBits_written hpush hw a (by rw [pushTerm_pos hpush hfit]; omega)

theorem pushTerm_read_other {a : Nat} (ha : a < s.bitLen.toNat / 8 ∨ cap s.v ≤ a) : bs.tmp.read a = s.tmp.read a := by
  have hlen := termBits_length hfit (Nat.mul_mod_right 8 _)
  exact pushBits_read_other hpush (ha.imp_right fun h => by simp only [State.stream_pos]; omega)

end Term

end Sys2Proof.Machine
end

