-- ==== Proofs/PackerFamily.lean ====
section
/-! PROOF. Statements O32, O33, O34, O35 and O36 of the family 42_segment_packer. -/

namespace Sys2Proof.Machine

/-! ### PKINIT -/

/-- Settles O32: the two checks in their order, and the state that the body names. -/
theorem pkinitOpensTheStream : Obligations.PkinitOpensTheStream := by
  refine fun s => ⟨decode_encode .pkinit, ?sequence, ?size, ?opens⟩
  case sequence =>
    exact fun hidle => finish_require_false (fun h => Phase.one_le.mp h hidle) _ _ _
  case size =>
    exact fun hp hsize => (finish_require_true (Phase.one_le.mpr hp) _ _ _).trans
      (finish_require_false (Nat.not_le.mpr hsize) _ _ _)
  case opens =>
    exact fun hp hsize => finish_eq_next_of_ok (doPkinit_ok.mpr ⟨Phase.one_le.mpr hp, hsize, rfl⟩)

/-! ### A segment and its length field -/

/-- Settles O36: the least count that does not fit the length field is already too large for the version, and a larger
count has no fewer data bits. -/
theorem characterCountFits : Obligations.CharacterCountFits := by
  intro mode n v h1 h40 hfit
  by_contra hlarge
  have hdata := dataBits_mono mode (Nat.le_of_not_lt hlarge)
  have hcap := cap_lt_dataBits mode v (by omega)
  have hlen : 8 ≤ lenBits mode v := by
    unfold lenBits
    cases mode <;> simp only <;> split_ifs <;> omega
  rw [segBits] at hfit
  omega

/-! ### PKBIN and PKNUM -/

/-- Settles O33: the four checks, and the segment whose data bits are those of the source bytes. -/
theorem pkbinAppendsItsSegment : Obligations.PkbinAppendsItsSegment := by
  intro s src
  dsimp only
  rw [← sourceLen_eq]
  obtain ⟨hsequence, hoperand, hsize, hlarge⟩ := afterSegmentChecks_faults .binary src s _
  refine ⟨decode_encode (.pkbin src), hsequence, hoperand, hsize, hlarge, fun bytes hp hsrc htot hfit hread hbegun => ?_⟩
  obtain ⟨bs, hpush, happends⟩ :=
    exists_pushSegment (by rw [List.length_map, List.length_range]) hfit hbegun fun p => binaryBits_map_range bytes
  exact ⟨_, finish_eq_next_of_ok (doPkbin_ok.mpr
    ⟨hp, hsrc, htot, hfit, _, sourceBytes_ok (sourceLen_eq s src ▸ hread), bs, hpush, rfl⟩), happends⟩

/-- Settles O34: the five checks, and the segment whose data bits are those of the groups of digits. -/
theorem pknumAppendsItsSegment : Obligations.PknumAppendsItsSegment := by
  intro s src
  dsimp only
  rw [← sourceLen_eq]
  obtain ⟨hsequence, hoperand, hsize, hlarge⟩ := afterSegmentChecks_faults .numeric src s _
  refine ⟨decode_encode (.pknum src), hsequence, hoperand, hsize, hlarge, fun bytes hp hsrc htot hfit hread => ?_⟩
  have hbytes := sourceBytes_ok (sourceLen_eq s src ▸ hread)
  refine ⟨fun ⟨i, hi, hbad⟩ => ?_, fun hdigits hbegun => ?_⟩
  · refine finish_doPknum_badDigit hp hsrc htot hfit hbytes fun hall => ?_
    have := all_isDigit_map_range.mp hall i hi
    omega
  · obtain ⟨bs, hpush, happends⟩ :=
      exists_pushSegment (by rw [List.length_map, List.length_range]) hfit hbegun fun p => numericBits_map_range bytes
    exact ⟨_, finish_eq_next_of_ok (doPknum_ok.mpr
      ⟨hp, hsrc, htot, hfit, _, hbytes, all_isDigit_map_range.mpr hdigits, bs, hpush, rfl⟩), happends⟩

/-! ### PKTERM -/

/-- Settles O35: the two checks, and the pushed bits: zeros up to the first pad byte, then the pad bytes. -/
theorem pktermClosesTheStream : Obligations.PktermClosesTheStream := by
  refine fun s => ⟨decode_encode .pkterm, ?sequence, ?size, fun hp hsize hfit hbegun => ?closes⟩
  case sequence =>
    exact fun hp => finish_require_false hp _ _ _
  case size =>
    exact fun hp hsize => (finish_require_true hp _ _ _).trans (finish_require_false (Nat.not_le.mpr hsize) _ _ _)
  case closes =>
    obtain ⟨bs, hpush⟩ := pushBits_ok (fieldBits (termFields s.bitLen.toNat (8 * cap s.v))) (bs := s.stream) hbegun
    have hcap := cap_le s.v
    refine ⟨_, finish_eq_next_of_ok (doPkterm_ok.mpr ⟨hp, hsize, bs, hpush, rfl⟩), ?_, rfl,
      fun q => push_streamBit_before hpush hbegun, fun q => pushTerm_zeros hpush hfit, fun j => pushTerm_pads hpush hfit,
      pushTerm_written hpush hfit, fun a => pushTerm_read_other hpush hfit⟩
    rw [State.withStream_bitLen, pushTerm_pos hpush hfit, toNat_ofNat_32 (by omega)]

end Sys2Proof.Machine
end

