-- ==== Proofs/SelectorFamily.lean ====
section
/-! PROOF. Statements O30 and O31 of the family 43_version_selector. -/

namespace Sys2Proof.Machine

/-! ### The scan -/

theorem selectVersion_eq_some {segs : List (Mode × Nat)} {v : Nat} :
    selectVersion segs = some v ↔
      (1 ≤ v ∧ v ≤ 40) ∧ reqBits segs v ≤ 8 * cap v ∧ ∀ u, 1 ≤ u → u < v → 8 * cap u < reqBits segs u := by
  rw [selectVersion, versions, List.find?_range'_eq_some]
  simp only [Config.vMin, Config.vMax, List.mem_range'_1, decide_eq_true_eq, Bool.not_eq_true', decide_eq_false_iff_not,
    not_le]
  constructor
  · rintro ⟨hfit, hmem, hfirst⟩
    exact ⟨by omega, hfit, hfirst⟩
  · rintro ⟨hrange, hfit, hfirst⟩
    exact ⟨hfit, by omega, hfirst⟩

theorem selectVersion_eq_none {segs : List (Mode × Nat)} :
    selectVersion segs = none ↔ ∀ v, 1 ≤ v → v ≤ 40 → 8 * cap v < reqBits segs v := by
  rw [selectVersion, versions, List.find?_range'_eq_none]
  simp only [Config.vMin, Config.vMax, Bool.not_eq_true', decide_eq_false_iff_not, not_le]
  exact forall₂_congr fun v _ => ⟨fun h hv => h (by omega), fun h hv => h (by omega)⟩

theorem exec_vsel_some {s : State} {v : Nat} (h : selectVersion s.segments = some v) :
    exec .vsel s = .next { s with
      version := BitVec.ofNat 6 v, phase := .versioned, result := BitVec.ofNat 32 v } := by
  rw [exec_eq_finish, body, doVsel_ok.mpr ⟨v, h, rfl⟩, finish_ok, State.withResult]

theorem exec_vsel_none {s : State} (h : selectVersion s.segments = none) :
    exec .vsel s = .next (s.takeFault .inputTooLarge) := by
  rw [exec_eq_finish, body, doVsel, h]
  exact finish_raise _ _

/-- Settles O30: the scan finds `v` exactly when `v` is the first version that fits, and nothing exactly when none does. -/
theorem vselTakesTheFirstFit : Obligations.VselTakesTheFirstFit := by
  refine fun s => ⟨decode_encode .vsel, ?fits, ?tooLarge⟩
  case fits =>
    intro v h1 h40 hfit hfirst
    have hsel : selectVersion s.segments = some v := selectVersion_eq_some.mpr ⟨⟨h1, h40⟩, hfit, hfirst⟩
    exact ⟨_, exec_vsel_some hsel, toNat_ofNat_6 (by omega), rfl⟩
  case tooLarge =>
    exact fun hnone => exec_vsel_none (selectVersion_eq_none.mpr hnone)

/-! ### From one version to the next -/

/-- A length field widens by at most half of what the capacity gains (R184), and there are at most two segments. -/
theorem lenBits_succ_le : ∀ mode : Mode, ∀ v < 40, 1 ≤ v →
    lenBits mode (v + 1) + 4 * cap v ≤ lenBits mode v + 4 * cap (v + 1) := by
  intro mode
  cases mode <;> decide

/-- So does a segment: its data bits do not depend on the version (R165). -/
theorem segBits_succ_le {v : Nat} (h1 : 1 ≤ v) (h40 : v < 40) (mode : Mode) (n : Nat) :
    segBits mode n (v + 1) + 4 * cap v ≤ segBits mode n v + 4 * cap (v + 1) := by
  have hlen := lenBits_succ_le mode v h40 h1
  rw [segBits, segBits]
  omega

theorem reqBits_segments_of_up {s : State} (h : s.up = true) (v : Nat) :
    reqBits s.segments v = segBits .binary s.urlLen.toNat v + segBits .numeric s.dataLen.toNat v := by
  simp [State.segments, reqBits, h]

theorem reqBits_segments_of_not_up {s : State} (h : s.up = false) (v : Nat) :
    reqBits s.segments v = segBits .binary s.dataLen.toNat v := by
  simp [State.segments, reqBits, h]

theorem segments_fit_succ {s : State} {v : Nat} (h1 : 1 ≤ v) (h40 : v < 40)
    (hfit : reqBits s.segments v ≤ 8 * cap v) : reqBits s.segments (v + 1) ≤ 8 * cap (v + 1) := by
  have hcap := cap_lt_cap_succ v h40 h1
  cases hup : s.up with
  | true =>
    rw [reqBits_segments_of_up hup] at hfit ⊢
    have hurl := segBits_succ_le h1 h40 .binary s.urlLen.toNat
    have hdata := segBits_succ_le h1 h40 .numeric s.dataLen.toNat
    omega
  | false =>
    rw [reqBits_segments_of_not_up hup] at hfit ⊢
    have hdata := segBits_succ_le h1 h40 .binary s.dataLen.toNat
    omega

theorem segments_fit_of_le {s : State} {u v : Nat} (h1 : 1 ≤ v) (hfit : reqBits s.segments v ≤ 8 * cap v)
    (hu : v ≤ u) (h40 : u ≤ 40) : reqBits s.segments u ≤ 8 * cap u := by
  induction u, hu using Nat.le_induction with
  | base => exact hfit
  | succ w hw ih => exact segments_fit_succ (h1.trans hw) h40 (ih (Nat.le_of_succ_le h40))

/-- Settles O31: by induction on the versions after `v`; and what VSEL compares with the capacity is the sum of what PKBIN
and PKNUM compare with it. -/
theorem laterVersionsFitToo : Obligations.LaterVersionsFitToo := by
  refine fun s v h1 _ hfit => ⟨fun u => segments_fit_of_le h1 hfit, fun hup => ?_, fun hup => ?_⟩
  · rw [reqBits_segments_of_up hup] at hfit
    exact ⟨le_of_add_le_left hfit, hfit⟩
  · rwa [reqBits_segments_of_not_up hup] at hfit

end Sys2Proof.Machine
end

