-- ==== Proofs/GeneratorRoots.lean ====
section
/-! SUPPORT. Polynomials over GF(256) as coefficient lists, highest power first: what `polyAt` gives for the lists that
the divider handles, and that the generator polynomial vanishes at its roots (spec/44_reed_solomon.md R190, R191). -/

namespace Sys2Proof.Machine

variable {x a : Byte} {k : Nat}

/-! ### The field -/

theorem xor_gfmul (a b c : Byte) : gfmul (a ^^^ b) c = gfmul a c ^^^ gfmul b c := by
  rw [gfmul_comm, gfmul_xor, gfmul_comm c, gfmul_comm c]

theorem alphaPow_ne_zero (n : Nat) : alphaPow n ≠ 0#8 := by
  intro h
  have hlog := gflog_alphaPow n
  rw [h, gflog_zero] at hlog
  cases hlog

/-- A power of alpha is no zero divisor. -/
theorem eq_zero_of_gfmul_alphaPow {n : Nat} (h : gfmul a (alphaPow n) = 0#8) : a = 0#8 := by
  induction a using zero_or_alphaPow with
  | zero => rfl
  | pow m =>
    rw [gfmul_alphaPow] at h
    exact absurd h (alphaPow_ne_zero _)

theorem gfexp_eq_alphaPow {i : Nat} (h : i < 255) : gfexp i = alphaPow i := by
  rw [alphaPow, Nat.mod_eq_of_lt h]

/-! ### Evaluation -/

@[simp] theorem polyAt_nil (x : Byte) : polyAt x [] = 0#8 := rfl

/-- A further coefficient multiplies the value by x and is added (Horner). -/
theorem polyAt_concat (x : Byte) (cs : List Byte) (c : Byte) : polyAt x (cs ++ [c]) = gfmul (polyAt x cs) x ^^^ c := by
  rw [polyAt, List.foldl_append, List.foldl_cons, List.foldl_nil, polyAt]

/-- The leading coefficient stands at the power that the number of the others gives. -/
theorem polyAt_cons (e : Nat) (c : Byte) (cs : List Byte) :
    polyAt (alphaPow e) (c :: cs) = gfmul c (alphaPow (e * cs.length)) ^^^ polyAt (alphaPow e) cs := by
  induction cs using List.reverseRecOn with
  | nil => rw [← List.nil_append [c], polyAt_concat]; simp
  | append_singleton cs d ih =>
    rw [← List.cons_append, polyAt_concat, ih, xor_gfmul, ← gfmul_assoc, gfmul_alphaPow, polyAt_concat,
      List.length_append, List.length_singleton, Nat.mul_succ, BitVec.xor_assoc]

theorem polyAt_replicate_zero (x : Byte) (n : Nat) : polyAt x (List.replicate n 0#8) = 0#8 := by
  induction n with
  | zero => rfl
  | succ n ih => rw [List.replicate_succ', polyAt_concat, ih]; simp

theorem polyAt_zero_cons (x : Byte) (cs : List Byte) : polyAt x (0#8 :: cs) = polyAt x cs := by
  rw [polyAt, List.foldl_cons, gfmul_zero_left, BitVec.xor_zero, polyAt]

/-- Evaluation is linear in the coefficients. -/
theorem polyAt_zipWith (x a : Byte) {us ws : List Byte} (h : us.length = ws.length) :
    polyAt x (List.zipWith (fun u w => u ^^^ gfmul a w) us ws) = polyAt x us ^^^ gfmul a (polyAt x ws) := by
  induction us using List.reverseRecOn generalizing ws with
  | nil => rw [List.length_eq_zero_iff.mp h.symm]; simp
  | append_singleton us u ih =>
    obtain rfl | ⟨ws, w, rfl⟩ := ws.eq_nil_or_concat'
    · simp at h
    have hlen : us.length = ws.length := by simpa using h
    rw [List.zipWith_append hlen, List.zipWith_cons_cons, List.zipWith_nil_left, polyAt_concat, ih hlen, polyAt_concat,
      polyAt_concat, xor_gfmul, gfmul_xor, gfmul_assoc]
    ac_rfl

/-! ### The generator -/

theorem timesRoot_length (p : List Byte) (a : Byte) : (timesRoot p a).length = p.length + 1 := by
  simp [timesRoot]

theorem genByRoots_length (k : Nat) : (genByRoots k).length = k := by
  induction k with
  | zero => rfl
  | succ k ih => rw [genByRoots, timesRoot_length, ih]

/-- The value of `p(x) * (x + a)`, both with their leading 1 (R191). -/
theorem polyAt_timesRoot (x a : Byte) (p : List Byte) :
    polyAt x (1#8 :: timesRoot p a) = gfmul (polyAt x (1#8 :: p)) (x ^^^ a) := by
  have hlist : 1#8 :: timesRoot p a =
      List.zipWith (fun u w => u ^^^ gfmul a w) ((1#8 :: p) ++ [0#8]) (0#8 :: 1#8 :: p) := by
    simp [timesRoot]
  rw [hlist, polyAt_zipWith x a (by simp), polyAt_concat, polyAt_zero_cons, BitVec.xor_zero, gfmul_xor, gfmul_comm a]

/-- `g_k` vanishes at alpha^0 .. alpha^(k-1): each of its linear factors does at its own root, and a factor more keeps
the roots (R191). -/
theorem polyAt_genByRoots {i : Nat} (h : i < k) : polyAt (gfexp i) (1#8 :: genByRoots k) = 0#8 := by
  induction k with
  | zero => omega
  | succ k ih =>
    rw [genByRoots, polyAt_timesRoot]
    by_cases hi : i = k
    · rw [hi, BitVec.xor_self, gfmul_zero_right]
    · rw [ih (by omega), gfmul_zero_left]

end Sys2Proof.Machine
end

