-- ==== Proofs/DividedCodewords.lean ====
section
/-! SUPPORT. What the divider leaves when it is fed a codeword, and what that says of the codeword's polynomial
(spec/44_reed_solomon.md R193, R198). -/

namespace Sys2Proof.Machine

variable {k : Nat} {rem : Vector Byte Config.maxEc}

/-! ### Feeding the register its own bytes -/

theorem remBytes_succ (n : Nat) (rem : Vector Byte Config.maxEc) :
    remBytes (n + 1) rem = remBytes n rem ++ [remAt rem n] := by
  rw [remBytes, List.range_succ, List.map_append, List.map_singleton, remBytes]

/-- Each of the register's own bytes meets itself in the leading place, so its step is a pure shift (R195). -/
theorem remAt_feedAll_remBytes (hk : k ≤ Config.maxEc) (rem : Vector Byte Config.maxEc) {n : Nat} (hn : n ≤ k)
    {i : Nat} (hi : i < k) : remAt (feedAll k rem (remBytes n rem)) i = if i + n < k then remAt rem (i + n) else 0 := by
  induction n generalizing i with
  | zero => simp [remBytes, feedAll_nil, hi]
  | succ n ih =>
    have hlead : remAt rem n = remAt (feedAll k rem (remBytes n rem)) 0 := by
      rw [ih (by omega) (by omega), Nat.zero_add, if_pos (by omega)]
    rw [remBytes_succ, feedAll_append, feedAll_cons, feedAll_nil, hlead, remAt_stepRem_self (by omega)]
    by_cases hshift : i + 1 < k
    · rw [if_pos hshift, ih (by omega) hshift, Nat.add_assoc, Nat.add_comm 1]
    · rw [if_neg hshift, if_pos (by omega), if_neg (by omega)]

/-- Bytes followed by their own remainder leave remainder zero (R198). -/
theorem remAt_feedAll_codeword (hk : k ≤ Config.maxEc) (rem : Vector Byte Config.maxEc) (ds : List Byte) {i : Nat}
    (hi : i < k) : remAt (feedAll k rem (ds ++ remBytes k (feedAll k rem ds))) i = 0 := by
  rw [feedAll_append, remAt_feedAll_remBytes hk _ le_rfl hi, if_neg (by omega)]

/-! ### The register as a polynomial -/

theorem genAt_eq_genByRoots (hk : k ∈ [7, 10, 15, 18, 20, 22, 24, 26, 28, 30]) :
    (List.range k).map (genAt k) = genByRoots k := by
  have hlen := genByRoots_length k
  rw [← gen_eq_genByRoots k hk] at hlen ⊢
  refine List.ext_getElem (by simpa using hlen.symm) fun j _ hj => ?_
  simp [genAt, List.getElem?_eq_getElem (by simpa using hj)]

/-- One step as an operation on coefficient lists: the register without its leading byte, shifted, plus the feedback
times the generator (R193). -/
theorem remBytes_stepRem {n : Nat} (hn : n < Config.maxEc) (rem : Vector Byte Config.maxEc) (d : Byte) :
    remBytes (n + 1) (stepRem (n + 1) rem d) =
      List.zipWith (fun u w => u ^^^ gfmul (d ^^^ remAt rem 0) w)
        ((List.range n).map (fun i => remAt rem (i + 1)) ++ [0#8]) ((List.range (n + 1)).map (genAt (n + 1))) := by
  refine List.ext_getElem (by simp) fun i hi _ => ?_
  have hi : i < n + 1 := by simpa using hi
  simp only [remBytes, List.getElem_map, List.getElem_range, List.getElem_zipWith]
  rw [remAt_stepRem (by omega), gfmul_comm]
  by_cases hlast : i = n
  · subst hlast
    simp
  · rw [if_pos (by omega), List.getElem_append_left (by simp; omega)]
    simp

theorem remBytes_eq_cons (n : Nat) (rem : Vector Byte Config.maxEc) :
    remBytes (n + 1) rem = remAt rem 0 :: (List.range n).map fun i => remAt rem (i + 1) := by
  rw [remBytes, List.range_succ_eq_map, List.map_cons, List.map_map]
  rfl

theorem remBytes_of_zero (h : ∀ i < k, remAt rem i = 0) : remBytes k rem = List.replicate k 0#8 :=
  List.eq_replicate_iff.mpr ⟨remBytes_length _ _, fun x hx => by
    obtain ⟨i, hi, rfl⟩ := List.mem_map.mp hx
    exact h i (List.mem_range.mp hi)⟩

/-! ### At a root of the generator -/

theorem degree_le_maxEc : ∀ k ∈ [7, 10, 15, 18, 20, 22, 24, 26, 28, 30], k ≤ Config.maxEc := by
  decide

section

variable {e : Nat} (hk : k ∈ [7, 10, 15, 18, 20, 22, 24, 26, 28, 30]) (he : e < k)
include hk he

/-- `x^k` is the value of the generator's other terms. -/
theorem polyAt_genAt : polyAt (alphaPow e) ((List.range k).map (genAt k)) = alphaPow (e * k) := by
  have hroot := polyAt_genByRoots he
  have h255 : e < 255 := he.trans_le ((degree_le_maxEc k hk).trans (by decide))
  rw [gfexp_eq_alphaPow h255, polyAt_cons, genByRoots_length, gfmul_comm, gfmul_one, BitVec.xor_eq_zero_iff] at hroot
  rw [genAt_eq_genByRoots hk, ← hroot]

/-- A step multiplies the register's value by x and adds `d * x^k` (R193). -/
theorem polyAt_stepRem (rem : Vector Byte Config.maxEc) (d : Byte) :
    polyAt (alphaPow e) (remBytes k (stepRem k rem d)) =
      gfmul (polyAt (alphaPow e) (remBytes k rem)) (alphaPow e) ^^^ gfmul d (alphaPow (e * k)) := by
  have hgen := polyAt_genAt hk he
  have hk30 := degree_le_maxEc k hk
  obtain ⟨n, rfl⟩ : ∃ n, k = n + 1 := ⟨k - 1, by omega⟩
  rw [remBytes_stepRem (by omega), polyAt_zipWith _ _ (by simp), polyAt_concat, hgen, xor_gfmul, remBytes_eq_cons,
    polyAt_cons, xor_gfmul, ← gfmul_assoc, gfmul_alphaPow, List.length_map, List.length_range, ← Nat.mul_succ,
    BitVec.xor_zero]
  ac_rfl

/-- From the cleared register, the value of the remainder of `d(x) * x^k` is that of `d(x) * x^k` itself (R190). -/
theorem polyAt_feedAll (ds : List Byte) :
    polyAt (alphaPow e) (remBytes k (feedAll k remZero ds)) = gfmul (polyAt (alphaPow e) ds) (alphaPow (e * k)) := by
  induction ds using List.reverseRecOn with
  | nil => simp [feedAll_nil, remBytes_of_zero, polyAt_replicate_zero]
  | append_singleton ds d ih =>
    rw [feedAll_append, feedAll_cons, feedAll_nil, polyAt_stepRem hk he, ih, polyAt_concat, xor_gfmul, ← gfmul_assoc,
      ← gfmul_assoc, gfmul_comm (alphaPow e)]

/-- Bytes that leave remainder zero are the coefficients of a polynomial that vanishes at the roots of the generator
(R198). -/
theorem polyAt_eq_zero_of_feedAll {cs : List Byte} (h : ∀ i < k, remAt (feedAll k remZero cs) i = 0) :
    polyAt (alphaPow e) cs = 0 := by
  have hvalue := polyAt_feedAll hk he cs
  rw [remBytes_of_zero h, polyAt_replicate_zero] at hvalue
  exact eq_zero_of_gfmul_alphaPow hvalue.symm

end

end Sys2Proof.Machine
end

