-- ==== Proofs/EncodedBlocks.lean ====
section
/-! SUPPORT. RSBLK and RSALL behind their checks: the state that each names, the one as repetition of the other, and the
codeword that stands in TMP afterwards (spec/44_reed_solomon.md R196, R197). -/

namespace Sys2Proof.Machine

variable {s t : State} {v b : Nat} {rem : Vector Byte Config.maxEc} {tmp : Memory}

/-! ### The bodies behind their checks -/

/-- The state after block b, for the register and the TMP that encoding it gives (R196). -/
def State.afterBlock (s : State) (b : Nat) (r : Vector Byte Config.maxEc × Memory) : State :=
  { s with
    rem := r.1
    tmp := r.2
    rsNext := BitVec.ofNat 32 (b + 1)
    phase := if b + 1 = nblk s.v then .coded else s.phase }.withResult (b + 1)

/-- The state after the last block (R197). -/
def State.afterAllBlocks (s : State) (r : Vector Byte Config.maxEc × Memory) : State :=
  { s with
    rem := r.1
    tmp := r.2
    rsNext := BitVec.ofNat 32 (nblk s.v)
    phase := .coded }.withResult (nblk s.v)

theorem exec_rsblk_of_checks {b : Byte} (hp : s.phase = .packed) (hb : b.toNat < nblk s.v)
    (hnext : b.toNat = s.rsNext.toNat) (hsize : tot s.v ≤ s.tmpSize.toNat) :
    exec (.rsblk b) s =
      finish (orHalt (encodeBlock s.v b.toNat s.tmp) >>= fun r => .ok (s.afterBlock b.toNat r)) := by
  rw [exec_eq_finish, body, doRsblk, finish_require_true hp, finish_require_true hb, finish_require_true hnext,
    finish_require_true hsize]
  rfl

theorem exec_rsall_of_checks (hp : s.phase = .packed) (hsize : tot s.v ≤ s.tmpSize.toNat) :
    exec .rsall s =
      finish (orHalt (encodeBlocks s.v s.rem s.tmp (List.range' s.rsNext.toNat (nblk s.v - s.rsNext.toNat))) >>=
        fun r => .ok (s.afterAllBlocks r)) := by
  rw [exec_eq_finish, body, doRsall, finish_require_true hp, finish_require_true hsize]
  rfl

theorem doRsblk_eq_afterBlock {b : Byte} (h : doRsblk b s = .ok t) :
    b.toNat < nblk s.v ∧ ∃ r, encodeBlock s.v b.toNat s.tmp = .ok r ∧ t = s.afterBlock b.toNat r :=
  let ⟨_, hb, _, _, r, henc, ht⟩ := doRsblk_ok.mp h
  ⟨hb, r, henc, ht⟩

/-! ### RSALL as the remaining RSBLK commands -/

theorem encodeBlocks_cons_ok {r : Vector Byte Config.maxEc × Memory} (h : encodeBlock v b tmp = .ok r)
    (rem : Vector Byte Config.maxEc) (bs : List Nat) :
    encodeBlocks v rem tmp (b :: bs) = encodeBlocks v r.1 r.2 bs := by
  rw [encodeBlocks, h]

theorem encodeBlocks_cons_error {f : Fault} (h : encodeBlock v b tmp = .error f) (rem : Vector Byte Config.maxEc)
    (bs : List Nat) : encodeBlocks v rem tmp (b :: bs) = .error f := by
  rw [encodeBlocks, h]

theorem runCommands_cons_next {i : Instr} (h : exec i s = .next t) (he : t.err = false) (is : List Instr) :
    runCommands (i :: is) s = runCommands is t := by
  rw [runCommands, h]
  simp [he]

theorem runCommands_cons_fault {i : Instr} {f : Fault} (h : exec i s = .fault f) (is : List Instr) :
    runCommands (i :: is) s = .fault f := by
  rw [runCommands, h]

theorem toNat_ofNat_8 {n : Nat} (h : n < 2 ^ 8) : (BitVec.ofNat 8 n).toNat = n := by
  rw [BitVec.toNat_ofNat, Nat.mod_eq_of_lt h]

@[simp] theorem State.afterBlock_v (s : State) (b : Nat) (r : Vector Byte Config.maxEc × Memory) :
    (s.afterBlock b r).v = s.v := rfl

theorem State.afterBlock_rsNext (s : State) (hb : b < nblk s.v) (r : Vector Byte Config.maxEc × Memory) :
    (s.afterBlock b r).rsNext.toNat = b + 1 := by
  have hn := nblk_le s.v
  exact toNat_ofNat_32 (by omega)

theorem State.afterBlock_phase (hp : s.phase = .packed) (hb : b + 1 < nblk s.v)
    (r : Vector Byte Config.maxEc × Memory) : (s.afterBlock b r).phase = .packed := by
  simp [State.afterBlock, hp, hb.ne]

section

variable (hp : s.phase = .packed) (hsize : tot s.v ≤ s.tmpSize.toNat)
include hp hsize

/-- RSBLK on the block in turn. -/
theorem exec_rsblk_rsNext (hlt : s.rsNext.toNat < nblk s.v) :
    exec (.rsblk (BitVec.ofNat 8 s.rsNext.toNat)) s =
      finish (orHalt (encodeBlock s.v s.rsNext.toNat s.tmp) >>= fun r => .ok (s.afterBlock s.rsNext.toNat r)) := by
  have hn := nblk_le s.v
  have hnat : (BitVec.ofNat 8 s.rsNext.toNat).toNat = s.rsNext.toNat := toNat_ofNat_8 (by omega)
  rw [exec_rsblk_of_checks hp (by rwa [hnat]) hnat hsize, hnat]

/-- RSALL with the block in turn set apart from the others. -/
theorem exec_rsall_cons (hlt : s.rsNext.toNat < nblk s.v) :
    exec .rsall s =
      finish (orHalt (encodeBlocks s.v s.rem s.tmp
        (s.rsNext.toNat :: List.range' (s.rsNext.toNat + 1) (nblk s.v - (s.rsNext.toNat + 1)))) >>=
          fun r => .ok (s.afterAllBlocks r)) := by
  rw [exec_rsall_of_checks hp hsize, ← List.range'_succ,
    show nblk s.v - (s.rsNext.toNat + 1) + 1 = nblk s.v - s.rsNext.toNat by omega]

/-- A block that has been encoded and is not the last leaves RSALL with the others. -/
theorem exec_rsall_afterBlock {r : Vector Byte Config.maxEc × Memory} (hlt : s.rsNext.toNat + 1 < nblk s.v)
    (henc : encodeBlock s.v s.rsNext.toNat s.tmp = .ok r) :
    exec .rsall s = exec .rsall (s.afterBlock s.rsNext.toNat r) := by
  rw [exec_rsall_cons hp hsize (by omega), encodeBlocks_cons_ok henc,
    exec_rsall_of_checks (State.afterBlock_phase hp hlt r) hsize, State.afterBlock_rsNext s (by omega)]
  rfl

/-- A last block that has been encoded is all that RSALL does. -/
theorem exec_rsall_lastBlock {r : Vector Byte Config.maxEc × Memory} (hlast : s.rsNext.toNat + 1 = nblk s.v)
    (henc : encodeBlock s.v s.rsNext.toNat s.tmp = .ok r) :
    exec .rsall s = .next (s.afterBlock s.rsNext.toNat r) := by
  rw [exec_rsall_cons hp hsize (by omega), encodeBlocks_cons_ok henc, hlast, Nat.sub_self, List.range'_zero,
    encodeBlocks, orHalt_ok, ok_bind, finish_ok, State.afterAllBlocks, State.afterBlock, if_pos hlast, hlast]

/-- RSALL begins with the block in turn: it stops where RSBLK stops, and what is left to show is that it goes on as the
commands after RSBLK do. -/
theorem exec_rsall_eq_runCommands_cons {is : List Instr} (he : s.err = false) (hlt : s.rsNext.toNat < nblk s.v)
    (hrest : ∀ r, encodeBlock s.v s.rsNext.toNat s.tmp = .ok r →
      exec .rsall s = runCommands is (s.afterBlock s.rsNext.toNat r)) :
    exec .rsall s = runCommands (.rsblk (BitVec.ofNat 8 s.rsNext.toNat) :: is) s := by
  have hblk := exec_rsblk_rsNext hp hsize hlt
  cases henc : encodeBlock s.v s.rsNext.toNat s.tmp with
  | error f =>
    rw [henc, orHalt_error, error_bind, finish_halt] at hblk
    rw [runCommands_cons_fault hblk, exec_rsall_cons hp hsize hlt, encodeBlocks_cons_error henc, orHalt_error,
      error_bind, finish_halt]
  | ok r =>
    rw [henc, orHalt_ok, ok_bind, finish_ok] at hblk
    rw [runCommands_cons_next hblk he, hrest r henc]

end

/-- RSALL with `m + 1` blocks to encode is RSBLK on each of them, by induction on the blocks behind the one in turn. -/
theorem exec_rsall_eq_runCommands {m : Nat} (hp : s.phase = .packed) (hsize : tot s.v ≤ s.tmpSize.toNat)
    (he : s.err = false) (hm : s.rsNext.toNat + (m + 1) = nblk s.v) :
    exec .rsall s =
      runCommands ((List.range' s.rsNext.toNat (m + 1)).map fun b => .rsblk (BitVec.ofNat 8 b)) s := by
  induction m generalizing s with
  | zero =>
    refine exec_rsall_eq_runCommands_cons hp hsize he (by omega) fun r henc => ?_
    exact exec_rsall_lastBlock hp hsize hm henc
  | succ m ih =>
    refine exec_rsall_eq_runCommands_cons hp hsize he (by omega) fun r henc => ?_
    have hlt : s.rsNext.toNat + 1 < nblk s.v := by omega
    have hnext := State.afterBlock_rsNext s hlt.le r
    have hrest := ih (State.afterBlock_phase hp hlt r) hsize he (by rw [hnext, State.afterBlock_v]; omega)
    rw [hnext] at hrest
    rw [exec_rsall_afterBlock hp hsize hlt henc, hrest]

/-! ### The blocks in TMP -/

/-- The data bytes of a block of a version, as they stand in TMP. -/
def dataBytes (v b : Nat) (tmp : Memory) : List Byte :=
  (blockIndexes v b).map fun a => (tmp.read a).getD 0

theorem encodeBlock_rem {r : Vector Byte Config.maxEc × Memory} (h : encodeBlock v b tmp = .ok r) :
    r.1 = feedAll (cat v).k remZero (dataBytes v b tmp) := by
  obtain ⟨bytes, hfetch, hrem, -⟩ := encodeBlock_inv h
  rw [hrem, (Memory.fetchAll_inv hfetch).2, dataBytes]

/-- The bytes of a block that holds `bytes`. -/
theorem dataBytes_eq {bytes : List Byte} (hlen : bytes.length = blkLen v b)
    (h : ∀ i < blkLen v b, tmp.read (blkOff v b + i) = bytes[i]?) : dataBytes v b tmp = bytes := by
  refine List.ext_getElem (by simp [dataBytes, blockIndexes, hlen]) fun i _ hi => ?_
  simp [dataBytes, blockIndexes, h i (hlen ▸ hi), hi]

/-- A block whose bytes have values is encoded. -/
theorem encodeBlock_ok_of_bytes {bytes : List Byte} (hlen : bytes.length = blkLen v b)
    (h : ∀ i < blkLen v b, tmp.read (blkOff v b + i) = bytes[i]?) : ∃ r, encodeBlock v b tmp = .ok r := by
  have hsome : ∀ a ∈ blockIndexes v b, (tmp.read a).isSome := fun a ha => by
    obtain ⟨hlo, hhi⟩ := mem_blockIndexes.mp ha
    obtain ⟨i, rfl⟩ := Nat.exists_eq_add_of_le hlo
    rw [h i (by omega), List.getElem?_eq_getElem (by omega)]
    rfl
  rw [encodeBlock, Memory.fetchAll_ok hsome]
  exact ⟨_, rfl⟩

theorem dataBytes_congr {tmp' : Memory} (hb : b < nblk v) (h : ∀ a < cap v, tmp'.read a = tmp.read a) :
    dataBytes v b tmp' = dataBytes v b tmp := by
  have hend := blkOff_add_blkLen_le hb
  refine List.map_congr_left fun a ha => ?_
  rw [mem_blockIndexes] at ha
  rw [h a (by omega)]

theorem encodeBlock_read_data {r : Vector Byte Config.maxEc × Memory} (h : encodeBlock v b tmp = .ok r) {a : Nat}
    (ha : a < cap v) : r.2.read a = tmp.read a := by
  have hcap := cap_le_eccOff v b
  rw [encodeBlock_read h, if_neg (by omega)]

theorem encodeBlock_read_ecc {r : Vector Byte Config.maxEc × Memory} (h : encodeBlock v b tmp = .ok r) {i : Nat}
    (hi : i < (cat v).k) : r.2.read (eccOff v b + i) = some (remAt r.1 i) := by
  rw [encodeBlock_read h, if_pos (by omega), Nat.add_sub_cancel_left]

/-- The codeword of an encoded block is its data followed by their remainder (R190). -/
theorem codeword_of_encodeBlock {r : Vector Byte Config.maxEc × Memory} (hb : b < nblk v)
    (h : encodeBlock v b tmp = .ok r) :
    codeword v b r.2 =
      dataBytes v b tmp ++ remBytes (cat v).k (feedAll (cat v).k remZero (dataBytes v b tmp)) := by
  have hdata : dataBytes v b r.2 = dataBytes v b tmp := dataBytes_congr hb fun a => encodeBlock_read_data h
  rw [codeword, List.map_append, ← encodeBlock_rem h, ← hdata]
  refine congrArg (dataBytes v b r.2 ++ ·) (List.ext_getElem (by simp) fun i hi _ => ?_)
  have hi : i < (cat v).k := by simpa using hi
  simp [remBytes, encodeBlock_read_ecc h hi]

theorem eccOff_add_k_le_of_lt {c : Nat} (h : b < c) : eccOff v b + (cat v).k ≤ eccOff v c := by
  rw [← eccOff_succ]
  exact Nat.add_le_add_left (Nat.mul_le_mul_left _ h) _

/-- The ECC bytes of different blocks do not overlap (R197). -/
theorem eccOff_disjoint {c i : Nat} (hne : c ≠ b) (hi : i < (cat v).k) :
    ¬ (eccOff v c ≤ eccOff v b + i ∧ eccOff v b + i < eccOff v c + (cat v).k) := by
  rcases Nat.lt_or_gt_of_ne hne with h | h <;>
  · have := eccOff_add_k_le_of_lt (v := v) h
    omega

/-- Each listed block's ECC bytes are the remainder of its data bytes as they stood before (R197). -/
theorem encodeBlocks_read_ecc {bs : List Nat} {r : Vector Byte Config.maxEc × Memory}
    (h : encodeBlocks v rem tmp bs = .ok r) (hbs : ∀ b ∈ bs, b < nblk v) (hnodup : bs.Nodup) (hb : b ∈ bs)
    {i : Nat} (hi : i < (cat v).k) :
    r.2.read (eccOff v b + i) = some (remAt (feedAll (cat v).k remZero (dataBytes v b tmp)) i) := by
  induction bs generalizing rem tmp with
  | nil => cases hb
  | cons c bs ih =>
    obtain ⟨rem1, tmp1, henc, hrest⟩ := encodeBlocks_cons h
    obtain ⟨hc, hnodup⟩ := List.nodup_cons.mp hnodup
    rcases List.mem_cons.mp hb with rfl | hmem
    · rw [encodeBlocks_read_other hrest fun c' hc' => eccOff_disjoint (ne_of_mem_of_not_mem hc' hc) hi,
        encodeBlock_read_ecc henc hi, encodeBlock_rem henc]
    · rw [ih hrest (fun c' hc' => hbs c' (by simp [hc'])) hnodup hmem,
        dataBytes_congr (hbs b hb) fun a => encodeBlock_read_data henc]

end Sys2Proof.Machine
end

