-- ==== Proofs/ReedSolomonFamily.lean ====
section
/-! PROOF. Statements O37, O38, O39, O40 and O41 of the family 44_reed_solomon. -/

namespace Sys2Proof.Machine

variable {s t : State}

/-! ### One step -/

theorem exec_rsfeed_of_phase (hp : s.phase ≠ .idle) (d : Byte) :
    exec (.rsfeed d) s = .next { s with
      rem := stepRem (cat s.v).k s.rem d
      result := (remAt (stepRem (cat s.v).k s.rem d) 0).setWidth 32 } := by
  rw [exec_eq_finish, body, doRsfeed_ok.mpr ⟨Phase.one_le.mpr hp, rfl⟩, finish_ok, withResult_toNat]

/-- The bytes behind the divider's k are not touched (R193). -/
theorem remAt_stepRem_of_le {k : Nat} (rem : Vector Byte Config.maxEc) (d : Byte) {j : Nat} (h : k ≤ j) :
    remAt (stepRem k rem d) j = remAt rem j := by
  by_cases hj : j < Config.maxEc
  · rw [remAt_stepRem hj, if_neg (by omega), if_neg (by omega)]
  · rw [remAt_outside (by omega), remAt_outside (by omega)]

/-- Settles O37: the phase is the only check, and the step is read byte by byte. -/
theorem rsclrAndRsfeed : Obligations.RsclrAndRsfeed := by
  refine fun s d => ⟨⟨decode_encode .rsclr, decode_encode (.rsfeed d)⟩, fun hidle => ?idle,
    fun hp => ⟨?clears, ?steps⟩⟩
  case idle =>
    have hno : ¬ 1 ≤ s.phase.toNat := fun h => Phase.one_le.mp h hidle
    exact ⟨finish_require_false hno _ _ _, finish_require_false hno _ _ _⟩
  case clears =>
    exact finish_eq_next_of_ok (doRsclr_ok.mpr ⟨Phase.one_le.mpr hp, rfl⟩)
  case steps =>
    have hk : (cat s.v).k ≤ Config.maxEc := k_le s.v
    refine ⟨_, exec_rsfeed_of_phase hp d, rfl, fun j hj => ?_, fun j hj => ?_, fun j => remAt_stepRem_of_le _ _⟩
    · rw [remAt_stepRem (by omega), if_pos hj]
    · rw [remAt_stepRem (by omega), if_neg (by omega), if_pos hj]

/-! ### RSBLK and RSALL -/

/-- Settles O38: the four checks in their order, then the state after the block. -/
theorem rsblkEncodesOneBlock : Obligations.RsblkEncodesOneBlock := by
  refine fun s b => ⟨decode_encode (.rsblk b), ?sequence, ?operand, ?turn, ?size,
    fun bytes hp hb hnext hsize hlen hread => ?encodes⟩
  case sequence => exact fun hp => finish_require_false hp _ _ _
  case operand =>
    exact fun hp hb => (finish_require_true hp _ _ _).trans (finish_require_false (Nat.not_lt.mpr hb) _ _ _)
  case turn =>
    exact fun hp hb hnext => (finish_require_true hp _ _ _).trans <|
      (finish_require_true hb _ _ _).trans (finish_require_false hnext _ _ _)
  case size =>
    exact fun hp hb hnext hsize => (finish_require_true hp _ _ _).trans <| (finish_require_true hb _ _ _).trans <|
      (finish_require_true hnext _ _ _).trans (finish_require_false (Nat.not_le.mpr hsize) _ _ _)
  case encodes =>
    obtain ⟨r, henc⟩ := encodeBlock_ok_of_bytes hlen hread
    refine ⟨s.afterBlock b.toNat r, ?_, State.afterBlock_rsNext s hb r, ?_, ?_,
      fun i => encodeBlock_read_ecc henc, fun a ha => ?_⟩
    · rw [exec_rsblk_of_checks hp hb hnext hsize, henc, orHalt_ok, ok_bind, finish_ok]
    · rw [State.afterBlock, hp]
      rfl
    · exact (encodeBlock_rem henc).trans (by rw [dataBytes_eq hlen hread]; rfl)
    · exact (encodeBlock_read henc a).trans (if_neg (by omega))

/-- Settles O39: the two checks, the repetition of RSBLK, and the blocks that the loop leaves in TMP. -/
theorem rsallIsTheRemainingBlocks : Obligations.RsallIsTheRemainingBlocks := by
  refine fun s => ⟨decode_encode .rsall, ?sequence, ?size, fun hp hsize he hlt => ?repeats,
    fun hp hsize hw => ?completes⟩
  case sequence => exact fun hp => finish_require_false hp _ _ _
  case size =>
    exact fun hp hsize => (finish_require_true hp _ _ _).trans (finish_require_false (Nat.not_le.mpr hsize) _ _ _)
  case repeats =>
    obtain ⟨m, hm⟩ : ∃ m, nblk s.v - s.rsNext.toNat = m + 1 := ⟨nblk s.v - s.rsNext.toNat - 1, by omega⟩
    rw [hm]
    exact exec_rsall_eq_runCommands hp hsize he (by omega)
  case completes =>
    have hn := nblk_le s.v
    have hbs : ∀ b ∈ List.range' s.rsNext.toNat (nblk s.v - s.rsNext.toNat), b < nblk s.v := fun b hb => by
      rw [List.mem_range'_1] at hb
      omega
    obtain ⟨r, henc⟩ := encodeBlocks_ok hbs s.rem hw
    refine ⟨s.afterAllBlocks r, ?_, toNat_ofNat_32 (by omega), rfl, fun a ha => ?_, fun b hlo hhi i hi => ?_⟩
    · rw [exec_rsall_of_checks hp hsize, henc, orHalt_ok, ok_bind, finish_ok]
    · refine encodeBlocks_read_other henc fun b hb => ?_
      have hcap := cap_le_eccOff s.v b
      have hend := eccOff_add_k_le (hbs b hb)
      omega
    · exact encodeBlocks_read_ecc henc hbs List.nodup_range' (List.mem_range'_1.mpr ⟨hlo, by omega⟩) hi

/-! ### The codeword -/

/-- The codeword that RSBLK leaves in TMP, fed to the divider, leaves remainder zero. -/
theorem remAt_feedAll_codeword_of_rsblk {b : Byte} (h : exec (.rsblk b) s = .next t) (he : t.err = false) :
    ∀ i < (cat s.v).k, remAt (feedAll (cat s.v).k remZero (codeword s.v b.toNat t.tmp)) i = 0 := by
  obtain ⟨hb, r, henc, rfl⟩ := doRsblk_eq_afterBlock (body_ok_of_exec h he)
  intro i hi
  rw [show (s.afterBlock b.toNat r).tmp = r.2 from rfl, codeword_of_encodeBlock hb henc]
  exact remAt_feedAll_codeword (k_le s.v) _ _ hi

/-- Settles O40: the ECC bytes are the remainder of the data bytes, and shift themselves out of the register. -/
theorem codewordLeavesZeroRemainder : Obligations.CodewordLeavesZeroRemainder :=
  fun _ _ _ _ _ _ h he => remAt_feedAll_codeword_of_rsblk h he

/-- Settles O41: at a root of the generator the value of the codeword, times x^k, is that of its remainder, which is
zero. -/
theorem codewordVanishesAtTheRoots : Obligations.CodewordVanishesAtTheRoots := by
  intro s t b h1 h40 _ h he i hi
  have hk := k_le s.v
  rw [gfexp_eq_alphaPow (by omega)]
  exact polyAt_eq_zero_of_feedAll (cat_k_mem s.v (by omega) h1) hi (remAt_feedAll_codeword_of_rsblk h he)

end Sys2Proof.Machine
end

