-- ==== Proofs/InternalUnreachable.lean ====
section
/-! PROOF. Statement O21: no step takes the fault INTERNAL (spec/45_matrix_builder.md R234). -/

namespace Sys2Proof.Machine

variable {s t u : State}

/-! ### Which faults a body raises -/

/-- A body but GENERATE's raises the faults of the table, in the state that the command starts in (R293, R295). -/
theorem body_raisesOnly {i : Instr} (hgen : i ≠ .generate) (s : State) : raisesOnly (faultsOf i) s (body i s) := by
  cases i with
  | generate => exact absurd rfl hgen
  | clear => exact doClear_raises s
  | maxsz _ | gfmul _ _ | gfexp _ => exact raisesOnly_ok _ _ _
  | gfdiv _ _ | gfinv _ | gflog _ => exact domainResult_raises _ s
  | vset v => exact doVset_raises v s
  | vcap v => exact doVcap_raises v s
  | vpar v => exact doVpar_raises v s
  | vsel => exact doVsel_raises s
  | pkinit => exact doPkinit_raises s
  | pkbin src => exact doPkbin_raises src s
  | pknum src => exact doPknum_raises src s
  | pkterm => exact doPkterm_raises s
  | rsclr => exact doRsclr_raises s
  | rsfeed d => exact doRsfeed_raises d s
  | rsblk b => exact doRsblk_raises b s
  | rsall => exact doRsall_raises s
  | mxinit => exact doMxinit_raises s
  | mxfind | mxtime | mxalign | mxrsvd | mxfmt | mxver => exact plotStep_raises _ _ _ _ s
  | mxdata => exact doMxdata_raises s
  | ilvrd n => exact doIlvrd_raises n s
  | cellclass r c => exact doCellclass_raises r c s
  | mask => exact doMask_raises s

theorem internal_not_mem_faultsOf {i : Instr} (hgen : i ≠ .generate) (hdata : i ≠ .mxdata) :
    FaultCode.internal ∉ faultsOf i := by
  cases i with
  | generate => exact absurd rfl hgen
  | mxdata => exact absurd rfl hdata
  | _ => simp [faultsOf]

/-! ### Where INTERNAL is raised -/

/-- INTERNAL is raised only in RESERVED, with a version whose Data cells do not hold the stream (R234). -/
def Attempt.InternalOutside (a : Attempt) : Prop :=
  ∀ u, a = .error (.raise .internal u) →
    u.phase = .reserved ∧ ¬ (8 * tot u.v ≤ (cellOrder u.v).length ∧ (cellOrder u.v).length < 8 * tot u.v + 8)

theorem internalOutside_of_raisesOnly {codes : List FaultCode} {a : Attempt} (hr : raisesOnly codes s a)
    (hc : .internal ∉ codes) : a.InternalOutside :=
  fun u hu => absurd (hr _ u hu).2 hc

theorem internalOutside_bind {a : Attempt} {k : State → Attempt} (ha : a.InternalOutside)
    (hk : ∀ t, (k t).InternalOutside) : Attempt.InternalOutside (a >>= k) := by
  intro u hu
  rcases attempt_bind_raise.mp hu with hu | ⟨t, -, hu⟩
  · exact ha u hu
  · exact hk t u hu

theorem internalOutside_require {p : Prop} [Decidable p] {f : FaultCode} {k : Unit → Attempt} (hf : f ≠ .internal)
    (hk : (k ()).InternalOutside) : Attempt.InternalOutside (require p f s >>= k) := by
  intro u hu
  rcases require_bind_raise.mp hu with ⟨-, he, -⟩ | ⟨-, hu⟩
  · exact absurd he.symm hf
  · exact hk u hu

theorem doMxdata_internalOutside (s : State) : (doMxdata s).InternalOutside := by
  intro u hu
  simp only [doMxdata, require_bind_raise, orHalt_bind_raise, reduceCtorEq, false_and, and_false, false_or, exists_false,
    or_false, true_and] at hu
  obtain ⟨hp, -, -, hlen, rfl⟩ := hu
  exact ⟨hp, hlen⟩

theorem plotStep_internalOutside (need next : Phase) (plots : List Plot) (n : Nat) (s : State) :
    (plotStep need next plots n s).InternalOutside :=
  internalOutside_of_raisesOnly (plotStep_raises _ _ _ _ _) (by decide)

theorem doSegments_internalOutside (s : State) : (doSegments s).InternalOutside := by
  unfold doSegments
  split
  · exact internalOutside_bind (internalOutside_of_raisesOnly (doPkbin_raises _ _) (by decide)) fun u =>
      internalOutside_of_raisesOnly (doPknum_raises _ u) (by decide)
  · exact internalOutside_of_raisesOnly (doPkbin_raises _ _) (by decide)

theorem doMatrix_internalOutside (s : State) : (doMatrix s).InternalOutside := by
  refine internalOutside_bind (internalOutside_of_raisesOnly (doMxinit_raises _) (by decide)) fun s => ?_
  iterate 4 refine internalOutside_bind (plotStep_internalOutside _ _ _ _ _) fun s => ?_
  refine internalOutside_bind (doMxdata_internalOutside _) fun s => ?_
  refine internalOutside_bind (plotStep_internalOutside _ _ _ _ _) fun s => ?_
  exact plotStep_internalOutside _ _ _ _ _

theorem doPipeline_internalOutside (s : State) : (doPipeline s).InternalOutside := by
  refine internalOutside_bind (internalOutside_of_raisesOnly (doVsel_raises _) (by decide)) fun s => ?_
  refine internalOutside_bind (internalOutside_of_raisesOnly (doPkinit_raises _) (by decide)) fun s => ?_
  refine internalOutside_bind (doSegments_internalOutside _) fun s => ?_
  refine internalOutside_bind (internalOutside_of_raisesOnly (doPkterm_raises _) (by decide)) fun s => ?_
  refine internalOutside_bind (internalOutside_of_raisesOnly (doRsall_raises _) (by decide)) fun s => ?_
  refine internalOutside_bind (doMatrix_internalOutside _) fun s => ?_
  exact internalOutside_of_raisesOnly (doMask_raises _) (by decide)

theorem doGenerate_internalOutside (s : State) : (doGenerate s).InternalOutside := by
  unfold doGenerate
  refine internalOutside_require (by decide) (internalOutside_require (by decide)
    (internalOutside_require (by decide) ?_))
  exact internalOutside_bind (doPipeline_internalOutside s) fun u =>
    internalOutside_of_raisesOnly (raisesOnly_ok [] u _) (by decide)

theorem body_internalOutside (i : Instr) (s : State) : (body i s).InternalOutside := by
  by_cases hgen : i = .generate
  · subst hgen
    exact doGenerate_internalOutside s
  by_cases hdata : i = .mxdata
  · subst hdata
    exact doMxdata_internalOutside s
  · exact internalOutside_of_raisesOnly (body_raisesOnly hgen s) (internal_not_mem_faultsOf hgen hdata)

/-! ### From a state of the invariant -/

theorem body_not_internal {i : Instr} (hw : s.WorkInv) : body i s ≠ .error (.raise .internal u) := by
  intro hu
  obtain ⟨hp, hlen⟩ := body_internalOutside i s u hu
  obtain ⟨h1, h40⟩ := ((body_keeps_workInv i hw).2 _ _ hu).versioned (by rw [hp]; decide)
  exact hlen (cellOrder_length_bounds h1 h40)

theorem body_ok_fatal {i : Instr} (h : body i s = .ok t) : t.fatal = s.fatal := by
  by_cases hclear : i = .clear
  · subst hclear
    rw [doClear_ok.mp h]
    split
    · rfl
    · exact State.clearFault_fatal s
  · exact (body_sameHost hclear h).fatal

theorem exec_fatal_eq_false {i : Instr} (hw : s.WorkInv) (hf : s.fatal = false) (h : exec i s = .next t) :
    t.fatal = false := by
  rw [exec_eq_finish] at h
  rcases finish_next.mp h with ht | ⟨c, u, hu, rfl⟩
  · exact (body_ok_fatal ht).trans hf
  · have hc : c ≠ .internal := by
      rintro rfl
      exact body_not_internal hw hu
    rw [State.takeFault_fatal, (body_raise hu).1.fatal, hf, Bool.false_or, beq_eq_false_iff_ne]
    exact hc

/-- Settles O21: the walk is as long as MXDATA checks; so a body raises INTERNAL only with a version that the invariant
rules out, and of the effects of a step only that fault sets FATAL. -/
theorem internalIsUnreachable : Obligations.InternalIsUnreachable := by
  refine ⟨fun v => cellOrder_length_bounds, fun s t hinv hf hstep => ?_⟩
  cases step_effect hstep with
  | hostFields => exact hf
  | memoryByte rest sp a b => cases sp <;> exact hf
  | reset rest => rfl
  | illegalWord rest w => rw [State.takeFault_fatal, State.latchCmd_fatal, hf]; rfl
  | command rest w i t _ _ hexec =>
    exact exec_fatal_eq_false (s := { s with host := rest }.latchCmd w) (State.inv_iff.mp hinv).2 hf hexec

end Sys2Proof.Machine
end

