-- ==== Proofs/PlottedModules.lean ====
section
/-! SUPPORT. What the steps that write modules have in common: their two checks, the modules that they write, and what they
leave alone (spec/45_matrix_builder.md R216, R217, R220, R223, R238, R242). -/

namespace Sys2Proof.Machine

variable {s : State} {need next : Phase} {plots : List Plot} {n : Nat}

/-! ### The checks -/

theorem plotStep_sequence (next : Phase) (plots : List Plot) (n : Nat) (hp : s.phase ≠ need) :
    finish (plotStep need next plots n s) = .next (s.takeFault .sequence) :=
  finish_require_false hp _ _ _

theorem plotStep_bufferTooSmall (next : Phase) (plots : List Plot) (n : Nat) (hp : s.phase = need)
    (hsize : s.outSize.toNat < img s.v) :
    finish (plotStep need next plots n s) = .next (s.takeFault .bufferTooSmall) :=
  (finish_require_true hp _ _ _).trans (finish_require_false (Nat.not_le.mpr hsize) _ _ _)

/-! ### The modules -/

/-- Modules inside the grid can be written once MXINIT has given the bitmap its bytes (R66). -/
theorem plotAll_ok_of_written {v : Nat} {m : Memory} (hw : m.written (img v))
    (hgrid : ∀ p ∈ plots, p.r < width v ∧ p.c < width v) : ∃ out, plotAll (stride v) m plots = .ok out :=
  plotAll_ok fun p hp => hw _ (cell_index_lt (hgrid p hp).1 (hgrid p hp).2)

theorem plotStep_completes (next : Phase) (n : Nat) (hp : s.phase = need) (hsize : img s.v ≤ s.outSize.toNat)
    (hw : s.out.written (img s.v)) (hgrid : ∀ p ∈ plots, p.r < width s.v ∧ p.c < width s.v) :
    ∃ out, plotAll (stride s.v) s.out plots = .ok out ∧
      finish (plotStep need next plots n s) = .next ({ s with out := out, phase := next }.withResult n) := by
  obtain ⟨out, hplot⟩ := plotAll_ok_of_written hw hgrid
  exact ⟨out, hplot, finish_eq_next_of_ok (plotStep_ok.mpr ⟨hp, hsize, out, hplot, rfl⟩)⟩

/-- A module of the list holds its bit when all entries of the list that name its cell agree. -/
theorem plotAll_moduleAt_mem {v : Nat} {m out : Memory} (hplot : plotAll (stride v) m plots = .ok out)
    (hgrid : ∀ p ∈ plots, p.r < width v ∧ p.c < width v) {r c : Nat} {b : Bool} (hmem : ⟨r, c, b⟩ ∈ plots)
    (hagree : ∀ b', ⟨r, c, b'⟩ ∈ plots → b' = b) : moduleAt out (stride v) r c = some b := by
  refine plotAll_moduleAt hplot (fun p hp => cell_column_lt (hgrid p hp).2) ⟨_, hmem, rfl, rfl⟩ fun p hp hr hc => ?_
  subst hr hc
  exact hagree _ hp

/-- Modules and bytes outside a zone that holds all cells of the list stay. -/
theorem plotAll_frame {v : Nat} {m out : Memory} {zone : Nat → Nat → Prop}
    (hplot : plotAll (stride v) m plots = .ok out) (hgrid : ∀ p ∈ plots, p.r < width v ∧ p.c < width v)
    (hzone : ∀ p ∈ plots, zone p.r p.c) :
    (∀ r c, c < 8 * stride v → ¬ zone r c → moduleAt out (stride v) r c = moduleAt m (stride v) r c) ∧
      ∀ a, (∀ r c, zone r c → moduleIndex (stride v) r c ≠ a) → out.read a = m.read a := by
  refine ⟨fun r c hc hz => ?_, fun a ha => ?_⟩
  · refine plotAll_moduleAt_other hplot (fun p hp => cell_column_lt (hgrid p hp).2) hc ?_
    rintro p hp ⟨rfl, rfl⟩
    exact hz (hzone p hp)
  · exact plotAll_read_other hplot fun p hp he => ha _ _ (hzone p hp) he.symm

end Sys2Proof.Machine
end

