-- ==== Proofs/FunctionPatterns.lean ====
section
/-! PROOF. Statements O42, O43, O44 and O45: the empty bitmap and the function patterns (spec/45_matrix_builder.md R214 to
R220). -/

namespace Sys2Proof.Machine

/-! ### MXINIT -/

/-- Settles O42: the two checks, and the run of zero bytes. -/
theorem mxinitClearsTheBitmap : Obligations.MxinitClearsTheBitmap := by
  refine fun s => ⟨decode_encode .mxinit, ?sequence, ?size, fun hp hsize => ?clears⟩
  case sequence => exact fun hp => finish_require_false hp _ _ _
  case size =>
    exact fun hp hsize => (finish_require_true hp _ _ _).trans (finish_require_false (Nat.not_le.mpr hsize) _ _ _)
  case clears =>
    refine ⟨_, finish_eq_next_of_ok (doMxinit_ok.mpr ⟨hp, hsize, rfl⟩), rfl, fun a ha => ?_, fun a ha => ?_⟩
    · rw [State.withResult_out, Memory.read_writeRun, if_pos (by simpa using ha), Nat.sub_zero,
        List.getElem?_replicate_of_lt ha]
    · rw [State.withResult_out, Memory.read_writeRun, if_neg (by simpa using ha)]

/-! ### MXFIND -/

theorem mem_finderPlots {w r0 c0 : Nat} {p : Plot} :
    p ∈ finderPlots w r0 c0 ↔
      (p.r < w ∧ p.c < w) ∧ (r0 ≤ p.r + 1 ∧ p.r ≤ r0 + 7) ∧ (c0 ≤ p.c + 1 ∧ p.c ≤ c0 + 7) ∧
        p.bit = finderModule r0 c0 p.r p.c := by
  obtain ⟨r, c, b⟩ := p
  simp only [finderPlots, List.mem_flatMap, List.mem_map, List.mem_filter, List.mem_range, Bool.and_eq_true,
    decide_eq_true_eq, Plot.mk.injEq]
  have hbit : ∀ i j, 1 ≤ r0 + i → 1 ≤ c0 + j →
      finderDark (max (absDiff i 4) (absDiff j 4)) = finderModule r0 c0 (r0 + i - 1) (c0 + j - 1) := fun i j hi hj => by
    have e1 : absDiff (r0 + i - 1) (r0 + 3) = absDiff i 4 := by simp only [absDiff]; omega
    have e2 : absDiff (c0 + j - 1) (c0 + 3) = absDiff j 4 := by simp only [absDiff]; omega
    rw [finderModule, e1, e2]
    rfl
  constructor
  · rintro ⟨i, hi, j, ⟨hj, ⟨⟨hi1, hr⟩, hj1⟩, hc⟩, rfl, rfl, rfl⟩
    exact ⟨⟨hr, hc⟩, by omega, by omega, hbit i j hi1 hj1⟩
  · rintro ⟨⟨hr, hc⟩, hr', hc', rfl⟩
    have er : r0 + (r + 1 - r0) - 1 = r := by omega
    have ec : c0 + (c + 1 - c0) - 1 = c := by omega
    exact ⟨r + 1 - r0, by omega, c + 1 - c0, by omega, er, ec, by rw [hbit _ _ (by omega) (by omega), er, ec]⟩

/-- Lines 1 to 3 of R212: the three corners with finder pattern and separator. -/
def finderZone (w r c : Nat) : Prop :=
  (r ≤ 7 ∧ c ≤ 7) ∨ (r ≤ 7 ∧ w - 8 ≤ c ∧ c < w) ∨ (w - 8 ≤ r ∧ r < w ∧ c ≤ 7)

/-- From version 1 on the corners do not meet, so each cell belongs to the pattern of its own corner (R215, R216). -/
theorem mem_allFinderPlots {v : Nat} (h1 : 1 ≤ v) {p : Plot} :
    p ∈ allFinderPlots v ↔
      finderZone (width v) p.r p.c ∧
        p.bit = finderModule (if p.r ≤ 7 then 0 else width v - 7) (if p.c ≤ 7 then 0 else width v - 7) p.r p.c := by
  have hw : 21 ≤ width v := by unfold width; omega
  simp only [allFinderPlots, List.mem_append, mem_finderPlots, finderZone]
  constructor
  · rintro ((⟨hgrid, hr, hc, hb⟩ | ⟨hgrid, hr, hc, hb⟩) | ⟨hgrid, hr, hc, hb⟩)
    · exact ⟨by omega, by rwa [if_pos (by omega), if_pos (by omega)]⟩
    · exact ⟨by omega, by rwa [if_pos (by omega), if_neg (by omega)]⟩
    · exact ⟨by omega, by rwa [if_neg (by omega), if_pos (by omega)]⟩
  · rintro ⟨hz | hz | hz, hb⟩
    · rw [if_pos (by omega), if_pos (by omega)] at hb
      exact .inl (.inl ⟨by omega, by omega, by omega, hb⟩)
    · rw [if_pos (by omega), if_neg (by omega)] at hb
      exact .inl (.inr ⟨by omega, by omega, by omega, hb⟩)
    · rw [if_neg (by omega), if_pos (by omega)] at hb
      exact .inr ⟨by omega, by omega, by omega, hb⟩

/-- Settles O43: the three lists of modules, cell by cell the ring pattern of the cell's own corner. -/
theorem mxfindPlacesTheFinders : Obligations.MxfindPlacesTheFinders := by
  refine fun s => ⟨decode_encode .mxfind, plotStep_sequence _ _ _, plotStep_bufferTooSmall _ _ _,
    fun hp hsize h1 hw => ?_⟩
  obtain ⟨out, hplot, hexec⟩ := plotStep_completes .finders 0 hp hsize hw fun _ => allFinderPlots_range
  obtain ⟨hmodules, hbytes⟩ := plotAll_frame hplot (fun _ => allFinderPlots_range)
    fun p hp => ((mem_allFinderPlots h1).mp hp).1
  refine ⟨_, hexec, rfl, fun r c _ _ hz => ?_, hmodules, hbytes⟩
  exact plotAll_moduleAt_mem hplot (fun _ => allFinderPlots_range) ((mem_allFinderPlots h1).mpr ⟨hz, rfl⟩)
    fun b' hb' => ((mem_allFinderPlots h1).mp hb').2

/-! ### MXTIME -/

/-- Row 6 and column 6 between the finder patterns. -/
def timingZone (w r c : Nat) : Prop :=
  (r = 6 ∧ 8 ≤ c ∧ c ≤ w - 9) ∨ (c = 6 ∧ 8 ≤ r ∧ r ≤ w - 9)

theorem mem_timingPlots_iff {v : Nat} {p : Plot} :
    p ∈ timingPlots v ↔ timingZone (width v) p.r p.c ∧ p.bit = decide ((p.r + p.c) % 2 = 0) := by
  have hw := width_pos v
  obtain ⟨r, c, b⟩ := p
  have hparity : ∀ i, decide ((6 + i) % 2 = 0) = decide (i % 2 = 0) := fun i => decide_eq_decide.mpr (by omega)
  simp only [mem_timingPlots, Plot.mk.injEq, timingZone]
  constructor
  · rintro ⟨i, hi, ⟨rfl, rfl, rfl⟩ | ⟨rfl, rfl, rfl⟩⟩
    · exact ⟨.inl (by omega), (hparity c).symm⟩
    · exact ⟨.inr (by omega), by rw [Nat.add_comm, hparity]⟩
  · rintro ⟨⟨rfl, hc⟩ | ⟨rfl, hr⟩, hb⟩
    · exact ⟨c, by omega, .inl ⟨rfl, rfl, hb.trans (hparity c)⟩⟩
    · rw [Nat.add_comm, hparity] at hb
      exact ⟨r, by omega, .inr ⟨rfl, rfl, hb⟩⟩

/-- Settles O44: 6 is even, so index and sum of row and column have one parity. -/
theorem mxtimePlacesTheTiming : Obligations.MxtimePlacesTheTiming := by
  refine fun s => ⟨decode_encode .mxtime, plotStep_sequence _ _ _, plotStep_bufferTooSmall _ _ _,
    fun hp hsize hw => ?_⟩
  obtain ⟨out, hplot, hexec⟩ := plotStep_completes .timing 0 hp hsize hw fun _ => timingPlots_range
  obtain ⟨hmodules, hbytes⟩ := plotAll_frame hplot (fun _ => timingPlots_range)
    fun p hp => (mem_timingPlots_iff.mp hp).1
  refine ⟨_, hexec, rfl, fun r c hz => ?_, hmodules, hbytes⟩
  exact plotAll_moduleAt_mem hplot (fun _ => timingPlots_range) (mem_timingPlots_iff.mpr ⟨hz, rfl⟩)
    fun b' hb' => (mem_timingPlots_iff.mp hb').2

/-! ### MXALIGN -/

/-- The coordinates of a version are at least 12 apart (R219). -/
theorem alignCoords_apart : ∀ v, v < 41 → ∀ x ∈ alignCoords v, ∀ y ∈ alignCoords v, x < y → x + 12 ≤ y := by
  decide +kernel

/-- All pairs of coordinates but the three on the finder patterns (R211). -/
theorem centres_length : ∀ v, v < 41 →
    (centres v).length = (alignCoords v).length * (alignCoords v).length - 3 ∧ (centres v).length ≤ 46 := by
  decide +kernel

/-- No two patterns meet (R213). -/
theorem centre_eq_of_covered {v r c : Nat} (hv : v ≤ 40) {x y : Nat × Nat} (hx : x ∈ centres v) (hy : y ∈ centres v)
    (hxr : absDiff r x.1 ≤ 2) (hxc : absDiff c x.2 ≤ 2) (hyr : absDiff r y.1 ≤ 2) (hyc : absDiff c y.2 ≤ 2) : x = y := by
  obtain ⟨hx1, hx2, -⟩ := mem_centres.mp hx
  obtain ⟨hy1, hy2, -⟩ := mem_centres.mp hy
  simp only [absDiff] at hxr hxc hyr hyc
  have h1 := alignCoords_apart v (by omega) _ hx1 _ hy1
  have h1' := alignCoords_apart v (by omega) _ hy1 _ hx1
  have h2 := alignCoords_apart v (by omega) _ hx2 _ hy2
  have h2' := alignCoords_apart v (by omega) _ hy2 _ hx2
  exact Prod.ext (by omega) (by omega)

/-- Settles O45: a module belongs to the one centre that covers it. -/
theorem mxalignPlacesThePatterns : Obligations.MxalignPlacesThePatterns := by
  refine fun s => ⟨decode_encode .mxalign, plotStep_sequence _ _ _, plotStep_bufferTooSmall _ _ _,
    fun hp hsize _ h40 hw => ?_⟩
  obtain ⟨out, hplot, hexec⟩ :=
    plotStep_completes .aligned (centres s.v).length hp hsize hw fun _ => allAlignmentPlots_range
  obtain ⟨hmodules, hbytes⟩ := plotAll_frame hplot (fun _ => allAlignmentPlots_range)
    (zone := fun r c => ∃ ctr ∈ centres s.v, absDiff r ctr.1 ≤ 2 ∧ absDiff c ctr.2 ≤ 2) fun p hp =>
      let ⟨ctr, hctr, hr, hc, _⟩ := mem_allAlignmentPlots.mp hp
      ⟨ctr, hctr, hr, hc⟩
  obtain ⟨hcount, hle⟩ := centres_length s.v (by omega)
  have hresult : (BitVec.ofNat 32 (centres s.v).length).toNat = (centres s.v).length := toNat_ofNat_32 (by omega)
  refine ⟨_, hexec, rfl, hresult.trans hcount, hresult, fun ctr hctr r c hr hc => ?_, hmodules, hbytes⟩
  refine plotAll_moduleAt_mem hplot (fun _ => allAlignmentPlots_range)
    (mem_allAlignmentPlots.mpr ⟨ctr, hctr, hr, hc, rfl⟩) fun b' hb' => ?_
  obtain ⟨ctr', hctr', hr', hc', he⟩ := mem_allAlignmentPlots.mp hb'
  rwa [centre_eq_of_covered h40 hctr' hctr hr' hc' hr hc] at he

end Sys2Proof.Machine
end

