-- ==== Proofs/ReservedCells.lean ====
section
/-! PROOF. Statement O49: the Reserved cells are those of the format and version information; and how many they are
(spec/45_matrix_builder.md R212, R213, R222, R237, R241). -/

namespace Sys2Proof.Machine

variable {v r c : Nat}

/-! ### The class Reserved and the alignment patterns -/

/-- Lines 7 to 10 of R212, behind lines 1 to 6. -/
theorem cellClass_reserved_iff :
    cellClass v r c = .reserved ↔
      ¬ (r ≤ 7 ∧ c ≤ 7) ∧ ¬ (r ≤ 7 ∧ width v - 8 ≤ c) ∧ ¬ (width v - 8 ≤ r ∧ c ≤ 7) ∧ ¬ (r = 6 ∨ c = 6) ∧
        ¬ onAlignment v r c = true ∧ ¬ (r = width v - 8 ∧ c = 8) ∧
        (((r = 8 ∧ c ≤ 8) ∨ (c = 8 ∧ r ≤ 8)) ∨ ((r = 8 ∧ width v - 8 ≤ c) ∨ (c = 8 ∧ width v - 7 ≤ r)) ∨
          (7 ≤ v ∧ r ≤ 5 ∧ width v - 11 ≤ c ∧ c ≤ width v - 9) ∨
          (7 ≤ v ∧ c ≤ 5 ∧ width v - 11 ≤ r ∧ r ≤ width v - 9)) := by
  have hor : ∀ p q : Prop, p ∨ ¬ p ∧ q ↔ p ∨ q := fun p q => by tauto
  simp only [cellClass, ite_eq_iff, reduceCtorEq, and_false, and_true, false_or, or_false, hor]

theorem cellClass_of_onAlignment (h : onAlignment v r c = true) : cellClass v r c = .function := by
  simp only [cellClass, h, if_true, ite_self]

theorem alignCoords_ends (h2 : 2 ≤ v) (h40 : v ≤ 40) : 6 ∈ alignCoords v ∧ width v - 7 ∈ alignCoords v := by
  obtain ⟨-, hfirst, hlater⟩ := alignCoords_arithmetic v h2 h40
  have hlast := hlater (v / 7 + 1) (by omega) (by omega)
  rw [Nat.sub_self, Nat.zero_mul, Nat.sub_zero] at hlast
  exact ⟨List.mem_of_getElem? hfirst, List.mem_of_getElem? hlast⟩

/-- A coordinate is the first one, the last one, or well away from both (R219). -/
theorem alignCoords_cases (h40 : v ≤ 40) {x : Nat} (hx : x ∈ alignCoords v) :
    x = 6 ∨ x = width v - 7 ∨ (18 ≤ x ∧ x + 19 ≤ width v) := by
  have h2 : 2 ≤ v := by
    by_contra hlt
    interval_cases v <;> cases hx
  obtain ⟨hfirst, hlast⟩ := alignCoords_ends h2 h40
  have hbound := alignCoord_bounds hx
  have hlow := alignCoords_apart v (by omega) _ hfirst _ hx
  have hhigh := alignCoords_apart v (by omega) _ hx _ hlast
  omega

/-- Lines 6 to 10 of R212: the dark module and the cells of the format and version information. -/
def informationZone (v r c : Nat) : Prop :=
  (r = 8 ∧ (c ≤ 8 ∨ width v - 8 ≤ c)) ∨ (c = 8 ∧ (r ≤ 8 ∨ width v - 8 ≤ r)) ∨
    (7 ≤ v ∧ r ≤ 5 ∧ width v - 11 ≤ c ∧ c ≤ width v - 9) ∨ (7 ≤ v ∧ c ≤ 5 ∧ width v - 11 ≤ r ∧ r ≤ width v - 9)

/-- A centre beside the upper or the left edge is away from the corners, which `Centres` leaves out (R211, R213). -/
theorem centre_away_from_corners (h1 : 1 ≤ v) (h40 : v ≤ 40) {ctr : Nat × Nat} (h : ctr ∈ centres v) :
    (ctr.1 ≤ 10 → 18 ≤ ctr.2 ∧ ctr.2 + 19 ≤ width v) ∧ (ctr.2 ≤ 10 → 18 ≤ ctr.1 ∧ ctr.1 + 19 ≤ width v) := by
  obtain ⟨hcr, hcc, hcorner⟩ := mem_centres.mp h
  have hr := alignCoords_cases h40 hcr
  have hc := alignCoords_cases h40 hcc
  have hw : width v = 4 * v + 17 := rfl
  simp only [onFinder, Bool.or_eq_false_iff, Bool.and_eq_false_iff, beq_eq_false_iff_ne] at hcorner
  constructor <;> omega

theorem not_informationZone_of_onAlignment (h1 : 1 ≤ v) (h40 : v ≤ 40) (h : onAlignment v r c = true) :
    ¬ informationZone v r c := by
  obtain ⟨ctr, hctr, hcover⟩ := List.any_eq_true.mp h
  obtain ⟨hupper, hleft⟩ := centre_away_from_corners h1 h40 hctr
  simp only [Bool.and_eq_true, decide_eq_true_eq] at hcover
  simp only [absDiff] at hcover
  rintro (⟨rfl, hz⟩ | ⟨rfl, hz⟩ | ⟨-, hr, hlo, hhi⟩ | ⟨-, hc, hlo, hhi⟩)
  · have := hupper (by omega)
    omega
  · have := hleft (by omega)
    omega
  · have := hupper (by omega)
    omega
  · have := hleft (by omega)
    omega

/-! ### The cells of the format and version information -/

theorem exists_fmtCell1 : (∃ i < 15, (r, c) = fmtCell1 i) ↔ (r = 8 ∧ c ≤ 8 ∧ c ≠ 6) ∨ (c = 8 ∧ r ≤ 8 ∧ r ≠ 6) := by
  constructor
  · rintro ⟨i, hi, h⟩
    unfold fmtCell1 at h
    split_ifs at h <;> obtain ⟨rfl, rfl⟩ := Prod.mk.inj h <;> omega
  · have hcells : ∀ x ≤ 8, x ≠ 6 → (∃ i < 15, (8, x) = fmtCell1 i) ∧ ∃ i < 15, (x, 8) = fmtCell1 i := by decide
    rintro (⟨rfl, hc, h6⟩ | ⟨rfl, hr, h6⟩)
    · exact (hcells c hc h6).1
    · exact (hcells r hr h6).2

theorem exists_fmtCell2 : (∃ i < 15, (r, c) = fmtCell2 v i) ↔
    (r = 8 ∧ width v - 8 ≤ c ∧ c < width v) ∨ (c = 8 ∧ width v - 7 ≤ r ∧ r < width v) := by
  have hw := width_pos v
  constructor
  · rintro ⟨i, hi, h⟩
    unfold fmtCell2 at h
    split_ifs at h <;> obtain ⟨rfl, rfl⟩ := Prod.mk.inj h <;> omega
  · rintro (⟨rfl, hlo, hhi⟩ | ⟨rfl, hlo, hhi⟩)
    · exact ⟨width v - 1 - c, by omega, by rw [fmtCell2, if_pos (by omega)]; exact Prod.ext rfl (by simp only; omega)⟩
    · exact ⟨r + 15 - width v, by omega, by rw [fmtCell2, if_neg (by omega)]; exact Prod.ext (by simp only; omega) rfl⟩

theorem exists_versionCell {w : Nat} (hw : 17 ≤ w) :
    (∃ i < 18, r = i / 3 ∧ c = w - 11 + i % 3) ↔ r ≤ 5 ∧ w - 11 ≤ c ∧ c ≤ w - 9 := by
  constructor
  · rintro ⟨i, hi, rfl, rfl⟩
    omega
  · exact fun h => ⟨3 * r + (c - (w - 11)), by omega, by omega, by omega⟩

/-- The cells of both copies of the format word (R237). -/
def formatCells (v : Nat) : List (Nat × Nat) :=
  (List.range 15).map fmtCell1 ++ (List.range 15).map (fmtCell2 v)

/-- The cells of both version-information blocks (R241). -/
def versionCells (v : Nat) : List (Nat × Nat) :=
  (List.range 18).map (fun i => (i / 3, width v - 11 + i % 3)) ++
    (List.range 18).map fun i => (width v - 11 + i % 3, i / 3)

/-- The format cells, and from version 7 on the version-information cells. -/
def informationCells (v : Nat) : List (Nat × Nat) :=
  formatCells v ++ if 7 ≤ v then versionCells v else []

theorem mem_map_range {n : Nat} {f : Nat → Nat × Nat} {rc : Nat × Nat} :
    rc ∈ (List.range n).map f ↔ ∃ i < n, rc = f i := by
  simp only [List.mem_map, List.mem_range, eq_comm]

theorem mem_informationCells {rc : Nat × Nat} :
    rc ∈ informationCells v ↔
      (∃ i < 15, rc = fmtCell1 i ∨ rc = fmtCell2 v i) ∨
        (7 ≤ v ∧ ∃ i < 18, rc = (i / 3, width v - 11 + i % 3) ∨ rc = (width v - 11 + i % 3, i / 3)) := by
  simp only [informationCells, formatCells, versionCells, List.mem_append, List.mem_ite_nil_right, mem_map_range, and_or_left, exists_or]

theorem informationCells_range {rc : Nat × Nat} (h : rc ∈ informationCells v) : rc.1 < width v ∧ rc.2 < width v := by
  have hw := width_pos v
  rcases mem_informationCells.mp h with ⟨i, hi, rfl | rfl⟩ | ⟨-, i, hi, rfl | rfl⟩
  · exact fmtCell1_range hi
  · exact fmtCell2_range hi
  · constructor <;> simp only <;> omega
  · constructor <;> simp only <;> omega

theorem mem_informationCells_iff (hr : r < width v) (hc : c < width v) :
    (r, c) ∈ informationCells v ↔
      (r = 8 ∧ c ≤ 8 ∧ c ≠ 6) ∨ (c = 8 ∧ r ≤ 8 ∧ r ≠ 6) ∨ (r = 8 ∧ width v - 8 ≤ c) ∨ (c = 8 ∧ width v - 7 ≤ r) ∨
        (7 ≤ v ∧ r ≤ 5 ∧ width v - 11 ≤ c ∧ c ≤ width v - 9) ∨
        (7 ≤ v ∧ c ≤ 5 ∧ width v - 11 ≤ r ∧ r ≤ width v - 9) := by
  have hw := width_pos v
  have htransposed : (∃ i < 18, r = width v - 11 + i % 3 ∧ c = i / 3) ↔
      c ≤ 5 ∧ width v - 11 ≤ r ∧ r ≤ width v - 9 := by
    simp only [and_comm (a := r = _), exists_versionCell hw]
  rw [mem_informationCells]
  simp only [and_or_left, exists_or, exists_fmtCell1, exists_fmtCell2, Prod.mk.injEq, exists_versionCell hw, htransposed,
    hr, hc, and_true, or_assoc]

theorem cellClass_reserved_iff_mem (h1 : 1 ≤ v) (h40 : v ≤ 40) (hr : r < width v) (hc : c < width v) :
    cellClass v r c = .reserved ↔ (r, c) ∈ informationCells v := by
  have hw : width v = 4 * v + 17 := rfl
  rw [cellClass_reserved_iff, mem_informationCells_iff hr hc]
  constructor
  · rintro ⟨-, -, -, h6, -, -, (h | h) | (h | h) | h | h⟩ <;> omega
  · intro h
    have hal : ¬ onAlignment v r c = true := fun ha =>
      not_informationZone_of_onAlignment h1 h40 ha (by unfold informationZone; omega)
    rcases h with h | h | h | h | h | h <;>
      exact ⟨by omega, by omega, by omega, by omega, hal, by omega, by omega⟩

/-- Settles O49: lines 7 to 10 of R212 name the listed cells, and no alignment pattern reaches one of them or the dark
module. -/
theorem reservedCellsAreTheInformationCells : Obligations.ReservedCellsAreTheInformationCells := by
  refine fun v h1 h40 r c hr hc => ⟨?cells, fun h => ⟨cellClass_of_onAlignment h, ?dark⟩⟩
  case cells => rw [cellClass_reserved_iff_mem h1 h40 hr hc, mem_informationCells]
  case dark =>
    rintro ⟨rfl, rfl⟩
    exact not_informationZone_of_onAlignment h1 h40 h (.inr (.inl ⟨rfl, .inr (Nat.le_refl _)⟩))

/-! ### Each bit has its own cells -/

theorem fmtCell1_inj : ∀ i < 15, ∀ j < 15, fmtCell1 i = fmtCell1 j → i = j := by
  decide

theorem fmtCell2_inj {i j : Nat} (hi : i < 15) (hj : j < 15) (h : fmtCell2 v i = fmtCell2 v j) : i = j := by
  have hw := width_pos v
  unfold fmtCell2 at h
  split_ifs at h <;> rw [Prod.mk.injEq] at h <;> omega

theorem fmtCell1_ne_fmtCell2 (h1 : 1 ≤ v) {i j : Nat} (hi : i < 15) (hj : j < 15) : fmtCell1 i ≠ fmtCell2 v j := by
  intro h
  have hw : width v = 4 * v + 17 := rfl
  have ha := exists_fmtCell1.mp ⟨i, hi, rfl⟩
  have hb := exists_fmtCell2.mp ⟨j, hj, h⟩
  omega

theorem fmtCell_index_unique (h1 : 1 ≤ v) {i j : Nat} (hi : i < 15) (hj : j < 15) {rc : Nat × Nat}
    (hrc : rc = fmtCell1 i ∨ rc = fmtCell2 v i) (hrc' : rc = fmtCell1 j ∨ rc = fmtCell2 v j) : i = j := by
  rcases hrc with rfl | rfl <;> rcases hrc' with h | h
  · exact fmtCell1_inj i hi j hj h
  · exact absurd h (fmtCell1_ne_fmtCell2 h1 hi hj)
  · exact absurd h.symm (fmtCell1_ne_fmtCell2 h1 hj hi)
  · exact fmtCell2_inj hi hj h

/-! ### How many Reserved cells there are -/

theorem nodup_map_range {n : Nat} {f : Nat → Nat × Nat} (h : ∀ i < n, ∀ j < n, f i = f j → i = j) :
    ((List.range n).map f).Nodup :=
  List.Nodup.map_on (fun i hi j hj => h i (List.mem_range.mp hi) j (List.mem_range.mp hj)) List.nodup_range

theorem formatCells_nodup (h1 : 1 ≤ v) : (formatCells v).Nodup := by
  refine List.nodup_append.mpr ⟨nodup_map_range fmtCell1_inj, nodup_map_range fun i hi j hj => fmtCell2_inj hi hj, ?_⟩
  simp only [List.forall_mem_map, List.mem_range]
  exact fun i hi j hj => fmtCell1_ne_fmtCell2 h1 hi hj

theorem versionCells_nodup (h7 : 7 ≤ v) : (versionCells v).Nodup := by
  have hw : width v = 4 * v + 17 := rfl
  refine List.nodup_append.mpr ⟨nodup_map_range ?_, nodup_map_range ?_, ?_⟩
  all_goals
    simp only [List.forall_mem_map, List.mem_range, Prod.mk.injEq, ne_eq]
    intro i hi j hj
    omega

/-- Format cells lie in row 8 or column 8, version cells away from both. -/
theorem formatCells_disjoint_versionCells (h7 : 7 ≤ v) : ∀ x ∈ formatCells v, ∀ y ∈ versionCells v, x ≠ y := by
  rintro ⟨r, c⟩ hx _ hy rfl
  have hw : width v = 4 * v + 17 := rfl
  simp only [formatCells, versionCells, List.mem_append, List.mem_map, List.mem_range, Prod.mk.injEq] at hx hy
  have hformat : r = 8 ∨ c = 8 := by
    rcases hx with ⟨i, hi, h⟩ | ⟨i, hi, h⟩
    · have := exists_fmtCell1.mp ⟨i, hi, h.symm⟩
      omega
    · have := exists_fmtCell2.mp ⟨i, hi, h.symm⟩
      omega
  rcases hy with ⟨i, hi, h⟩ | ⟨i, hi, h⟩ <;> omega

theorem informationCells_nodup (h1 : 1 ≤ v) : (informationCells v).Nodup := by
  unfold informationCells
  split
  · next h7 =>
    exact List.nodup_append.mpr ⟨formatCells_nodup h1, versionCells_nodup h7, formatCells_disjoint_versionCells h7⟩
  · rw [List.append_nil]
    exact formatCells_nodup h1

theorem informationCells_length (v : Nat) : (informationCells v).length = reservedCount v := by
  unfold informationCells reservedCount
  by_cases h7 : 7 ≤ v
  · rw [if_pos h7, if_neg (by omega)]
    rfl
  · rw [if_neg h7, if_pos (by omega)]
    rfl

theorem reservedCells_nodup (v : Nat) : (reservedCells v).Nodup := (allCells_nodup v).filter _

/-- The walk over the grid finds each information cell once (R222). -/
theorem reservedCells_length (h1 : 1 ≤ v) (h40 : v ≤ 40) : (reservedCells v).length = reservedCount v := by
  rw [← informationCells_length]
  refine List.Perm.length_eq ?_
  rw [List.perm_ext_iff_of_nodup (reservedCells_nodup v) (informationCells_nodup h1)]
  intro rc
  rw [mem_reservedCells]
  constructor
  · rintro ⟨⟨hr, hc⟩, h⟩
    exact (cellClass_reserved_iff_mem h1 h40 hr hc).mp h
  · intro h
    obtain ⟨hr, hc⟩ := informationCells_range h
    exact ⟨⟨hr, hc⟩, (cellClass_reserved_iff_mem h1 h40 hr hc).mpr h⟩

end Sys2Proof.Machine
end

