-- ==== Proofs/InformationSteps.lean ====
section
/-! PROOF. Statements O46, O47 and O48: the reserved areas, and the format and version information written into them
(spec/45_matrix_builder.md R221 to R223, R235 to R242). -/

namespace Sys2Proof.Machine

variable {v r c : Nat}

/-! ### MXRSVD -/

/-- The Reserved cells of the grid and the dark module (R221, R222). -/
def reservedZone (v r c : Nat) : Prop :=
  (r < width v ∧ c < width v ∧ cellClass v r c = .reserved) ∨ (r = width v - 8 ∧ c = 8)

theorem not_dark_of_reserved (h : cellClass v r c = .reserved) : ¬ (r = width v - 8 ∧ c = 8) :=
  let ⟨_, _, _, _, _, hdark, _⟩ := cellClass_reserved_iff.mp h
  hdark

theorem mem_reservedPlots_iff {p : Plot} :
    p ∈ reservedPlots v ↔ reservedZone v p.r p.c ∧ p.bit = decide (p.r = width v - 8 ∧ p.c = 8) := by
  obtain ⟨r, c, b⟩ := p
  simp only [mem_reservedPlots, Plot.mk.injEq, reservedZone]
  constructor
  · rintro (⟨⟨⟨hr, hc⟩, hclass⟩, rfl⟩ | ⟨rfl, rfl, rfl⟩)
    · exact ⟨.inl ⟨hr, hc, hclass⟩, (decide_eq_false (not_dark_of_reserved hclass)).symm⟩
    · exact ⟨.inr ⟨rfl, rfl⟩, (decide_eq_true ⟨rfl, rfl⟩).symm⟩
  · rintro ⟨⟨hr, hc, hclass⟩ | hdark, hb⟩
    · exact .inl ⟨⟨⟨hr, hc⟩, hclass⟩, hb.trans (decide_eq_false (not_dark_of_reserved hclass))⟩
    · exact .inr ⟨hdark.1, hdark.2, hb.trans (decide_eq_true hdark)⟩

/-- Settles O46: a cell of the list is Reserved or the dark module, never both, and the Reserved cells are counted as the
format and version cells. -/
theorem mxrsvdReservesTheAreas : Obligations.MxrsvdReservesTheAreas := by
  refine fun s => ⟨decode_encode .mxrsvd, plotStep_sequence _ _ _, plotStep_bufferTooSmall _ _ _,
    fun hp hsize h1 h40 hw => ?_⟩
  obtain ⟨out, hplot, hexec⟩ :=
    plotStep_completes .reserved (reservedCount s.v) hp hsize hw fun _ => reservedPlots_range
  obtain ⟨hmodules, hbytes⟩ := plotAll_frame hplot (fun _ => reservedPlots_range) (zone := reservedZone s.v)
    fun p hp => (mem_reservedPlots_iff.mp hp).1
  have hcount := reservedCells_length h1 h40
  have hbit : ∀ r c, reservedZone s.v r c →
      moduleAt out (stride s.v) r c = some (decide (r = width s.v - 8 ∧ c = 8)) := fun r c hz =>
    plotAll_moduleAt_mem hplot (fun _ => reservedPlots_range) (mem_reservedPlots_iff.mpr ⟨hz, rfl⟩)
      fun b' hb' => (mem_reservedPlots_iff.mp hb').2
  refine ⟨_, hexec, by rw [hcount]; rfl, hcount, fun r c hr hc hclass => ?light, ?dark, hmodules, hbytes⟩
  case light =>
    exact (hbit r c (.inl ⟨hr, hc, hclass⟩)).trans (congrArg some (decide_eq_false (not_dark_of_reserved hclass)))
  case dark =>
    have hrow : 4 * s.v + 9 = width s.v - 8 := rfl
    rw [hrow]
    exact (hbit _ _ (.inr ⟨rfl, rfl⟩)).trans (congrArg some (decide_eq_true ⟨rfl, rfl⟩))

/-! ### MXFMT -/

theorem mem_formatPlots_iff {b : Bool} :
    ⟨r, c, b⟩ ∈ formatPlots v ↔
      ∃ i < 15, ((r, c) = fmtCell1 i ∨ (r, c) = fmtCell2 v i) ∧ b = fmtWord.testBit i := by
  simp only [mem_formatPlots, Plot.mk.injEq, Prod.ext_iff, or_and_right, and_assoc]

theorem mem_formatCells {rc : Nat × Nat} :
    rc ∈ formatCells v ↔ ∃ i < 15, rc = fmtCell1 i ∨ rc = fmtCell2 v i := by
  simp only [formatCells, List.mem_append, mem_map_range, and_or_left, exists_or]

theorem getElem?_map_range_eq_some {n i : Nat} {f : Nat → Nat × Nat} {rc : Nat × Nat}
    (h : ((List.range n).map f)[i]? = some rc) : i < n ∧ rc = f i := by
  obtain ⟨hi, rfl⟩ := List.getElem?_eq_some_iff.mp h
  rw [List.length_map, List.length_range] at hi
  exact ⟨hi, by rw [List.getElem_map, List.getElem_range]⟩

/-- Settles O47: the two tables of cells are the model's, and a cell belongs to one bit of the word. -/
theorem mxfmtWritesBothCopies : Obligations.MxfmtWritesBothCopies := by
  intro s w first second
  have hfirst : first = (List.range 15).map fmtCell1 := rfl
  have hsecond : second = (List.range 15).map (fmtCell2 s.v) := rfl
  have hcells : first ++ second = formatCells s.v := rfl
  rw [hcells, hfirst, hsecond]
  refine ⟨decode_encode .mxfmt, plotStep_sequence _ _ _, plotStep_bufferTooSmall _ _ _, fun hp hsize h1 hw => ?_⟩
  obtain ⟨out, hplot, hexec⟩ := plotStep_completes .formatted fmtWord hp hsize hw fun _ => formatPlots_range
  obtain ⟨hmodules, hbytes⟩ := plotAll_frame hplot (fun _ => formatPlots_range)
    (zone := fun r c => (r, c) ∈ formatCells s.v) fun p hp =>
      let ⟨i, hi, hrc, _⟩ := mem_formatPlots_iff.mp hp
      mem_formatCells.mpr ⟨i, hi, hrc⟩
  refine ⟨_, hexec, rfl, fun i rc hrc => ?_, hmodules, fun a ha => hbytes a fun r c => ha (r, c)⟩
  obtain ⟨hi, hrc⟩ : i < 15 ∧ (rc = fmtCell1 i ∨ rc = fmtCell2 s.v i) := hrc.elim
    (fun h => (getElem?_map_range_eq_some h).imp_right .inl) fun h => (getElem?_map_range_eq_some h).imp_right .inr
  refine plotAll_moduleAt_mem hplot (fun _ => formatPlots_range) (mem_formatPlots_iff.mpr ⟨i, hi, hrc, rfl⟩)
    fun b' hb' => ?_
  obtain ⟨j, hj, hrc', rfl⟩ := mem_formatPlots_iff.mp hb'
  rw [fmtCell_index_unique h1 hj hi hrc' hrc]
  rfl

/-! ### MXVER -/

/-- Both version-information blocks, from version 7 on (R241, R242). -/
def versionZone (v r c : Nat) : Prop :=
  7 ≤ v ∧ ∃ i < 18, (r = i / 3 ∧ c = width v - 11 + i % 3) ∨ (r = width v - 11 + i % 3 ∧ c = i / 3)

theorem mem_versionPlots_iff {b : Bool} :
    ⟨r, c, b⟩ ∈ versionPlots v ↔
      7 ≤ v ∧ ∃ i < 18, ((r = i / 3 ∧ c = width v - 11 + i % 3) ∨ (r = width v - 11 + i % 3 ∧ c = i / 3)) ∧
        b = (verWord v).testBit i := by
  simp only [mem_versionPlots, Plot.mk.injEq, or_and_right, and_assoc]

/-- Settles O48: a cell of the blocks belongs to one bit of the word, and below version 7 there is no cell to write. -/
theorem mxverWritesBothBlocks : Obligations.MxverWritesBothBlocks := by
  refine fun s => ⟨decode_encode .mxver, plotStep_sequence _ _ _, plotStep_bufferTooSmall _ _ _,
    fun hp hsize h1 h40 hw => ?_⟩
  obtain ⟨out, hplot, hexec⟩ := plotStep_completes .versionInfo (verResult s.v) hp hsize hw fun _ => versionPlots_range
  obtain ⟨hmodules, hbytes⟩ := plotAll_frame hplot (fun _ => versionPlots_range) (zone := versionZone s.v) fun p hp =>
    let ⟨h7, i, hi, hrc, _⟩ := mem_versionPlots_iff.mp hp
    ⟨h7, i, hi, hrc⟩
  have hbit : 7 ≤ s.v → ∀ i < 18, ∀ r c,
      (r = i / 3 ∧ c = width s.v - 11 + i % 3) ∨ (r = width s.v - 11 + i % 3 ∧ c = i / 3) →
      moduleAt out (stride s.v) r c = some ((verWord s.v).testBit i) := fun h7 i hi r c hrc => by
    refine plotAll_moduleAt_mem hplot (fun _ => versionPlots_range)
      (mem_versionPlots_iff.mpr ⟨h7, i, hi, hrc, rfl⟩) fun b' hb' => ?_
    obtain ⟨-, j, hj, hrc', rfl⟩ := mem_versionPlots_iff.mp hb'
    have hwidth : width s.v = 4 * s.v + 17 := rfl
    rw [show j = i by omega]
  have hresult : BitVec.ofNat 32 (verResult s.v) = if 7 ≤ s.v then BitVec.ofNat 32 (verWord s.v) else 0 :=
    apply_ite _ _ _ _
  refine ⟨_, hexec, by rw [← hresult]; rfl, fun h7 i hi => ⟨?_, ?_⟩, hmodules, hbytes⟩
  · exact hbit h7 i hi _ _ (.inl ⟨rfl, rfl⟩)
  · exact hbit h7 i hi _ _ (.inr ⟨rfl, rfl⟩)

end Sys2Proof.Machine
end

