-- ==== Proofs/RoundRobin.lean ====
section
/-! PROOF. Statement O50: the order of the interleaved stream (spec/45_matrix_builder.md R225 to R227). -/

namespace Sys2Proof.Machine

variable {v : Nat}

/-! ### Lists of indexes -/

/-- Counting to `m * n` is counting `m` rounds of `n`. -/
theorem map_range_mul {α : Type} (f : Nat → Nat → α) (m n : Nat) :
    (List.range (m * n)).map (fun i => f (i / n) (i % n)) =
      (List.range m).flatMap fun j => (List.range n).map (f j) := by
  induction m with
  | zero => simp
  | succ m ih =>
    rw [Nat.add_mul, Nat.one_mul, List.range_add, List.map_append, ih, List.range_succ, List.flatMap_append,
      List.flatMap_singleton, List.map_map]
    congr 1
    refine List.map_congr_left fun b hb => ?_
    have hb := List.mem_range.mp hb
    simp only [Function.comp_apply, Nat.mul_comm m n, Nat.mul_add_div (by omega : 0 < n), Nat.mul_add_mod,
      Nat.div_eq_of_lt hb, Nat.mod_eq_of_lt hb, Nat.add_zero]

theorem map_range_add {α : Type} (f : Nat → α) (a b : Nat) :
    (List.range (a + b)).map f = (List.range a).map f ++ (List.range b).map fun i => f (a + i) := by
  rw [List.range_add, List.map_append, List.map_map]
  rfl

/-! ### The three parts of the stream -/

theorem cap_eq (v : Nat) : cap v = (cat v).g1s * nblk v + (cat v).g2b := by
  unfold cap nblk
  ring

theorem streamIndex_round {i : Nat} (h : i < (cat v).g1s * nblk v) :
    streamIndex v i = blkOff v (i % nblk v) + i / nblk v := if_pos h

theorem streamIndex_last {i : Nat} (h : i < (cat v).g2b) :
    streamIndex v ((cat v).g1s * nblk v + i) = blkOff v ((cat v).g1b + i) + (cat v).g1s := by
  rw [streamIndex, if_neg (by omega), if_pos (by rw [cap_eq]; omega), Nat.add_sub_cancel_left]

theorem streamIndex_ecc (i : Nat) : streamIndex v (cap v + i) = eccOff v (i % nblk v) + i / nblk v := by
  have hcap := cap_eq v
  rw [streamIndex, if_neg (by omega), if_neg (by omega), Nat.add_sub_cancel_left]
  rfl

/-- Every codeword of the stream lies in the version's part of TMP (R55). -/
theorem streamIndex_lt {i : Nat} (hi : i < tot v) : streamIndex v i < tot v := by
  have hcap := cap_eq v
  have htot := cap_le_tot v
  by_cases hround : i < (cat v).g1s * nblk v
  · have hn : 0 < nblk v := Nat.pos_of_mul_pos_left (Nat.zero_lt_of_lt hround)
    have hslice := blkOff_add_blkLen_le (v := v) (Nat.mod_lt i hn)
    have hj : i / nblk v < (cat v).g1s := Nat.div_lt_of_lt_mul (Nat.mul_comm _ _ ▸ hround)
    have hlen : (cat v).g1s ≤ blkLen v (i % nblk v) := by unfold blkLen; split <;> omega
    rw [streamIndex_round hround]
    omega
  by_cases hdata : i < cap v
  · obtain ⟨t, rfl⟩ := Nat.exists_eq_add_of_le (Nat.le_of_not_lt hround)
    have hslice := blkOff_add_blkLen_le (v := v) (b := (cat v).g1b + t) (by unfold nblk; omega)
    have hlen : blkLen v ((cat v).g1b + t) = (cat v).g1s + 1 := if_neg (by omega)
    rw [streamIndex_last (by omega)]
    omega
  · obtain ⟨t, rfl⟩ := Nat.exists_eq_add_of_le (Nat.le_of_not_lt hdata)
    have ht : t < (cat v).k * nblk v := Nat.lt_of_add_lt_add_left hi
    have hn : 0 < nblk v := Nat.pos_of_mul_pos_left (Nat.zero_lt_of_lt ht)
    have hslice := eccOff_add_k_le (v := v) (Nat.mod_lt t hn)
    have hj : t / nblk v < (cat v).k := Nat.div_lt_of_lt_mul (Nat.mul_comm _ _ ▸ ht)
    rw [streamIndex_ecc]
    omega

/-! ### The rounds -/

/-- In the first rounds every block has a byte left (R225). -/
theorem filter_blkLen_of_lt {j : Nat} (h : j < (cat v).g1s) :
    ((List.range (nblk v)).filter fun b => decide (j < blkLen v b)) = List.range (nblk v) := by
  refine List.filter_eq_self.mpr fun b _ => decide_eq_true ?_
  unfold blkLen
  split <;> omega

/-- In the last round only the longer blocks of group 2 have one (R225). -/
theorem filter_blkLen_last :
    ((List.range (nblk v)).filter fun b => decide ((cat v).g1s < blkLen v b)) =
      (List.range (cat v).g2b).map fun i => (cat v).g1b + i := by
  have hlen : ∀ b, (cat v).g1s < blkLen v b ↔ (cat v).g1b ≤ b := fun b => by
    unfold blkLen
    split <;> omega
  rw [nblk, List.range_add, List.filter_append, List.filter_eq_nil_iff.mpr, List.nil_append, List.filter_eq_self.mpr]
  · intro b hb
    obtain ⟨i, -, rfl⟩ := List.mem_map.mp hb
    exact decide_eq_true ((hlen _).mpr (Nat.le_add_right _ _))
  · intro b hb hlt
    have := (hlen b).mp (of_decide_eq_true hlt)
    have := List.mem_range.mp hb
    omega

/-- Settles O50: the rounds in which every block takes part, the last data round of group 2, and the rounds of ECC. -/
theorem streamIsTheRoundRobin : Obligations.StreamIsTheRoundRobin := by
  intro v _ _
  have hround : (List.range ((cat v).g1s * nblk v)).map (streamIndex v) =
      (List.range (cat v).g1s).flatMap fun j =>
        ((List.range (nblk v)).filter fun b => decide (j < blkLen v b)).map fun b => blkOff v b + j := by
    rw [List.map_congr_left fun i hi => streamIndex_round (List.mem_range.mp hi),
      map_range_mul fun j b => blkOff v b + j]
    exact List.flatMap_congr fun j hj => by rw [filter_blkLen_of_lt (List.mem_range.mp hj)]
  have hlast : (List.range (cat v).g2b).map (fun i => streamIndex v ((cat v).g1s * nblk v + i)) =
      ((List.range (nblk v)).filter fun b => decide ((cat v).g1s < blkLen v b)).map fun b =>
        blkOff v b + (cat v).g1s := by
    rw [filter_blkLen_last, List.map_map]
    exact List.map_congr_left fun i hi => streamIndex_last (List.mem_range.mp hi)
  have hecc : (List.range ((cat v).k * nblk v)).map (fun i => streamIndex v (cap v + i)) =
      (List.range (cat v).k).flatMap fun j => (List.range (nblk v)).map fun b => eccOff v b + j := by
    simp only [streamIndex_ecc]
    exact map_range_mul (fun j b => eccOff v b + j) _ _
  rw [roundRobin, List.range_succ, List.flatMap_append, List.flatMap_singleton, ← hround, ← hlast, ← hecc,
    ← map_range_add, ← cap_eq, ← map_range_add]
  rfl

end Sys2Proof.Machine
end

