-- ==== Proofs/PlacementWalk.lean ====
section
/-! PROOF. Statement O51: the order of the placement walk (spec/45_matrix_builder.md R231). -/

namespace Sys2Proof.Machine

variable {v right : Nat}

/-! ### The column pairs -/

/-- The right columns are odd up to 5 and even above, from an even right edge on: each is the pair of its two columns. -/
theorem columnPairs_parity (m : Nat) : ∀ fuel, m + 3 ≤ fuel → ∀ right ∈ columnPairs fuel (2 * m + 6),
    (right ≤ 5 ∧ right % 2 = 1) ∨ (8 ≤ right ∧ right % 2 = 0) := by
  induction m with
  | zero =>
    intro fuel hf
    rw [Nat.mul_zero, Nat.zero_add, columnPairs_six hf]
    decide
  | succ m ih =>
    intro fuel hf right hr
    obtain ⟨n, rfl⟩ : ∃ n, fuel = n + 1 := ⟨fuel - 1, by omega⟩
    rw [columnPairs_step (by omega), show 2 * (m + 1) + 6 - 2 = 2 * m + 6 by omega, List.mem_cons] at hr
    rcases hr with rfl | hr
    · omega
    · exact ih n (by omega) right hr

theorem pairOf_eq (h : right ∈ columnPairs (width v) (width v - 1)) {c : Nat} (hc : c = right ∨ c + 1 = right) :
    pairOf c = right := by
  have hedge : width v - 1 = 2 * (2 * v + 5) + 6 := by unfold width; omega
  rw [hedge] at h
  have hparity := columnPairs_parity (2 * v + 5) (width v) (by unfold width; omega) right h
  unfold pairOf
  split <;> omega

/-! ### The order of the walk -/

theorem mem_rowCells {r : Nat} {p : Nat × Nat → Bool} (h1 : 1 ≤ right) {x : Nat × Nat}
    (hx : x ∈ [(r, right), (r, right - 1)].filter p) : x.1 = r ∧ (x.2 = right ∨ x.2 + 1 = right) := by
  obtain ⟨hx, -⟩ := List.mem_filter.mp hx
  rcases List.mem_pair.mp hx with rfl | rfl
  · exact ⟨rfl, .inl rfl⟩
  · exact ⟨rfl, .inr (Nat.sub_add_cancel h1)⟩

/-- The cells of one row, and then the rows upward or downward (R231). -/
theorem pairCells_pairwise (h : right ∈ columnPairs (width v) (width v - 1)) :
    (pairCells v right).Pairwise walkedBefore := by
  have h1 := ((columnPairs_width v).2.2 right h).1
  unfold pairCells
  refine List.pairwise_flatMap.mpr ⟨fun t _ => List.Pairwise.filter _ ?row, ?rows⟩
  case row =>
    refine List.pairwise_pair.mpr (.inr ⟨?_, .inr ⟨rfl, Nat.sub_one_lt_of_lt h1⟩⟩)
    rw [pairOf_eq h (.inl rfl), pairOf_eq h (.inr (Nat.sub_add_cancel h1))]
  case rows =>
    refine List.pairwise_lt_range.imp_of_mem fun {t u} _ hu htu x hx y hy => ?_
    obtain ⟨hxr, hxc⟩ := mem_rowCells h1 hx
    obtain ⟨hyr, hyc⟩ := mem_rowCells h1 hy
    have hu := List.mem_range.mp hu
    refine .inr ⟨(pairOf_eq h hxc).trans (pairOf_eq h hyc).symm, .inl ?_⟩
    rw [pairOf_eq h hxc, hxr, hyr]
    simp only [walksUp, decide_eq_true_eq]
    split <;> omega

theorem not_walkedBefore_self (x : Nat × Nat) : ¬ walkedBefore x x := by
  simp [walkedBefore]

/-- Settles O51: the pairs of columns from right to left, and in a pair the rows in its direction. -/
theorem cellOrderIsTheWalk : Obligations.CellOrderIsTheWalk := by
  refine fun v _ _ => ⟨fun r c => mem_cellOrder, ?order, ?irreflexive⟩
  case order =>
    obtain ⟨-, hpairs, hbounds⟩ := columnPairs_width v
    refine List.pairwise_flatMap.mpr ⟨fun right hr => pairCells_pairwise hr, ?_⟩
    refine hpairs.imp_of_mem fun {a b} ha hb hab x hx y hy => .inl ?_
    have hxa := ((mem_pairCells (hbounds a ha).1).mp hx).2.1
    have hyb := ((mem_pairCells (hbounds b hb).1).mp hy).2.1
    rw [pairOf_eq ha hxa, pairOf_eq hb hyb]
    omega
  case irreflexive =>
    rintro x y h rfl
    exact not_walkedBefore_self x h

end Sys2Proof.Machine
end

