-- ==== Proofs/PlacedStream.lean ====
section
/-! PROOF. Statements O52 and O53: the placement of the stream, and the two commands that answer a byte of it or the kind of
a cell (spec/45_matrix_builder.md R228, R232 to R234, R243). -/

namespace Sys2Proof.Machine

variable {s : State}

/-! ### MXDATA -/

theorem streamBytes_ok {v : Nat} {tmp : Memory} (hw : tmp.written (tot v)) : ∃ bytes, streamBytes v tmp = .ok bytes := by
  refine ⟨_, Memory.fetchAll_ok fun a ha => ?_⟩
  obtain ⟨i, hi, rfl⟩ := List.mem_map.mp ha
  exact hw _ (streamIndex_lt (List.mem_range.mp hi))

theorem streamBytes_length {v : Nat} {tmp : Memory} {bytes : List Byte} (h : streamBytes v tmp = .ok bytes) :
    bytes.length = tot v := by
  rw [Memory.fetchAll_length h, List.length_map, List.length_range]

theorem streamBytes_getElem? {v i : Nat} {tmp : Memory} {bytes : List Byte} {x : Byte}
    (h : streamBytes v tmp = .ok bytes) (hi : i < tot v) (hx : tmp.read (streamIndex v i) = some x) :
    bytes[i]? = some x := by
  obtain ⟨-, rfl⟩ := Memory.fetchAll_inv h
  rw [List.getElem?_map, List.getElem?_map, List.getElem?_range hi, Option.map_some, Option.map_some, hx]
  rfl

/-- The cells that MXDATA writes: as many of the walk as the stream has bits (R232, R233). -/
def streamZone (v r c : Nat) : Prop :=
  ∃ i < 8 * tot v, (cellOrder v)[i]? = some (r, c)

theorem streamZone_of_mem_dataPlots {v : Nat} {bytes : List Byte} {p : Plot} (hlen : bytes.length = tot v)
    (h : p ∈ dataPlots (cellOrder v) bytes) : streamZone v p.r p.c := by
  obtain ⟨⟨rc, b⟩, hz, rfl⟩ := List.mem_map.mp h
  obtain ⟨i, hi⟩ := List.mem_iff_getElem?.mp hz
  obtain ⟨hcell, hbit⟩ := List.getElem?_zip_eq_some.mp hi
  have hlt := (List.getElem?_eq_some_iff.mp hbit).1
  rw [flatMap_byteBits_length, hlen] at hlt
  exact ⟨i, hlt, hcell⟩

/-- Settles O52: the four checks in their order; then the stream's bytes all have values, and its bits are paired with the
first cells of the walk. -/
theorem mxdataPlacesTheStream : Obligations.MxdataPlacesTheStream := by
  refine fun s => ⟨decode_encode .mxdata, ?sequence, ?outSize, ?tmpSize, ?internal,
    fun hp hout htmp h1 h40 hwout hwtmp => ?places⟩
  case sequence => exact fun hp => finish_require_false hp _ _ _
  case outSize =>
    exact fun hp hout => (finish_require_true hp _ _ _).trans (finish_require_false (Nat.not_le.mpr hout) _ _ _)
  case tmpSize =>
    exact fun hp hout htmp => (finish_require_true hp _ _ _).trans <| (finish_require_true hout _ _ _).trans
      (finish_require_false (Nat.not_le.mpr htmp) _ _ _)
  case internal =>
    exact fun hp hout htmp hlen => (finish_require_true hp _ _ _).trans <| (finish_require_true hout _ _ _).trans <|
      (finish_require_true htmp _ _ _).trans (finish_require_false hlen _ _ _)
  case places =>
    obtain ⟨bytes, hbytes⟩ := streamBytes_ok hwtmp
    obtain ⟨out, hplot⟩ := plotAll_ok_of_written hwout fun p => dataPlots_range (bytes := bytes)
    obtain ⟨hmodules, hother⟩ := plotAll_frame hplot (fun _ => dataPlots_range) fun p =>
      streamZone_of_mem_dataPlots (streamBytes_length hbytes)
    refine ⟨_, finish_eq_next_of_ok (doMxdata_ok.mpr
      ⟨hp, hout, htmp, cellOrder_length_bounds h1 h40, bytes, hbytes, out, hplot, rfl⟩), rfl,
      fun i rc x hi hc hx => ?_, hmodules, hother⟩
    exact dataPlots_moduleAt hplot hc (streamBytes_getElem? hbytes (by omega) hx)

/-! ### ILVRD and CLASS -/

/-- Settles O53: the checks of each command in their order, and the state that its body names. -/
theorem ilvrdAndClass : Obligations.IlvrdAndClass := by
  refine fun s i r c x => ⟨⟨decode_encode (.ilvrd i), decode_encode (.cellclass r c)⟩, ?phase, ?index, ?size, ?byte,
    ?idle, ?outside, fun hp hin => ?kind⟩
  case phase => exact fun hp => finish_require_false (Nat.not_le.mpr hp) _ _ _
  case index =>
    exact fun hp hi => (finish_require_true hp _ _ _).trans (finish_require_false (Nat.not_lt.mpr hi) _ _ _)
  case size =>
    exact fun hp hi hsize => (finish_require_true hp _ _ _).trans <| (finish_require_true hi _ _ _).trans
      (finish_require_false (Nat.not_le.mpr hsize) _ _ _)
  case byte =>
    intro hp hi hsize hx
    rw [← withResult_toNat]
    exact finish_eq_next_of_ok (doIlvrd_ok.mpr ⟨hp, hi, hsize, x, Memory.fetch_ok.mpr hx, rfl⟩)
  case idle => exact fun hidle => finish_require_false (fun h => Phase.one_le.mp h hidle) _ _ _
  case outside =>
    exact fun hp hout => (finish_require_true (Phase.one_le.mpr hp) _ _ _).trans (finish_require_false hout _ _ _)
  case kind =>
    refine ⟨_, finish_eq_next_of_ok (doCellclass_ok.mpr ⟨Phase.one_le.mpr hp, hin, rfl⟩), rfl, ?_, ?_, ?_⟩ <;>
    · intro h
      rw [h]
      rfl

end Sys2Proof.Machine
end

