-- ==== Proofs/MaskFamily.lean ====
section
/-! PROOF. Statements O54 and O55: what the mask inverts, and that a second mask undoes it (spec/46_masker.md R260 to
R263). -/

namespace Sys2Proof.Machine

variable {v r c : Nat} {m m' m'' : Memory}

/-! ### A byte is its eight modules -/

theorem byteModule_ext {x y : Byte} (h : ∀ c < 8, byteModule x c = byteModule y c) : x = y := by
  refine BitVec.eq_of_getLsbD_eq fun i hi => ?_
  have hbit := h (7 - i) (by omega)
  rwa [byteModule, byteModule, show 7 - (7 - i) % 8 = i by omega] at hbit

theorem option_byteModule_ext {x y : Option Byte}
    (h : ∀ c < 8, (x.map fun b => byteModule b c) = y.map fun b => byteModule b c) : x = y := by
  match x, y, h with
  | none, none, _ => rfl
  | some _, some _, h => exact congrArg some (byteModule_ext fun c hc => Option.some.inj (h c hc))
  | none, some _, h => cases h 0 (by decide)
  | some _, none, h => cases h 0 (by decide)

/-- Every index of OUT is the byte of eight columns of some row (R59). -/
theorem moduleAt_of_index (stride : Nat) (m : Memory) (a : Nat) (hc : c < 8) :
    moduleAt m stride (a / stride) (8 * (a % stride) + c) = (m.read a).map fun x => byteModule x c := by
  have hindex : moduleIndex stride (a / stride) (8 * (a % stride) + c) = a := by
    rw [moduleIndex, Nat.mul_add_div (by decide), Nat.div_eq_of_lt hc, Nat.add_zero, Nat.div_add_mod']
  simp only [moduleAt, hindex, byteModule, Nat.mul_add_mod]

/-- Two memories with the same modules, padding bits included, have the same bytes. -/
theorem read_eq_of_moduleAt_eq {stride : Nat} (hstride : 0 < stride)
    (h : ∀ r c, c < 8 * stride → moduleAt m' stride r c = moduleAt m stride r c) (a : Nat) :
    m'.read a = m.read a := by
  refine option_byteModule_ext fun c hc => ?_
  have hmod := Nat.mod_lt a hstride
  rw [← moduleAt_of_index stride m' a hc, ← moduleAt_of_index stride m a hc, h _ _ (by omega)]

/-! ### One run of the mask loop -/

/-- The loop inverts the cells of its list and no other module (R261). -/
theorem flipAll_maskedCells_moduleAt (h : flipAll (stride v) m (maskedCells v) = .ok m') (hc : c < 8 * stride v) :
    moduleAt m' (stride v) r c =
      (moduleAt m (stride v) r c).map fun b => b ^^ decide ((r, c) ∈ maskedCells v) :=
  flipAll_moduleAt h (maskedCells_nodup v) (fun _ hrc => cell_column_lt (mem_maskedCells.mp hrc).1.2) hc

theorem flipAll_maskedCells_moduleAt_mem (h : flipAll (stride v) m (maskedCells v) = .ok m')
    (hmem : (r, c) ∈ maskedCells v) :
    moduleAt m' (stride v) r c = (moduleAt m (stride v) r c).map (!·) := by
  rw [flipAll_maskedCells_moduleAt h (cell_column_lt (mem_maskedCells.mp hmem).1.2)]
  simp only [hmem, decide_true, Bool.xor_true]

theorem flipAll_maskedCells_moduleAt_other (h : flipAll (stride v) m (maskedCells v) = .ok m')
    (hc : c < 8 * stride v) (hmem : (r, c) ∉ maskedCells v) :
    moduleAt m' (stride v) r c = moduleAt m (stride v) r c := by
  rw [flipAll_maskedCells_moduleAt h hc]
  simp only [hmem, decide_false, Bool.xor_false, Option.map_id']

theorem flipAll_maskedCells_ok_of_written (hw : m.written (img v)) :
    ∃ out, flipAll (stride v) m (maskedCells v) = .ok out :=
  flipAll_ok fun _ hrc =>
    have hgrid := (mem_maskedCells.mp hrc).1
    hw _ (cell_index_lt hgrid.1 hgrid.2)

/-- Settles O54: the zone of the statement is the list of the model's loop. -/
theorem maskInvertsTheEvenDataCells : Obligations.MaskInvertsTheEvenDataCells := by
  refine fun s => ⟨decode_encode .mask, ?sequence, ?size, fun hp hsize _ hw => ?inverts⟩
  case sequence => exact fun hp => finish_require_false hp _ _ _
  case size =>
    exact fun hp hsize => (finish_require_true hp _ _ _).trans (finish_require_false (Nat.not_le.mpr hsize) _ _ _)
  case inverts =>
    obtain ⟨out, hflip⟩ := flipAll_maskedCells_ok_of_written hw
    refine ⟨_, finish_eq_next_of_ok (doMask_ok.mpr ⟨hp, hsize, out, hflip, rfl⟩), rfl, fun r c hz => ?_,
      fun r c hc hz => ?_, fun a ha => ?_⟩
    · exact flipAll_maskedCells_moduleAt_mem hflip (mem_maskedCells.mpr hz)
    · exact flipAll_maskedCells_moduleAt_other hflip hc (hz ∘ mem_maskedCells.mp)
    · exact flipAll_read_other hflip fun rc hrc he => ha _ _ (mem_maskedCells.mp hrc) he.symm

/-! ### Two runs of the mask loop -/

theorem flipAll_maskedCells_twice (h : flipAll (stride v) m (maskedCells v) = .ok m')
    (h' : flipAll (stride v) m' (maskedCells v) = .ok m'') (hc : c < 8 * stride v) :
    moduleAt m'' (stride v) r c = moduleAt m (stride v) r c := by
  rw [flipAll_maskedCells_moduleAt h' hc, flipAll_maskedCells_moduleAt h hc, Option.map_map]
  simp only [Function.comp_def, Bool.xor_assoc, Bool.xor_self, Bool.xor_false, Option.map_id']

theorem map_not_ne_self {o : Option Bool} : o.map (!·) ≠ o ↔ o.isSome = true := by
  cases o <;> simp

theorem moduleAt_isSome (m : Memory) (stride r c : Nat) :
    (moduleAt m stride r c).isSome = (m.read (moduleIndex stride r c)).isSome :=
  Option.isSome_map

/-- A cell of the list changes when its byte has a value, and no other module changes (R263). -/
theorem flipAll_maskedCells_changes_iff (h : flipAll (stride v) m (maskedCells v) = .ok m') (hc : c < 8 * stride v) :
    moduleAt m' (stride v) r c ≠ moduleAt m (stride v) r c ↔
      (r, c) ∈ maskedCells v ∧ (m.read (moduleIndex (stride v) r c)).isSome = true := by
  by_cases hmem : (r, c) ∈ maskedCells v
  · rw [flipAll_maskedCells_moduleAt_mem h hmem, map_not_ne_self, moduleAt_isSome]
    exact (and_iff_right hmem).symm
  · exact iff_of_false (fun hne => hne (flipAll_maskedCells_moduleAt_other h hc hmem)) fun hin => hmem hin.1

theorem stride_pos (v : Nat) : 0 < stride v := by
  have := width_pos v
  have := width_le_stride v
  omega

/-- Settles O55: two inversions of a module cancel, and the modules of a row determine its bytes. -/
theorem maskIsItsOwnInverse : Obligations.MaskIsItsOwnInverse := by
  refine fun v m m' m'' h h' => ⟨?bytes, fun r c hr hc => ?changes⟩
  case bytes => exact read_eq_of_moduleAt_eq (stride_pos v) fun r c hc => flipAll_maskedCells_twice h h' hc
  case changes =>
    rw [flipAll_maskedCells_changes_iff h (cell_column_lt hc), mem_maskedCells]
    simp only [hr, hc, true_and, and_assoc]

end Sys2Proof.Machine
end

