-- ==== Proofs/HeldStream.lean ====
section
/-! SUPPORT. A bit-stream in TMP that begins at the first bit: TMP holds a list of bits when every byte that the list
falls into has these bits, and 0 behind the last one (spec/20_memory.md R57, spec/42_segment_packer.md R152). -/

namespace Sys2Proof.Machine

variable {m m' : Memory} {bits more : List Bool}

/-- The bytes that `bits` falls into hold `bits`, and zeros behind it in the last of them. -/
def Memory.HoldsBits (m : Memory) (bits : List Bool) : Prop :=
  ∀ q, 8 * (q / 8) < bits.length → streamBit m q = some (bits.getD q false)

theorem holdsBits_nil (m : Memory) : m.HoldsBits [] := fun _ hq => absurd hq (Nat.not_lt_zero _)

theorem streamBit_isSome (m : Memory) (q : Nat) : (streamBit m q).isSome = (m.read (q / 8)).isSome :=
  Option.isSome_map

theorem Memory.HoldsBits.isSome (h : m.HoldsBits bits) {a : Nat} (ha : 8 * a < bits.length) :
    (m.read a).isSome = true := by
  have hbit := streamBit_isSome m (8 * a)
  rw [h (8 * a) (by omega), Nat.mul_div_cancel_left a (by decide)] at hbit
  exact hbit.symm

theorem Memory.HoldsBits.written (h : m.HoldsBits bits) : m.written ((bits.length + 7) / 8) :=
  fun _ ha => h.isSome (by omega)

theorem Memory.HoldsBits.congr (h : m.HoldsBits bits) (hread : ∀ a, 8 * a < bits.length → m'.read a = m.read a) :
    m'.HoldsBits bits := fun q hq => by
  rw [← h q hq, streamBit, streamBit, hread _ hq]

/-- Two memories that hold the same bits have the same bytes there. -/
theorem Memory.HoldsBits.read_eq (h : m.HoldsBits bits) (h' : m'.HoldsBits bits) {a : Nat} (ha : 8 * a < bits.length) :
    m.read a = m'.read a := by
  refine option_byteModule_ext fun c hc => ?_
  have hbit := (h (8 * a + c) (by omega)).trans (h' (8 * a + c) (by omega)).symm
  rwa [streamBit, streamBit, show (8 * a + c) / 8 = a by omega, Nat.mul_add_mod] at hbit

theorem getD_append_or (bits more : List Bool) (q : Nat) :
    (bits ++ more).getD q false =
      ((decide (bits.length ≤ q) && more.getD (q - bits.length) false) || bits.getD q false) := by
  by_cases hq : bits.length ≤ q
  · rw [List.getD_append_right _ _ _ _ hq, List.getD_eq_default _ _ hq]
    simp [hq]
  · rw [List.getD_append _ _ _ _ (Nat.lt_of_not_le hq)]
    simp [hq]

/-- A push behind the bits that TMP holds makes it hold both lists. -/
theorem Memory.HoldsBits.push (h : m.HoldsBits bits) {bs : BitStream}
    (hpush : pushBits ⟨m, bits.length⟩ more = .ok bs) : bs.tmp.HoldsBits (bits ++ more) := by
  intro q hq
  rw [List.length_append] at hq
  by_cases hbefore : q / 8 < bits.length / 8 ∨ more = []
  · have hread : bs.tmp.read (q / 8) = m.read (q / 8) := by
      rcases hbefore with hlt | rfl
      · exact pushBits_read_other hpush (.inl hlt)
      · cases hpush
        rfl
    have hin : 8 * (q / 8) < bits.length := by
      rcases hbefore with hlt | rfl
      · omega
      · simpa using hq
    have hno : (decide (bits.length ≤ q) && more.getD (q - bits.length) false) = false := by
      rcases hbefore with hlt | rfl
      · simp [show ¬ bits.length ≤ q by omega]
      · simp
    rw [streamBit, hread, ← streamBit, h q hin, getD_append_or, hno, Bool.false_or]
  · obtain ⟨hle, hne⟩ := not_or.mp hbefore
    have hbegun : (decide (q / 8 = bits.length / 8 ∧ bits.length % 8 ≠ 0) && decide (streamBit m q = some true)) =
        bits.getD q false := by
      by_cases hin : 8 * (q / 8) < bits.length
      · rw [h q hin, decide_eq_true (by omega)]
        simp
      · rw [decide_eq_false (by omega), List.getD_eq_default _ _ (by omega), Bool.false_and]
    rw [pushBits_streamBit hpush (Nat.le_of_not_lt hle) hq hne, getD_append_or]
    exact congrArg (fun b => some (_ || b)) hbegun

/-- `m` is `m₀` with `bits` written over its first bytes. -/
structure Memory.WritesBits (m₀ : Memory) (bits : List Bool) (m : Memory) : Prop where
  holds : m.HoldsBits bits
  beyond : ∀ a, bits.length ≤ 8 * a → m.read a = m₀.read a

theorem writesBits_nil (m : Memory) : m.WritesBits [] m := ⟨holdsBits_nil m, fun _ _ => rfl⟩

/-- Behind bits that have been written a push does not stop. -/
theorem Memory.WritesBits.exists_push {m₀ : Memory} (h : m₀.WritesBits bits m) (more : List Bool) :
    ∃ m', pushBits ⟨m, bits.length⟩ more = .ok ⟨m', (bits ++ more).length⟩ ∧ m₀.WritesBits (bits ++ more) m' := by
  obtain ⟨bs, hpush⟩ := pushBits_ok more (bs := ⟨m, bits.length⟩) fun h0 =>
    h.holds.isSome (by simp only at h0 ⊢; omega)
  have hpos : bs.pos = (bits ++ more).length := (pushBits_pos hpush).trans List.length_append.symm
  refine ⟨bs.tmp, hpos ▸ hpush, h.holds.push hpush, fun a ha => ?_⟩
  rw [List.length_append] at ha
  exact (pushBits_read_other hpush (.inr ha)).trans (h.beyond a (by omega))

end Sys2Proof.Machine
end

