-- ==== Proofs/GeneratedStream.lean ====
section
/-! SUPPORT. The packer's part of GENERATE (spec/47_generator.md R272): from the state that VSEL and PKINIT leave, what
the segments and PKTERM write in TMP, and the three ways in which it can end. -/

namespace Sys2Proof.Machine

variable {s : State} {v n : Nat} {src : Byte} {m₀ tmp : Memory} {bits : List Bool} {bytes : List Byte} {f : Fault}

/-! ### The source bytes -/

/-- The host has given the bytes that GENERATE reads: those of DATA, and with a URL present those of URL. -/
def State.given (s : State) : Prop :=
  s.data.written s.dataLen.toNat ∧ (s.up = true → s.url.written s.urlLen.toNat)

/-- Every byte of DATA that a GENERATE with a URL packs is a digit. -/
def State.digitsGiven (s : State) : Prop :=
  s.up = true → ∀ x ∈ s.data.bytes s.dataLen.toNat, isDigit x = true

@[simp] theorem Memory.bytes_length (m : Memory) (n : Nat) : (m.bytes n).length = n := by
  rw [Memory.bytes, List.length_map, List.length_range]

theorem fetchAll_range_of_written {sp : Space} {m : Memory} (h : m.written n) :
    m.fetchAll sp (List.range n) = .ok (m.bytes n) :=
  Memory.fetchAll_ok fun a ha => h a (List.mem_range.mp ha)

theorem fetchAll_range_of_not_written {sp : Space} {m : Memory} (h : ¬ m.written n) :
    ∃ f, m.fetchAll sp (List.range n) = .error f := by
  cases hf : m.fetchAll sp (List.range n) with
  | error f => exact ⟨f, rfl⟩
  | ok xs => exact absurd (fun a ha => (Memory.fetchAll_inv hf).1 a (List.mem_range.mpr ha)) h

/-! ### The bits of a symbol's data codewords -/

/-- The bits of the segments, one segment after the other (R157, R160). -/
def payloadBits (v : Nat) (segs : List (Mode × List Byte)) : List Bool :=
  segs.flatMap fun seg => segmentBits seg.1 seg.2.length v seg.2

/-- The bits of all data codewords: the segments, and what PKTERM appends (R164). -/
def codewordBits (v : Nat) (segs : List (Mode × List Byte)) : List Bool :=
  payloadBits v segs ++ fieldBits (termFields (payloadBits v segs).length (8 * cap v))

theorem payload_of_up (h : s.up = true) :
    s.payload = [(.binary, s.url.bytes s.urlLen.toNat), (.numeric, s.data.bytes s.dataLen.toNat)] := if_pos h

theorem payload_of_not_up (h : s.up = false) : s.payload = [(.binary, s.data.bytes s.dataLen.toNat)] :=
  if_neg (by rw [h]; exact Bool.false_ne_true)

theorem segmentBits_source_length (mode : Mode) (m : Memory) (n v : Nat) :
    (segmentBits mode n v (m.bytes n)).length = segBits mode n v := by
  have hlen := segmentBits_length mode (m.bytes n) v
  rwa [Memory.bytes_length] at hlen

/-- What VSEL measures is what the packer appends (R165, R181). -/
theorem payloadBits_length (s : State) (v : Nat) : (payloadBits v s.payload).length = reqBits s.segments v := by
  cases hup : s.up with
  | true => simp [payload_of_up hup, payloadBits, reqBits_segments_of_up hup, segmentBits_source_length]
  | false => simp [payload_of_not_up hup, payloadBits, reqBits_segments_of_not_up hup, segmentBits_source_length]

theorem codewordBits_length {segs : List (Mode × List Byte)} (h : (payloadBits v segs).length ≤ 8 * cap v) :
    (codewordBits v segs).length = 8 * cap v := by
  rw [codewordBits, List.length_append, termBits_length h (Nat.mul_mod_right 8 _)]

/-! ### The states of a GENERATE in PACKING and PACKED -/

/-- `s` in PACKING with version `v` and `n` bits in the stream in `tmp`. -/
def State.packing (s : State) (v n : Nat) (tmp : Memory) : State :=
  { s with version := BitVec.ofNat 6 v, phase := .packing, bitLen := BitVec.ofNat 32 n, tmp := tmp
           result := BitVec.ofNat 32 n }

/-- `s` in PACKED with version `v` and the data codewords in `tmp`. -/
def State.packedAt (s : State) (v : Nat) (tmp : Memory) : State :=
  { s with version := BitVec.ofNat 6 v, phase := .packed, bitLen := BitVec.ofNat 32 (8 * cap v), rsNext := 0, tmp := tmp
           result := BitVec.ofNat 32 (8 * cap v) }

@[simp] theorem State.packing_phase : (s.packing v n tmp).phase = .packing := rfl
@[simp] theorem State.packing_tmpSize : (s.packing v n tmp).tmpSize = s.tmpSize := rfl
@[simp] theorem State.packing_up : (s.packing v n tmp).up = s.up := rfl
@[simp] theorem State.packing_sourceLen : (s.packing v n tmp).sourceLen src = s.sourceLen src := rfl
@[simp] theorem State.packing_sourceBytes : (s.packing v n tmp).sourceBytes src = s.sourceBytes src := by
  unfold State.sourceBytes sourceSpace
  split <;> rfl

theorem State.packing_v (hv : v ≤ 40) : (s.packing v n tmp).v = v := toNat_ofNat_6 (by omega)

theorem State.packing_bitLen (hn : n ≤ 8 * cap v) : (s.packing v n tmp).bitLen.toNat = n :=
  toNat_ofNat_32 (by have := cap_le v; omega)

theorem State.packing_stream (hn : n ≤ 8 * cap v) : (s.packing v n tmp).stream = ⟨tmp, n⟩ :=
  congrArg (BitStream.mk tmp) (State.packing_bitLen hn)

/-! ### PKBIN, PKNUM and PKTERM in these states -/

section Segment

variable (hv : v ≤ 40) (hsrc : src.toNat ≤ 1) (hsize : Config.tmpMin ≤ s.tmpSize.toNat)
include hv hsrc hsize

theorem afterSegmentChecks_packing (mode : Mode) (hfit : n + segBits mode (s.sourceLen src) v ≤ 8 * cap v)
    (rest : Attempt) : afterSegmentChecks mode src (s.packing v n tmp) rest = rest := by
  have hfit' : (s.packing v n tmp).bitLen.toNat + segBits mode (s.sourceLen src) v ≤ 8 * cap v := by
    rwa [State.packing_bitLen (by omega)]
  rw [afterSegmentChecks, State.packing_v hv, State.packing_tmpSize, State.packing_sourceLen,
    require_true _ _ State.packing_phase, require_true _ _ hsrc, require_true _ _ ((tot_le v).trans hsize),
    require_true _ _ hfit']
  rfl

/-- Behind its checks PKBIN reads the source and pushes the segment. -/
theorem doPkbin_packing (hfit : n + segBits .binary (s.sourceLen src) v ≤ 8 * cap v) :
    doPkbin src (s.packing v n tmp) = (do
      let bytes ← orHalt (s.sourceBytes src)
      let bs ← orHalt (pushBits ⟨tmp, n⟩ (segmentBits .binary (s.sourceLen src) v bytes))
      .ok (s.packing v bs.pos bs.tmp)) := by
  refine (afterSegmentChecks_packing hv hsrc hsize .binary hfit _).trans ?_
  rw [State.packing_v hv, State.packing_stream (by omega), State.packing_sourceLen, State.packing_sourceBytes]
  rfl

/-- Behind its checks PKNUM reads the source, scans it for digits and pushes the segment. -/
theorem doPknum_packing (hfit : n + segBits .numeric (s.sourceLen src) v ≤ 8 * cap v) :
    doPknum src (s.packing v n tmp) = (do
      let bytes ← orHalt (s.sourceBytes src)
      require (bytes.all isDigit = true) .badDigit (s.packing v n tmp)
      let bs ← orHalt (pushBits ⟨tmp, n⟩ (segmentBits .numeric (s.sourceLen src) v bytes))
      .ok (s.packing v bs.pos bs.tmp)) := by
  refine (afterSegmentChecks_packing hv hsrc hsize .numeric hfit _).trans ?_
  rw [State.packing_v hv, State.packing_stream (by omega), State.packing_sourceLen, State.packing_sourceBytes]
  rfl

/-- A source byte that has no value stops PKBIN. -/
theorem doPkbin_packing_halts (hfit : n + segBits .binary (s.sourceLen src) v ≤ 8 * cap v)
    (hf : s.sourceBytes src = .error f) : doPkbin src (s.packing v n tmp) = .error (.halt f) := by
  rw [doPkbin_packing hv hsrc hsize hfit, hf, orHalt_error, error_bind]

theorem doPknum_packing_halts (hfit : n + segBits .numeric (s.sourceLen src) v ≤ 8 * cap v)
    (hf : s.sourceBytes src = .error f) : doPknum src (s.packing v n tmp) = .error (.halt f) := by
  rw [doPknum_packing hv hsrc hsize hfit, hf, orHalt_error, error_bind]

theorem doPknum_packing_badDigit (hfit : n + segBits .numeric (s.sourceLen src) v ≤ 8 * cap v)
    (hbytes : s.sourceBytes src = .ok bytes) (hdigits : bytes.all isDigit ≠ true) :
    doPknum src (s.packing v n tmp) = .error (.raise .badDigit (s.packing v n tmp)) := by
  rw [doPknum_packing hv hsrc hsize hfit, hbytes, orHalt_ok, ok_bind, require_false _ _ hdigits, error_bind]

/-- PKBIN appends its segment to the bits that have been written. -/
theorem doPkbin_packing_writes (h : m₀.WritesBits bits tmp)
    (hfit : bits.length + segBits .binary (s.sourceLen src) v ≤ 8 * cap v) (hbytes : s.sourceBytes src = .ok bytes) :
    ∃ tmp', doPkbin src (s.packing v bits.length tmp) =
        .ok (s.packing v (bits ++ segmentBits .binary (s.sourceLen src) v bytes).length tmp') ∧
      m₀.WritesBits (bits ++ segmentBits .binary (s.sourceLen src) v bytes) tmp' := by
  obtain ⟨tmp', hpush, hwrites⟩ := h.exists_push (segmentBits .binary (s.sourceLen src) v bytes)
  refine ⟨tmp', ?_, hwrites⟩
  rw [doPkbin_packing hv hsrc hsize hfit, hbytes, orHalt_ok, ok_bind, hpush, orHalt_ok, ok_bind]

/-- PKNUM appends its segment when the source holds digits only. -/
theorem doPknum_packing_writes (h : m₀.WritesBits bits tmp)
    (hfit : bits.length + segBits .numeric (s.sourceLen src) v ≤ 8 * cap v) (hbytes : s.sourceBytes src = .ok bytes)
    (hdigits : bytes.all isDigit = true) :
    ∃ tmp', doPknum src (s.packing v bits.length tmp) =
        .ok (s.packing v (bits ++ segmentBits .numeric (s.sourceLen src) v bytes).length tmp') ∧
      m₀.WritesBits (bits ++ segmentBits .numeric (s.sourceLen src) v bytes) tmp' := by
  obtain ⟨tmp', hpush, hwrites⟩ := h.exists_push (segmentBits .numeric (s.sourceLen src) v bytes)
  refine ⟨tmp', ?_, hwrites⟩
  rw [doPknum_packing hv hsrc hsize hfit, hbytes, orHalt_ok, ok_bind, require_true _ _ hdigits, ok_bind, hpush,
    orHalt_ok, ok_bind]

end Segment

/-- PKTERM fills the data codewords. -/
theorem doPkterm_packing_writes (hv : v ≤ 40) (hsize : Config.tmpMin ≤ s.tmpSize.toNat) (h : m₀.WritesBits bits tmp)
    (hfit : bits.length ≤ 8 * cap v) :
    ∃ tmp', doPkterm (s.packing v bits.length tmp) = .ok (s.packedAt v tmp') ∧
      m₀.WritesBits (bits ++ fieldBits (termFields bits.length (8 * cap v))) tmp' := by
  obtain ⟨tmp', hpush, hwrites⟩ := h.exists_push (fieldBits (termFields bits.length (8 * cap v)))
  rw [List.length_append, termBits_length hfit (Nat.mul_mod_right 8 _)] at hpush
  refine ⟨tmp', doPkterm_ok.mpr ⟨rfl, ?_, ⟨tmp', 8 * cap v⟩, ?_, rfl⟩, hwrites⟩
  · rw [State.packing_v hv]
    exact (tot_le v).trans hsize
  · rwa [State.packing_v hv, State.packing_bitLen hfit, State.packing_stream hfit]

end Sys2Proof.Machine
end

