-- ==== Proofs/GeneratedSegments.lean ====
section
/-! SUPPORT. The three ways in which the packer's part of GENERATE can end (spec/47_generator.md R273): the segments are in
TMP, a byte of DATA is no digit, or a source byte has no value. -/

namespace Sys2Proof.Machine

variable {s : State} {v : Nat}

/-- The bits of the URL segment. -/
def State.urlBits (s : State) (v : Nat) : List Bool :=
  segmentBits .binary s.urlLen.toNat v (s.url.bytes s.urlLen.toNat)

theorem payloadBits_of_up (h : s.up = true) :
    payloadBits v s.payload =
      s.urlBits v ++ segmentBits .numeric s.dataLen.toNat v (s.data.bytes s.dataLen.toNat) := by
  simp [payload_of_up h, payloadBits, State.urlBits]

theorem payloadBits_of_not_up (h : s.up = false) :
    payloadBits v s.payload = segmentBits .binary s.dataLen.toNat v (s.data.bytes s.dataLen.toNat) := by
  simp [payload_of_not_up h, payloadBits]

theorem urlBits_length (s : State) (v : Nat) : (s.urlBits v).length = segBits .binary s.urlLen.toNat v :=
  segmentBits_source_length _ _ _ _

theorem sourceBytes_url (h : s.url.written s.urlLen.toNat) : s.sourceBytes 0 = .ok (s.url.bytes s.urlLen.toNat) :=
  fetchAll_range_of_written h

theorem sourceBytes_data (h : s.data.written s.dataLen.toNat) : s.sourceBytes 1 = .ok (s.data.bytes s.dataLen.toNat) :=
  fetchAll_range_of_written h

theorem sourceBytes_url_halts (h : ¬ s.url.written s.urlLen.toNat) : ∃ f, s.sourceBytes 0 = .error f :=
  fetchAll_range_of_not_written h

theorem sourceBytes_data_halts (h : ¬ s.data.written s.dataLen.toNat) : ∃ f, s.sourceBytes 1 = .error f :=
  fetchAll_range_of_not_written h

theorem all_isDigit_of_digitsGiven (hup : s.up = true) :
    (s.data.bytes s.dataLen.toNat).all isDigit = true ↔ s.digitsGiven := by
  rw [List.all_eq_true]
  exact ⟨fun h _ => h, fun h => h hup⟩

theorem doSegments_of_up (hup : s.up = true) : doSegments s = doPkbin 0 s >>= doPknum 1 := if_pos hup

theorem doSegments_of_not_up (hup : s.up = false) : doSegments s = doPkbin 1 s :=
  if_neg (by rw [hup]; exact Bool.false_ne_true)

/-! ### What VSEL has measured fits (R184) -/

theorem url_fits (hfit : reqBits s.segments v ≤ 8 * cap v) (hup : s.up = true) :
    0 + segBits .binary (s.sourceLen 0) v ≤ 8 * cap v := by
  rw [reqBits_segments_of_up hup] at hfit
  exact (Nat.zero_add _).trans_le (le_of_add_le_left hfit)

theorem numeric_fits (hfit : reqBits s.segments v ≤ 8 * cap v) (hup : s.up = true) :
    (s.urlBits v).length + segBits .numeric (s.sourceLen 1) v ≤ 8 * cap v := by
  rwa [reqBits_segments_of_up hup, ← urlBits_length] at hfit

theorem binary_fits (hfit : reqBits s.segments v ≤ 8 * cap v) (hup : s.up = false) :
    0 + segBits .binary (s.sourceLen 1) v ≤ 8 * cap v := by
  rw [reqBits_segments_of_not_up hup] at hfit
  exact (Nat.zero_add _).trans_le hfit

/-! ### The segments -/

variable (hv : v ≤ 40) (hsize : Config.tmpMin ≤ s.tmpSize.toNat) (hfit : reqBits s.segments v ≤ 8 * cap v)
include hv hsize hfit

/-- With a URL whose bytes are given, what remains of the segments is PKNUM behind the URL segment. -/
theorem doSegments_url (hup : s.up = true) (hurl : s.url.written s.urlLen.toNat) :
    ∃ tmp, s.tmp.WritesBits (s.urlBits v) tmp ∧
      doSegments (s.packing v 0 s.tmp) = doPknum 1 (s.packing v (s.urlBits v).length tmp) := by
  obtain ⟨tmp, hbin, hwrites⟩ :=
    doPkbin_packing_writes hv (by decide) hsize (writesBits_nil s.tmp) (url_fits hfit hup) (sourceBytes_url hurl)
  refine ⟨tmp, hwrites, ?_⟩
  rw [doSegments_of_up (by exact hup)]
  exact (congrArg (· >>= doPknum 1) hbin).trans (ok_bind _ _)

/-- Given sources, digits where digits are packed: the segments are written. -/
theorem doSegments_writes (hgiven : s.given) (hdigits : s.digitsGiven) :
    ∃ tmp, doSegments (s.packing v 0 s.tmp) = .ok (s.packing v (payloadBits v s.payload).length tmp) ∧
      s.tmp.WritesBits (payloadBits v s.payload) tmp := by
  obtain ⟨hdata, hurl⟩ := hgiven
  cases hup : s.up with
  | true =>
    obtain ⟨tmp, hwrites, hseg⟩ := doSegments_url hv hsize hfit hup (hurl hup)
    rw [hseg, payloadBits_of_up hup]
    exact doPknum_packing_writes hv (by decide) hsize hwrites (numeric_fits hfit hup) (sourceBytes_data hdata)
      ((all_isDigit_of_digitsGiven hup).mpr hdigits)
  | false =>
    rw [doSegments_of_not_up (by exact hup), payloadBits_of_not_up hup]
    exact doPkbin_packing_writes hv (by decide) hsize (writesBits_nil s.tmp) (binary_fits hfit hup)
      (sourceBytes_data hdata)

/-- Given sources, but a byte of DATA that is no digit: PKNUM raises BAD_DIGIT behind the URL segment. -/
theorem doSegments_badDigit (hgiven : s.given) (hdigits : ¬ s.digitsGiven) :
    ∃ tmp, doSegments (s.packing v 0 s.tmp) = .error (.raise .badDigit (s.packing v (s.urlBits v).length tmp)) ∧
      s.tmp.WritesBits (s.urlBits v) tmp := by
  obtain ⟨hdata, hurl⟩ := hgiven
  have hup : s.up = true := by_contra fun h => hdigits fun hup => absurd hup h
  obtain ⟨tmp, hwrites, hseg⟩ := doSegments_url hv hsize hfit hup (hurl hup)
  refine ⟨tmp, hseg.trans ?_, hwrites⟩
  exact doPknum_packing_badDigit hv (by decide) hsize (numeric_fits hfit hup) (sourceBytes_data hdata)
    (mt (all_isDigit_of_digitsGiven hup).mp hdigits)

/-- A source byte that has no value stops the segments (R54). -/
theorem doSegments_halts (hgiven : ¬ s.given) : ∃ f, doSegments (s.packing v 0 s.tmp) = .error (.halt f) := by
  cases hup : s.up with
  | true =>
    by_cases hurl : s.url.written s.urlLen.toNat
    · obtain ⟨f, hf⟩ := sourceBytes_data_halts fun hdata => hgiven ⟨hdata, fun _ => hurl⟩
      obtain ⟨tmp, -, hseg⟩ := doSegments_url hv hsize hfit hup hurl
      exact ⟨f, hseg.trans (doPknum_packing_halts hv (by decide) hsize (numeric_fits hfit hup) hf)⟩
    · obtain ⟨f, hf⟩ := sourceBytes_url_halts hurl
      refine ⟨f, (doSegments_of_up (by exact hup)).trans ?_⟩
      rw [doPkbin_packing_halts hv (by decide) hsize (url_fits hfit hup) hf, error_bind]
  | false =>
    obtain ⟨f, hf⟩ := sourceBytes_data_halts fun hdata => hgiven ⟨hdata, fun h => nomatch hup.symm.trans h⟩
    refine ⟨f, (doSegments_of_not_up (by exact hup)).trans ?_⟩
    exact doPkbin_packing_halts hv (by decide) hsize (binary_fits hfit hup) hf

end Sys2Proof.Machine
end

