-- ==== Proofs/GeneratedSymbol.lean ====
section
/-! SUPPORT. The second half of GENERATE (spec/47_generator.md R272): RSALL on the data codewords, and the matrix steps and
the mask from a state whose codewords are complete. -/

namespace Sys2Proof.Machine

variable {s u : State} {v n : Nat} {need next : Phase} {plots : List Plot} {m₀ m : Memory}

/-! ### The codewords -/

/-- After a list of blocks REM holds the ECC of the last of them (R196, R197). -/
theorem encodeBlocks_read_last {b : Nat} {bs : List Nat} {rem : Vector Byte Config.maxEc}
    {r : Vector Byte Config.maxEc × Memory} (h : encodeBlocks v rem m (bs ++ [b]) = .ok r) {i : Nat}
    (hi : i < (cat v).k) : r.2.read (eccOff v b + i) = some (remAt r.1 i) := by
  induction bs generalizing rem m with
  | nil =>
    obtain ⟨rem1, tmp1, henc, hrest⟩ := encodeBlocks_cons h
    cases hrest
    exact encodeBlock_read_ecc henc hi
  | cons c bs ih =>
    obtain ⟨rem1, tmp1, -, hrest⟩ := encodeBlocks_cons h
    exact ih hrest

/-- `r` is REM and TMP after all blocks of version `v`, starting from REM `rem` and TMP `m` (R197). -/
def EncodesAll (v : Nat) (rem : Vector Byte Config.maxEc) (m : Memory) (r : Vector Byte Config.maxEc × Memory) : Prop :=
  encodeBlocks v rem m (List.range' 0 (nblk v)) = .ok r

theorem mem_allBlocks {b : Nat} : b ∈ List.range' 0 (nblk v) ↔ b < nblk v := by
  rw [List.mem_range'_1]
  omega

section

variable {rem : Vector Byte Config.maxEc} {r : Vector Byte Config.maxEc × Memory} (h : EncodesAll v rem m r)
include h

theorem EncodesAll.written (hw : m.written (cap v)) : r.2.written (tot v) :=
  encodeBlocks_written (n := 0) h hw

theorem EncodesAll.read_data {a : Nat} (ha : a < cap v) : r.2.read a = m.read a := encodeBlocks_read_data h ha

theorem EncodesAll.read_beyond {a : Nat} (ha : tot v ≤ a) : r.2.read a = m.read a := by
  refine encodeBlocks_read_other h fun b hb => ?_
  have hend := eccOff_add_k_le (mem_allBlocks.mp hb)
  omega

theorem EncodesAll.read_last (hn : 1 ≤ nblk v) {i : Nat} (hi : i < (cat v).k) :
    r.2.read (eccOff v (nblk v - 1) + i) = some (remAt r.1 i) := by
  have hsplit : List.range' 0 (nblk v) = List.range' 0 (nblk v - 1) ++ [nblk v - 1] := by
    obtain ⟨k, hk⟩ := Nat.exists_eq_add_of_le' hn
    rw [hk, Nat.add_sub_cancel, List.range'_1_concat, Nat.zero_add]
  rw [EncodesAll, hsplit] at h
  exact encodeBlocks_read_last h hi

end

/-- RSALL completes once the data codewords have been written. -/
theorem doRsall_packedAt (hv : v ≤ 40) (hsize : Config.tmpMin ≤ s.tmpSize.toNat) (hw : m.written (cap v)) :
    ∃ r, EncodesAll v s.rem m r ∧ doRsall (s.packedAt v m) = .ok ((s.packedAt v m).afterAllBlocks r) := by
  obtain ⟨r, henc⟩ := encodeBlocks_ok (fun b => mem_allBlocks.mp) s.rem hw
  have hv' : (s.packedAt v m).v = v := toNat_ofNat_6 (by omega)
  refine ⟨r, henc, doRsall_ok.mpr ⟨rfl, ?_, r, ?_, rfl⟩⟩
  · rw [hv']
    exact (tot_le v).trans hsize
  · rw [hv']
    exact henc

/-! ### The bitmap -/

/-- `m` is `m₀` with a whole bitmap of version `v` written over its first bytes (R59, R60). -/
structure Memory.DrawnOver (v : Nat) (m₀ m : Memory) : Prop where
  written : m.written (img v)
  beyond : ∀ a, img v ≤ a → m.read a = m₀.read a

theorem drawnOver_blank (v : Nat) (m : Memory) : m.DrawnOver v (m.writeRun 0 (List.replicate (img v) 0)) where
  written a ha := by
    rw [Memory.read_writeRun, if_pos (by simpa using ha)]
    simpa using ha
  beyond a ha := by rw [Memory.read_writeRun, if_neg (by simpa using ha)]

theorem Memory.DrawnOver.plotAll (h : m₀.DrawnOver v m) (hgrid : ∀ p ∈ plots, p.r < width v ∧ p.c < width v) :
    ∃ out, plotAll (stride v) m plots = .ok out ∧ m₀.DrawnOver v out := by
  obtain ⟨out, hplot⟩ := plotAll_ok_of_written h.written hgrid
  refine ⟨out, hplot, fun a ha => (plotAll_isSome hplot a).trans (h.written a ha), fun a ha => ?_⟩
  refine (plotAll_read_other hplot fun p hp he => ?_).trans (h.beyond a ha)
  have := cell_index_lt (hgrid p hp).1 (hgrid p hp).2
  omega

theorem Memory.DrawnOver.flipAll (h : m₀.DrawnOver v m) :
    ∃ out, flipAll (stride v) m (maskedCells v) = .ok out ∧ m₀.DrawnOver v out := by
  obtain ⟨out, hflip⟩ := flipAll_maskedCells_ok_of_written h.written
  refine ⟨out, hflip, fun a ha => (flipAll_isSome hflip a).trans (h.written a ha), fun a ha => ?_⟩
  refine (flipAll_read_other hflip fun rc hrc he => ?_).trans (h.beyond a ha)
  obtain ⟨hgrid, -⟩ := mem_maskedCells.mp hrc
  have := cell_index_lt hgrid.1 hgrid.2
  omega

/-- `u` in a phase of the matrix steps, with the bitmap `out` and RESULT `n`. -/
def State.drawn (u : State) (p : Phase) (out : Memory) (n : Nat) : State :=
  { u with out := out, phase := p }.withResult n

@[simp] theorem State.drawn_v {p : Phase} : (u.drawn p m n).v = u.v := rfl
@[simp] theorem State.drawn_tmp {p : Phase} : (u.drawn p m n).tmp = u.tmp := rfl

section

variable (hsize : img u.v ≤ u.outSize.toNat)
include hsize

theorem plotStep_draws (k : Nat) (hgrid : ∀ p ∈ plots, p.r < width u.v ∧ p.c < width u.v) (h : m₀.DrawnOver u.v m) :
    ∃ out, plotStep need next plots k (u.drawn need m n) = .ok (u.drawn next out k) ∧ m₀.DrawnOver u.v out := by
  obtain ⟨out, hplot, hout⟩ := h.plotAll hgrid
  exact ⟨out, plotStep_ok.mpr ⟨rfl, hsize, out, hplot, rfl⟩, hout⟩

theorem doMxdata_draws (h1 : 1 ≤ u.v) (h40 : u.v ≤ 40) (htmp : tot u.v ≤ u.tmpSize.toNat)
    (hw : u.tmp.written (tot u.v)) (h : m₀.DrawnOver u.v m) :
    ∃ out, doMxdata (u.drawn .reserved m n) = .ok (u.drawn .placed out (8 * tot u.v)) ∧ m₀.DrawnOver u.v out := by
  obtain ⟨bytes, hbytes⟩ := streamBytes_ok hw
  obtain ⟨out, hplot, hout⟩ := h.plotAll fun p => dataPlots_range (bytes := bytes)
  exact ⟨out, doMxdata_ok.mpr ⟨rfl, hsize, htmp, cellOrder_length_bounds h1 h40, bytes, hbytes, out, hplot, rfl⟩, hout⟩

theorem doMask_draws (h : m₀.DrawnOver u.v m) :
    ∃ out, doMask (u.drawn .versionInfo m n) = .ok (u.drawn .done out (width u.v)) ∧ m₀.DrawnOver u.v out := by
  obtain ⟨out, hflip, hout⟩ := h.flipAll
  exact ⟨out, doMask_ok.mpr ⟨rfl, hsize, out, hflip, rfl⟩, hout⟩

/-- With complete codewords the matrix steps and the mask complete, and each Data cell of the walk holds its bit of the
interleaved stream, masked (R232, R260). -/
theorem doMatrix_doMask_draws (hp : u.phase = .coded) (h1 : 1 ≤ u.v) (h40 : u.v ≤ 40)
    (htmp : tot u.v ≤ u.tmpSize.toNat) (hw : u.tmp.written (tot u.v)) :
    ∃ out, (doMatrix u >>= doMask) = .ok (u.drawn .done out (width u.v)) ∧ u.out.DrawnOver u.v out ∧
      ∀ i rc x, i < 8 * tot u.v → (cellOrder u.v)[i]? = some rc → u.tmp.read (streamIndex u.v (i / 8)) = some x →
        moduleAt out (stride u.v) rc.1 rc.2 = some (x.getLsbD (7 - i % 8) ^^ decide ((rc.1 + rc.2) % 2 = 0)) := by
  have hblank : doMxinit u = .ok (u.drawn .blank (u.out.writeRun 0 (List.replicate (img u.v) 0)) (img u.v)) :=
    doMxinit_ok.mpr ⟨hp, hsize, rfl⟩
  obtain ⟨o1, hfind, d1⟩ := plotStep_draws hsize 0 (fun _ => allFinderPlots_range) (drawnOver_blank u.v u.out)
  obtain ⟨o2, htime, d2⟩ := plotStep_draws hsize 0 (fun _ => timingPlots_range) d1
  obtain ⟨o3, halign, d3⟩ := plotStep_draws hsize (centres u.v).length (fun _ => allAlignmentPlots_range) d2
  obtain ⟨o4, hrsvd, d4⟩ := plotStep_draws hsize (reservedCount u.v) (fun _ => reservedPlots_range) d3
  obtain ⟨o5, hdata, d5⟩ := doMxdata_draws hsize h1 h40 htmp hw d4
  obtain ⟨o6, hfmt, d6⟩ := plotStep_draws hsize fmtWord (fun _ => formatPlots_range) d5
  obtain ⟨o7, hver, d7⟩ := plotStep_draws hsize (verResult u.v) (fun _ => versionPlots_range) d6
  obtain ⟨o8, hmask, d8⟩ := doMask_draws hsize d7
  refine ⟨o8, attempt_bind_ok.mpr ⟨u.drawn .versionInfo o7 (verResult u.v), ?_, hmask⟩, d8, fun i rc x hi hc hx => ?_⟩
  · simp only [doMatrix, attempt_bind_ok]
    exact ⟨_, hblank, _, hfind, _, htime, _, halign, _, hrsvd, _, hdata, _, hfmt, hver⟩
  · exact finished_moduleAt hdata hfmt hver hmask hc hi hx

end

end Sys2Proof.Machine
end

