-- ==== Proofs/GeneratedReading.lean ====
section
/-! SUPPORT. The reader on the symbol of a GENERATE that completes (spec/47_generator.md R277): the bits of the data
codewords are found in the bitmap, and read as the segments that went in. -/

namespace Sys2Proof.Machine

variable {s : State} {v : Nat} {m out : Memory} {segs : List (Mode × List Byte)}

/-! ### The segments of a bit-stream -/

/-- A segment is no longer than all of them together. -/
theorem segBits_le_payloadBits {seg : Mode × List Byte} (h : seg ∈ segs) :
    segBits seg.1 seg.2.length v ≤ (payloadBits v segs).length := by
  have hlen : (segmentBits seg.1 seg.2.length v seg.2).length = segBits seg.1 seg.2.length v := segmentBits_length _ _ _
  rw [← hlen]
  exact (List.sublist_flatten_of_mem
    (List.mem_map_of_mem (f := fun seg => segmentBits seg.1 seg.2.length v seg.2) h)).length_le

/-- The segments read as themselves, and the reader goes on behind the last one. -/
theorem readSegments_payloadBits (fuel : Nat) (rest : List Bool)
    (hcount : ∀ seg ∈ segs, seg.2.length < 2 ^ lenBits seg.1 v)
    (hdigits : ∀ seg ∈ segs, seg.1 = .numeric → ∀ x ∈ seg.2, isDigit x = true) :
    readSegments v (segs.length + fuel) (payloadBits v segs ++ rest) = segs ++ readSegments v fuel rest := by
  induction segs with
  | nil => simp [payloadBits]
  | cons seg segs ih =>
    have hsplit : payloadBits v (seg :: segs) ++ rest =
      segmentBits seg.1 seg.2.length v seg.2 ++ (payloadBits v segs ++ rest) := by simp [payloadBits]
    have hrest := ih (fun x hx => hcount x (List.mem_cons_of_mem _ hx)) fun x hx => hdigits x (List.mem_cons_of_mem _ hx)
    rw [hsplit, List.length_cons, Nat.add_right_comm, segmentBits,
      readSegments_segment _ _ _ _ _ (hcount seg List.mem_cons_self) (hdigits seg List.mem_cons_self), hrest,
      List.cons_append]

theorem payload_digits (hdigits : s.digitsGiven) :
    ∀ seg ∈ s.payload, seg.1 = .numeric → ∀ x ∈ seg.2, isDigit x = true := by
  cases hup : s.up with
  | true => simpa [payload_of_up hup] using hdigits hup
  | false => simp [payload_of_not_up hup]

theorem payload_length_le (s : State) : s.payload.length ≤ 2 := by
  cases hup : s.up with
  | true => simp [payload_of_up hup]
  | false => simp [payload_of_not_up hup]

/-- The bits of the data codewords read as the segments: PKTERM's bits end the list (R161). -/
theorem readSegments_codewordBits (h1 : 1 ≤ v) (h40 : v ≤ 40) (hfit : (payloadBits v s.payload).length ≤ 8 * cap v)
    (hdigits : s.digitsGiven) : readSegments v 3 (codewordBits v s.payload) = s.payload := by
  obtain ⟨fuel, hfuel⟩ := Nat.exists_eq_add_of_le ((payload_length_le s).trans (by decide : 2 ≤ 3))
  rw [hfuel, codewordBits, readSegments_payloadBits fuel _ ?count (payload_digits hdigits),
    readSegments_term _ _ _ _ (Nat.mul_mod_right 8 _) hfit, List.append_nil]
  exact fun seg hseg => characterCountFits seg.1 _ v h1 h40 ((segBits_le_payloadBits hseg).trans hfit)

/-! ### The bit-stream of a bitmap -/

/-- A memory that holds `8 * n` bits has them as the bits of its first `n` bytes (R57). -/
theorem Memory.HoldsBits.flatMap_byteBits {n : Nat} {bits : List Bool} (h : m.HoldsBits bits)
    (hlen : bits.length = 8 * n) : ((List.range n).flatMap fun a => byteBits ((m.read a).getD 0)) = bits := by
  refine Machine.flatMap_byteBits (tmp := m) hlen (fun a ha => ?_) fun p hp => ?_
  · obtain ⟨x, hx⟩ := Option.isSome_iff_exists.mp (h.isSome (a := a) (by omega))
    rw [hx, Option.getD_some]
  · rw [h p (by omega), List.getElem?_eq_getElem (by omega), List.getD_eq_getElem _ _ (by omega)]

/-- The reader finds the data codewords behind the mask, the walk and the interleaving (R225, R231, R260). -/
theorem readBitStream_of_modules {bits : List Bool} (h1 : 1 ≤ v) (h40 : v ≤ 40) (hw : m.written (tot v))
    (hholds : m.HoldsBits bits) (hlen : bits.length = 8 * cap v)
    (hmodules : ∀ i rc x, i < 8 * tot v → (cellOrder v)[i]? = some rc → m.read (streamIndex v (i / 8)) = some x →
      moduleAt out (stride v) rc.1 rc.2 = some (x.getLsbD (7 - i % 8) ^^ decide ((rc.1 + rc.2) % 2 = 0))) :
    readBitStream v out = bits := by
  obtain ⟨hcells, -⟩ := cellOrder_length_bounds h1 h40
  rw [← hholds.flatMap_byteBits hlen]
  refine readBitStream_eq h1 h40 (byte := fun a => (m.read a).getD 0) hcells fun i rc hi hc => ?_
  obtain ⟨x, hx⟩ := Option.isSome_iff_exists.mp (hw _ (streamIndex_lt (v := v) (i := i / 8) (by omega)))
  rw [hmodules i rc x hi hc hx, hx, Option.getD_some]

theorem readSymbol_width (v : Nat) (out : Memory) :
    readSymbol (width v) out = readSegments v 3 (readBitStream v out) := by
  have hv : (width v - 17) / 4 = v := by unfold width; omega
  rw [readSymbol, hv]

end Sys2Proof.Machine
end

