-- ==== Proofs/GenerateOutcomes.lean ====
section
/-! SUPPORT. Every outcome of GENERATE (spec/47_generator.md R271, R273): a buffer below its minimum, no version that fits, a
source byte without a value, a byte that is no digit, or the symbol. -/

namespace Sys2Proof.Machine

variable {s : State} {v : Nat} {m out : Memory} {r : Vector Byte Config.maxEc × Memory}

/-! ### The checks, VSEL and PKINIT -/

/-- The three checks of R271 hold. -/
structure State.Minima (s : State) : Prop where
  out : Config.outMin ≤ s.outSize.toNat
  tmp : Config.tmpMin ≤ s.tmpSize.toNat
  data : s.dataLen.toNat ≤ s.outSize.toNat

theorem doGenerate_of_minima (h : s.Minima) :
    doGenerate s = doPipeline s >>= fun u => .ok (u.withResult (width u.v)) := by
  rw [doGenerate, require_true _ _ h.out, require_true _ _ h.tmp, require_true _ _ h.data]
  rfl

theorem doGenerate_bufferTooSmall (h : ¬ s.Minima) : doGenerate s = .error (.raise .bufferTooSmall s) := by
  by_cases hout : Config.outMin ≤ s.outSize.toNat
  · by_cases htmp : Config.tmpMin ≤ s.tmpSize.toNat
    · have hdata : ¬ s.dataLen.toNat ≤ s.outSize.toNat := fun hdata => h ⟨hout, htmp, hdata⟩
      rw [doGenerate, require_true _ _ hout, require_true _ _ htmp, require_false _ _ hdata]
      rfl
    · rw [doGenerate, require_true _ _ hout, require_false _ _ htmp]
      rfl
  · rw [doGenerate, require_false _ _ hout]
    rfl

theorem doPipeline_inputTooLarge (h : selectVersion s.segments = none) :
    doPipeline s = .error (.raise .inputTooLarge s) := by
  rw [doPipeline, doVsel, h]
  rfl

/-- VSEL and PKINIT open the stream with the version that fits. -/
theorem doPipeline_of_fits (h : selectVersion s.segments = some v) (hsize : Config.tmpMin ≤ s.tmpSize.toNat) :
    doPipeline s = (do
      let u ← doSegments (s.packing v 0 s.tmp)
      let u ← doPkterm u
      let u ← doRsall u
      let u ← doMatrix u
      doMask u) := by
  have hinit : doPkinit ({ s with version := BitVec.ofNat 6 v, phase := .versioned }.withResult v) =
      .ok (s.packing v 0 s.tmp) := doPkinit_ok.mpr ⟨Nat.le_refl 1, (tot_le _).trans hsize, rfl⟩
  rw [doPipeline, doVsel_ok.mpr ⟨v, h, rfl⟩, ok_bind, hinit, ok_bind]

/-! ### The symbol -/

/-- `s` in CODED with version `v`, and REM and TMP as `r` gives them. -/
def State.codedAt (s : State) (v : Nat) (r : Vector Byte Config.maxEc × Memory) : State :=
  { s with version := BitVec.ofNat 6 v, phase := .coded, bitLen := BitVec.ofNat 32 (8 * cap v)
           rsNext := BitVec.ofNat 32 (nblk v), rem := r.1, tmp := r.2, result := BitVec.ofNat 32 (nblk v) }

/-- `s` after a GENERATE that has completed (R273). -/
def State.generated (s : State) (v : Nat) (r : Vector Byte Config.maxEc × Memory) (out : Memory) : State :=
  { s with phase := .done, version := BitVec.ofNat 6 v, bitLen := BitVec.ofNat 32 (8 * cap v)
           rsNext := BitVec.ofNat 32 (nblk v), rem := r.1, tmp := r.2, out := out
           result := BitVec.ofNat 32 (width v) }

theorem State.packedAt_v (s : State) (hv : v ≤ 40) (m : Memory) : (s.packedAt v m).v = v := toNat_ofNat_6 (by omega)

theorem State.codedAt_v (s : State) (hv : v ≤ 40) (r : Vector Byte Config.maxEc × Memory) : (s.codedAt v r).v = v :=
  toNat_ofNat_6 (by omega)

theorem State.packedAt_afterAllBlocks (s : State) (hv : v ≤ 40) (m : Memory) (r : Vector Byte Config.maxEc × Memory) :
    (s.packedAt v m).afterAllBlocks r = s.codedAt v r := by
  rw [State.afterAllBlocks, s.packedAt_v hv]
  rfl

/-- What a GENERATE that completes has built with version `v`: `m` is TMP when the data codewords are complete, `r` is REM and
TMP after RSALL, and `out` is OUT. -/
structure Generates (s : State) (v : Nat) (m : Memory) (r : Vector Byte Config.maxEc × Memory) (out : Memory) : Prop where
  packs : s.tmp.WritesBits (codewordBits v s.payload) m
  encodes : EncodesAll v s.rem m r
  matrix : (doMatrix (s.codedAt v r) >>= doMask) = .ok ((s.codedAt v r).drawn .done out (width v))
  draws : s.out.DrawnOver v out
  modules : ∀ i rc x, i < 8 * tot v → (cellOrder v)[i]? = some rc → r.2.read (streamIndex v (i / 8)) = some x →
    moduleAt out (stride v) rc.1 rc.2 = some (x.getLsbD (7 - i % 8) ^^ decide ((rc.1 + rc.2) % 2 = 0))

theorem payloadBits_length_le (h : selectVersion s.segments = some v) : (payloadBits v s.payload).length ≤ 8 * cap v := by
  rw [payloadBits_length]
  exact (selectVersion_eq_some.mp h).2.1

theorem Memory.WritesBits.written_cap {m₀ : Memory} (h : selectVersion s.segments = some v)
    (hw : m₀.WritesBits (codewordBits v s.payload) m) : m.written (cap v) := fun a ha =>
  hw.holds.isSome (by rw [codewordBits_length (payloadBits_length_le h)]; omega)

section

variable (hmin : s.Minima) (hsel : selectVersion s.segments = some v)
include hmin hsel

theorem doGenerate_completes (hgiven : s.given) (hdigits : s.digitsGiven) :
    ∃ m r out, Generates s v m r out ∧ doGenerate s = .ok (s.generated v r out) := by
  obtain ⟨⟨h1, h40⟩, hfit, -⟩ := selectVersion_eq_some.mp hsel
  obtain ⟨tmp, hseg, hsegbits⟩ := doSegments_writes h40 hmin.tmp hfit hgiven hdigits
  obtain ⟨m, hterm, hbits⟩ := doPkterm_packing_writes h40 hmin.tmp hsegbits (payloadBits_length_le hsel)
  have hcap : m.written (cap v) := Memory.WritesBits.written_cap hsel hbits
  obtain ⟨r, henc, hrsall⟩ := doRsall_packedAt h40 hmin.tmp hcap
  rw [s.packedAt_afterAllBlocks h40] at hrsall
  have hv := s.codedAt_v h40 r
  obtain ⟨out, hmatrix, hdraws, hmodules⟩ := doMatrix_doMask_draws (u := s.codedAt v r) (by
    rw [hv]; exact (img_le h40).trans hmin.out) rfl (by rwa [hv]) (by rwa [hv])
    ((tot_le _).trans hmin.tmp) (by rw [hv]; exact henc.written hcap)
  rw [hv] at hmatrix hdraws hmodules
  refine ⟨m, r, out, ⟨hbits, henc, hmatrix, hdraws, hmodules⟩, ?_⟩
  have hdone : ((s.codedAt v r).drawn .done out (width v)).v = v := hv
  rw [doGenerate_of_minima hmin, doPipeline_of_fits hsel hmin.tmp, hseg, ok_bind, hterm, ok_bind, hrsall, ok_bind,
    hmatrix, ok_bind, hdone]
  rfl

theorem doGenerate_badDigit (hgiven : s.given) (hdigits : ¬ s.digitsGiven) :
    ∃ tmp, s.tmp.WritesBits (s.urlBits v) tmp ∧
      doGenerate s = .error (.raise .badDigit (s.packing v (s.urlBits v).length tmp)) := by
  obtain ⟨⟨-, h40⟩, hfit, -⟩ := selectVersion_eq_some.mp hsel
  obtain ⟨tmp, hseg, hbits⟩ := doSegments_badDigit h40 hmin.tmp hfit hgiven hdigits
  refine ⟨tmp, hbits, ?_⟩
  rw [doGenerate_of_minima hmin, doPipeline_of_fits hsel hmin.tmp, hseg]
  rfl

theorem doGenerate_halts (hgiven : ¬ s.given) : ∃ f, doGenerate s = .error (.halt f) := by
  obtain ⟨⟨-, h40⟩, hfit, -⟩ := selectVersion_eq_some.mp hsel
  obtain ⟨f, hseg⟩ := doSegments_halts h40 hmin.tmp hfit hgiven
  refine ⟨f, ?_⟩
  rw [doGenerate_of_minima hmin, doPipeline_of_fits hsel hmin.tmp, hseg]
  rfl

end

theorem doGenerate_inputTooLarge (hmin : s.Minima) (hsel : selectVersion s.segments = none) :
    doGenerate s = .error (.raise .inputTooLarge s) := by
  rw [doGenerate_of_minima hmin, doPipeline_inputTooLarge hsel]
  rfl

/-- The reader takes the segments back out of the symbol (R277). -/
theorem Generates.readSymbol (h : Generates s v m r out) (hsel : selectVersion s.segments = some v)
    (hdigits : s.digitsGiven) : readSymbol (width v) out = s.payload := by
  obtain ⟨⟨h1, h40⟩, -⟩ := selectVersion_eq_some.mp hsel
  have hfit := payloadBits_length_le hsel
  have hlen := codewordBits_length hfit
  have hholds : r.2.HoldsBits (codewordBits v s.payload) := h.packs.holds.congr fun a ha =>
    h.encodes.read_data (by omega)
  rw [readSymbol_width, readBitStream_of_modules h1 h40 (h.encodes.written (h.packs.written_cap hsel)) hholds hlen
    h.modules, readSegments_codewordBits h1 h40 hfit hdigits]

end Sys2Proof.Machine
end

