-- ==== Proofs/GenerateCompletes.lean ====
section
/-! PROOF. Statement O58 of the family 47_generator. -/

namespace Sys2Proof.Machine

variable {s : State} {v : Nat}

theorem exec_generate (s : State) : exec .generate s = finish (doGenerate s) := rfl

/-- The source bytes that the host has given, one by one. -/
theorem mem_bytes {m : Memory} {n : Nat} {x : Byte} (hw : m.written n) :
    x ∈ m.bytes n ↔ ∃ i < n, m.read i = some x := by
  simp only [Memory.bytes, List.mem_map, List.mem_range]
  refine exists_congr fun i => and_congr_right fun hi => ?_
  obtain ⟨y, hy⟩ := Option.isSome_iff_exists.mp (hw i hi)
  rw [hy, Option.getD_some, Option.some.injEq]

theorem digitsGiven_iff (hw : s.data.written s.dataLen.toNat) :
    s.digitsGiven ↔ (s.up = true → ∀ i < s.dataLen.toNat, ∀ x, s.data.read i = some x → isDigit x = true) := by
  refine imp_congr_right fun _ => ?_
  simp only [mem_bytes hw]
  exact ⟨fun h i hi x hx => h x ⟨i, hi, hx⟩, fun h x ⟨i, hi, hx⟩ => h i hi x hx⟩

/-- The URL segment at the front of the stream, read bit by bit (R157). -/
theorem urlBits_getD_header {p : Nat} (hp : p < 4 + lenBits .binary v) :
    (s.urlBits v).getD p false = headerBit .binary s.urlLen.toNat v p := by
  rw [State.urlBits, segmentBits, fieldBits_append, List.getD_append _ _ _ _ (by rwa [headerBits_length]),
    headerBits_getD _ _ _ hp]

theorem urlBits_getD_data {p : Nat} (hp : p < 8 * s.urlLen.toNat) :
    (s.urlBits v).getD (4 + lenBits .binary v + p) false = binaryBit (fun i => (s.url.read i).getD 0) p := by
  rw [State.urlBits, segmentBits, fieldBits_append, List.getD_append_right _ _ _ _ (by rw [headerBits_length]; omega),
    headerBits_length, Nat.add_sub_cancel_left]
  exact binaryBits_map_range (fun i => (s.url.read i).getD 0) hp

/-- The state that BAD_DIGIT leaves: PACKING, with the URL segment in TMP (R273). -/
theorem packing_takeFault_badDigit (s : State) (v n : Nat) (tmp : Memory) :
    (s.packing v n tmp).takeFault .badDigit = { s with
      err := true, errCode := some .badDigit, phase := .packing, version := BitVec.ofNat 6 v
      bitLen := BitVec.ofNat 32 n, tmp := tmp, result := 0 } := by
  simp [State.takeFault, State.setFaultFlags, State.packing]

/-- Settles O58: the segments and the bits of PKTERM fill the data codewords, RSALL completes them, and the matrix steps put
each bit of the interleaved stream, masked, into its Data cell, where the reader finds it; VSEL and PKNUM are the only
commands of the sequence that raise a fault. -/
theorem generateCompletes : Obligations.GenerateCompletes := by
  intro s _ hout htmp hdata
  have hmin : s.Minima := ⟨hout, htmp, hdata⟩
  refine ⟨fun v hsel hw hurl hdig => ?completes, fun hnone => ?tooLarge, fun v hsel hup hw hurl hbad => ?badDigit⟩
  case completes =>
    obtain ⟨⟨h1, h40⟩, -⟩ := selectVersion_eq_some.mp hsel
    have hdigits : s.digitsGiven := (digitsGiven_iff hw).mpr hdig
    obtain ⟨m, r, out, hgen, hdo⟩ := doGenerate_completes hmin hsel ⟨hw, hurl⟩ hdigits
    have hcap : m.written (cap v) := hgen.packs.written_cap hsel
    refine ⟨s.generated v r out, finish_eq_next_of_ok hdo, toNat_ofNat_6 (by omega), h1, h40, rfl,
      hgen.encodes.written hcap, hgen.draws.written, fun i => hgen.encodes.read_last (nblk_pos h1 h40), fun a ha => ?_,
      hgen.draws.beyond, ?_⟩
    · have hle := cap_le_tot v
      have hlen := codewordBits_length (payloadBits_length_le hsel)
      exact (hgen.encodes.read_beyond ha).trans (hgen.packs.beyond a (by omega))
    · have hwidth : (s.generated v r out).result.toNat = width v := toNat_ofNat_32 (by unfold width; omega)
      rw [hwidth]
      exact hgen.readSymbol hsel hdigits
  case tooLarge => rw [exec_generate, doGenerate_inputTooLarge hmin hnone, finish_raise]
  case badDigit =>
    obtain ⟨⟨-, h40⟩, -⟩ := selectVersion_eq_some.mp hsel
    have hdigits : ¬ s.digitsGiven := fun h => by
      obtain ⟨i, hi, x, hx, hno⟩ := hbad
      exact absurd ((digitsGiven_iff hw).mp h hup i hi x hx) (by rw [hno]; exact Bool.false_ne_true)
    obtain ⟨tmp, ⟨hholds, hbeyond⟩, hdo⟩ := doGenerate_badDigit hmin hsel ⟨hw, fun _ => hurl⟩ hdigits
    have hlen : (s.urlBits v).length = 4 + lenBits .binary v + 8 * s.urlLen.toNat := urlBits_length s v
    refine ⟨(s.packing v (s.urlBits v).length tmp).takeFault .badDigit, ?_, toNat_ofNat_6 (by omega), ?_, fun p hp => ?_,
      fun p hp => ?_, fun q hq hbyte => ?_, fun a ha => hbeyond a (by rwa [urlBits_length])⟩
    · rw [exec_generate, hdo, finish_raise]
    · rw [packing_takeFault_badDigit, urlBits_length]
    · exact (hholds p (by omega)).trans (congrArg some (urlBits_getD_header hp))
    · exact (hholds _ (by omega)).trans (congrArg some (urlBits_getD_data hp))
    · have hpos := segBits_pos .binary s.urlLen.toNat v
      rw [← urlBits_length] at hq hbyte hpos
      exact (hholds q (by omega)).trans (congrArg some (List.getD_eq_default _ _ hq))

end Sys2Proof.Machine
end

