-- ==== Proofs/GenerateSequence.lean ====
section
/-! PROOF. Statement O57 of the family 47_generator: GENERATE against its commands issued one after another. -/

namespace Sys2Proof.Machine

variable {s t u : State}

/-! ### Commands one after another -/

/-- The bodies of the listed commands, one after another. -/
def runBodies : List Instr → State → Attempt
  | [], s => .ok s
  | i :: is, s => body i s >>= runBodies is

theorem runBodies_cons (i : Instr) (is : List Instr) (s : State) : runBodies (i :: is) s = body i s >>= runBodies is := rfl

theorem bind_ok_right (a : Attempt) : a >>= Except.ok = a := by
  cases a <;> rfl

theorem bind_congr_ok {a : Attempt} {k k' : State → Attempt} (h : ∀ t, a = .ok t → k t = k' t) :
    a >>= k = a >>= k' := by
  cases a with
  | ok t => exact h t rfl
  | error _ => rfl

theorem runBodies_append (is js : List Instr) (s : State) :
    runBodies (is ++ js) s = runBodies is s >>= runBodies js := by
  induction is generalizing s with
  | nil => rfl
  | cons i is ih =>
    rw [List.cons_append, runBodies_cons, runBodies_cons, bind_assoc]
    exact bind_congr_ok fun t _ => ih t

/-- A command that sets ERR is the last one that runs. -/
theorem runCommands_cons_faulted {i : Instr} (h : exec i s = .next t) (he : t.err = true) (is : List Instr) :
    runCommands (i :: is) s = .next t := by
  rw [runCommands, h]
  simp [he]

/-- Commands issued one after another end as their bodies do: a body that completes leaves ERR at 0, so the next command
runs; a body that raises a fault is the last one, and so is one that stops. -/
theorem runCommands_eq_finish {is : List Instr} (hclear : .clear ∉ is) (he : s.err = false) :
    runCommands is s = finish (runBodies is s) := by
  induction is generalizing s with
  | nil => rfl
  | cons i is ih =>
    obtain ⟨hi, his⟩ := not_or.mp (mt List.mem_cons.mpr hclear)
    have hexec := exec_eq_finish i s
    rw [runBodies_cons]
    match hb : body i s with
    | .ok t =>
      have ht : t.err = false := (body_sameHost (Ne.symm hi) hb).err.trans he
      rw [hb, finish_ok] at hexec
      rw [runCommands_cons_next hexec ht, ok_bind, ih his ht]
    | .error (.raise c u) =>
      rw [hb, finish_raise] at hexec
      rw [runCommands_cons_faulted hexec rfl, error_bind, finish_raise]
    | .error (.halt f) =>
      rw [hb, finish_halt] at hexec
      rw [runCommands_cons_fault hexec, error_bind, finish_halt]

/-! ### The sequence of GENERATE -/

/-- The packer commands of the sequence. -/
def segmentCommands (up : Bool) : List Instr :=
  if up then [.pkbin 0, .pknum 1] else [.pkbin 1]

/-- The commands of the matrix builder. -/
def matrixCommands : List Instr :=
  [.mxinit, .mxfind, .mxtime, .mxalign, .mxrsvd, .mxdata, .mxfmt, .mxver]

/-- The commands of the sequence behind the segments. -/
def symbolCommands : List Instr :=
  .pkterm :: .rsall :: (matrixCommands ++ [.mask])

theorem generatorSequence_eq (up : Bool) :
    generatorSequence up = .vsel :: .pkinit :: (segmentCommands up ++ symbolCommands) := rfl

theorem clear_not_mem_generatorSequence (up : Bool) : .clear ∉ generatorSequence up := by
  cases up <;> decide

theorem doSegments_eq_runBodies (s : State) : doSegments s = runBodies (segmentCommands s.up) s := by
  cases hup : s.up with
  | true => exact (doSegments_of_up hup).trans (bind_congr_ok fun t _ => (bind_ok_right _).symm)
  | false => exact (doSegments_of_not_up hup).trans (bind_ok_right _).symm

theorem doMatrix_eq_runBodies (s : State) : doMatrix s = runBodies matrixCommands s := by
  iterate 7 refine bind_congr_ok fun _ _ => ?_
  exact (bind_ok_right _).symm

theorem symbolCommands_eq_runBodies (s : State) :
    (doPkterm s >>= fun s => doRsall s >>= fun s => doMatrix s >>= doMask) = runBodies symbolCommands s := by
  refine bind_congr_ok fun s _ => bind_congr_ok fun s _ => ?_
  rw [doMatrix_eq_runBodies, runBodies_append]
  exact bind_congr_ok fun s _ => (bind_ok_right _).symm

/-- The sequence inside GENERATE is the bodies of its commands: VSEL and PKINIT leave UP alone, by which the packer commands
are chosen (R272). -/
theorem doPipeline_eq_runBodies (s : State) : doPipeline s = runBodies (generatorSequence s.up) s := by
  rw [generatorSequence_eq]
  refine bind_congr_ok fun t ht => bind_congr_ok fun u hu => ?_
  have hup : u.up = s.up := (doPkinit_sameHost hu).up.trans (doVsel_sameHost ht).up
  rw [runBodies_append, ← hup, ← doSegments_eq_runBodies]
  exact bind_congr_ok fun w _ => symbolCommands_eq_runBodies w

theorem runCommands_generatorSequence (he : s.err = false) :
    runCommands (generatorSequence s.up) s = finish (doPipeline s) := by
  rw [runCommands_eq_finish (clear_not_mem_generatorSequence _) he, doPipeline_eq_runBodies]

/-- Settles O57: behind its three checks GENERATE is the bodies of its commands, and then RESULT. -/
theorem generateIsItsSequence : Obligations.GenerateIsItsSequence := by
  refine fun s he => ⟨decode_encode .generate, fun hsmall => ?small, fun hout htmp hdata => ?sequence⟩
  case small =>
    have hmin : ¬ s.Minima := fun ⟨hout, htmp, hdata⟩ => by
      simp only [Config.outMin, Config.tmpMin] at hout htmp
      omega
    rw [exec_generate, doGenerate_bufferTooSmall hmin, finish_raise]
  case sequence =>
    rw [runCommands_generatorSequence he, exec_generate, doGenerate_of_minima ⟨hout, htmp, hdata⟩]
    refine ⟨fun t ht => ?next, fun f hf => ?stop⟩
    case next =>
      rcases finish_next.mp ht with hok | ⟨c, u, hraise, rfl⟩
      · have hterr := (doPipeline_sameHost hok).err.trans he
        rw [hok]
        exact ⟨fun h => absurd (hterr.symm.trans h) Bool.false_ne_true, fun _ => rfl⟩
      · rw [hraise]
        exact ⟨fun _ => ⟨rfl, rfl⟩, fun h => nomatch h⟩
    case stop =>
      rw [finish_fault.mp hf]
      rfl

end Sys2Proof.Machine
end

