-- ==== Proofs/GenerateDeterminism.lean ====
section
/-! PROOF. Statement O59 of the family 47_generator: what GENERATE makes depends on its inputs only. -/

namespace Sys2Proof.Machine

variable {v n : Nat}

/-! ### Bitmaps that agree below a bound -/

/-- The bytes below `n` are the same in both memories. -/
def Memory.Agrees (n : Nat) (m₁ m₂ : Memory) : Prop :=
  ∀ a < n, m₁.read a = m₂.read a

variable {m₁ m₂ m₁' m₂' : Memory} {stride : Nat} (hag : m₁.Agrees n m₂)
include hag

/-- `SetM` writes one byte, which below the bound is made from the same byte in both memories. -/
theorem Memory.Agrees.setM {r c : Nat} {b₁ b₂ : Bool}
    (hb : moduleIndex stride r c < n → b₁ = b₂) (h₁ : setM m₁ stride r c b₁ = .ok m₁')
    (h₂ : setM m₂ stride r c b₂ = .ok m₂') : m₁'.Agrees n m₂' := by
  obtain ⟨x₁, hx₁, rfl⟩ := setM_inv h₁
  obtain ⟨x₂, hx₂, rfl⟩ := setM_inv h₂
  intro a ha
  rw [Memory.read_write, Memory.read_write]
  split
  · next he =>
    subst he
    have hx : x₁ = x₂ := Option.some.inj (hx₁.symm.trans ((hag _ ha).trans hx₂))
    rw [hx, hb ha]
  · exact hag a ha

theorem Memory.Agrees.plotAll {plots : List Plot} (h₁ : plotAll stride m₁ plots = .ok m₁')
    (h₂ : plotAll stride m₂ plots = .ok m₂') : m₁'.Agrees n m₂' := by
  induction plots generalizing m₁ m₂ with
  | nil =>
    cases h₁
    cases h₂
    exact hag
  | cons p plots ih =>
    obtain ⟨k₁, hset₁, hrest₁⟩ := plotAll_cons h₁
    obtain ⟨k₂, hset₂, hrest₂⟩ := plotAll_cons h₂
    exact ih (hag.setM (fun _ => rfl) hset₁ hset₂) hrest₁ hrest₂

theorem Memory.Agrees.flipAll {cells : List (Nat × Nat)} (h₁ : flipAll stride m₁ cells = .ok m₁')
    (h₂ : flipAll stride m₂ cells = .ok m₂') : m₁'.Agrees n m₂' := by
  induction cells generalizing m₁ m₂ with
  | nil =>
    cases h₁
    cases h₂
    exact hag
  | cons rc cells ih =>
    obtain ⟨b₁, k₁, hget₁, hset₁, hrest₁⟩ := flipAll_cons h₁
    obtain ⟨b₂, k₂, hget₂, hset₂, hrest₂⟩ := flipAll_cons h₂
    refine ih (hag.setM (fun hlt => congrArg (!·) (Option.some.inj ?_)) hset₁ hset₂) hrest₁ hrest₂
    rw [← hget₁, ← hget₂, moduleAt, moduleAt, hag _ hlt]

omit hag

/-! ### Steps that draw -/

/-- Two states with the same version, and with the same codewords and bitmap as far as that version reaches. -/
structure SameSymbol (s t : State) : Prop where
  v : s.v = t.v
  tmp : s.tmp.Agrees (tot s.v) t.tmp
  out : s.out.Agrees (img s.v) t.out

section

variable {s₁ s₂ t₁ t₂ : State}

/-- A step that writes a version's modules leaves the same symbol in both. -/
theorem SameSymbol.plotStep {need next : Phase} {plots : Nat → List Plot} {k : Nat → Nat} (h : SameSymbol s₁ s₂)
    (h₁ : plotStep need next (plots s₁.v) (k s₁.v) s₁ = .ok t₁)
    (h₂ : plotStep need next (plots s₂.v) (k s₂.v) s₂ = .ok t₂) : SameSymbol t₁ t₂ := by
  obtain ⟨-, -, out₁, hplot₁, rfl⟩ := plotStep_ok.mp h₁
  obtain ⟨-, -, out₂, hplot₂, rfl⟩ := plotStep_ok.mp h₂
  rw [← h.v] at hplot₂
  exact ⟨h.v, h.tmp, h.out.plotAll hplot₁ hplot₂⟩

theorem SameSymbol.mxdata (h : SameSymbol s₁ s₂) (h₁ : doMxdata s₁ = .ok t₁) (h₂ : doMxdata s₂ = .ok t₂) :
    SameSymbol t₁ t₂ := by
  obtain ⟨-, -, -, -, bytes₁, hb₁, out₁, hplot₁, rfl⟩ := doMxdata_ok.mp h₁
  obtain ⟨-, -, -, -, bytes₂, hb₂, out₂, hplot₂, rfl⟩ := doMxdata_ok.mp h₂
  rw [← h.v] at hb₂ hplot₂
  have hbytes : bytes₁ = bytes₂ := by
    rw [(Memory.fetchAll_inv hb₁).2, (Memory.fetchAll_inv hb₂).2]
    refine List.map_congr_left fun a ha => ?_
    obtain ⟨i, hi, rfl⟩ := List.mem_map.mp ha
    rw [h.tmp _ (streamIndex_lt (List.mem_range.mp hi))]
  rw [← hbytes] at hplot₂
  exact ⟨h.v, h.tmp, h.out.plotAll hplot₁ hplot₂⟩

theorem SameSymbol.mask (h : SameSymbol s₁ s₂) (h₁ : doMask s₁ = .ok t₁) (h₂ : doMask s₂ = .ok t₂) :
    SameSymbol t₁ t₂ := by
  obtain ⟨-, -, out₁, hflip₁, rfl⟩ := doMask_ok.mp h₁
  obtain ⟨-, -, out₂, hflip₂, rfl⟩ := doMask_ok.mp h₂
  rw [← h.v] at hflip₂
  exact ⟨h.v, h.tmp, h.out.flipAll hflip₁ hflip₂⟩

/-- MXINIT makes the bitmaps the same, whatever OUT held (R214). -/
theorem doMxinit_sameSymbol (hv : s₁.v = s₂.v) (htmp : s₁.tmp.Agrees (tot s₁.v) s₂.tmp) (h₁ : doMxinit s₁ = .ok t₁)
    (h₂ : doMxinit s₂ = .ok t₂) : SameSymbol t₁ t₂ := by
  obtain ⟨-, -, rfl⟩ := doMxinit_ok.mp h₁
  obtain ⟨-, -, rfl⟩ := doMxinit_ok.mp h₂
  refine ⟨hv, htmp, fun a (ha : a < img s₁.v) => ?_⟩
  rw [State.withResult_out, State.withResult_out, Memory.read_writeRun, Memory.read_writeRun, ← hv,
    if_pos (by simpa using ha), if_pos (by simpa using ha)]

theorem doMatrix_doMask_sameSymbol (hv : s₁.v = s₂.v) (htmp : s₁.tmp.Agrees (tot s₁.v) s₂.tmp)
    (h₁ : (doMatrix s₁ >>= doMask) = .ok t₁) (h₂ : (doMatrix s₂ >>= doMask) = .ok t₂) : SameSymbol t₁ t₂ := by
  simp only [doMatrix, attempt_bind_ok] at h₁ h₂
  obtain ⟨_, ⟨_, init₁, _, find₁, _, time₁, _, align₁, _, rsvd₁, _, data₁, _, fmt₁, ver₁⟩, mask₁⟩ := h₁
  obtain ⟨_, ⟨_, init₂, _, find₂, _, time₂, _, align₂, _, rsvd₂, _, data₂, _, fmt₂, ver₂⟩, mask₂⟩ := h₂
  have hblank := doMxinit_sameSymbol hv htmp init₁ init₂
  have hpatterns := ((hblank.plotStep (k := fun _ => 0) find₁ find₂).plotStep (k := fun _ => 0) time₁ time₂).plotStep
    (k := fun v => (centres v).length) align₁ align₂
  have hplaced := (hpatterns.plotStep rsvd₁ rsvd₂).mxdata data₁ data₂
  exact ((hplaced.plotStep (k := fun _ => fmtWord) fmt₁ fmt₂).plotStep ver₁ ver₂).mask mask₁ mask₂

end

/-! ### Codewords -/

/-- Equal data codewords have equal ECC (R196, R197). -/
theorem EncodesAll.agrees {rem₁ rem₂ : Vector Byte Config.maxEc} {r₁ r₂ : Vector Byte Config.maxEc × Memory}
    (h₁ : EncodesAll v rem₁ m₁ r₁) (h₂ : EncodesAll v rem₂ m₂ r₂) (hag : m₁.Agrees (cap v) m₂) :
    r₁.2.Agrees (tot v) r₂.2 := by
  intro a ha
  by_cases hdata : a < cap v
  · rw [h₁.read_data hdata, h₂.read_data hdata, hag a hdata]
  · obtain ⟨hb, hlo, hhi⟩ := ecc_block (Nat.le_of_not_lt hdata) ha
    generalize (a - cap v) / (cat v).k = b at hb hlo hhi
    obtain ⟨i, rfl⟩ := Nat.exists_eq_add_of_le hlo
    have hbs : ∀ b ∈ List.range' 0 (nblk v), b < nblk v := fun b => mem_allBlocks.mp
    have hi : i < (cat v).k := by omega
    rw [encodeBlocks_read_ecc h₁ hbs List.nodup_range' (mem_allBlocks.mpr hb) hi,
      encodeBlocks_read_ecc h₂ hbs List.nodup_range' (mem_allBlocks.mpr hb) hi, dataBytes_congr hb hag]

/-! ### Two GENERATEs with equal inputs -/

variable {s₁ s₂ t₁ t₂ : State}

/-- Equal inputs of GENERATE: CTRL, the lengths, and the source bytes that they announce. -/
structure SameInput (s₁ s₂ : State) : Prop where
  up : s₁.up = s₂.up
  urlLen : s₁.urlLen = s₂.urlLen
  dataLen : s₁.dataLen = s₂.dataLen
  url : s₁.url.Agrees s₁.urlLen.toNat s₂.url
  data : s₁.data.Agrees s₁.dataLen.toNat s₂.data

theorem Memory.Agrees.written (h : m₁.Agrees n m₂) : m₁.written n ↔ m₂.written n :=
  forall₂_congr fun a ha => by rw [h a ha]

theorem Memory.Agrees.bytes (h : m₁.Agrees n m₂) : m₁.bytes n = m₂.bytes n :=
  List.map_congr_left fun a ha => by rw [h a (List.mem_range.mp ha)]

theorem SameInput.segments (h : SameInput s₁ s₂) : s₁.segments = s₂.segments := by
  rw [State.segments, State.segments, h.up, h.urlLen, h.dataLen]

theorem SameInput.given (h : SameInput s₁ s₂) : s₁.given ↔ s₂.given := by
  rw [State.given, State.given, h.data.written, h.url.written, h.up, h.urlLen, h.dataLen]

theorem SameInput.digitsGiven (h : SameInput s₁ s₂) : s₁.digitsGiven ↔ s₂.digitsGiven := by
  rw [State.digitsGiven, State.digitsGiven, h.data.bytes, h.up, h.dataLen]

theorem SameInput.payload (h : SameInput s₁ s₂) : s₁.payload = s₂.payload := by
  rw [State.payload, State.payload, h.data.bytes, h.url.bytes, h.up, h.urlLen, h.dataLen]

/-- Two symbols built from equal inputs are the same. -/
theorem Generates.sameSymbol {r₁ r₂ : Vector Byte Config.maxEc × Memory} {out₁ out₂ : Memory} (h : SameInput s₁ s₂)
    (hsel : selectVersion s₁.segments = some v) (g₁ : Generates s₁ v m₁ r₁ out₁) (g₂ : Generates s₂ v m₂ r₂ out₂) :
    r₁.2.Agrees (tot v) r₂.2 ∧ out₁.Agrees (img v) out₂ := by
  obtain ⟨⟨-, h40⟩, -⟩ := selectVersion_eq_some.mp hsel
  have hbits := g₂.packs.holds
  rw [← h.payload] at hbits
  have hcap : m₁.Agrees (cap v) m₂ := fun a ha => g₁.packs.holds.read_eq hbits (by
    rw [codewordBits_length (payloadBits_length_le hsel)]
    omega)
  have htmp : r₁.2.Agrees (tot v) r₂.2 := g₁.encodes.agrees g₂.encodes hcap
  have hv₁ := s₁.codedAt_v h40 r₁
  have hsym := doMatrix_doMask_sameSymbol (hv₁.trans (s₂.codedAt_v h40 r₂).symm) (by rw [hv₁]; exact htmp)
    g₁.matrix g₂.matrix
  refine ⟨htmp, ?_⟩
  have hout := hsym.out
  rwa [State.drawn_v, hv₁] at hout

/-- Settles O59: equal inputs select the same version and end in the same way; and when a symbol is made, each of its parts
is a function of the parts before it. -/
theorem generateIsDeterministic : Obligations.GenerateIsDeterministic := by
  intro s₁ s₂ t₁ t₂ he₁ he₂ hout₁ htmp₁ hdata₁ hout₂ htmp₂ hdata₂ hup hurlLen hdataLen hurl hdata h₁ h₂
  have hmin₁ : s₁.Minima := ⟨hout₁, htmp₁, hdata₁⟩
  have hmin₂ : s₂.Minima := ⟨hout₂, htmp₂, hdata₂⟩
  have hin : SameInput s₁ s₂ := ⟨hup, hurlLen, hdataLen, hurl, hdata⟩
  rw [exec_generate] at h₁ h₂
  cases hsel : selectVersion s₁.segments with
  | none =>
    rw [doGenerate_inputTooLarge hmin₁ hsel] at h₁
    rw [doGenerate_inputTooLarge hmin₂ (hin.segments ▸ hsel)] at h₂
    cases h₁
    cases h₂
    exact ⟨rfl, fun _ => rfl, rfl, fun h => nomatch h⟩
  | some v =>
    have hsel₂ : selectVersion s₂.segments = some v := hin.segments ▸ hsel
    by_cases hgiven : s₁.given
    · by_cases hdigits : s₁.digitsGiven
      · obtain ⟨m₁, r₁, out₁, g₁, hdo₁⟩ := doGenerate_completes hmin₁ hsel hgiven hdigits
        obtain ⟨m₂, r₂, out₂, g₂, hdo₂⟩ :=
          doGenerate_completes hmin₂ hsel₂ (hin.given.mp hgiven) (hin.digitsGiven.mp hdigits)
        obtain ⟨htmp, hout⟩ := g₁.sameSymbol hin hsel g₂
        rw [hdo₁] at h₁
        rw [hdo₂] at h₂
        cases h₁
        cases h₂
        have hv : (s₁.generated v r₁ out₁).v = v := s₁.codedAt_v (selectVersion_bounds hsel).2 r₁
        rw [hv]
        exact ⟨he₁.trans he₂.symm, fun h => absurd (he₁.symm.trans h) Bool.false_ne_true, rfl, fun _ => ⟨rfl, hout, htmp⟩⟩
      · obtain ⟨tmp₁, -, hdo₁⟩ := doGenerate_badDigit hmin₁ hsel hgiven hdigits
        obtain ⟨tmp₂, -, hdo₂⟩ := doGenerate_badDigit hmin₂ hsel₂ (hin.given.mp hgiven) (mt hin.digitsGiven.mpr hdigits)
        rw [hdo₁] at h₁
        rw [hdo₂] at h₂
        cases h₁
        cases h₂
        exact ⟨rfl, fun _ => rfl, rfl, fun h => nomatch h⟩
    · obtain ⟨f, hdo⟩ := doGenerate_halts hmin₁ hsel hgiven
      rw [hdo] at h₁
      cases h₁

end Sys2Proof.Machine
end

