-- ==== Proofs/GeneratorFamily.lean ====
section
/-! PROOF. Statements O16 and O60 of the family 47_generator: CLEAR and MAXSZ. -/

namespace Sys2Proof.Machine

/-! ### CLEAR -/

/-- Settles O16: what the body does in its two cases. -/
theorem clearReturnsToIdle : Obligations.ClearReturnsToIdle := by
  refine fun s => ⟨decode_encode .clear, fun hf => ?fatal, fun hf => ?clears⟩
  case fatal => exact finish_eq_next_of_ok (doClear_ok.mpr (if_pos hf).symm)
  case clears =>
    have hno : ¬ s.fatal = true := by rw [hf]; exact Bool.false_ne_true
    exact finish_eq_next_of_ok (doClear_ok.mpr (if_neg hno).symm)

/-! ### MAXSZ -/

theorem exec_maxsz (v : Byte) (s : State) :
    exec (.maxsz v) s = .next { s with result := BitVec.ofNat 32 (maxSz v.toNat s.urlLen.toNat) } := rfl

theorem maxSz_outside {v : Nat} (h : v < 1 ∨ 40 < v) (u : Nat) : maxSz v u = 0 := if_pos h

section

variable {v u : Nat} (h1 : 1 ≤ v) (h40 : v ≤ 40)
include h1 h40

theorem not_outside_versions : ¬ (v < Config.vMin ∨ Config.vMax < v) := by
  simp only [Config.vMin, Config.vMax]
  omega

theorem maxSz_no_url : maxSz v 0 = cap v - 3 := by
  rw [maxSz, if_neg (not_outside_versions h1 h40), if_pos rfl]

theorem maxSz_url_too_long (hu : u ≠ 0) (hcap : cap v ≤ u + 5) : maxSz v u = 0 := by
  rw [maxSz, if_neg (not_outside_versions h1 h40), if_neg hu, if_pos hcap]

theorem maxSz_url (hu : u ≠ 0) (hcap : u + 5 < cap v) : maxSz v u = (cap v - u - 5) * 39 / 40 := by
  rw [maxSz, if_neg (not_outside_versions h1 h40), if_neg hu, if_neg (Nat.not_le.mpr hcap)]

/-- Version 1 has the least capacity (R132). -/
theorem nineteen_le_cap : 19 ≤ cap v := by
  obtain ⟨-, -, hg1b, -, hg1s, -⟩ := cat_row_bounds v (by omega) h1
  calc 19 ≤ (cat v).g1s := hg1s
    _ ≤ (cat v).g1b * (cat v).g1s := Nat.le_mul_of_pos_left _ hg1b
    _ ≤ cap v := Nat.le_add_right _ _

end

/-- Settles O60: the four cases of MaxSz, and RESULT holds the value, which is at most the capacity. -/
theorem maxszAnswersTheBudget : Obligations.MaxszAnswersTheBudget := by
  refine fun v s => ⟨decode_encode (.maxsz v), fun hv => ?outside, fun h1 h40 =>
    ⟨fun hu => ⟨_, exec_maxsz v s, ?binaryOnly, rfl⟩, fun hu hcap => ?tooLong, fun hu hcap => ⟨_, exec_maxsz v s, ?url, rfl⟩⟩⟩
  case outside => rw [exec_maxsz, maxSz_outside hv]; rfl
  all_goals have hle := cap_le v.toNat
  case binaryOnly =>
    have hmin := nineteen_le_cap h1 h40
    have hmax : maxSz v.toNat s.urlLen.toNat = cap v.toNat - 3 := by rw [hu]; exact maxSz_no_url h1 h40
    simp only [hmax]
    rw [toNat_ofNat_32 (by omega)]
    omega
  all_goals have hne : s.urlLen.toNat ≠ 0 := fun h => hu (BitVec.eq_of_toNat_eq h)
  case tooLong => rw [exec_maxsz, maxSz_url_too_long h1 h40 hne hcap]; rfl
  case url =>
    simp only [maxSz_url h1 h40 hne hcap]
    exact toNat_ofNat_32 (by omega)

end Sys2Proof.Machine
end

