-- ==== Proofs/FaultsAndPhases.lean ====
section
/-! PROOF. Statements O6, O13, O14 and O15 of the family 60_exceptions: lock-out, what a fault writes, which command can
raise which fault, and the table of phases. -/

namespace Sys2Proof.Machine

variable {s t u : State} {i : Instr} {rest : List HostAction} {w : Word}

/-! ### Lock-out -/

theorem lockedOut_of_fault (h : s.err = true ∨ s.fatal = true) : s.lockedOut = true := by
  rwa [State.lockedOut, Bool.or_eq_true]

/-- Under lock-out a word that may not run is stored and nothing else happens (R297). -/
theorem step_writeCmd_lockedOut (hl : s.lockedOut = true) (h : s.host = .writeReg 0 w :: rest)
    (hw : w ≠ 0x00000001#32 ∨ s.fatal = true) : step s = .next { s with host := rest, cmd := w } := by
  have hno : ¬ (s.fatal = false ∧ w = 0x00000001#32) := fun ⟨hf, hw'⟩ =>
    hw.elim (fun h => h hw') fun h => Bool.false_ne_true (hf.symm.trans h)
  rw [step_of_host h]
  exact (if_pos hl).trans (if_neg hno)

/-- CLEAR runs when the fault held is not fatal (R297). -/
theorem step_writeCmd_clear (hl : s.lockedOut = true) (h : s.host = .writeReg 0 0x00000001#32 :: rest)
    (hf : s.fatal = false) : step s = exec .clear { s with host := rest, cmd := 1 } := by
  rw [step_of_host h]
  exact (if_pos hl).trans (if_pos ⟨hf, rfl⟩)

/-- Settles O6: the two cases of a CMD write under lock-out; the other actions do not look at the flags. -/
theorem lockOutOnlyStoresTheWord : Obligations.LockOutOnlyStoresTheWord := fun _ _ hfault =>
  have hl := lockedOut_of_fault hfault
  ⟨fun _ h hw => step_writeCmd_lockedOut hl h hw, fun h hf => step_writeCmd_clear hl h hf,
    fun _ hn h => step_readReg hn h, fun _ _ _ ha h => step_writeMem ha h, fun _ _ ha h => step_readMem ha h,
    fun _ _ _ hx => State.hostByte_of_read hx⟩

/-! ### Taking a fault -/

/-- CLEAR leaves no fault held where none was. -/
theorem doClear_err (he : s.err = false) (h : doClear s = .ok t) : t.err = false := by
  rw [doClear_ok.mp h]
  split
  · exact he
  · rfl

/-- A command that ends with ERR set where it was 0 has taken a fault in a state with the same host part. -/
theorem exec_faulted (he : s.err = false) (h : exec i s = .next t) (ht : t.err = true) :
    ∃ c u, body i s = .error (.raise c u) ∧ SameHost s u ∧ (i ≠ .generate → u = s) ∧ t = u.takeFault c := by
  rw [exec_eq_finish] at h
  rcases finish_next.mp h with hok | ⟨c, u, hu, rfl⟩
  · have hterr : t.err = false := by
      by_cases hi : i = .clear
      · subst hi
        exact doClear_err he hok
      · exact (body_sameHost hi hok).err.trans he
    exact absurd (hterr.symm.trans ht) Bool.false_ne_true
  · exact ⟨c, u, hu, (body_raise hu).1, (body_raise hu).2, rfl⟩

/-- Settles O13: a body that completes leaves ERR at 0, and taking a fault writes the fault state and RESULT. -/
theorem faultingCommandWritesNothingElse : Obligations.FaultingCommandWritesNothingElse := by
  intro i s t he h ht
  obtain ⟨c, u, -, hhost, hstart, rfl⟩ := exec_faulted he h ht
  exact ⟨c, u, hhost.err.trans he, hhost.fatal, hstart, rfl⟩

/-! ### Which command can raise which fault -/

/-- GENERATE raises one of three faults; MXDATA's INTERNAL is not among them (R234, R273). -/
theorem doGenerate_raises {c : FaultCode} (h : doGenerate s = .error (.raise c u)) :
    c = .bufferTooSmall ∨ c = .inputTooLarge ∨ c = .badDigit := by
  by_cases hmin : s.Minima
  · cases hsel : selectVersion s.segments with
    | none =>
      rw [doGenerate_inputTooLarge hmin hsel] at h
      cases h
      exact .inr (.inl rfl)
    | some v =>
      by_cases hgiven : s.given
      · by_cases hdigits : s.digitsGiven
        · obtain ⟨m, r, out, -, hdo⟩ := doGenerate_completes hmin hsel hgiven hdigits
          cases hdo.symm.trans h
        · obtain ⟨tmp, -, hdo⟩ := doGenerate_badDigit hmin hsel hgiven hdigits
          cases hdo.symm.trans h
          exact .inr (.inr rfl)
      · obtain ⟨f, hdo⟩ := doGenerate_halts hmin hsel hgiven
        cases hdo.symm.trans h
  · rw [doGenerate_bufferTooSmall hmin] at h
    cases h
    exact .inl rfl

theorem body_raise_mem_faultsOf {c : FaultCode} (h : body i s = .error (.raise c u)) : c ∈ faultsOf i := by
  by_cases hgen : i = .generate
  · subst hgen
    rcases doGenerate_raises h with rfl | rfl | rfl <;> decide
  · exact (body_raisesOnly hgen s c u h).2

/-- Settles O14: each body raises faults of its own row only. -/
theorem eachCommandRaisesItsOwnFaults : Obligations.EachCommandRaisesItsOwnFaults := by
  intro i s t c he h ht hc
  obtain ⟨c', u, hu, -, -, rfl⟩ := exec_faulted he h ht
  cases hc
  exact body_raise_mem_faultsOf hu

/-! ### The table of phases -/

/-- A body whose first check is its PHASE requirement raises SEQUENCE when that does not hold (R300). -/
theorem exec_sequence (h : phaseAllows i s.phase = false) : exec i s = .next (s.takeFault .sequence) := by
  have hidle : (s.phase != .idle) = false → ¬ 1 ≤ s.phase.toNat := fun h h1 => Phase.one_le.mp h1 (by simpa using h)
  cases i with
  | clear | generate | maxsz _ | gfmul _ _ | gfdiv _ _ | gfinv _ | gfexp _ | gflog _ | vset _ | vsel | vcap _ | vpar _ =>
    exact absurd h (by simp [phaseAllows])
  | pkinit | rsclr | rsfeed _ | cellclass _ _ => exact finish_require_false (hidle h) _ _ _
  | ilvrd _ => exact finish_require_false (of_decide_eq_false h) _ _ _
  | _ => exact finish_require_false (beq_eq_false_iff_ne.mp h) _ _ _

/-- A GENERATE that completes ends with MASK, in DONE. -/
theorem doGenerate_phase (h : doGenerate s = .ok t) : t.phase = .done := by
  obtain ⟨-, -, -, u, hu, rfl⟩ := doGenerate_ok.mp h
  obtain ⟨_, _, _, _, _, _, _, _, _, _, _, _, _, -, -, -, -, -, -, -, -, -, -, -, -, -, hmask⟩ := doPipeline_ok.mp hu
  obtain ⟨-, -, out, -, rfl⟩ := doMask_ok.mp hmask
  rfl

theorem plotStep_phases {need next : Phase} {plots : List Plot} {n : Nat} (h : plotStep need next plots n s = .ok t) :
    (s.phase == need) = true ∧ t.phase = next := by
  obtain ⟨hp, -, out, -, rfl⟩ := plotStep_ok.mp h
  exact ⟨beq_iff_eq.mpr hp, rfl⟩

/-- A body that completes had its PHASE requirement, and leaves the PHASE of the table (R300). -/
theorem body_phases (hf : s.fatal = false) (h : body i s = .ok t) :
    phaseAllows i s.phase = true ∧ t.phase = phaseAfter i s := by
  have hactive : 1 ≤ s.phase.toNat → (s.phase != .idle) = true := fun h => bne_iff_ne.mpr (Phase.one_le.mp h)
  have hat : ∀ {p : Phase}, s.phase = p → (s.phase == p) = true := fun h => beq_iff_eq.mpr h
  cases i with
  | clear =>
    rw [doClear_ok.mp h, hf]
    exact ⟨rfl, rfl⟩
  | generate => exact ⟨rfl, doGenerate_phase h⟩
  | maxsz _ | gfmul _ _ | gfexp _ =>
    cases h
    exact ⟨rfl, rfl⟩
  | gfdiv _ _ | gfinv _ | gflog _ =>
    obtain ⟨n, -, rfl⟩ := domainResult_ok.mp h
    exact ⟨rfl, rfl⟩
  | vset _ =>
    obtain ⟨-, rfl⟩ := doVset_ok.mp h
    exact ⟨rfl, rfl⟩
  | vsel =>
    obtain ⟨v, -, rfl⟩ := doVsel_ok.mp h
    exact ⟨rfl, rfl⟩
  | vcap _ =>
    obtain ⟨-, rfl⟩ := doVcap_ok.mp h
    exact ⟨rfl, rfl⟩
  | vpar _ =>
    obtain ⟨-, rfl⟩ := doVpar_ok.mp h
    exact ⟨rfl, rfl⟩
  | pkinit =>
    obtain ⟨hp, -, rfl⟩ := doPkinit_ok.mp h
    exact ⟨hactive hp, rfl⟩
  | pkbin _ =>
    obtain ⟨hp, -, -, -, _, -, bs, -, rfl⟩ := doPkbin_ok.mp h
    exact ⟨hat hp, hp⟩
  | pknum _ =>
    obtain ⟨hp, -, -, -, _, -, -, bs, -, rfl⟩ := doPknum_ok.mp h
    exact ⟨hat hp, hp⟩
  | pkterm =>
    obtain ⟨hp, -, bs, -, rfl⟩ := doPkterm_ok.mp h
    exact ⟨hat hp, rfl⟩
  | rsclr =>
    obtain ⟨hp, rfl⟩ := doRsclr_ok.mp h
    exact ⟨hactive hp, rfl⟩
  | rsfeed _ =>
    obtain ⟨hp, rfl⟩ := doRsfeed_ok.mp h
    exact ⟨hactive hp, State.withResult_phase _ _⟩
  | rsblk _ =>
    obtain ⟨hp, -, -, -, r, -, rfl⟩ := doRsblk_ok.mp h
    refine ⟨hat hp, ?_⟩
    rw [State.withResult_phase, hp]
    rfl
  | rsall =>
    obtain ⟨hp, -, r, -, rfl⟩ := doRsall_ok.mp h
    exact ⟨hat hp, rfl⟩
  | mxinit =>
    obtain ⟨hp, -, rfl⟩ := doMxinit_ok.mp h
    exact ⟨hat hp, rfl⟩
  | mxfind | mxtime | mxalign | mxrsvd | mxfmt | mxver => exact plotStep_phases h
  | mxdata =>
    obtain ⟨hp, -, -, -, _, -, out, -, rfl⟩ := doMxdata_ok.mp h
    exact ⟨hat hp, rfl⟩
  | ilvrd _ =>
    obtain ⟨hp, -, -, x, -, rfl⟩ := doIlvrd_ok.mp h
    exact ⟨decide_eq_true hp, rfl⟩
  | cellclass _ _ =>
    obtain ⟨hp, -, rfl⟩ := doCellclass_ok.mp h
    exact ⟨hactive hp, rfl⟩
  | mask =>
    obtain ⟨hp, -, out, -, rfl⟩ := doMask_ok.mp h
    exact ⟨hat hp, rfl⟩

/-- Settles O15: the requirement is the first check of each body, and a command that ends without a fault has completed its
body. -/
theorem phaseTable : Obligations.PhaseTable :=
  fun _ _ _ hf => ⟨exec_sequence, fun _ h he => body_phases hf (body_ok_of_exec h he)⟩

end Sys2Proof.Machine
end


-- ==== Proofs/EveryActionAnswers.lean ====
section
/-! PROOF. Statement O22 of the family 70_reset_and_hazards: from a state that meets the invariant no body reads a byte that
has no value, when the host has given the source bytes; so every legal action of the host has a next state. -/

namespace Sys2Proof.Machine

/-! ### Bodies that read no byte without a value -/

/-- The body does not stop at a byte that has no value: it completes or raises a fault. -/
def Attempt.Answers (a : Attempt) : Prop :=
  ∀ f, a ≠ .error (.halt f)

theorem answers_ok (s : State) : Attempt.Answers (.ok s) :=
  fun _ h => nomatch h

theorem answers_raise (c : FaultCode) (s : State) : Attempt.Answers (.error (.raise c s)) :=
  fun _ h => nomatch h

theorem answers_require {p : Prop} [Decidable p] {c : FaultCode} {s : State} {k : Unit → Attempt}
    (hk : p → (k ()).Answers) : Attempt.Answers (require p c s >>= k) := by
  intro f hf
  obtain ⟨hp, hf⟩ := require_bind_halt.mp hf
  exact hk hp f hf

theorem answers_orHalt {α : Type} {e : Except Fault α} {k : α → Attempt} (he : ∃ x, e = .ok x)
    (hk : ∀ x, (k x).Answers) : Attempt.Answers (orHalt e >>= k) := by
  obtain ⟨x, rfl⟩ := he
  exact hk x

theorem Attempt.Answers.finish_next {a : Attempt} (h : a.Answers) : ∃ t, finish a = .next t := by
  rcases a with (⟨c, s⟩ | f) | s
  · exact ⟨_, finish_raise c s⟩
  · exact absurd rfl (h f)
  · exact ⟨_, finish_ok s⟩

variable {s : State}

theorem domainResult_answers (r : Option Nat) (s : State) : (domainResult r s).Answers := by
  cases r with
  | none => exact answers_raise _ _
  | some n => exact answers_ok _

theorem doVsel_answers (s : State) : (doVsel s).Answers := by
  unfold doVsel
  split
  · exact answers_raise _ _
  · exact answers_ok _

theorem doClear_answers (s : State) : (doClear s).Answers := by
  unfold doClear
  split <;> exact answers_ok _

/-! ### The packer -/

/-- In PACKING a byte of TMP that was begun has a value, so bits can be appended (R66). -/
theorem State.WorkInv.pushBits_ok (h : s.WorkInv) (hp : s.phase = .packing) (bits : List Bool) :
    ∃ bs, pushBits s.stream bits = .ok bs := by
  obtain ⟨-, -, -, hw⟩ := (workInv_packing hp).mp h
  exact Machine.pushBits_ok bits fun hbegun => hw _ (by
    simp only [State.stream] at hbegun ⊢
    omega)

theorem State.sourcesGiven.sourceBytes_ok (h : s.sourcesGiven) (src : Byte) : ∃ bytes, s.sourceBytes src = .ok bytes := by
  obtain ⟨hurl, hdata⟩ := h
  refine ⟨_, Memory.fetchAll_ok fun a ha => ?_⟩
  rw [List.mem_range, State.sourceLen] at ha
  unfold sourceSpace
  split at ha
  next hsrc => rw [if_pos hsrc]; exact hurl a ha
  next hsrc => rw [if_neg hsrc]; exact hdata a ha

theorem doPkbin_answers (h : s.WorkInv) (hsrc : s.sourcesGiven) (src : Byte) : (doPkbin src s).Answers :=
  answers_require fun hp => answers_require fun _ => answers_require fun _ => answers_require fun _ =>
    answers_orHalt (hsrc.sourceBytes_ok src) fun _ => answers_orHalt (h.pushBits_ok hp _) fun _ => answers_ok _

theorem doPknum_answers (h : s.WorkInv) (hsrc : s.sourcesGiven) (src : Byte) : (doPknum src s).Answers :=
  answers_require fun hp => answers_require fun _ => answers_require fun _ => answers_require fun _ =>
    answers_orHalt (hsrc.sourceBytes_ok src) fun _ => answers_require fun _ =>
      answers_orHalt (h.pushBits_ok hp _) fun _ => answers_ok _

theorem doPkterm_answers (h : s.WorkInv) : (doPkterm s).Answers :=
  answers_require fun hp => answers_require fun _ => answers_orHalt (h.pushBits_ok hp _) fun _ => answers_ok _

/-! ### Reed-Solomon -/

theorem State.WorkInv.written_cap (h : s.WorkInv) (hp : s.phase = .packed) : s.tmp.written (cap s.v) := by
  obtain ⟨-, -, -, -, hw⟩ := (workInv_packed hp).mp h
  exact fun a ha => hw a (by omega)

theorem doRsblk_answers (h : s.WorkInv) (b : Byte) : (doRsblk b s).Answers :=
  answers_require fun hp => answers_require fun hb => answers_require fun _ => answers_require fun _ =>
    answers_orHalt (encodeBlock_ok hb (h.written_cap hp)) fun _ => answers_ok _

theorem doRsall_answers (h : s.WorkInv) : (doRsall s).Answers := by
  refine answers_require fun hp => answers_require fun _ => answers_orHalt ?_ fun _ => answers_ok _
  refine encodeBlocks_ok (fun b hb => ?_) _ (h.written_cap hp)
  rw [List.mem_range'_1] at hb
  omega

/-! ### The matrix -/

theorem State.WorkInv.written_tot (h : s.WorkInv) (h4 : 4 ≤ s.phase.toNat) : s.tmp.written (tot s.v) := by
  obtain ⟨-, -, -, -, hw, -⟩ := (workInv_coded rfl h4).mp h
  exact hw

theorem State.WorkInv.written_img (h : s.WorkInv) (h5 : 5 ≤ s.phase.toNat) : s.out.written (img s.v) := by
  obtain ⟨-, -, -, -, -, hw⟩ := (workInv_coded rfl (Nat.le_of_succ_le h5)).mp h
  exact hw h5

theorem plotStep_answers {need : Phase} {plots : List Plot} (h : s.WorkInv) (hneed : 5 ≤ need.toNat) (next : Phase)
    (n : Nat) (hgrid : ∀ p ∈ plots, p.r < width s.v ∧ p.c < width s.v) : (plotStep need next plots n s).Answers :=
  answers_require fun hp => answers_require fun _ =>
    answers_orHalt (plotAll_ok_of_written (h.written_img (hp ▸ hneed)) hgrid) fun _ => answers_ok _

theorem doMxdata_answers (h : s.WorkInv) : (doMxdata s).Answers := by
  refine answers_require fun hp => answers_require fun _ => answers_require fun _ => answers_require fun _ => ?_
  exact answers_orHalt (streamBytes_ok (h.written_tot (by rw [hp]; decide))) fun _ =>
    answers_orHalt (plotAll_ok_of_written (h.written_img (by rw [hp]; decide)) fun _ => dataPlots_range) fun _ =>
      answers_ok _

theorem doIlvrd_answers (h : s.WorkInv) (i : BitVec 16) : (doIlvrd i s).Answers := by
  refine answers_require fun h4 => answers_require fun hi => answers_require fun _ =>
    answers_orHalt ?_ fun _ => answers_ok _
  obtain ⟨x, hx⟩ := Option.isSome_iff_exists.mp (h.written_tot h4 _ (streamIndex_lt hi))
  exact ⟨x, Memory.fetch_ok.mpr hx⟩

theorem doMask_answers (h : s.WorkInv) : (doMask s).Answers :=
  answers_require fun hp => answers_require fun _ =>
    answers_orHalt (flipAll_maskedCells_ok_of_written (h.written_img (by rw [hp]; decide))) fun _ => answers_ok _

/-! ### Every command -/

/-- GENERATE stops at no byte when its sources are given, whatever was held before. -/
theorem doGenerate_answers (hgiven : s.given) : (doGenerate s).Answers := by
  by_cases hmin : s.Minima
  · cases hsel : selectVersion s.segments with
    | none =>
      rw [doGenerate_inputTooLarge hmin hsel]
      exact answers_raise _ _
    | some v =>
      by_cases hdigits : s.digitsGiven
      · obtain ⟨m, r, out, -, hdo⟩ := doGenerate_completes hmin hsel hgiven hdigits
        rw [hdo]
        exact answers_ok _
      · obtain ⟨tmp, -, hdo⟩ := doGenerate_badDigit hmin hsel hgiven hdigits
        rw [hdo]
        exact answers_raise _ _
  · rw [doGenerate_bufferTooSmall hmin]
    exact answers_raise _ _

theorem State.sourcesGiven.given (h : s.sourcesGiven) : s.given :=
  ⟨h.2, fun _ => h.1⟩

/-- The commands that read the source memories. -/
def isSourceReader : Instr → Bool
  | .generate | .pkbin _ | .pknum _ => true
  | _ => false

theorem body_answers {i : Instr} (h : s.WorkInv) (hsrc : isSourceReader i = true → s.sourcesGiven) :
    (body i s).Answers := by
  cases i with
  | clear => exact doClear_answers s
  | generate => exact doGenerate_answers (hsrc rfl).given
  | maxsz _ | gfmul _ _ | gfexp _ => exact answers_ok _
  | gfdiv _ _ | gfinv _ | gflog _ => exact domainResult_answers _ _
  | vset _ | vcap _ | vpar _ | rsclr | rsfeed _ => exact answers_require fun _ => answers_ok _
  | vsel => exact doVsel_answers s
  | pkinit | mxinit | cellclass _ _ => exact answers_require fun _ => answers_require fun _ => answers_ok _
  | pkbin src => exact doPkbin_answers h (hsrc rfl) src
  | pknum src => exact doPknum_answers h (hsrc rfl) src
  | pkterm => exact doPkterm_answers h
  | rsblk b => exact doRsblk_answers h b
  | rsall => exact doRsall_answers h
  | mxfind => exact plotStep_answers h (by decide) _ _ fun _ => allFinderPlots_range
  | mxtime => exact plotStep_answers h (by decide) _ _ fun _ => timingPlots_range
  | mxalign => exact plotStep_answers h (by decide) _ _ fun _ => allAlignmentPlots_range
  | mxrsvd => exact plotStep_answers h (by decide) _ _ fun _ => reservedPlots_range
  | mxdata => exact doMxdata_answers h
  | mxfmt => exact plotStep_answers h (by decide) _ _ fun _ => formatPlots_range
  | mxver => exact plotStep_answers h (by decide) _ _ fun _ => versionPlots_range
  | ilvrd i => exact doIlvrd_answers h i
  | mask => exact doMask_answers h

theorem exec_answers {i : Instr} (h : s.WorkInv) (hsrc : isSourceReader i = true → s.sourcesGiven) :
    ∃ t, exec i s = .next t := by
  rw [exec_eq_finish]
  exact (body_answers h hsrc).finish_next

/-! ### Every action -/

theorem readsSource_of_decode {w : Word} {i : Instr} (hd : decode w = .ok i) : readsSource w = isSourceReader i := by
  rw [readsSource, hd]
  cases i <;> rfl

/-- A write of CMD has an outcome: the word is only stored, is illegal, or runs a command. -/
theorem step_writeCmd_answers {rest : List HostAction} {w : Word} (h : s.WorkInv) (hhost : s.host = .writeReg 0 w :: rest)
    (hsrc : readsSource w = true → s.sourcesGiven) : ∃ t, step s = .next t := by
  by_cases hl : s.lockedOut = true
  · by_cases hrun : w = 0x00000001#32 ∧ s.fatal = false
    · obtain ⟨rfl, hf⟩ := hrun
      rw [step_writeCmd_clear hl hhost hf]
      exact exec_answers h fun hclear => nomatch hclear
    · refine ⟨_, step_writeCmd_lockedOut hl hhost ?_⟩
      rwa [not_and_or, Bool.not_eq_false] at hrun
  · obtain ⟨he, hf⟩ : s.err = false ∧ s.fatal = false := by simpa [State.lockedOut] using hl
    cases hd : decode w with
    | error e => exact ⟨_, step_writeCmd_illegal he hf hd hhost⟩
    | ok i =>
      rw [step_writeCmd he hf hd hhost]
      exact exec_answers h fun hi => hsrc ((readsSource_of_decode hd).trans hi)

/-- Settles O22: a CMD write runs a body that reads only bytes that have values; the other actions have one outcome. -/
theorem everyActionHasAnOutcome : Obligations.EveryActionHasAnOutcome := by
  intro s act rest hinv hhost hlegal hsrc
  have hw := (State.inv_iff.mp hinv).2
  cases act with
  | writeReg n w =>
    by_cases hn : n = 0
    · subst hn
      exact step_writeCmd_answers hw hhost (hsrc w rfl)
    · exact ⟨_, step_writeReg hn hlegal hhost⟩
  | readReg n =>
    obtain ⟨_, -, hstep⟩ := step_readReg hlegal hhost
    exact ⟨_, hstep⟩
  | writeMem sp a b => exact ⟨_, step_writeMem hlegal hhost⟩
  | readMem sp a => exact ⟨_, step_readMem hlegal hhost⟩
  | hardReset => exact ⟨_, step_hardReset hhost⟩

end Sys2Proof.Machine
end
